-- ==== Sys2Proof/Word.lean ====
section
/-! DEFINITION. The words of the part: bytes, trunk and device addresses, and the numbers of its
repeated parts (spec/00_scope.md, sections 4.3 to 4.5). -/

namespace Sys2Proof

/-- One byte of a trunk frame or of a line telegram. -/
abbrev Byte := BitVec 8

/-- A 12-bit address, 0 to 4095 (spec/00_scope.md, section 4.4). -/
abbrev Addr := BitVec 12

/-- A segment number, S0 to S3. -/
abbrev Seg := Fin 4

/-- A slot number of the Telegram Buffer, 0 to 255. -/
abbrev SlotNo := Fin 256

/-- A class number, and the index of a Class Policy Table entry. -/
abbrev ClassNo := Fin 16

/-- A window number, W0 to W31. -/
abbrev WindowNo := Fin 32

/-- The index of a Route Table entry. -/
abbrev RouteNo := Fin 64

/-- An intake number: 32 bits, wrapping from the top to 0 (spec/00_scope.md, section 4.5). -/
abbrev Intake := BitVec 32

end Sys2Proof
end

