-- ==== Sys2Proof/Syntax.lean ====
section
/-! DEFINITION. The commands the part takes: one constructor of `Instr` for each row of
spec/opcode_table.json, with the operands of that operation or event. -/

namespace Sys2Proof

/-- A COMMAND telegram as the Trunk Port hands it to the Admission Unit (R17). -/
structure CommandTelegram where
  source : Addr
  seq : Byte
  cls : ClassNo
  destination : Addr
  payload : List Byte
  deriving DecidableEq, Repr

/-- A MGMT_REQUEST telegram whose request code is the one of its row: its source, its sequence
number and the bytes of its parameter block (R129, R162). -/
structure Request where
  source : Addr
  seq : Byte
  params : List Byte
  deriving DecidableEq, Repr

/-- What stands on the two wires of a segment line (R90). A carrier is given by its period, in
nanoseconds. -/
inductive Wire where
  | undriven
  | steady
  | carrier (periodNs : Nat)
  deriving DecidableEq, Repr

/-- One condition of the line during a reception, with its measured duration in microseconds
(R98). -/
structure LineSpan where
  wire : Wire
  micros : Nat
  deriving DecidableEq, Repr

/-- What a segment's line has held in turn from the entry into RECEIVING on (R98, R99). -/
structure LineRecord where
  segment : Seg
  spans : List LineSpan
  deriving DecidableEq, Repr

/-- The levels of the strap pins ADR0-ADR3 and RATE0-RATE2 (R156). -/
structure StrapPins where
  adr : BitVec 4
  rate : BitVec 3
  deriving DecidableEq, Repr

/-- The commands of spec/opcode_table.json. -/
inductive Instr where
  /-- ADMISSION (R17): a complete COMMAND telegram that has passed its frame checks. -/
  | admission (telegram : CommandTelegram)
  /-- TRUNK_FRAME_DISCARDED (R158): a completed frame, from its length byte to its second CRC byte. -/
  | trunkFrameDiscarded (frame : List Byte)
  /-- GAP_TIMEOUT (R157). -/
  | gapTimeout
  /-- BYTE_FRAMING_ERROR (R157). -/
  | byteFramingError
  /-- UNKNOWN_REQUEST (R130): the whole payload, empty or opening with an unknown request code. -/
  | unknownRequest (source : Addr) (seq : Byte) (payload : List Byte)
  /-- READ_STATUS (R135). -/
  | readStatus (request : Request)
  /-- READ_CLOCK (R39). -/
  | readClock (request : Request)
  /-- SET_CLOCK (R40). -/
  | setClock (request : Request)
  /-- ADJUST_CLOCK (R41). -/
  | adjustClock (request : Request)
  /-- READ_ENTRY (R145). -/
  | readEntry (request : Request)
  /-- WRITE_ENTRY (R146). -/
  | writeEntry (request : Request)
  /-- COPY_ACTIVE (R147). -/
  | copyActive (request : Request)
  /-- DISCARD_STAGING (R147). -/
  | discardStaging (request : Request)
  /-- COMMIT (R148). -/
  | commit (request : Request)
  /-- COMMIT_END (R150, R151): the validation's end instant is reached. -/
  | commitEnd
  /-- SET_PROFILE (R91). -/
  | setProfile (request : Request)
  /-- READ_PROFILE (R91). -/
  | readProfile (request : Request)
  /-- SET_PACING (R56). -/
  | setPacing (request : Request)
  /-- HOLD_SEGMENT (R81). -/
  | holdSegment (request : Request)
  /-- RESUME_SEGMENT (R82). -/
  | resumeSegment (request : Request)
  /-- PURGE (R138). -/
  | purge (request : Request)
  /-- READ_QUEUE (R137). -/
  | readQueue (request : Request)
  /-- READ_COUNTERS (R142). -/
  | readCounters (request : Request)
  /-- SET_NOTICE_ADDRESS (R134). -/
  | setNoticeAddress (request : Request)
  /-- SET_MANAGERS (R134). -/
  | setManagers (request : Request)
  /-- FLUSH (R139). -/
  | flush (request : Request)
  /-- RESTART (R140). -/
  | restart (request : Request)
  /-- SECOND_EDGE (R36). -/
  | secondEdge
  /-- EXPIRY_CHECK (R62) of one segment's Release Unit. -/
  | expiryCheck (segment : Seg)
  /-- EXAMINATION (R57) by one segment's Release Unit. -/
  | examination (segment : Seg)
  /-- PACER_GAP_END (R60): the end instant of the segment's pacing gap is reached. -/
  | pacerGapEnd (segment : Seg)
  /-- START_WALK (R76) by one segment's Segment Scheduler. -/
  | startWalk (segment : Seg)
  /-- CONFLICT_ABORT (R95): the sample at the end of the numbered unit of the telegram keyed (1 is
  the first unit of the leader mark) finds this on the wires. -/
  | conflictAbort (segment : Seg) (sampleUnit : Nat) (sensed : Wire)
  /-- TRANSMISSION_END (R96): the trailer's unit has been keyed and its sample has matched. -/
  | transmissionEnd (segment : Seg)
  /-- QUIET_GAP_END (R97): the end instant of the segment's quiet gap is reached. -/
  | quietGapEnd (segment : Seg)
  /-- LINE_ACTIVITY (R98): what another party begins to key. -/
  | lineActivity (segment : Seg) (sensed : Wire)
  /-- STUCK_LINE (R99): the conditions the line has held in turn from the entry into RECEIVING on, with
  their durations; the last, a condition other than IDLE, has lasted for 1 s or more. -/
  | stuckLine (record : LineRecord)
  /-- RECEPTION_END (R100): the line has returned idle; the conditions it held in turn from the
  entry into RECEIVING on, with their durations. -/
  | receptionEnd (segment : Seg) (line : List LineSpan)
  /-- ANSWER_TIMER_EXPIRY (R108): the timer of the outstanding entry with this tag runs out. -/
  | answerTimerExpiry (segment : Seg) (tag : Byte)
  /-- REPORT_FORMATION (R119). -/
  | reportFormation
  /-- ARBITER_TAKE (R125). -/
  | arbiterTake
  /-- TRUNK_TRANSMISSION_END (R126), with the levels of the strap pins at that instant, which a
  RESTART latches. -/
  | trunkTransmissionEnd (pins : StrapPins)
  /-- SUPPLY_FALL (R164). -/
  | supplyFall
  /-- POWER_ON_HOLD_END (R164), with the levels of the strap pins at that instant. -/
  | powerOnHoldEnd (pins : StrapPins)
  /-- RST_N_LOW (R164). -/
  | rstNLow
  /-- RST_N_HIGH (R164), with the levels of the strap pins at that instant. -/
  | rstNHigh (pins : StrapPins)
  /-- BYTE_RECEIVED (R157). -/
  | byteReceived (byte : Byte)
  /-- SUPPLY_RISE (R164). -/
  | supplyRise
  deriving DecidableEq, Repr

end Sys2Proof
end

