-- ==== Sys2Proof/Config.lean ====
section
/-! DEFINITION. What the part fixes: its code numbers, the sizes of its queues, its thresholds, and
the unit of time in which the model holds instants. -/

namespace Sys2Proof.Config

/-- Part code carried by READ_STATUS and by the STARTED notice (R161). -/
def partCode : Nat := 0x3C64

/-- Revision number carried beside the part code (R161). -/
def revision : Nat := 2

/-- The trunk address of a part whose ADR straps read 0 (R156). -/
def ownAddressBase : Nat := 4080

/-- Places of the Report Queue (R121). -/
def reportQueueSize : Nat := 16

/-- Places of the Notice Queue (R123). -/
def noticeQueueSize : Nat := 4

/-- Places of the Response Queue (R124). -/
def responseQueueSize : Nat := 4

/-- A Send Queue takes fresh entries only below this length (R73). -/
def sendQueueLimit : Nat := 16

/-- Entries of an Outstanding List (R104). -/
def outstandingSize : Nat := 4

/-- Entries of a Retired Ring (R105). -/
def ringSize : Nat := 8

/-- Slots of the Telegram Buffer. -/
def storeSize : Nat := 256

/-- The in-use count at which STORE_HIGH becomes true (R13). -/
def storeHighLevel : Nat := 224

/-- The in-use count at or below which STORE_HIGH becomes false (R14). -/
def storeClearLevel : Nat := 192

/-- Conflicts in a row that hold a segment (R83). -/
def conflictLimit : Nat := 8

/-- Longest payload of a COMMAND telegram (R17). -/
def maxPayload : Nat := 48

/-- Addresses of a full manager list (R129). -/
def maxManagers : Nat := 4

/-- The value at which every counter and the uptime stop: 2^32 - 1. -/
def saturation : Nat := 4294967295

/-- The value at which deferred-seconds stop (R6). -/
def maxDeferredSeconds : Nat := 65535

/-- One microsecond in the model's unit of time, 1/288 of a microsecond: the coarsest unit in which
the second, the millisecond, the microsecond and the bit-time of every trunk rate of R156 are whole
numbers. -/
def microsecond : Nat := 288

/-- One millisecond in the model's unit of time. -/
def millisecond : Nat := 288000

/-- One second in the model's unit of time. -/
def second : Nat := 288000000

/-- One bit-time of the trunk at each RATE strap value, in the model's unit of time (R156:
4800, 9600, 19200, 38400, 57600, 115200, 230400 and 460800 bit/s). -/
def bitTime (rate : BitVec 3) : Nat :=
  match rate.toNat with
  | 0 => 60000
  | 1 => 30000
  | 2 => 15000
  | 3 => 7500
  | 4 => 5000
  | 5 => 2500
  | 6 => 1250
  | _ => 625

end Sys2Proof.Config
end

