-- ==== Sys2Proof/Machine/State.lean ====
section
/-! DEFINITION. Everything the part holds, as plain data, block by block (spec/00_scope.md, section
2.2), and the part right after a reset. Instants are counted in `Config.microsecond` units from the
last reset. -/

namespace Sys2Proof.Machine

/-! ### The slot record (chapter 1) -/

/-- Why a slot is deferred (R6). -/
inductive DeferralReason where
  | window
  | space
  | order
  deriving DecidableEq, Repr

/-- The two fields a slot holds exactly while it is DEFERRED (R4). -/
structure Deferral where
  reason : DeferralReason
  since : Nat
  deriving DecidableEq, Repr

/-- The outcomes a report can carry (R117). A slot takes one of the first nine, DISPLACED apart. -/
inductive ReportOutcome where
  | answered
  | answeredLate
  | sent
  | noAnswer
  | lineFailed
  | expired
  | displaced
  | purged
  | withdrawn
  | refusedDuplicate
  | refusedNoRoute
  | refusedNoPolicy
  | refusedClosed
  | refusedSegmentFull
  | refusedStoreFull
  | deferred
  deriving DecidableEq, Repr

/-- The device status byte and the data bytes of an answer (R4, R102). -/
structure AnswerPart where
  status : Byte
  data : List Byte
  deriving DecidableEq, Repr

/-- The record of a slot in use: the fixed group (R1), the policy snapshot (R2), and the progress,
line and result fields (R4). -/
structure Slot where
  intake : Intake
  source : Addr
  seq : Byte
  cls : ClassNo
  device : Addr
  payload : List Byte
  segment : Seg
  admittedAt : Nat
  priority : Fin 4
  answerExpected : Bool
  retryLimit : Fin 8
  answerTimeoutMs : Nat
  notifyOnDefer : Bool
  holdDeadline : Nat
  attempts : Nat
  deferredSeconds : Nat
  deferral : Option Deferral
  lineTag : Option Byte
  outcome : Option ReportOutcome
  answer : Option AnswerPart
  deriving DecidableEq, Repr

/-- The Telegram Buffer. A slot is FREE when its place holds no record; the free list and the in-use
count are read off the places. -/
structure Buffer where
  slots : Vector (Option Slot) 256
  intakeCounter : Intake
  storeHigh : Bool
  deriving DecidableEq, Repr

/-! ### Calendar clock and windows (chapter 3) -/

/-- A date; the year is 0 to 99, for 2000 to 2099. The weekday is derived (R38). -/
structure Date where
  year : Nat
  month : Nat
  day : Nat
  deriving DecidableEq, Repr

/-- A time of day. -/
structure TimeOfDay where
  hour : Nat
  minute : Nat
  second : Nat
  deriving DecidableEq, Repr

/-- The calendar record (R35). -/
structure Calendar where
  date : Date
  time : TimeOfDay
  deriving DecidableEq, Repr

/-- The Calendar Clock: its record, absent while the clock is UNSET, the uptime, and the instant of
the next second edge. -/
structure Clock where
  record : Option Calendar
  uptime : Nat
  nextEdge : Nat
  deriving DecidableEq, Repr

/-! ### Tables (chapter 10) -/

/-- A defined Route Table entry (R144). -/
structure Route where
  first : Addr
  last : Addr
  segment : Seg
  deriving DecidableEq, Repr

/-- A defined Class Policy Table entry (R144). The answer timeout is in units of 10 ms. -/
structure ClassPolicy where
  windows : List WindowNo
  holdLimit : Nat
  priority : Fin 4
  answerExpected : Bool
  retryLimit : Fin 8
  answerTimeout : Nat
  notifyOnDefer : Bool
  deriving DecidableEq, Repr

/-- A defined Window Table entry (R144); bit d of the day mask stands for weekday d. -/
structure Window where
  dayMask : BitVec 7
  start : TimeOfDay
  stop : TimeOfDay
  deriving DecidableEq, Repr

/-- One image of the three tables. -/
structure Tables where
  routes : Vector (Option Route) 64
  classes : Vector (Option ClassPolicy) 16
  windows : Vector (Option Window) 32
  deriving DecidableEq, Repr

/-- The Table Bank. -/
structure TableBank where
  active : Tables
  staging : Tables
  generation : BitVec 16
  deriving DecidableEq, Repr

/-- The three tables. -/
inductive TableName where
  | route
  | cls
  | window
  deriving DecidableEq, Repr

/-- The failures a validation can find (R149). -/
inductive CommitReason where
  | emptyDayMask
  | duplicateWindow
  | undefinedWindow
  | addressOutOfRange
  | rangeReversed
  | rangeOverlap
  deriving DecidableEq, Repr

/-- What a validation reports first: table, index and reason. -/
structure CommitFailure where
  table : TableName
  index : Nat
  reason : CommitReason
  deriving DecidableEq, Repr

/-! ### Management Agent (chapter 9) -/

/-- The commit state; while VALIDATING, the instant at which the validation ends and the source and
sequence number of the COMMIT, to which its response goes (R131, R148). -/
inductive CommitState where
  | idle
  | validating (endsAt : Nat) (source : Addr) (seq : Byte)
  deriving DecidableEq, Repr

/-- The last commit result (R129). -/
inductive CommitResult where
  | none
  | ok
  | failed (failure : CommitFailure)
  deriving DecidableEq, Repr

/-- The causes of a reset (spec/00_scope.md, section 4.8). -/
inductive StartCause where
  | powerOn
  | resetLine
  | restart
  deriving DecidableEq, Repr

/-- The state of the Management Agent (R129). -/
structure Agent where
  managers : List Addr
  noticeAddress : Addr
  commit : CommitState
  lastCommit : CommitResult
  restartPending : Bool
  startCause : StartCause
  deriving DecidableEq, Repr

/-! ### Reports, notices and responses (chapter 8) -/

/-- The next opening of a class as a report carries it (R50, R116). -/
inductive NextOpening where
  | unknown
  | on (daysAhead : Nat) (weekday : Nat) (time : TimeOfDay)
  deriving DecidableEq, Repr

/-- A report record with the destination and sequence of its telegram (R116, R117). -/
structure Report where
  destination : Addr
  seq : Byte
  cls : ClassNo
  outcome : ReportOutcome
  segment : Option Seg
  attempts : Nat
  deferredSeconds : Nat
  stamp : Nat
  intake : Option Intake
  answer : Option AnswerPart
  nextOpening : Option NextOpening
  deriving DecidableEq, Repr

/-- The faults a LINE_FAULT notice names (R122). -/
inductive LineFault where
  | conflicts
  | stuckLine
  deriving DecidableEq, Repr

/-- The kinds of notice with their fields (R122). -/
inductive NoticeKind where
  | started (cause : StartCause) (ownAddress : Addr)
  | storeHigh (inUse : Nat)
  | storeClear (inUse : Nat)
  | lineFault (segment : Seg) (fault : LineFault)
  deriving DecidableEq, Repr

/-- A notice with the destination it was given when it was queued (R122). -/
structure Notice where
  destination : Addr
  kind : NoticeKind
  deriving DecidableEq, Repr

/-- The statuses of a management response (R161). -/
inductive Status where
  | ok
  | busy
  | denied
  | badRequest
  | badIndex
  | badValue
  | clockUnset
  | commitFailed
  deriving DecidableEq, Repr

/-- A management response (R124). -/
structure Response where
  destination : Addr
  seq : Byte
  code : Byte
  status : Status
  result : List Byte
  deriving DecidableEq, Repr

/-- The Report Unit: the Report Backlog and the three queues, each oldest first. -/
structure ReportUnit where
  backlog : List SlotNo
  reportQueue : List Report
  noticeQueue : List Notice
  responseQueue : List Response
  deriving DecidableEq, Repr

/-! ### Trunk Port (chapter 11) -/

/-- The frame assembler (R157). In BODY and CRC it holds the length byte and the bytes stored. -/
inductive Assembler where
  | hunt
  | length
  | body (len : Byte) (stored : List Byte)
  | crc (len : Byte) (body : List Byte) (first : Option Byte)
  deriving DecidableEq, Repr

/-- An entry the arbiter takes from one of the three queues (R125). -/
inductive Outgoing where
  | response (r : Response)
  | notice (n : Notice)
  | report (r : Report)
  deriving DecidableEq, Repr

/-- The trunk transmitter (R125, R159): what it sends, the bytes on TTX, and the instant at which
the last stop bit ends. -/
inductive Transmitter where
  | idle
  | sending (entry : Outgoing) (frame : List Byte) (endsAt : Nat)
  deriving DecidableEq, Repr

/-- The Trunk Port. -/
structure TrunkPort where
  assembler : Assembler
  transmitter : Transmitter
  deriving DecidableEq, Repr

/-! ### The segment chain (chapters 4 to 7) -/

/-- The Release Pacer (R55). -/
inductive Pacer where
  | idle
  | gap (endsAt : Nat)
  deriving DecidableEq, Repr

/-- Why a segment is HELD (R80). -/
inductive HoldReason where
  | start
  | byRequest
  | lineFault
  deriving DecidableEq, Repr

/-- The segment state (R80). -/
inductive SegmentState where
  | active
  | held (reason : HoldReason)
  deriving DecidableEq, Repr

/-- How marks and spaces are put on the wires (R90). -/
inductive LineMode where
  | baseband
  | carrier
  | shift
  deriving DecidableEq, Repr

/-- A line profile (R89): U, P1 and P2 in microseconds, pulse lengths in multiples of U, the quiet
gap in milliseconds. -/
structure Profile where
  mode : LineMode
  unitTime : Nat
  leaderMark : Nat
  leaderSpace : Nat
  zeroMark : Nat
  oneMark : Nat
  bitSpace : Nat
  p1 : Nat
  p2 : Nat
  quietGap : Nat
  deriving DecidableEq, Repr

/-- A transmission on a segment line: the slot in SENDING, its tag, the bytes of the line telegram
and the instant of the start (R78, R94). -/
structure Transmission where
  slot : SlotNo
  tag : Byte
  telegram : List Byte
  startedAt : Nat
  deriving DecidableEq, Repr

/-- A reception: the instant RECEIVING was entered; whether the frame has been found bad before its
end, by a first condition of SPACE or by a stuck line (R98, R99); and the instant at which the
condition last reported as a stuck line began, since each is reported once (R99). -/
structure Reception where
  since : Nat
  bad : Bool
  stuck : Option Nat
  deriving DecidableEq, Repr

/-- The transceiver states (spec/06_line_transceivers.md, section 6.3). -/
inductive Transceiver where
  | idle
  | sending (tx : Transmission)
  | quiet (endsAt : Nat)
  | receiving (rx : Reception)
  deriving DecidableEq, Repr

/-- An entry of the Outstanding List (R104). -/
structure Outstanding where
  tag : Byte
  device : Addr
  slot : SlotNo
  expiry : Nat
  deriving DecidableEq, Repr

/-- Why an entry left the Outstanding List (R105). -/
inductive RetireReason where
  | timedOut
  | answered
  deriving DecidableEq, Repr

/-- An entry of the Retired Ring (R105). -/
structure Retired where
  tag : Byte
  device : Addr
  slot : SlotNo
  intake : Intake
  reason : RetireReason
  deriving DecidableEq, Repr

/-- What the four blocks of one segment chain hold. Queues, list and ring are kept front or oldest
first. -/
structure Segment where
  deferralQueue : List SlotNo
  pacer : Pacer
  pacingGapMs : Nat
  sendQueue : List SlotNo
  state : SegmentState
  tagCounter : Byte
  conflictStreak : Nat
  profile : Profile
  pendingProfile : Option Profile
  transceiver : Transceiver
  outstanding : List Outstanding
  ring : List Retired
  deriving DecidableEq, Repr

/-! ### Pins and the reset hold (R156, R164) -/

/-- The hold before a reset: its cause, the instant at which the 20 ms of a power-on hold run out
(absent while the supply is down, when they have run out, and in a RESET_LINE hold), and whether
they have run out. -/
structure ResetHold where
  cause : StartCause
  dueAt : Option Nat
  settled : Bool
  deriving DecidableEq, Repr

/-- The pins that are not data lines, the straps as latched, the hold while one is on, and the
model's time. -/
structure Pins where
  straps : StrapPins
  latched : StrapPins
  supplyUp : Bool
  rstN : Bool
  hold : Option ResetHold
  now : Nat
  deriving DecidableEq, Repr

/-! ### What follows an action -/

/-- An occasion: an action that a block owes because of what has just happened (R58, R62, R75,
R119, R125). -/
inductive Occasion where
  | examination (segment : Seg)
  | startWalk (segment : Seg)
  | expiryCheck (segment : Seg)
  | formation
  | take
  deriving DecidableEq, Repr

/-- The part. -/
structure State where
  pins : Pins
  port : TrunkPort
  buffer : Buffer
  clock : Clock
  windowOpen : Vector Bool 32
  bank : TableBank
  agent : Agent
  reports : ReportUnit
  counters : Vector Nat 56
  segs : Vector Segment 4
  /-- The model's own field: the actions the part owes, in the order in which they came to be owed. -/
  occasions : List Occasion
  /-- The commands that wait, first in, first out. -/
  pending : List Instr
  deriving DecidableEq, Repr

/-- No command of the part ends in a fault: the manual states what the part does with every
telegram and every happening (spec/00_scope.md, section 3). -/
inductive Fault : Type
  deriving DecidableEq, Repr

/-- Why a command has no meaning. -/
inductive Refusal where
  /-- Raised by `exec` for a command that has no meaning yet: none. Safe: the machine stops. -/
  | notModelled (mnemonic : String)
  deriving DecidableEq, Repr

/-! ### The state after a reset -/

/-- The reset profile (R89). -/
def Profile.atReset : Profile where
  mode := .baseband
  unitTime := 500
  leaderMark := 16
  leaderSpace := 8
  zeroMark := 1
  oneMark := 3
  bitSpace := 1
  p1 := 26
  p2 := 20
  quietGap := 5

/-- A segment chain after a reset (R71, R88, R89, R104, R105). -/
def Segment.atReset : Segment where
  deferralQueue := []
  pacer := .idle
  pacingGapMs := 0
  sendQueue := []
  state := .held .start
  tagCounter := 0
  conflictStreak := 0
  profile := Profile.atReset
  pendingProfile := none
  transceiver := .idle
  outstanding := []
  ring := []

/-- An image with every entry undefined. -/
def Tables.empty : Tables where
  routes := Vector.replicate 64 none
  classes := Vector.replicate 16 none
  windows := Vector.replicate 32 none

/-- The own trunk address that a reset gives the part (R156). -/
def ownAddressOf (straps : StrapPins) : Addr :=
  BitVec.ofNat 12 (Config.ownAddressBase + straps.adr.toNat)

/-- The part once a reset with this cause has taken effect with these levels on the strap pins: the
value each chapter gives, and the STARTED notice queued (R15, R52, R71, R88, R129, R164, R165). -/
def State.afterReset (cause : StartCause) (straps : StrapPins) : State where
  pins :=
    { straps := straps, latched := straps, supplyUp := true, rstN := true, hold := none, now := 0 }
  port := { assembler := .hunt, transmitter := .idle }
  buffer := { slots := Vector.replicate 256 none, intakeCounter := 0, storeHigh := false }
  clock := { record := none, uptime := 0, nextEdge := Config.second }
  windowOpen := Vector.replicate 32 false
  bank := { active := Tables.empty, staging := Tables.empty, generation := 0 }
  agent :=
    { managers := [], noticeAddress := 0, commit := .idle, lastCommit := .none,
      restartPending := false, startCause := cause }
  reports :=
    { backlog := [], reportQueue := [],
      noticeQueue := [{ destination := 0, kind := .started cause (ownAddressOf straps) }],
      responseQueue := [] }
  counters := Vector.replicate 56 0
  segs := Vector.replicate 4 Segment.atReset
  occasions := [.take]
  pending := []

/-- The part right after a power-on reset. DESIGN CHOICE (notes/assumptions/1.md): the spec leaves
the levels of the strap pins to the board; here they all read 0. -/
def State.reset : State :=
  State.afterReset .powerOn { adr := 0, rate := 0 }

end Sys2Proof.Machine
end

