-- ==== Sys2Proof/Machine/Calendar.lean ====
section
/-! DEFINITION. The calendar of the Calendar Clock: month lengths, carrying and borrowing, the
weekday, the tick and the addition of seconds (R35, R37, R38, R40, R41). -/

namespace Sys2Proof.Machine

/-- A year 0 to 99 (2000 to 2099) is a leap year when its number is divisible by 4 (R37). -/
def isLeapYear (year : Nat) : Bool :=
  year % 4 == 0

/-- The length of a month in a year (R37). -/
def monthLength (year month : Nat) : Nat :=
  match month with
  | 2 => if isLeapYear year then 29 else 28
  | 4 => 30
  | 6 => 30
  | 9 => 30
  | 11 => 30
  | _ => 31

/-- The date is a real one between 2000-01-01 and 2099-12-31 (R35, R40). -/
def Date.isReal (d : Date) : Bool :=
  d.year ≤ 99 && 1 ≤ d.month && d.month ≤ 12 && 1 ≤ d.day && d.day ≤ monthLength d.year d.month

/-- The time of day is in range (R35, R40). -/
def TimeOfDay.isReal (t : TimeOfDay) : Bool :=
  t.hour ≤ 23 && t.minute ≤ 59 && t.second ≤ 59

/-- The record names a real date and time (R40). -/
def Calendar.isReal (c : Calendar) : Bool :=
  c.date.isReal && c.time.isReal

/-- The following date; 2099-12-31 is followed by 2000-01-01 (R37). -/
def Date.next (d : Date) : Date :=
  if d.day < monthLength d.year d.month then { d with day := d.day + 1 }
  else if d.month < 12 then { d with month := d.month + 1, day := 1 }
  else if d.year < 99 then { year := d.year + 1, month := 1, day := 1 }
  else { year := 0, month := 1, day := 1 }

/-- The date before; 2000-01-01 is preceded by 2099-12-31 (R41, R44). -/
def Date.prev (d : Date) : Date :=
  if 1 < d.day then { d with day := d.day - 1 }
  else if 1 < d.month then
    { d with month := d.month - 1, day := monthLength d.year (d.month - 1) }
  else if 0 < d.year then { year := d.year - 1, month := 12, day := 31 }
  else { year := 99, month := 12, day := 31 }

/-- The date k whole days later (R50). -/
def Date.addDays (d : Date) : Nat → Date
  | 0 => d
  | k + 1 => (d.addDays k).next

/-- Days of the months before this one in its year. -/
def daysBeforeMonth (year : Nat) : Nat → Nat
  | 0 => 0
  | 1 => 0
  | m + 2 => daysBeforeMonth year (m + 1) + monthLength year (m + 1)

/-- The number of days from 2000-01-01 to the date (R38). -/
def Date.dayNumber (d : Date) : Nat :=
  365 * d.year + (d.year + 3) / 4 + daysBeforeMonth d.year d.month + (d.day - 1)

/-- The weekday, 0 Sunday to 6 Saturday: 6 plus the days since 2000-01-01, modulo 7 (R38). -/
def Date.weekday (d : Date) : Nat :=
  (6 + d.dayNumber) % 7

/-- Seconds since midnight (section 3.4). -/
def TimeOfDay.seconds (t : TimeOfDay) : Nat :=
  3600 * t.hour + 60 * t.minute + t.second

/-- The time of day at a number of seconds, below 86400, since midnight. -/
def timeOfSeconds (n : Nat) : TimeOfDay :=
  { hour := n / 3600, minute := n / 60 % 60, second := n % 60 }

/-- One second later, carrying as R37 lists. -/
def Calendar.tick (c : Calendar) : Calendar :=
  if c.time.second + 1 < 60 then { c with time.second := c.time.second + 1 }
  else if c.time.minute + 1 < 60 then
    { c with time := { hour := c.time.hour, minute := c.time.minute + 1, second := 0 } }
  else if c.time.hour + 1 < 24 then
    { c with time := { hour := c.time.hour + 1, minute := 0, second := 0 } }
  else { date := c.date.next, time := { hour := 0, minute := 0, second := 0 } }

/-- The flags of an ADJUST_CLOCK response (R41). -/
structure AdjustFlags where
  dayCarry : Bool
  dayBorrow : Bool
  centuryWrap : Bool
  deriving DecidableEq, Repr

/-- A signed number of seconds of less than a day added to the record, with the flags of R41. -/
def Calendar.adjust (c : Calendar) (n : Int) : Calendar × AdjustFlags :=
  let t : Int := (c.time.seconds : Int) + n
  if t < 0 then
    ({ date := c.date.prev, time := timeOfSeconds (t + 86400).toNat },
      { dayCarry := false, dayBorrow := true,
        centuryWrap := c.date.year == 0 && c.date.prev.year == 99 })
  else if t < 86400 then
    ({ date := c.date, time := timeOfSeconds t.toNat },
      { dayCarry := false, dayBorrow := false, centuryWrap := false })
  else
    ({ date := c.date.next, time := timeOfSeconds (t - 86400).toNat },
      { dayCarry := true, dayBorrow := false,
        centuryWrap := c.date.year == 99 && c.date.next.year == 0 })

end Sys2Proof.Machine
end

