-- ==== Sys2Proof/Machine/Flags.lean ====
section
/-! DEFINITION. The counters (R141), the occasions, the notices (R122, R123), and the STORE_HIGH flag
with the two checks of occupancy that set and clear it (R13, R14). -/

namespace Sys2Proof.Machine

/-! ### Counters -/

/-- A counter, by its place in the catalogue of R141: OUTCOMES 0 to 15, FLOW 16 to 21, TRUNK 22 to
27, then seven for each segment. -/
abbrev CounterId := Fin 56

/-- The counter of an outcome (R141); DEFERRED is no counted outcome and maps to the flow counter
DEFERRALS, which no caller uses. -/
def ReportOutcome.counter : ReportOutcome → CounterId
  | .answered => 0
  | .answeredLate => 1
  | .sent => 2
  | .noAnswer => 3
  | .lineFailed => 4
  | .expired => 5
  | .displaced => 6
  | .purged => 7
  | .withdrawn => 8
  | .refusedDuplicate => 10
  | .refusedNoRoute => 11
  | .refusedNoPolicy => 12
  | .refusedClosed => 13
  | .refusedSegmentFull => 14
  | .refusedStoreFull => 15
  | .deferred => 16

/-- FLUSHED. -/
def Counter.flushed : CounterId := 9
/-- DEFERRALS. -/
def Counter.deferrals : CounterId := 16
/-- RELEASES. -/
def Counter.releases : CounterId := 17
/-- REDEFERRALS. -/
def Counter.redeferrals : CounterId := 18
/-- UNREPORTED. -/
def Counter.unreported : CounterId := 19
/-- INTERIM_LOST. -/
def Counter.interimLost : CounterId := 20
/-- NOTICES_LOST. -/
def Counter.noticesLost : CounterId := 21
/-- FRAME_ERROR. -/
def Counter.frameError : CounterId := 22
/-- CHECK_ERROR. -/
def Counter.checkError : CounterId := 23
/-- BAD_KIND. -/
def Counter.badKind : CounterId := 24
/-- BAD_ADDRESS. -/
def Counter.badAddress : CounterId := 25
/-- MGMT_DENIED. -/
def Counter.mgmtDenied : CounterId := 26
/-- MGMT_OVERRUN. -/
def Counter.mgmtOverrun : CounterId := 27

/-- The k-th counter of a segment's group, k below 7. -/
def Counter.ofSegment (g : Seg) (k : Fin 7) : CounterId :=
  ⟨28 + 7 * g.val + k.val, by omega⟩

/-- STARTS of a segment. -/
def Counter.starts (g : Seg) : CounterId := Counter.ofSegment g 0
/-- CONFLICTS of a segment. -/
def Counter.conflicts (g : Seg) : CounterId := Counter.ofSegment g 1
/-- TIMEOUTS of a segment. -/
def Counter.timeouts (g : Seg) : CounterId := Counter.ofSegment g 2
/-- LATE_ANSWERS of a segment. -/
def Counter.lateAnswers (g : Seg) : CounterId := Counter.ofSegment g 3
/-- DUPLICATE_ANSWERS of a segment. -/
def Counter.duplicateAnswers (g : Seg) : CounterId := Counter.ofSegment g 4
/-- UNKNOWN_ANSWERS of a segment. -/
def Counter.unknownAnswers (g : Seg) : CounterId := Counter.ofSegment g 5
/-- BAD_LINE_FRAMES of a segment. -/
def Counter.badLineFrames (g : Seg) : CounterId := Counter.ofSegment g 6

/-- A 32-bit count raised by n; it stops at 2^32 - 1 (R141). -/
def saturatingAdd (count n : Nat) : Nat :=
  min (count + n) Config.saturation

/-- A counter raised by n. -/
def State.countBy (s : State) (c : CounterId) (n : Nat) : State :=
  { s with counters := s.counters.set c.val (saturatingAdd s.counters[c] n) c.isLt }

/-- A counter incremented (R141). -/
def State.count (s : State) (c : CounterId) : State :=
  s.countBy c 1

/-! ### Occasions -/

/-- An action comes to be owed. -/
def State.owe (s : State) (o : Occasion) : State :=
  { s with occasions := s.occasions ++ [o] }

/-- An action that was owed is taken: the oldest occasion of its kind is gone. -/
def State.settle (s : State) (o : Occasion) : State :=
  { s with occasions := s.occasions.erase o }

/-- The trunk transmitter is idle (R125). -/
def State.transmitterIdle (s : State) : Bool :=
  match s.port.transmitter with
  | .idle => true
  | .sending _ _ _ => false

/-- An entry has joined an outgoing queue: an occasion for the arbiter while the transmitter is
idle (R125). -/
def State.oweTake (s : State) : State :=
  if s.transmitterIdle then s.owe .take else s

/-! ### Notices -/

/-- A notice is queued for the notice address as it stands, or dropped and counted (R122, R123). -/
def State.queueNotice (s : State) (kind : NoticeKind) : State :=
  if s.reports.noticeQueue.length < Config.noticeQueueSize then
    State.oweTake
      { s with reports.noticeQueue :=
          s.reports.noticeQueue ++ [{ destination := s.agent.noticeAddress, kind := kind }] }
  else s.count Counter.noticesLost

/-! ### Occupancy -/

/-- The in-use count: 256 minus the number of FREE slots (section 1.5). -/
def State.inUse (s : State) : Nat :=
  s.buffer.slots.toList.countP Option.isSome

/-- The comparison after an allocation (R13). -/
def State.checkHigh (s : State) : State :=
  if s.buffer.storeHigh = false ∧ Config.storeHighLevel ≤ s.inUse then
    { s with buffer.storeHigh := true }.queueNotice (.storeHigh s.inUse)
  else s

/-- The comparison after a freeing (R14). -/
def State.checkClear (s : State) : State :=
  if s.buffer.storeHigh = true ∧ s.inUse ≤ Config.storeClearLevel then
    { s with buffer.storeHigh := false }.queueNotice (.storeClear s.inUse)
  else s

end Sys2Proof.Machine
end

