-- ==== Sys2Proof/Machine/Windows.lean ====
section
/-! DEFINITION. Windows, the open state of a class, the evaluation of windows and the next opening
(R43 to R51). -/

namespace Sys2Proof.Machine

/-- Seconds of a day. -/
def daySeconds : Nat := 86400

/-- The weekday is in the window's day mask (R43). -/
def Window.onWeekday (w : Window) (weekday : Nat) : Bool :=
  w.dayMask.getLsbD weekday

/-- The length L of an occurrence (R43). -/
def Window.length (w : Window) : Nat :=
  if w.start.seconds < w.stop.seconds then w.stop.seconds - w.start.seconds
  else if w.stop.seconds < w.start.seconds then
    daySeconds - w.start.seconds + w.stop.seconds
  else daySeconds

/-- Today's occurrence exists and the present time is WITHIN it (R44). -/
def Window.withinToday (w : Window) (c : Calendar) : Bool :=
  w.onWeekday c.date.weekday &&
    (w.start.seconds ≤ c.time.seconds && c.time.seconds < w.start.seconds + w.length)

/-- Yesterday's occurrence reaches into today and the present time is before its end (R44). -/
def Window.withinYesterday (w : Window) (c : Calendar) : Bool :=
  w.onWeekday c.date.prev.weekday &&
    (w.stop.seconds ≤ w.start.seconds && c.time.seconds < w.stop.seconds)

/-- A defined window is open at a clock time (R44). -/
def Window.isOpenAt (w : Window) (c : Calendar) : Bool :=
  w.withinToday c || w.withinYesterday c

/-- The open state R44 gives a Window Table entry: closed when it is undefined, and closed while the
clock is UNSET. -/
def windowStateAt (entry : Option Window) (record : Option Calendar) : Bool :=
  match entry, record with
  | some w, some c => w.isOpenAt c
  | _, _ => false

/-- The open states of all 32 windows, against the active image and the clock as they stand
(R47). -/
@[irreducible] def State.computedWindows (s : State) : Vector Bool 32 :=
  Vector.ofFn fun i => windowStateAt s.bank.active.windows[i] s.clock.record

/-- Some window is closed as held and open as computed: an opening (R47). -/
def State.hasOpening (s : State) : Bool :=
  (List.finRange 32).any fun i => !s.windowOpen[i] && s.computedWindows[i]

/-- An examination comes to be owed by each of the four Release Units: an opening signal (R47), or a
commit end (R58). -/
def State.oweExaminations (s : State) : State :=
  (((s.owe (.examination 0)).owe (.examination 1)).owe (.examination 2)).owe (.examination 3)

/-- An evaluation: every held state is replaced, and any opening is signalled (R47). -/
def State.evaluateWindows (s : State) : State :=
  if s.hasOpening then { s with windowOpen := s.computedWindows }.oweExaminations
  else { s with windowOpen := s.computedWindows }

/-- The class's entry in the active Class Policy Table: the live policy (R3). -/
def State.livePolicy (s : State) (c : ClassNo) : Option ClassPolicy :=
  s.bank.active.classes[c]

/-- A class is open (R22, R45): defined, and its window set is empty, or the clock is VALID and a
window of the set is open as held. -/
def State.classOpen (s : State) (c : ClassNo) : Bool :=
  match s.livePolicy c with
  | none => false
  | some p =>
    p.windows.isEmpty || (s.clock.record.isSome && p.windows.any fun i => s.windowOpen[i])

/-! ### Next opening -/

/-- The starts offered on the date k days ahead of the clock's (R50): on today's date only those the
present time is BEFORE. -/
def offeredStarts (windows : List Window) (c : Calendar) (k : Nat) : List TimeOfDay :=
  (windows.filter fun w =>
    w.onWeekday (c.date.addDays k).weekday &&
      (0 < k || c.time.seconds < w.start.seconds)).map Window.start

/-- The earliest time of day of a list. -/
def earliestTime : List TimeOfDay → Option TimeOfDay
  | [] => none
  | t :: rest =>
    match earliestTime rest with
    | none => some t
    | some u => if u.seconds < t.seconds then some u else some t

/-- The search of R50 over the dates listed, by days ahead. -/
def searchOpening (windows : List Window) (c : Calendar) : List Nat → NextOpening
  | [] => .unknown
  | k :: rest =>
    match earliestTime (offeredStarts windows c k) with
    | some t => .on k (c.date.addDays k).weekday t
    | none => searchOpening windows c rest

/-- The next opening of a class (R50, R51). -/
def State.nextOpening (s : State) (c : ClassNo) : NextOpening :=
  match s.clock.record, s.livePolicy c with
  | some now, some p =>
    searchOpening (p.windows.filterMap fun i => s.bank.active.windows[i]) now
      [0, 1, 2, 3, 4, 5, 6, 7]
  | _, _ => .unknown

end Sys2Proof.Machine
end

