-- ==== Sys2Proof/Machine/Ops.lean ====
section
/-! DEFINITION. The operations the blocks share: segments and slots read and written, instants,
allocation and freeing, the bookkeeping of DEFERRED, the orders of the Send Queue and the Deferral
Queue, and the way of a slot into the Report Backlog. The part has no exceptions to take: a happening
that a processor would meet with one is here an effect on the state (a notice, a counter, a hold). -/

namespace Sys2Proof.Machine

/-! ### Running, instants, pins -/

/-- No reset hold is on (R164). -/
def State.running (s : State) : Bool :=
  s.pins.hold.isNone

/-- The meaning of a command that the part takes only while no reset hold is on: during a hold
everything has stopped and the inputs are ignored (R164). -/
def whileRunning (effect : State → State) (s : State) : Host.Outcome State Fault Refusal :=
  .next (if s.running then effect s else s)

/-- An instant is reached: the model's time is not before it. -/
def State.reach (s : State) (instant : Nat) : State :=
  { s with pins.now := max s.pins.now instant }

/-- The own trunk address, from the straps as latched (R156). -/
def State.ownAddress (s : State) : Addr :=
  ownAddressOf s.pins.latched

/-! ### Segments -/

/-- The chain of a segment. -/
def State.seg (s : State) (g : Seg) : Segment :=
  s.segs[g]

/-- The chain of a segment replaced. -/
def State.setSeg (s : State) (g : Seg) (x : Segment) : State :=
  { s with segs := s.segs.set g.val x g.isLt }

/-! ### Slots -/

/-- The record of a slot; none when the slot is FREE. -/
def State.slot (s : State) (n : SlotNo) : Option Slot :=
  s.buffer.slots[n]

/-- The place of a slot written. -/
def State.setSlot (s : State) (n : SlotNo) (x : Option Slot) : State :=
  { s with buffer.slots := s.buffer.slots.set n.val x n.isLt }

/-- The record of a slot in use changed. -/
def State.modifySlot (s : State) (n : SlotNo) (f : Slot → Slot) : State :=
  s.setSlot n ((s.slot n).map f)

/-- The numbers of the FREE slots, lowest first (section 1.3). -/
def State.freeList (s : State) : List SlotNo :=
  (List.finRange 256).filter fun n => (s.slot n).isNone

/-- The source-sequence lookup (R11). -/
def State.pairHeld (s : State) (source : Addr) (seq : Byte) : Bool :=
  (List.finRange 256).any fun n =>
    match s.slot n with
    | some r => r.source == source && r.seq == seq
    | none => false

/-- An allocation of a slot (R7): the intake counter advances and the record made with the new
intake number is written. -/
def State.allocate (s : State) (n : SlotNo) (record : Intake → Slot) : State :=
  { s.setSlot n (some (record (s.buffer.intakeCounter + 1))) with
    buffer.intakeCounter := s.buffer.intakeCounter + 1 }

/-- A freeing by report formation: the slot becomes FREE, and the check of R14 follows (R10). -/
def State.free (s : State) (n : SlotNo) : State :=
  (s.setSlot n none).checkClear

/-- The snapshot priority of a slot; 0 for a FREE slot, which no queue holds. -/
def State.priorityOf (s : State) (n : SlotNo) : Fin 4 :=
  match s.slot n with
  | some r => r.priority
  | none => 0

/-- Intake number a is older than intake number b (R9). -/
def Intake.older (a b : Intake) : Bool :=
  1 ≤ (b - a).toNat && (b - a).toNat ≤ 2147483647

/-- The slot in place n is older than an intake number. -/
def State.slotOlder (s : State) (n : SlotNo) (intake : Intake) : Bool :=
  match s.slot n with
  | some r => Intake.older r.intake intake
  | none => false

/-! ### Entering and leaving DEFERRED -/

/-- The bookkeeping of a slot that leaves DEFERRED (R6). -/
def Slot.leaveDeferred (r : Slot) (uptime : Nat) : Slot :=
  match r.deferral with
  | some d =>
    { r with
      deferredSeconds := min (r.deferredSeconds + (uptime - d.since)) Config.maxDeferredSeconds
      deferral := none }
  | none => r

/-- A slot that enters DEFERRED (R6). -/
def Slot.enterDeferred (r : Slot) (reason : DeferralReason) (uptime : Nat) : Slot :=
  { r with deferral := some { reason := reason, since := uptime } }

/-- A slot leaves its segment's Deferral Queue, wherever it stands, with the bookkeeping of R6
(R53). -/
def State.leaveDeferralQueue (s : State) (g : Seg) (n : SlotNo) : State :=
  (s.setSeg g { s.seg g with deferralQueue := (s.seg g).deferralQueue.erase n }).modifySlot n
    fun r => r.leaveDeferred s.clock.uptime

/-- A slot joins the back of its segment's Deferral Queue, which owes an examination (R29, R58). -/
def State.deferAtBack (s : State) (g : Seg) (n : SlotNo) (reason : DeferralReason) : State :=
  (((s.setSeg g { s.seg g with deferralQueue := (s.seg g).deferralQueue ++ [n] }).modifySlot n
    fun r => r.enterDeferred reason s.clock.uptime).owe (.examination g))

/-- The place of an intake number in a Deferral Queue: after every older slot (R64). -/
def State.insertByIntake (s : State) (queue : List SlotNo) (n : SlotNo) (intake : Intake) :
    List SlotNo :=
  queue.takeWhile (fun m => s.slotOlder m intake) ++
    n :: queue.dropWhile (fun m => s.slotOlder m intake)

/-! ### The Send Queue -/

/-- The place of a fresh entry: after every entry of equal or higher priority (R73). -/
def State.insertFresh (s : State) (queue : List SlotNo) (n : SlotNo) (p : Fin 4) : List SlotNo :=
  queue.takeWhile (fun m => p ≤ s.priorityOf m) ++ n :: queue.dropWhile (fun m => p ≤ s.priorityOf m)

/-- The place of a re-entry: after every entry of higher priority, before its own level (R74). -/
def State.insertReentry (s : State) (queue : List SlotNo) (n : SlotNo) (p : Fin 4) : List SlotNo :=
  queue.takeWhile (fun m => p < s.priorityOf m) ++ n :: queue.dropWhile (fun m => p < s.priorityOf m)

/-- A fresh entry joins the Send Queue; a start walk is owed (R73, R75). -/
def State.joinFresh (s : State) (g : Seg) (n : SlotNo) : State :=
  (s.setSeg g { s.seg g with
    sendQueue := s.insertFresh (s.seg g).sendQueue n (s.priorityOf n) }).owe (.startWalk g)

/-- A re-entry joins the Send Queue; a start walk is owed (R74, R75). -/
def State.joinReentry (s : State) (g : Seg) (n : SlotNo) : State :=
  (s.setSeg g { s.seg g with
    sendQueue := s.insertReentry (s.seg g).sendQueue n (s.priorityOf n) }).owe (.startWalk g)

/-- A slot leaves the Send Queue, wherever it stands; the Release Unit owes an examination
(R58, R72). -/
def State.leaveSendQueue (s : State) (g : Seg) (n : SlotNo) : State :=
  (s.setSeg g { s.seg g with sendQueue := (s.seg g).sendQueue.erase n }).owe (.examination g)

/-! ### Into the Report Backlog -/

/-- A slot takes its outcome (R4): the outcome and any answer part are written and the line tag
becomes absent. -/
def Slot.finish (r : Slot) (outcome : ReportOutcome) (answer : Option AnswerPart) : Slot :=
  { r with outcome := some outcome, answer := answer, lineTag := none }

/-- A slot takes an outcome and joins the back of the Report Backlog; the outcome is counted, and a
report formation is owed (R118, R119, R141). -/
def State.report (s : State) (n : SlotNo) (outcome : ReportOutcome) (answer : Option AnswerPart) :
    State :=
  (({ s.modifySlot n (fun r => r.finish outcome answer) with
      reports.backlog := s.reports.backlog ++ [n] }).count outcome.counter).owe .formation

/-- A DEFERRED slot ends with an outcome (R62, R65, R66, R67). -/
def State.endDeferred (s : State) (g : Seg) (outcome : ReportOutcome) (answer : Option AnswerPart)
    (n : SlotNo) : State :=
  (s.leaveDeferralQueue g n).report n outcome answer

/-- A QUEUED slot ends with an outcome (R85, R86). -/
def State.endQueued (s : State) (g : Seg) (outcome : ReportOutcome) (answer : Option AnswerPart)
    (n : SlotNo) : State :=
  (s.leaveSendQueue g n).report n outcome answer

/-- The deferred slots a test selects, oldest first. -/
def State.selectDeferred (s : State) (g : Seg) (test : Slot → Bool) : List SlotNo :=
  (s.seg g).deferralQueue.filter fun n => (s.slot n).any test

/-- The queued slots a test selects, front to back. -/
def State.selectQueued (s : State) (g : Seg) (test : Slot → Bool) : List SlotNo :=
  (s.seg g).sendQueue.filter fun n => (s.slot n).any test

/-- Every deferred slot of a segment that a test selects ends with an outcome, oldest first. -/
def State.endAllDeferred (s : State) (g : Seg) (outcome : ReportOutcome) (test : Slot → Bool) :
    State :=
  (s.selectDeferred g test).foldl (fun t n => t.endDeferred g outcome none n) s

/-- Every queued slot of a segment that a test selects ends with an outcome, front to back. -/
def State.endAllQueued (s : State) (g : Seg) (outcome : ReportOutcome) (test : Slot → Bool) :
    State :=
  (s.selectQueued g test).foldl (fun t n => t.endQueued g outcome none n) s

/-! ### The Report Queue -/

/-- The Report Queue has room (R121). -/
def State.reportRoom (s : State) : Bool :=
  s.reports.reportQueue.length < Config.reportQueueSize

/-- A formed report joins the back of the Report Queue (R121). -/
def State.pushReport (s : State) (r : Report) : State :=
  State.oweTake { s with reports.reportQueue := s.reports.reportQueue ++ [r] }

/-- The report of a slot, formed at the present uptime (R116, R117). -/
def State.reportOf (s : State) (r : Slot) (outcome : ReportOutcome) : Report where
  destination := r.source
  seq := r.seq
  cls := r.cls
  outcome := outcome
  segment := some r.segment
  attempts := r.attempts
  deferredSeconds := r.deferredSeconds
  stamp := s.clock.uptime
  intake := some r.intake
  answer := r.answer
  nextOpening := none

end Sys2Proof.Machine
end

