-- ==== Sys2Proof/Machine/Operands.lean ====
section
/-! DEFINITION. Bytes and values: the CRC (R160), the layouts of trunk frames, payloads, parameter
blocks and table entries (R161, R162) and of line telegrams (R163), read and formed. -/

namespace Sys2Proof.Machine

/-! ### Numbers in bytes -/

/-- A number's low byte. -/
def byteOf (n : Nat) : Byte :=
  BitVec.ofNat 8 n

/-- Two bytes, high byte first (section 11.4). -/
def twoBytes (n : Nat) : List Byte :=
  [byteOf (n / 256), byteOf n]

/-- Four bytes, high byte first (section 11.4). -/
def fourBytes (n : Nat) : List Byte :=
  [byteOf (n / 16777216), byteOf (n / 65536), byteOf (n / 256), byteOf n]

/-- A yes/no byte: 1 for yes, 0 for no (section 11.4). -/
def yesNo (b : Bool) : Byte :=
  if b then 1 else 0

/-- The number two bytes carry, high byte first. -/
def numberOf (high low : Byte) : Nat :=
  256 * high.toNat + low.toNat

/-- The signed number four bytes carry in two's complement, high byte first (R162). -/
def signedOf (b3 b2 b1 b0 : Byte) : Int :=
  (b3 ++ b2 ++ b1 ++ b0 : BitVec 32).toInt

/-- A yes/no byte read; none when it is neither (R162). -/
def readYesNo (b : Byte) : Option Bool :=
  if b = 1 then some true else if b = 0 then some false else none

/-! ### The CRC (R160) -/

/-- One bit position fed: x^16 + x^12 + x^5 + 1. -/
def crcShift (c : BitVec 16) : BitVec 16 :=
  if c.msb then (c <<< 1) ^^^ 0x1021#16 else c <<< 1

/-- One byte fed, most significant bit first. -/
def crcByte (c : BitVec 16) (b : Byte) : BitVec 16 :=
  (List.range 8).foldl (fun x _ => crcShift x) (c ^^^ (b.setWidth 16 <<< 8))

/-- The CRC of a list of bytes: preset 0xFFFF, no final inversion. -/
def crc16 (bytes : List Byte) : BitVec 16 :=
  bytes.foldl crcByte 0xFFFF#16

/-- The CRC of a list of bytes as sent, high byte first. -/
def crcBytes (bytes : List Byte) : List Byte :=
  twoBytes (crc16 bytes).toNat

/-! ### Codes (R161) -/

/-- Outcome codes. -/
def ReportOutcome.code : ReportOutcome → Byte
  | .answered => 1
  | .answeredLate => 2
  | .sent => 3
  | .noAnswer => 4
  | .lineFailed => 5
  | .expired => 6
  | .displaced => 7
  | .purged => 8
  | .withdrawn => 9
  | .refusedDuplicate => 16
  | .refusedNoRoute => 17
  | .refusedNoPolicy => 18
  | .refusedClosed => 19
  | .refusedSegmentFull => 20
  | .refusedStoreFull => 21
  | .deferred => 32

/-- Status codes. -/
def Status.code : Status → Byte
  | .ok => 0
  | .busy => 1
  | .denied => 2
  | .badRequest => 3
  | .badIndex => 4
  | .badValue => 5
  | .clockUnset => 6
  | .commitFailed => 7

/-- Table codes. -/
def TableName.code : TableName → Byte
  | .route => 1
  | .cls => 2
  | .window => 3

/-- A table code read. -/
def readTable (b : Byte) : Option TableName :=
  if b = 1 then some .route else if b = 2 then some .cls else if b = 3 then some .window else none

/-- The number of entries of a table (R144). -/
def TableName.entries : TableName → Nat
  | .route => 64
  | .cls => 16
  | .window => 32

/-- The length of a table's entry format (R162). -/
def TableName.formatLength : TableName → Nat
  | .route => 5
  | .cls => 12
  | .window => 7

/-- Commit failure reason codes. -/
def CommitReason.code : CommitReason → Byte
  | .emptyDayMask => 1
  | .duplicateWindow => 2
  | .undefinedWindow => 3
  | .addressOutOfRange => 4
  | .rangeReversed => 5
  | .rangeOverlap => 6

/-- Start cause codes. -/
def StartCause.code : StartCause → Byte
  | .powerOn => 1
  | .resetLine => 2
  | .restart => 3

/-- Line fault codes. -/
def LineFault.code : LineFault → Byte
  | .conflicts => 1
  | .stuckLine => 2

/-- Mode codes. -/
def LineMode.code : LineMode → Byte
  | .baseband => 1
  | .carrier => 2
  | .shift => 3

/-- A mode code read. -/
def readMode (b : Byte) : Option LineMode :=
  if b = 1 then some .baseband else if b = 2 then some .carrier else if b = 3 then some .shift
  else none

/-- The bytes of a segment state and its hold reason. -/
def SegmentState.bytes : SegmentState → List Byte
  | .active => [0, 0]
  | .held .start => [1, 1]
  | .held .byRequest => [1, 2]
  | .held .lineFault => [1, 3]

/-- Transceiver state codes. -/
def Transceiver.code : Transceiver → Byte
  | .idle => 0
  | .sending _ => 1
  | .quiet _ => 2
  | .receiving _ => 3

/-- Pacer state codes. -/
def Pacer.code : Pacer → Byte
  | .idle => 0
  | .gap _ => 1

/-- The commit state byte of READ_STATUS. DESIGN CHOICE (notes/assumptions/19.md): no code set of the spec
gives it; 0 for IDLE and 1 for VALIDATING. -/
def CommitState.code : CommitState → Byte
  | .idle => 0
  | .validating _ _ _ => 1

/-- Table, index and reason of a commit failure. -/
def CommitFailure.bytes (f : CommitFailure) : List Byte :=
  [f.table.code, byteOf f.index, f.reason.code]

/-- The four bytes of the last commit result: kind, table, index, reason (R162). -/
def CommitResult.bytes : CommitResult → List Byte
  | .none => [0, 0, 0, 0]
  | .ok => [1, 0, 0, 0]
  | .failed f => 2 :: f.bytes

/-! ### Trunk telegrams formed (R159, R161) -/

/-- The header of a telegram the part sends: kind, destination, own source, sequence, class. -/
def headerBytes (kind : Byte) (destination source : Addr) (seq cls : Byte) : List Byte :=
  kind :: (twoBytes destination.toNat ++ twoBytes source.toNat ++ [seq, cls])

/-- The next-opening of a report, 5 bytes (R161). -/
def NextOpening.bytes : NextOpening → List Byte
  | .unknown => [0xFF, 0, 0, 0, 0]
  | .on k weekday t => [byteOf k, byteOf weekday, byteOf t.hour, byteOf t.minute, byteOf t.second]

/-- The presence byte of a report (R161). DESIGN CHOICE (notes/assumptions/20.md): the spec names bits 0 to
3 only; bits 4 to 7 are 0. -/
def Report.presence (r : Report) : Byte :=
  byteOf ((if r.segment.isSome then 1 else 0) + (if r.intake.isSome then 2 else 0) +
    (if r.answer.isSome then 4 else 0) + (if r.nextOpening.isSome then 8 else 0))

/-- The payload of a REPORT (R161). -/
def Report.payload (r : Report) : List Byte :=
  [r.outcome.code, r.presence, byteOf ((r.segment.map Fin.val).getD 0), byteOf r.attempts] ++
    twoBytes r.deferredSeconds ++ fourBytes r.stamp ++
    fourBytes ((r.intake.map BitVec.toNat).getD 0) ++
    (r.nextOpening.map NextOpening.bytes).getD [] ++
    (r.answer.map fun a => a.status :: a.data).getD []

/-- The payload of a NOTICE (R161). -/
def NoticeKind.payload : NoticeKind → List Byte
  | .started cause own =>
    [1, cause.code] ++ twoBytes own.toNat ++ twoBytes Config.partCode ++ [byteOf Config.revision]
  | .storeHigh n => 2 :: twoBytes n
  | .storeClear n => 3 :: twoBytes n
  | .lineFault g fault => [4, byteOf g.val, fault.code]

/-- The payload of a MGMT_RESPONSE (R161). -/
def Response.payload (r : Response) : List Byte :=
  r.code :: r.status.code :: r.result

/-- The header and payload of a telegram the part sends (R116, R122, R124, R161). -/
def Outgoing.body (own : Addr) : Outgoing → List Byte
  | .report r =>
    headerBytes 3 r.destination own r.seq (byteOf r.cls.val) ++ r.payload
  | .response r => headerBytes 4 r.destination own r.seq 0 ++ r.payload
  | .notice n => headerBytes 5 n.destination own 0 0 ++ n.kind.payload

/-- A frame on TTX: the opening byte, L, header and payload, and the CRC over L through the payload
(R159, R160). -/
def frameOf (body : List Byte) : List Byte :=
  0xA6 :: (byteOf body.length :: body) ++ crcBytes (byteOf body.length :: body)

/-- The frame of an entry the arbiter takes. -/
def Outgoing.frame (own : Addr) (e : Outgoing) : List Byte :=
  frameOf (e.body own)

/-! ### Table entry formats (R162) -/

/-- A Route Table entry: first address, last address, segment. -/
def Route.bytes (r : Route) : List Byte :=
  twoBytes r.first.toNat ++ twoBytes r.last.toNat ++ [byteOf r.segment.val]

/-- A Class Policy Table entry; index bytes beyond the count are 0. -/
def ClassPolicy.bytes (p : ClassPolicy) : List Byte :=
  byteOf p.windows.length ::
    ((p.windows.map fun i => byteOf i.val) ++ List.replicate (4 - p.windows.length) 0) ++
    twoBytes p.holdLimit ++
    [byteOf p.priority.val, yesNo p.answerExpected, byteOf p.retryLimit.val,
      byteOf p.answerTimeout, yesNo p.notifyOnDefer]

/-- A time of day: hour, minute, second. -/
def TimeOfDay.bytes (t : TimeOfDay) : List Byte :=
  [byteOf t.hour, byteOf t.minute, byteOf t.second]

/-- A Window Table entry: day mask, start, end. -/
def Window.bytes (w : Window) : List Byte :=
  byteOf w.dayMask.toNat :: (w.start.bytes ++ w.stop.bytes)

/-- An address in two bytes; none above 4095. -/
def readAddr (high low : Byte) : Option Addr :=
  if numberOf high low ≤ 4095 then some (BitVec.ofNat 12 (numberOf high low)) else none

/-- A segment number; none above 3. -/
def readSeg (b : Byte) : Option Seg :=
  if h : b.toNat < 4 then some ⟨b.toNat, h⟩ else none

/-- A window index; none above 31. -/
def readWindowNo (b : Byte) : Option WindowNo :=
  if h : b.toNat < 32 then some ⟨b.toNat, h⟩ else none

/-- Window indices read one by one; none when one of them is above 31. -/
def readWindowSet : List Byte → Option (List WindowNo)
  | [] => some []
  | b :: rest => do
    let i ← readWindowNo b
    let more ← readWindowSet rest
    return i :: more

/-- A priority; none above 3. -/
def readPriority (b : Byte) : Option (Fin 4) :=
  if h : b.toNat < 4 then some ⟨b.toNat, h⟩ else none

/-- A retry limit; none above 7. -/
def readRetryLimit (b : Byte) : Option (Fin 8) :=
  if h : b.toNat < 8 then some ⟨b.toNat, h⟩ else none

/-- A time of day; none out of range. -/
def readTime (h m s : Byte) : Option TimeOfDay :=
  let t : TimeOfDay := { hour := h.toNat, minute := m.toNat, second := s.toNat }
  if t.isReal then some t else none

/-- A Route Table entry read under the checks of R146. -/
def readRoute : List Byte → Option Route
  | [f1, f0, l1, l0, g] => do
    let first ← readAddr f1 f0
    let last ← readAddr l1 l0
    let segment ← readSeg g
    return { first := first, last := last, segment := segment }
  | _ => none

/-- A Class Policy Table entry read under the checks of R146: of the four index bytes the first
count are read. -/
def readClass : List Byte → Option ClassPolicy
  | [count, i0, i1, i2, i3, h1, h0, prio, expect, retry, timeout, notify] => do
    guard (count.toNat ≤ 4)
    let windows ← readWindowSet ([i0, i1, i2, i3].take count.toNat)
    let priority ← readPriority prio
    let answerExpected ← readYesNo expect
    let retryLimit ← readRetryLimit retry
    guard (1 ≤ timeout.toNat)
    let notifyOnDefer ← readYesNo notify
    return {
      windows := windows, holdLimit := numberOf h1 h0, priority := priority,
      answerExpected := answerExpected, retryLimit := retryLimit,
      answerTimeout := timeout.toNat, notifyOnDefer := notifyOnDefer }
  | _ => none

/-- A Window Table entry read under the checks of R146: bit 7 of the day mask is 0. -/
def readWindow : List Byte → Option Window
  | [mask, h0, m0, s0, h1, m1, s1] => do
    guard (mask.toNat < 128)
    let start ← readTime h0 m0 s0
    let stop ← readTime h1 m1 s1
    return { dayMask := mask.setWidth 7, start := start, stop := stop }
  | _ => none

/-! ### Profile blocks (R162, note 3) -/

/-- A profile block, 11 bytes. -/
def Profile.bytes (p : Profile) : List Byte :=
  p.mode.code :: twoBytes p.unitTime ++
    [byteOf p.leaderMark, byteOf p.leaderSpace, byteOf p.zeroMark, byteOf p.oneMark,
      byteOf p.bitSpace, byteOf p.p1, byteOf p.p2, byteOf p.quietGap]

/-- The checks of R89 and R91 on the fields of a profile. -/
def Profile.isValid (p : Profile) : Bool :=
  (50 ≤ p.unitTime && p.unitTime ≤ 5000) && (2 ≤ p.leaderMark && p.leaderMark ≤ 64) &&
  (1 ≤ p.leaderSpace && p.leaderSpace ≤ 32) && (1 ≤ p.zeroMark && p.zeroMark ≤ 8) &&
  (2 ≤ p.oneMark && p.oneMark ≤ 16) && (1 ≤ p.bitSpace && p.bitSpace ≤ 8) &&
  (8 ≤ p.p1 && p.p1 ≤ 255) && (8 ≤ p.p2 && p.p2 ≤ 255) &&
  (1 ≤ p.quietGap && p.quietGap ≤ 255) && (p.zeroMark < p.oneMark) &&
  (match p.mode with
    | .baseband => true
    | .carrier => 4 * p.p1 ≤ p.unitTime
    | .shift => p.p1 ≠ p.p2 && 4 * max p.p1 p.p2 ≤ p.unitTime)

/-- A profile block read under the checks of R91. -/
def readProfile : List Byte → Option Profile
  | [mode, u1, u0, leaderMark, leaderSpace, zeroMark, oneMark, bitSpace, p1, p2, quietGap] => do
    let m ← readMode mode
    let p : Profile := {
      mode := m, unitTime := numberOf u1 u0, leaderMark := leaderMark.toNat,
      leaderSpace := leaderSpace.toNat, zeroMark := zeroMark.toNat, oneMark := oneMark.toNat,
      bitSpace := bitSpace.toNat, p1 := p1.toNat, p2 := p2.toNat, quietGap := quietGap.toNat }
    guard p.isValid
    return p
  | _ => none

/-! ### The clock in bytes (R162) -/

/-- The seven clock bytes of a response. -/
def Calendar.bytes (c : Calendar) : List Byte :=
  [byteOf c.date.year, byteOf c.date.month, byteOf c.date.day] ++ c.time.bytes ++
    [byteOf c.date.weekday]

/-- The flag byte of an ADJUST_CLOCK response (R162). DESIGN CHOICE (notes/assumptions/20.md): the spec
names bits 0 to 2 only; bits 3 to 7 are 0. -/
def AdjustFlags.byte (f : AdjustFlags) : Byte :=
  byteOf ((if f.dayCarry then 1 else 0) + (if f.dayBorrow then 2 else 0) +
    (if f.centuryWrap then 4 else 0))

/-- The date and time six bytes carry. -/
def calendarOf (y mo d h mi s : Byte) : Calendar where
  date := { year := y.toNat, month := mo.toNat, day := d.toNat }
  time := { hour := h.toNat, minute := mi.toNat, second := s.toNat }

/-! ### Line telegrams (R163) -/

/-- The bytes of a line telegram over which its CRC is computed. -/
def lineBody (destination source : Addr) (tag : Byte) (kind : Nat) (payload : List Byte) :
    List Byte :=
  twoBytes destination.toNat ++ twoBytes source.toNat ++
    [tag, byteOf (64 * kind + payload.length)] ++ payload

/-- A line telegram with its CRC. -/
def lineTelegram (destination source : Addr) (tag : Byte) (kind : Nat) (payload : List Byte) :
    List Byte :=
  lineBody destination source tag kind payload ++
    crcBytes (lineBody destination source tag kind payload)

/-- The command telegram keyed for a slot: destination the device, source 0, kind COMMAND (R93). -/
def commandTelegram (r : Slot) (tag : Byte) : List Byte :=
  lineTelegram r.device 0 tag 1 r.payload

/-- What a good answer frame hands over (R102). -/
structure LineAnswer where
  device : Addr
  tag : Byte
  part : AnswerPart
  deriving DecidableEq, Repr

/-- The checks of R101 on the bytes of a frame, and the answer a good frame carries. -/
def readAnswer (bytes : List Byte) : Option LineAnswer :=
  match bytes with
  | d1 :: d0 :: s1 :: s0 :: tag :: kindLen :: rest =>
    let len := kindLen.toNat % 64
    match rest with
    | [] => none
    | status :: more =>
      if bytes.length ≤ 56 ∧ kindLen.toNat / 64 = 2 ∧ 1 ≤ len ∧ len ≤ 48 ∧
          bytes.length = 8 + len ∧ d1 = 0 ∧ d0 = 0 ∧ s1.toNat < 16 ∧
          rest.drop len = crcBytes (bytes.take (6 + len)) then
        some {
          device := BitVec.ofNat 12 (numberOf s1 s0), tag := tag,
          part := { status := status, data := more.take (len - 1) } }
      else none
  | _ => none

end Sys2Proof.Machine
end

