-- ==== Sys2Proof/Machine/Line.lean ====
section
/-! DEFINITION. The segment line: how wires are read (R90), how a telegram is keyed and sampled (R93,
R95), and how a reception is judged (R98, R100, R101). -/

namespace Sys2Proof.Machine

/-! ### Reading the wires (R90) -/

/-- What the transceiver reads on the wires. In BASEBAND and CARRIER, SPACE and IDLE are one
condition, read as `space`; in SHIFT, IDLE is the condition without a carrier. -/
inductive Reading where
  | mark
  | space
  | idle
  deriving DecidableEq, Repr

/-- The distance of two numbers. -/
def distance (a b : Nat) : Nat :=
  (a - b) + (b - a)

/-- A carrier's period, in nanoseconds, lies within 25 % of a period in microseconds (R90,
note 3). -/
def withinPeriod (periodNs p : Nat) : Bool :=
  4 * distance periodNs (1000 * p) ≤ 1000 * p

/-- A carrier read in SHIFT: within tolerance of both periods the nearer is taken, and the shorter
when it is exactly halfway (R90, note 3). -/
def readShiftCarrier (periodNs p1 p2 : Nat) : Reading :=
  if withinPeriod periodNs p1 && withinPeriod periodNs p2 then
    if distance periodNs (1000 * p1) < distance periodNs (1000 * p2) then .mark
    else if distance periodNs (1000 * p2) < distance periodNs (1000 * p1) then .space
    else if p1 < p2 then .mark
    else .space
  else if withinPeriod periodNs p1 then .mark
  else if withinPeriod periodNs p2 then .space
  else .idle

/-- The wires read under a profile (R90). DEDUCED (notes/assumptions/5.md): a carrier drives a
BASEBAND line, and a steady level is no carrier. -/
def Profile.reads (p : Profile) (w : Wire) : Reading :=
  match p.mode, w with
  | .baseband, .undriven => .space
  | .baseband, .steady => .mark
  | .baseband, .carrier _ => .mark
  | .carrier, .carrier period => if withinPeriod period p.p1 then .mark else .space
  | .carrier, .undriven => .space
  | .carrier, .steady => .space
  | .shift, .carrier period => readShiftCarrier period p.p1 p.p2
  | .shift, .undriven => .idle
  | .shift, .steady => .idle

/-- The reading is IDLE in the mode: any other reading is line activity (R90). -/
def Profile.readsIdle (p : Profile) (r : Reading) : Bool :=
  match p.mode, r with
  | .shift, .idle => true
  | .shift, _ => false
  | _, .mark => false
  | _, _ => true

/-- The wires are line activity (R90). -/
def Profile.isActivity (p : Profile) (w : Wire) : Bool :=
  !p.readsIdle (p.reads w)

/-! ### Keying (R93) -/

/-- A stretch of the keyed telegram: mark or space, and its length in units of U. -/
structure Keyed where
  mark : Bool
  units : Nat
  deriving DecidableEq, Repr

/-- The bits of a byte, least significant first. -/
def bitsOf (b : Byte) : List Bool :=
  (List.range 8).map fun i => b.getLsbD i

/-- The bits of a line telegram in the order keyed. -/
def telegramBits (bytes : List Byte) : List Bool :=
  bytes.flatMap bitsOf

/-- A bit keyed: its mark and its space. -/
def Profile.keyBit (p : Profile) (bit : Bool) : List Keyed :=
  [{ mark := true, units := if bit then p.oneMark else p.zeroMark },
    { mark := false, units := p.bitSpace }]

/-- A telegram keyed: leader mark, leader space, the bits, and a trailer of 1 U (R93). -/
def Profile.key (p : Profile) (bytes : List Byte) : List Keyed :=
  [{ mark := true, units := p.leaderMark }, { mark := false, units := p.leaderSpace }] ++
    (telegramBits bytes).flatMap p.keyBit ++ [{ mark := true, units := 1 }]

/-- The units of U that keyed stretches last. -/
def unitsOf (stretches : List Keyed) : Nat :=
  (stretches.map Keyed.units).sum

/-- The time a telegram occupies the line (R93). -/
def Profile.duration (p : Profile) (bytes : List Byte) : Nat :=
  unitsOf (p.key bytes) * p.unitTime * Config.microsecond

/-- The condition driven in the k-th unit, counted from 1; none past the last. -/
def drivenAt : List Keyed → Nat → Option Bool
  | [], _ => none
  | x :: rest, k => if k ≤ x.units then some x.mark else drivenAt rest (k - x.units)

/-- The sample at the end of the k-th unit of a telegram differs from what was driven (R95): a mark
must read MARK and a space must read SPACE. -/
def Profile.mismatch (p : Profile) (bytes : List Byte) (k : Nat) (sensed : Wire) : Bool :=
  match k, drivenAt (p.key bytes) k with
  | 0, _ => false
  | _, none => false
  | _, some true => p.reads sensed != .mark
  | _, some false => p.reads sensed != .space

/-! ### Receiving (R98, R100) -/

/-- A condition of the line as read, with its duration in microseconds. -/
structure Pulse where
  reading : Reading
  micros : Nat
  deriving DecidableEq, Repr

/-- A condition is added in front: one reading that lasts on is one pulse. -/
def joinPulse (x : Pulse) : List Pulse → List Pulse
  | [] => [x]
  | y :: rest =>
    if x.reading = y.reading then { y with micros := x.micros + y.micros } :: rest
    else x :: y :: rest

/-- The conditions of a reception as the transceiver reads them. -/
def Profile.pulses (p : Profile) (line : List LineSpan) : List Pulse :=
  line.foldr (fun x rest => joinPulse { reading := p.reads x.wire, micros := x.micros } rest) []

/-- The pulses without the idle condition at their end, which belongs to the line's return to
idle. -/
def Profile.dropIdle (p : Profile) : List Pulse → List Pulse
  | [] => []
  | x :: rest =>
    match p.dropIdle rest with
    | [] => if p.readsIdle x.reading then [] else [x]
    | y :: more => x :: y :: more

/-- A duration lies from 0.75 to 1.25 times n units (R98). -/
def Profile.inTolerance (p : Profile) (micros n : Nat) : Bool :=
  3 * n * p.unitTime ≤ 4 * micros && 4 * micros ≤ 5 * n * p.unitTime

/-- A bit mark judged (R98): none when it is out of tolerance. -/
def Profile.judgeBit (p : Profile) (micros : Nat) : Option Bool :=
  if p.inTolerance micros p.zeroMark && 2 * micros ≤ (p.zeroMark + p.oneMark) * p.unitTime then
    some false
  else if p.inTolerance micros p.oneMark &&
      (p.zeroMark + p.oneMark) * p.unitTime < 2 * micros then some true
  else none

/-- The pulses after the leader space judged in order (R98): the last mark is the trailer, every
earlier one a bit, every space a bit space. None when a pulse is bad. -/
def Profile.judgeBits (p : Profile) : List Pulse → Option (List Bool)
  | [] => none
  | [m] => if m.reading = .mark ∧ p.inTolerance m.micros 1 then some [] else none
  | m :: s :: rest =>
    if m.reading = .mark ∧ s.reading = .space ∧ p.inTolerance s.micros p.bitSpace then
      match rest with
      | [] => if p.inTolerance m.micros 1 then some [] else none
      | _ :: _ =>
        match p.judgeBit m.micros, p.judgeBits rest with
        | some b, some bits => some (b :: bits)
        | _, _ => none
    else none

/-- A whole reception judged (R98): leader mark, leader space, bits and trailer. -/
def Profile.judge (p : Profile) : List Pulse → Option (List Bool)
  | m :: s :: rest =>
    if m.reading = .mark ∧ p.inTolerance m.micros p.leaderMark ∧
        s.reading = .space ∧ p.inTolerance s.micros p.leaderSpace then p.judgeBits rest
    else none
  | _ => none

/-- A byte of eight bits, least significant first. -/
def byteOfBits (bits : List Bool) : Byte :=
  byteOf (bits.foldr (fun b n => (if b then 1 else 0) + 2 * n) 0)

/-- Bits assembled into bytes; none when they are not a whole number of bytes (R101). -/
def assembleBytes : List Bool → Option (List Byte)
  | [] => some []
  | b0 :: b1 :: b2 :: b3 :: b4 :: b5 :: b6 :: b7 :: rest =>
    match assembleBytes rest with
    | some bytes => some (byteOfBits [b0, b1, b2, b3, b4, b5, b6, b7] :: bytes)
    | none => none
  | _ => none

/-- The answer a reception carries, when its frame is good (R98, R101). -/
def Profile.receive (p : Profile) (line : List LineSpan) : Option LineAnswer :=
  match p.judge (p.dropIdle (p.pulses line)) with
  | none => none
  | some bits =>
    match assembleBytes bits with
    | none => none
    | some bytes => readAnswer bytes

/-- The time from the entry into RECEIVING to the line's return to idle (R100): the conditions up to
the last mark or carrier, and 1.25 times the space the decoder expects next, or in SHIFT 1.25 U. -/
def Profile.receptionTime (p : Profile) (line : List LineSpan) : Nat :=
  let pulses := p.dropIdle (p.pulses line)
  let expected :=
    match p.mode with
    | .shift => 1
    | _ => if pulses.length ≤ 1 then p.leaderSpace else p.bitSpace
  ((pulses.map Pulse.micros).sum * 4 + 5 * expected * p.unitTime) * (Config.microsecond / 4)

/-- The least duration of a stuck line, in microseconds (R99). -/
def stuckMicros : Nat := 1000000

/-- When the condition the line holds last, of all it has held since the entry into RECEIVING, is a
stuck line (R99): the microseconds from that entry to its start. -/
def Profile.stuckSince (p : Profile) (line : List LineSpan) : Option Nat :=
  match (p.pulses line).getLast? with
  | none => none
  | some x =>
    if p.readsIdle x.reading = false ∧ stuckMicros ≤ x.micros then
      some (((p.pulses line).dropLast.map Pulse.micros).sum)
    else none

/-! ### What the part drives (R90) -/

/-- What is driven onto the wires for a mark and for a space (R90). -/
def Profile.drives (p : Profile) (mark : Bool) : Wire :=
  match p.mode, mark with
  | .baseband, true => .steady
  | .baseband, false => .undriven
  | .carrier, true => .carrier (1000 * p.p1)
  | .carrier, false => .undriven
  | .shift, true => .carrier (1000 * p.p1)
  | .shift, false => .carrier (1000 * p.p2)

/-- The unit of a transmission that an instant falls in, counted from 1 (R93, R94). -/
def Profile.unitAt (p : Profile) (tx : Transmission) (instant : Nat) : Nat :=
  (instant - tx.startedAt) / (p.unitTime * Config.microsecond) + 1

/-- What the transceiver drives onto its line at an instant (R90, R93, R94): in SENDING, the mark or
space of the unit keyed then; nothing outside the telegram, in another state (R97), or during a reset
hold (R164). -/
def State.lineOut (s : State) (g : Seg) (instant : Nat) : Wire :=
  match s.running, (s.seg g).transceiver with
  | true, .sending tx =>
    if tx.startedAt ≤ instant then
      match drivenAt ((s.seg g).profile.key tx.telegram) ((s.seg g).profile.unitAt tx instant) with
      | some mark => (s.seg g).profile.drives mark
      | none => .undriven
    else .undriven
  | _, _ => .undriven

/-- The line of a segment is driven by the part at present (R90). -/
def State.lineDriven (s : State) (g : Seg) : Bool :=
  s.lineOut g s.pins.now != .undriven

end Sys2Proof.Machine
end

