-- ==== Sys2Proof/Machine/Release.lean ====
section
/-! DEFINITION. The Release Unit: eligibility, the examination, the pacer, expiry and re-deferral
(chapter 4), and the commands EXAMINATION, PACER_GAP_END and EXPIRY_CHECK. -/

namespace Sys2Proof.Machine

/-- A slot is eligible when its class is open (R54). -/
def State.eligible (s : State) (n : SlotNo) : Bool :=
  match s.slot n with
  | some r => s.classOpen r.cls
  | none => false

/-- The eligible slot nearest the front of the Deferral Queue (R54). -/
def State.oldestEligible (s : State) (g : Seg) : Option SlotNo :=
  (s.seg g).deferralQueue.find? s.eligible

/-- The Release Pacer is IDLE (R55). -/
def State.pacerIdle (s : State) (g : Seg) : Bool :=
  match (s.seg g).pacer with
  | .idle => true
  | .gap _ => false

/-- The slot an examination releases, when the three conditions of R57 hold. -/
def State.releasable (s : State) (g : Seg) : Option SlotNo :=
  if (s.seg g).sendQueue.length < Config.sendQueueLimit ∧ s.pacerIdle g then s.oldestEligible g
  else none

/-- The pacer at a release (R55): it enters GAP when the pacing gap is above 0. -/
def State.startPacer (s : State) (g : Seg) : State :=
  if (s.seg g).pacingGapMs = 0 then s
  else
    s.setSeg g { s.seg g with
      pacer := .gap (s.pins.now + (s.seg g).pacingGapMs * Config.millisecond) }

/-- A release (R57). -/
def State.release (s : State) (g : Seg) (n : SlotNo) : State :=
  (((s.leaveDeferralQueue g n).joinFresh g n).count Counter.releases).startPacer g

/-- Releases one after the other while the conditions of R57 hold, at most `fuel` times. -/
def State.releaseWhile (g : Seg) : Nat → State → State
  | 0, s => s
  | fuel + 1, s =>
    match s.releasable g with
    | some n => State.releaseWhile g fuel (s.release g n)
    | none => s

/-- An examination (R57, R59). Each release lengthens the Send Queue, so that 16 releases are more
than can be made. -/
def State.examine (s : State) (g : Seg) : State :=
  State.releaseWhile g Config.sendQueueLimit s

/-- The end instant of a gap: the pacer returns to IDLE and the unit examines (R60). With no gap
running there is no end and nothing changes. -/
def State.endPacerGap (s : State) (g : Seg) : State :=
  match (s.seg g).pacer with
  | .gap endsAt => ((s.reach endsAt).setSeg g { s.seg g with pacer := .idle }).examine g
  | .idle => s

/-- The hold deadline of a slot is at or below an uptime (R62, R64). -/
def Slot.deadlineReached (uptime : Nat) (r : Slot) : Bool :=
  r.holdDeadline ≤ uptime

/-- The expiry check of a Release Unit (R62). -/
def State.expire (s : State) (g : Seg) : State :=
  s.endAllDeferred g .expired (Slot.deadlineReached s.clock.uptime)

/-- A QUEUED slot that has failed the gate check is taken by the Release Unit (R64): it expires or
is re-deferred at its intake-order place. -/
def State.handBack (s : State) (g : Seg) (n : SlotNo) (r : Slot) : State :=
  if r.deadlineReached s.clock.uptime then (s.leaveSendQueue g n).report n .expired none
  else
    let t := s.leaveSendQueue g n
    ((((t.setSeg g { t.seg g with
        deferralQueue := t.insertByIntake (t.seg g).deferralQueue n r.intake }).modifySlot n
      fun x => x.enterDeferred .window t.clock.uptime).count Counter.redeferrals).owe
        (.examination g))

/-- EXPIRY_CHECK (R62). -/
def execExpiryCheck (g : Seg) : State → Host.Outcome State Fault Refusal :=
  whileRunning fun s => (s.settle (.expiryCheck g)).expire g

/-- EXAMINATION (R57, R58, R59). -/
def execExamination (g : Seg) : State → Host.Outcome State Fault Refusal :=
  whileRunning fun s => (s.settle (.examination g)).examine g

/-- PACER_GAP_END (R60). -/
def execPacerGapEnd (g : Seg) : State → Host.Outcome State Fault Refusal :=
  whileRunning fun s => s.endPacerGap g

end Sys2Proof.Machine
end

