-- ==== Sys2Proof/Machine/Scheduler.lean ====
section
/-! DEFINITION. The Segment Scheduler: line tags, the start walk, the start, the conflict streak and
the holds (chapter 5), and the command START_WALK. -/

namespace Sys2Proof.Machine

/-- The tags a line-tag counter passes over (R79). -/
def Segment.takenTags (x : Segment) : List Byte :=
  x.outstanding.map Outstanding.tag ++ x.ring.map Retired.tag

/-- The next value after `t`, modulo 256, that is not taken; at most `fuel` values are tried. -/
def nextFreeTag (taken : List Byte) : Nat → Byte → Byte
  | 0, t => t
  | fuel + 1, t => if (t + 1) ∈ taken then nextFreeTag taken fuel (t + 1) else t + 1

/-- The tag a start gives (R79). At most 12 values are taken, so that 256 tries are enough. -/
def Segment.nextTag (x : Segment) : Byte :=
  nextFreeTag x.takenTags 256 x.tagCounter

/-- The segment is ACTIVE (R80). -/
def SegmentState.isActive : SegmentState → Bool
  | .active => true
  | .held _ => false

/-- The transceiver is IDLE. -/
def Transceiver.isIdle : Transceiver → Bool
  | .idle => true
  | _ => false

/-- The profile in force once a start has adopted a pending one (R92). -/
def Segment.adopted (x : Segment) : Profile :=
  x.pendingProfile.getD x.profile

/-- The chain of a segment once a slot has been started with a tag: the counter keeps the tag, the
pending profile is adopted and the transceiver enters SENDING (R78, R79, R92, R94). -/
def Segment.startSending (x : Segment) (tx : Transmission) : Segment :=
  { x with
    tagCounter := tx.tag
    profile := x.adopted
    pendingProfile := none
    transceiver := .sending tx }

/-- A slot starts (R78). -/
def State.start (s : State) (g : Seg) (n : SlotNo) (r : Slot) : State :=
  let tag := (s.seg g).nextTag
  let t := s.leaveSendQueue g n
  ((t.setSeg g ((t.seg g).startSending
      { slot := n, tag := tag, telegram := commandTelegram r tag, startedAt := s.pins.now })).modifySlot
    n fun x => { x with attempts := x.attempts + 1, lineTag := some tag }).count (Counter.starts g)

/-- The slot may start under the outstanding limit (R76). -/
def State.mayStart (s : State) (g : Seg) (r : Slot) : Bool :=
  !r.answerExpected || (s.seg g).outstanding.length < Config.outstandingSize

/-- The start walk over the entries that remain (R76): pass over, hand back, or start and end. -/
def State.walkFrom (g : Seg) : List SlotNo → State → State
  | [], s => s
  | n :: rest, s =>
    match s.slot n with
    | none => State.walkFrom g rest s
    | some r =>
      if s.mayStart g r then
        if s.classOpen r.cls then s.start g n r
        else State.walkFrom g rest (s.handBack g n r)
      else State.walkFrom g rest s

/-- The test of R75 and, when its conditions hold, the walk of R76. -/
def State.walk (s : State) (g : Seg) : State :=
  if (s.seg g).state.isActive ∧ (s.seg g).transceiver.isIdle then
    State.walkFrom g (s.seg g).sendQueue s
  else s

/-- A segment is held for a line fault, with its notice (R83, R84). -/
def State.holdForFault (s : State) (g : Seg) (fault : LineFault) : State :=
  (s.setSeg g { s.seg g with state := .held .lineFault }).queueNotice (.lineFault g fault)

/-- The scheduler is told of a transmission that ended without conflict (R83). -/
def State.clearStreak (s : State) (g : Seg) : State :=
  s.setSeg g { s.seg g with conflictStreak := 0 }

/-- The scheduler is told of a conflict abort (R83): CONFLICTS is counted and the streak rises; at 8
the segment is held. -/
def State.raiseStreak (s : State) (g : Seg) : State :=
  let streak := min ((s.seg g).conflictStreak + 1) Config.conflictLimit
  let t := (s.count (Counter.conflicts g)).setSeg g { s.seg g with conflictStreak := streak }
  if streak = Config.conflictLimit then t.holdForFault g .conflicts else t

/-- START_WALK (R75, R76). -/
def execStartWalk (g : Seg) : State → Host.Outcome State Fault Refusal :=
  whileRunning fun s => (s.settle (.startWalk g)).walk g

end Sys2Proof.Machine
end

