-- ==== Sys2Proof/Machine/Tracker.lean ====
section
/-! DEFINITION. The Answer Tracker and the Line Transceiver's ends: the Outstanding List, the Retired
Ring, the retry decision, answers, and the commands of the segment line (chapters 6 and 7). -/

namespace Sys2Proof.Machine

/-! ### Outstanding List and Retired Ring -/

/-- The transceiver enters QUIET; a quiet gap of the current profile begins now (R97). -/
def State.enterQuiet (s : State) (g : Seg) : State :=
  s.setSeg g { s.seg g with
    transceiver := .quiet (s.pins.now + (s.seg g).profile.quietGap * Config.millisecond) }

/-- An entry is added at the newest end of the ring; past eight the oldest is dropped (R105). -/
def pushRing (ring : List Retired) (x : Retired) : List Retired :=
  (ring ++ [x]).drop ((ring ++ [x]).length - Config.ringSize)

/-- The intake number of a slot; 0 for a FREE slot, which no entry names while it is outstanding. -/
def State.intakeOf (s : State) (n : SlotNo) : Intake :=
  match s.slot n with
  | some r => r.intake
  | none => 0

/-- An entry leaves the Outstanding List by answer or by timeout and enters the ring; a start walk is
owed (R75, R104, R105). -/
def State.retire (s : State) (g : Seg) (e : Outstanding) (reason : RetireReason) : State :=
  (s.setSeg g { s.seg g with
    outstanding := (s.seg g).outstanding.erase e
    ring := pushRing (s.seg g).ring
      { tag := e.tag, device := e.device, slot := e.slot, intake := s.intakeOf e.slot,
        reason := reason } }).owe (.startWalk g)

/-- The retry decision for a slot whose attempt has failed (R109); the line tag becomes absent. -/
def State.retryDecision (s : State) (g : Seg) (n : SlotNo) (failure : ReportOutcome) : State :=
  match s.slot n with
  | none => s
  | some r =>
    if r.attempts < 1 + r.retryLimit.val then
      if (s.livePolicy r.cls).isSome then
        (s.modifySlot n fun x => { x with lineTag := none }).joinReentry g n
      else s.report n .withdrawn none
    else s.report n failure none

/-! ### The ends of a transmission -/

/-- A slot whose transmission ended without conflict (R106): AWAITING with an outstanding entry and
its timer, or SENT. -/
def State.afterTransmission (s : State) (g : Seg) (tx : Transmission) : State :=
  match s.slot tx.slot with
  | none => s
  | some r =>
    if r.answerExpected then
      s.setSeg g { s.seg g with
        outstanding := (s.seg g).outstanding ++
          [{ tag := tx.tag, device := r.device, slot := tx.slot,
             expiry := s.pins.now + r.answerTimeoutMs * Config.millisecond }] }
    else s.report tx.slot .sent none

/-- The end of a transmission without conflict (R96, R106). -/
def State.endTransmission (s : State) (g : Seg) : State :=
  match (s.seg g).transceiver with
  | .sending tx =>
    let t := s.reach (tx.startedAt + (s.seg g).profile.duration tx.telegram)
    ((t.enterQuiet g).clearStreak g).afterTransmission g tx
  | _ => s

/-- A sample that does not match aborts the transmission (R95, R83, R110). A sample that matches, or
that falls outside the transmission, is no conflict and changes nothing. -/
def State.abort (s : State) (g : Seg) (k : Nat) (sensed : Wire) : State :=
  match (s.seg g).transceiver with
  | .sending tx =>
    if (s.seg g).profile.mismatch tx.telegram k sensed then
      let t := s.reach
        (tx.startedAt + k * (s.seg g).profile.unitTime * Config.microsecond)
      ((t.enterQuiet g).raiseStreak g).retryDecision g tx.slot .lineFailed
    else s
  | _ => s

/-! ### Timers and answers -/

/-- The timer of the outstanding entry with a tag runs out (R108). -/
def State.timeOut (s : State) (g : Seg) (tag : Byte) : State :=
  match (s.seg g).outstanding.find? fun e => e.tag == tag with
  | none => s
  | some e =>
    (((s.reach e.expiry).retire g e .timedOut).count (Counter.timeouts g)).retryDecision g e.slot
      .noAnswer

/-- Where a slot that passes the intake check waits (R11). -/
inductive Waiting where
  | deferred
  | queued
  deriving DecidableEq, Repr

/-- The intake check (R11): the slot is in use, holds the intake number, and is DEFERRED or
QUEUED. -/
def State.intakeCheck (s : State) (n : SlotNo) (intake : Intake) : Option (Waiting × Seg) :=
  match s.slot n with
  | none => none
  | some r =>
    if r.intake = intake then
      if n ∈ (s.seg r.segment).deferralQueue then some (.deferred, r.segment)
      else if n ∈ (s.seg r.segment).sendQueue then some (.queued, r.segment)
      else none
    else none

/-- A late answer, for a ring entry of reason TIMED_OUT (R111, row 4). -/
def State.lateAnswer (s : State) (g : Seg) (x : Retired) (a : AnswerPart) : State :=
  match s.intakeCheck x.slot x.intake with
  | none => s.count (Counter.lateAnswers g)
  | some (place, h) =>
    let t := s.setSeg g { s.seg g with
      ring := (s.seg g).ring.map fun y =>
        if y.tag = x.tag ∧ y.device = x.device then { y with reason := .answered } else y }
    match place with
    | .deferred => t.endDeferred h .answeredLate (some a) x.slot
    | .queued => t.endQueued h .answeredLate (some a) x.slot

/-- An answer resolved by the first matching row of R111. -/
def State.resolve (s : State) (g : Seg) (a : LineAnswer) : State :=
  match (s.seg g).outstanding.find? fun e => e.tag == a.tag with
  | some e =>
    if e.device = a.device then
      (s.retire g e .answered).report e.slot .answered (some a.part)
    else s.count (Counter.unknownAnswers g)
  | none =>
    match (s.seg g).ring.find? fun x => x.tag == a.tag && x.device == a.device with
    | some x =>
      match x.reason with
      | .answered => s.count (Counter.duplicateAnswers g)
      | .timedOut => s.lateAnswer g x a.part
    | none => s.count (Counter.unknownAnswers g)

/-! ### Receptions -/

/-- Line activity begins (R97, R98): IDLE or QUIET gives way to RECEIVING, with a frame already bad
when the first condition is a SPACE. In SENDING only the echo check meets it. -/
def State.beginReception (s : State) (g : Seg) (sensed : Wire) : State :=
  if (s.seg g).profile.isActivity sensed then
    let rx : Reception :=
      { since := s.pins.now, bad := (s.seg g).profile.reads sensed == .space, stuck := none }
    match (s.seg g).transceiver with
    | .idle => s.setSeg g { s.seg g with transceiver := .receiving rx }
    | .quiet _ => s.setSeg g { s.seg g with transceiver := .receiving rx }
    | .sending _ => s
    | .receiving _ => s
  else s

/-- The condition that began at an instant has been reported as a stuck line (R99). -/
def Reception.reported (rx : Reception) (start : Nat) : Bool :=
  rx.stuck.any fun b => start ≤ b

/-- A stuck line is reported (R84, R99), 1 s after its condition began: the frame is bad and the segment
is held. Each unbroken condition is reported once; without a condition of 1 s there is nothing to
report. -/
def State.stuckLine (s : State) (g : Seg) (line : List LineSpan) : State :=
  match (s.seg g).transceiver, (s.seg g).profile.stuckSince line with
  | .receiving rx, some micros =>
    let start := rx.since + micros * Config.microsecond
    if rx.reported start then s
    else
      ((s.reach (start + Config.second)).setSeg g
        { s.seg g with
          transceiver := .receiving { rx with bad := true, stuck := some start } }).holdForFault g
        .stuckLine
  | _, _ => s

/-- The line returns idle (R100): the frame is checked and counted bad or resolved, and a quiet gap
begins. -/
def State.endReception (s : State) (g : Seg) (line : List LineSpan) : State :=
  match (s.seg g).transceiver with
  | .receiving rx =>
    let t := (s.reach (rx.since + (s.seg g).profile.receptionTime line)).enterQuiet g
    match rx.bad, (s.seg g).profile.receive line with
    | false, some a => t.resolve g a
    | _, _ => t.count (Counter.badLineFrames g)
  | _ => s

/-- The quiet gap runs out: the transceiver becomes IDLE, which is an occasion for a walk (R97). -/
def State.endQuietGap (s : State) (g : Seg) : State :=
  match (s.seg g).transceiver with
  | .quiet endsAt => ((s.reach endsAt).setSeg g { s.seg g with transceiver := .idle }).walk g
  | _ => s

/-! ### Commands -/

/-- CONFLICT_ABORT (R95). -/
def execConflictAbort (g : Seg) (sampleUnit : Nat) (sensed : Wire) :
    State → Host.Outcome State Fault Refusal :=
  whileRunning fun s => s.abort g sampleUnit sensed

/-- TRANSMISSION_END (R96). -/
def execTransmissionEnd (g : Seg) : State → Host.Outcome State Fault Refusal :=
  whileRunning fun s => s.endTransmission g

/-- QUIET_GAP_END (R97). -/
def execQuietGapEnd (g : Seg) : State → Host.Outcome State Fault Refusal :=
  whileRunning fun s => s.endQuietGap g

/-- LINE_ACTIVITY (R98). -/
def execLineActivity (g : Seg) (sensed : Wire) : State → Host.Outcome State Fault Refusal :=
  whileRunning fun s => s.beginReception g sensed

/-- STUCK_LINE (R99). -/
def execStuckLine (record : LineRecord) : State → Host.Outcome State Fault Refusal :=
  whileRunning fun s => s.stuckLine record.segment record.spans

/-- RECEPTION_END (R100). -/
def execReceptionEnd (g : Seg) (line : List LineSpan) : State → Host.Outcome State Fault Refusal :=
  whileRunning fun s => s.endReception g line

/-- ANSWER_TIMER_EXPIRY (R108). -/
def execAnswerTimerExpiry (g : Seg) (tag : Byte) : State → Host.Outcome State Fault Refusal :=
  whileRunning fun s => s.timeOut g tag

end Sys2Proof.Machine
end

