-- ==== Sys2Proof/Machine/Reporting.lean ====
section
/-! DEFINITION. The Report Unit and the trunk transmitter: report formation, the trunk send arbiter,
the end of a transmission, and the reset it can bring (chapter 8, R159, R164). -/

namespace Sys2Proof.Machine

/-- The oldest slot of the Backlog gives its report to the Report Queue and becomes FREE (R10,
R119); the test that follows each formation is owed. A Backlog entry that names a FREE slot, which
R5 excludes, has no report to form. -/
def State.formOldest (s : State) (n : SlotNo) (rest : List SlotNo) : State :=
  let t := { s with reports.backlog := rest }
  match s.slot n with
  | none => t.owe .formation
  | some r =>
    match r.outcome with
    | none => (t.free n).owe .formation
    | some outcome => ((t.pushReport (t.reportOf r outcome)).free n).owe .formation

/-- Report formation (R119). -/
def State.formReport (s : State) : State :=
  match s.reports.backlog with
  | [] => s
  | n :: rest => if s.reportRoom then s.formOldest n rest else s

/-- The time a frame occupies TTX: 10 bit-times for each of its L + 4 bytes (R157, R159). -/
def State.frameTime (s : State) (frame : List Byte) : Nat :=
  frame.length * 10 * Config.bitTime s.pins.latched.rate

/-- The transmitter starts sending an entry (R125, R159). -/
def State.send (s : State) (e : Outgoing) : State :=
  let frame := e.frame s.ownAddress
  let endsAt := s.pins.now + s.frameTime frame
  { s with port.transmitter := .sending e frame endsAt }

/-- What stands on TTX for one bit-time (R157). -/
inductive TrunkBit where
  | start
  | data (bit : Bool)
  | stop
  deriving DecidableEq, Repr

/-- A byte on the trunk: a start bit, 8 data bits, least significant first, and a stop bit (R157). -/
def byteBits (b : Byte) : List TrunkBit :=
  .start :: (bitsOf b).map .data ++ [.stop]

/-- A frame on TTX: its bytes with no idle time between them (R159). -/
def frameBits (frame : List Byte) : List TrunkBit :=
  frame.flatMap byteBits

/-- What stands on TTX at an instant (R157, R159): a bit of the frame sent, from the start of its
transmission to its end; and the level of a stop bit while the transmitter is idle and during a reset
hold (R159, R164). -/
def State.ttxOut (s : State) (instant : Nat) : TrunkBit :=
  match s.running, s.port.transmitter with
  | true, .sending _ frame endsAt =>
    if endsAt ≤ instant + s.frameTime frame ∧ instant < endsAt then
      (frameBits frame).getD
        ((instant + s.frameTime frame - endsAt) / Config.bitTime s.pins.latched.rate) .stop
    else .stop
  | _, _ => .stop

/-- The arbiter's take from the Response, Notice and Report Queues, in that order (R125). -/
def State.takeEntry (s : State) : State :=
  match s.reports.responseQueue with
  | r :: rest => State.send { s with reports.responseQueue := rest } (.response r)
  | [] =>
    match s.reports.noticeQueue with
    | n :: rest => State.send { s with reports.noticeQueue := rest } (.notice n)
    | [] =>
      match s.reports.reportQueue with
      | r :: rest => (State.send { s with reports.reportQueue := rest } (.report r)).owe .formation
      | [] => s

/-- The trunk send arbiter acts while the transmitter is idle (R125). -/
def State.arbitrate (s : State) : State :=
  if s.transmitterIdle then s.takeEntry else s

/-- The request code of RESTART (R162). -/
def restartCode : Byte := 0x14

/-- The entry is the response to an accepted RESTART (R126, R140). -/
def Outgoing.isRestartResponse : Outgoing → Bool
  | .response r => r.code == restartCode && r.status == .ok
  | .notice _ => false
  | .report _ => false

/-- A reset takes effect (R164): every block takes the state its chapter gives, the straps are
latched, the cause is recorded and the STARTED notice is queued. The supply, RST_N and the queue of
waiting commands stand outside the reset. -/
def State.resetTakesEffect (s : State) (cause : StartCause) (straps : StrapPins) : State :=
  { State.afterReset cause straps with
    pins :=
      { (State.afterReset cause straps).pins with
        supplyUp := s.pins.supplyUp, rstN := s.pins.rstN }
    pending := s.pending }

/-- A trunk transmission ends (R126): the transmitter becomes idle, an occasion for the arbiter;
after the RESTART response the reset takes effect. -/
def State.endTrunkTransmission (s : State) (straps : StrapPins) : State :=
  match s.port.transmitter with
  | .idle => s
  | .sending e _ endsAt =>
    if e.isRestartResponse then s.resetTakesEffect .restart straps
    else
      State.owe
        { s.reach endsAt with
          port.transmitter := .idle
          pins.straps := straps } .take

/-- REPORT_FORMATION (R119). -/
def execReportFormation : State → Host.Outcome State Fault Refusal :=
  whileRunning fun s => (s.settle .formation).formReport

/-- ARBITER_TAKE (R125). -/
def execArbiterTake : State → Host.Outcome State Fault Refusal :=
  whileRunning fun s => (s.settle .take).arbitrate

/-- TRUNK_TRANSMISSION_END (R126, R140). -/
def execTrunkTransmissionEnd (straps : StrapPins) : State → Host.Outcome State Fault Refusal :=
  whileRunning fun s => s.endTrunkTransmission straps

end Sys2Proof.Machine
end

