-- ==== Sys2Proof/Machine/Admission.lean ====
section
/-! DEFINITION. The Admission Unit (chapter 2): source screening, the checks, allocation,
displacement, placement, and the reports formed at admission. -/

namespace Sys2Proof.Machine

/-! ### Refusals -/

/-- The report of a refusal (R31). -/
def State.refusalReport (s : State) (t : CommandTelegram) (outcome : ReportOutcome)
    (segment : Option Seg) : Report where
  destination := t.source
  seq := t.seq
  cls := t.cls
  outcome := outcome
  segment := segment
  attempts := 0
  deferredSeconds := 0
  stamp := s.clock.uptime
  intake := none
  answer := none
  nextOpening := none

/-- A refusal (R31): its counter, and its report or UNREPORTED. -/
def State.refuse (s : State) (t : CommandTelegram) (outcome : ReportOutcome)
    (segment : Option Seg) : State :=
  if s.reportRoom then (s.count outcome.counter).pushReport (s.refusalReport t outcome segment)
  else (s.count outcome.counter).count Counter.unreported

/-! ### Route and slot -/

/-- The segment of the defined active entry whose range contains an address (R20). -/
def Tables.routeOf (tables : Tables) (d : Addr) : Option Seg :=
  (tables.routes.toList.findSome? fun entry =>
    match entry with
    | some r => if r.first ≤ d ∧ d ≤ r.last then some r.segment else none
    | none => none)

/-- The fixed group and the snapshot of a newly admitted slot (R1, R2, R4). -/
def newSlot (t : CommandTelegram) (p : ClassPolicy) (g : Seg) (uptime : Nat) (intake : Intake) :
    Slot where
  intake := intake
  source := t.source
  seq := t.seq
  cls := t.cls
  device := t.destination
  payload := t.payload
  segment := g
  admittedAt := uptime
  priority := p.priority
  answerExpected := p.answerExpected
  retryLimit := p.retryLimit
  answerTimeoutMs := 10 * p.answerTimeout
  notifyOnDefer := p.notifyOnDefer
  holdDeadline := uptime + p.holdLimit
  attempts := 0
  deferredSeconds := 0
  deferral := none
  lineTag := none
  outcome := none
  answer := none

/-- The deferred slots of a segment whose snapshot priority is below a priority (R25). -/
def State.candidatesOf (s : State) (p : Fin 4) (g : Seg) : List (Seg × SlotNo × Slot) :=
  (s.seg g).deferralQueue.filterMap fun n =>
    match s.slot n with
    | some r => if r.priority < p then some (g, n, r) else none
    | none => none

/-- The candidates for displacement (R25). -/
def State.candidates (s : State) (p : Fin 4) : List (Seg × SlotNo × Slot) :=
  s.candidatesOf p 0 ++ s.candidatesOf p 1 ++ s.candidatesOf p 2 ++ s.candidatesOf p 3

/-- A candidate is given up before another (R25): lower priority, then younger. -/
def Slot.givenUpBefore (a b : Slot) : Bool :=
  a.priority < b.priority || (a.priority == b.priority && Intake.older b.intake a.intake)

/-- The candidate given up before every other (R25). -/
def chooseVictim : List (Seg × SlotNo × Slot) → Option (Seg × SlotNo × Slot)
  | [] => none
  | x :: rest =>
    match chooseVictim rest with
    | none => some x
    | some y => if y.2.2.givenUpBefore x.2.2 then some y else some x

/-- A displacement (R8, R26): the victim leaves its Deferral Queue and its DISPLACED report is formed
and counted; its slot is free to be allocated, with no comparison of occupancy. -/
def State.displace (s : State) (h : Seg) (n : SlotNo) (r : Slot) : State :=
  let t := s.leaveDeferralQueue h n
  (t.pushReport (t.reportOf (r.leaveDeferred s.clock.uptime) .displaced)).count
    ReportOutcome.displaced.counter

/-- Step 5 of R17: a slot for a newcomer of a priority, by allocation of the lowest-numbered FREE
slot (R24) or by displacement (R25, R26); none when neither is to be had (R27). -/
def State.takeSlot (s : State) (p : Fin 4) (record : Intake → Slot) : Option (SlotNo × State) :=
  match s.freeList with
  | n :: _ => some (n, (s.allocate n record).checkHigh)
  | [] =>
    match chooseVictim (s.candidates p) with
    | none => none
    | some (h, n, r) =>
      if s.reportRoom then some (n, (s.displace h n r).allocate n record) else none

/-! ### Placement -/

/-- The interim report of a slot just deferred (R30). -/
def State.interimReport (s : State) (r : Slot) (reason : DeferralReason) : Report :=
  { s.reportOf r .deferred with
    attempts := 0
    deferredSeconds := 0
    answer := none
    nextOpening :=
      match reason with
      | .window => some (s.nextOpening r.cls)
      | .space => none
      | .order => none }

/-- The interim report is formed, or counted INTERIM_LOST, when the class asks for notice (R30). -/
def State.interim (s : State) (r : Slot) (reason : DeferralReason) : State :=
  if r.notifyOnDefer then
    if s.reportRoom then s.pushReport (s.interimReport r reason) else s.count Counter.interimLost
  else s

/-- A deferral at admission (R29, R30). -/
def State.deferNew (s : State) (g : Seg) (n : SlotNo) (r : Slot) (reason : DeferralReason) : State :=
  ((s.deferAtBack g n reason).count Counter.deferrals).interim r reason

/-- Placement (R28, R29). -/
def State.place (s : State) (g : Seg) (n : SlotNo) (r : Slot) (holdLimit : Nat) : State :=
  if ¬ s.classOpen r.cls then s.deferNew g n r .window
  else if ¬ (s.seg g).sendQueue.length < Config.sendQueueLimit then s.deferNew g n r .space
  else if holdLimit = 0 ∨ s.oldestEligible g = none then s.joinFresh g n
  else s.deferNew g n r .order

/-- Steps 5 and 6 of R17. -/
def State.admitRouted (s : State) (t : CommandTelegram) (p : ClassPolicy) (g : Seg) : State :=
  match s.takeSlot p.priority (newSlot t p g s.clock.uptime) with
  | none => s.refuse t .refusedStoreFull (some g)
  | some (n, s1) =>
    match s1.slot n with
    | some r => s1.place g n r p.holdLimit
    | none => s1

/-- The checks of R17 in order, from the duplicate check on. -/
def State.admitScreened (s : State) (t : CommandTelegram) : State :=
  if s.pairHeld t.source t.seq then s.refuse t .refusedDuplicate none
  else
    match s.bank.active.routeOf t.destination with
    | none => s.refuse t .refusedNoRoute none
    | some g =>
      match s.livePolicy t.cls with
      | none => s.refuse t .refusedNoPolicy none
      | some p =>
        if p.holdLimit = 0 ∧ ¬ s.classOpen t.cls then s.refuse t .refusedClosed (some g)
        else if p.holdLimit = 0 ∧ ¬ (s.seg g).sendQueue.length < Config.sendQueueLimit then
          s.refuse t .refusedSegmentFull (some g)
        else s.admitRouted t p g

/-- The admission action: the screening of the source (R18), then the checks (R17). -/
def State.takeCommand (s : State) (t : CommandTelegram) : State :=
  if t.source = 0 ∨ t.source = s.ownAddress then s.count Counter.badAddress
  else s.admitScreened t

/-- The assembler returns to HUNT in the action that completes a frame (R158). -/
def State.frameTaken (s : State) : State :=
  { s with port.assembler := .hunt }

/-- ADMISSION (R17). A telegram with a payload of more than 48 bytes is stopped at the Trunk Port and
counted FRAME_ERROR (R17, R158). -/
def execAdmission (t : CommandTelegram) : State → Host.Outcome State Fault Refusal :=
  whileRunning fun s =>
    if t.payload.length ≤ Config.maxPayload then s.frameTaken.takeCommand t
    else s.frameTaken.count Counter.frameError

end Sys2Proof.Machine
end

