-- ==== Sys2Proof/Machine/TableBank.lean ====
section
/-! DEFINITION. The Table Bank: entries read and written, the validation, the commit end and its
traffic steps (chapter 10), and the command COMMIT_END. -/

namespace Sys2Proof.Machine

/-! ### Entries -/

/-- The entry of an image in its format, when it is defined (R145, R162); none for an undefined entry
and for an index the table does not have. -/
def Tables.entryBytes (tables : Tables) (table : TableName) (index : Nat) : Option (List Byte) :=
  match table with
  | .route => (tables.routes[index]?.join).map Route.bytes
  | .cls => (tables.classes[index]?.join).map ClassPolicy.bytes
  | .window => (tables.windows[index]?.join).map Window.bytes

/-- A staging entry undefined (R146). -/
def Tables.undefine (tables : Tables) (table : TableName) (index : Nat) : Tables :=
  match table with
  | .route => { tables with routes := tables.routes.setIfInBounds index none }
  | .cls => { tables with classes := tables.classes.setIfInBounds index none }
  | .window => { tables with windows := tables.windows.setIfInBounds index none }

/-- A staging entry defined with the fields its format carries; none when a field fails a check of
R146. -/
def Tables.define (tables : Tables) (table : TableName) (index : Nat) (format : List Byte) :
    Option Tables :=
  match table with
  | .route =>
    (readRoute format).map fun x =>
      { tables with routes := tables.routes.setIfInBounds index (some x) }
  | .cls =>
    (readClass format).map fun x =>
      { tables with classes := tables.classes.setIfInBounds index (some x) }
  | .window =>
    (readWindow format).map fun x =>
      { tables with windows := tables.windows.setIfInBounds index (some x) }

/-- The number of defined entries of an image (R148). -/
def Tables.definedEntries (tables : Tables) : Nat :=
  tables.routes.toList.countP Option.isSome + tables.classes.toList.countP Option.isSome +
    tables.windows.toList.countP Option.isSome

/-- The time a validation takes: 4 ms, and 0.125 ms for each defined staging entry (R148). -/
def Tables.validationTime (tables : Tables) : Nat :=
  4 * Config.millisecond + tables.definedEntries * (Config.millisecond / 8)

/-! ### Validation (R149) -/

/-- The first failure that a check of single entries finds among the entries listed. -/
def firstFailure (check : Nat → Option CommitFailure) : List Nat → Option CommitFailure
  | [] => none
  | i :: rest =>
    match check i with
    | some f => some f
    | none => firstFailure check rest

/-- Check 1 on a window entry. -/
def Tables.checkWindow (tables : Tables) (i : Nat) : Option CommitFailure :=
  match tables.windows[i]?.join with
  | none => none
  | some w =>
    if w.dayMask = 0 then some { table := .window, index := i, reason := .emptyDayMask } else none

/-- Checks 2 and 3 on a class entry. -/
def Tables.checkClass (tables : Tables) (i : Nat) : Option CommitFailure :=
  match tables.classes[i]?.join with
  | none => none
  | some p =>
    if ¬ p.windows.Nodup then some { table := .cls, index := i, reason := .duplicateWindow }
    else if p.windows.all fun w => tables.windows[w].isSome then none
    else some { table := .cls, index := i, reason := .undefinedWindow }

/-- An address is a field device address, 1 to 4079. -/
def isDeviceAddress (a : Addr) : Bool :=
  1 ≤ a.toNat && a.toNat ≤ 4079

/-- Two ranges share an address (R149, note 2). -/
def Route.overlaps (a b : Route) : Bool :=
  a.first ≤ b.last && b.first ≤ a.last

/-- A route entry shares an address with a defined entry of lower index. -/
def Tables.overlapsLower (tables : Tables) (i : Nat) (r : Route) : Bool :=
  (tables.routes.toList.take i).any fun entry => entry.any fun q => q.overlaps r

/-- Checks 4 to 6 on a route entry. -/
def Tables.checkRoute (tables : Tables) (i : Nat) : Option CommitFailure :=
  match tables.routes[i]?.join with
  | none => none
  | some r =>
    if ¬ (isDeviceAddress r.first ∧ isDeviceAddress r.last) then
      some { table := .route, index := i, reason := .addressOutOfRange }
    else if ¬ r.first ≤ r.last then
      some { table := .route, index := i, reason := .rangeReversed }
    else if tables.overlapsLower i r then
      some { table := .route, index := i, reason := .rangeOverlap }
    else none

/-- The validation of a staging image: the first failure, in the order of R149. -/
def Tables.validate (tables : Tables) : Option CommitFailure :=
  match firstFailure tables.checkWindow (List.range 32) with
  | some f => some f
  | none =>
    match firstFailure tables.checkClass (List.range 16) with
    | some f => some f
    | none => firstFailure tables.checkRoute (List.range 64)

/-! ### The commit end -/

/-- A response joins the back of the Response Queue (R124). -/
def State.pushResponse (s : State) (r : Response) : State :=
  State.oweTake { s with reports.responseQueue := s.reports.responseQueue ++ [r] }

/-- The request code of COMMIT (R162). -/
def commitCode : Byte := 0x09

/-- A validation that found a failure ends (R150). -/
def State.commitFailed (s : State) (source : Addr) (seq : Byte) (f : CommitFailure) : State :=
  State.pushResponse
    { s with agent.commit := .idle, agent.lastCommit := .failed f }
    { destination := source, seq := seq, code := commitCode, status := .commitFailed,
      result := f.bytes }

/-- Steps 1 to 4 of R151: the swap, the generation, the agent's state and the response. -/
def State.swapTables (s : State) (source : Addr) (seq : Byte) : State :=
  State.pushResponse
    { s with
      bank := { active := s.bank.staging, staging := s.bank.staging,
                generation := s.bank.generation + 1 }
      agent.commit := .idle
      agent.lastCommit := .ok }
    { destination := source, seq := seq, code := commitCode, status := .ok,
      result := twoBytes (s.bank.generation + 1).toNat }

/-- The slot's class is undefined in the active Class Policy Table (R66, R85). -/
def State.classUndefined (s : State) (r : Slot) : Bool :=
  (s.livePolicy r.cls).isNone

/-- The withdrawal on one segment: the Release Unit's, then the Segment Scheduler's (R152). -/
def State.withdraw (s : State) (g : Seg) : State :=
  (s.endAllDeferred g .withdrawn s.classUndefined).endAllQueued g .withdrawn s.classUndefined

/-- The traffic steps of R152: withdrawal, evaluation, and the examination each Release Unit owes
for the commit end (R58). -/
def State.commitTraffic (s : State) : State :=
  ((((s.withdraw 0).withdraw 1).withdraw 2).withdraw 3).evaluateWindows.oweExaminations

/-- The commit end (R150, R151, R152). With no validation running there is none. -/
def State.endCommit (s : State) : State :=
  match s.agent.commit with
  | .idle => s
  | .validating endsAt source seq =>
    match s.bank.staging.validate with
    | some f => (s.reach endsAt).commitFailed source seq f
    | none => ((s.reach endsAt).swapTables source seq).commitTraffic

/-- COMMIT_END (R150, R151). -/
def execCommitEnd : State → Host.Outcome State Fault Refusal :=
  whileRunning fun s => s.endCommit

end Sys2Proof.Machine
end

