-- ==== Sys2Proof/Machine/Agent.lean ====
section
/-! DEFINITION. The Management Agent: the path of a request (R130 to R133) and the own checks,
effect and result of every request (R134 to R142 and the owners' rules). -/

namespace Sys2Proof.Machine

/-! ### The path of a request (R130) -/

/-- What the own checks and the effect of a request give (steps 7 and 8 of R130): a status that ends
the request; or OK with a result, the part after the effect, and the consequence that follows once
the response is placed (R136); or the start of a COMMIT, whose response comes later (R131). -/
inductive Verdict where
  | fail (status : Status)
  | done (result : List Byte) (after : State) (consequence : State → State)
  | started (after : State)

/-- A COMMIT is in progress (R133). -/
def State.validating (s : State) : Bool :=
  match s.agent.commit with
  | .idle => false
  | .validating _ _ _ => true

/-- The Response Queue has room (R131): a place is held while the commit state is VALIDATING. -/
def State.responseRoom (s : State) : Bool :=
  s.reports.responseQueue.length + (if s.validating then 1 else 0) < Config.responseQueueSize

/-- The source may make write requests (R132). -/
def State.mayWrite (s : State) (source : Addr) : Bool :=
  s.agent.managers.isEmpty || s.agent.managers.contains source

/-- The response to a request (R124). -/
def State.respond (s : State) (code : Byte) (r : Request) (status : Status) (result : List Byte) :
    State :=
  s.pushResponse
    { destination := r.source, seq := r.seq, code := code, status := status, result := result }

/-- What a request is to the agent: its code, whether its parameter block has the length the code
requires, whether it is a write, and whether a COMMIT in progress bars it (R130, R132, R133). -/
structure RequestClass where
  code : Byte
  lengthOk : Bool
  write : Bool
  barred : Bool

/-- Steps 5 to 8 of R130. -/
def State.carryOut (s : State) (k : RequestClass) (r : Request) (own : State → Verdict) : State :=
  if k.write ∧ ¬ s.mayWrite r.source then
    (s.count Counter.mgmtDenied).respond k.code r .denied []
  else if k.barred ∧ s.validating then s.respond k.code r .busy []
  else
    match own s with
    | .fail status => s.respond k.code r status []
    | .done result after consequence => consequence (after.respond k.code r .ok result)
    | .started after => after

/-- The path of a request: steps 1 to 8 of R130. -/
def State.takeRequest (s : State) (k : RequestClass) (r : Request) (own : State → Verdict) : State :=
  if ¬ s.responseRoom then s.count Counter.mgmtOverrun
  else if r.source = 0 ∨ r.source = s.ownAddress then s.count Counter.badAddress
  else if s.agent.restartPending then s.respond k.code r .busy []
  else if ¬ k.lengthOk then s.respond k.code r .badRequest []
  else s.carryOut k r own

/-- OK with no result and no consequence. -/
def doneWith (after : State) : Verdict :=
  .done [] after id

/-! ### Own checks and effects -/

/-- READ_STATUS: the 24 bytes of R135 and R162. -/
def State.statusBytes (s : State) : List Byte :=
  twoBytes Config.partCode ++ [byteOf Config.revision] ++ twoBytes s.ownAddress.toNat ++
    [s.agent.startCause.code, yesNo s.clock.record.isSome] ++ fourBytes s.clock.uptime ++
    twoBytes s.inUse ++ [yesNo s.buffer.storeHigh] ++ twoBytes s.bank.generation.toNat ++
    [s.agent.commit.code] ++ s.agent.lastCommit.bytes ++ [byteOf s.agent.managers.length] ++
    twoBytes s.agent.noticeAddress.toNat

/-- READ_STATUS (R135). -/
def ownReadStatus (s : State) : Verdict :=
  .done s.statusBytes s id

/-- READ_CLOCK (R39). -/
def ownReadClock (s : State) : Verdict :=
  match s.clock.record with
  | some c => .done c.bytes s id
  | none => .fail .clockUnset

/-- The clock is set to a record and every window is evaluated (R40, R41). -/
def State.setClock (s : State) (c : Calendar) : State :=
  State.evaluateWindows { s with clock.record := some c }

/-- SET_CLOCK (R40). -/
def ownSetClock (params : List Byte) (s : State) : Verdict :=
  match params with
  | [y, mo, d, h, mi, sec] =>
    if (calendarOf y mo d h mi sec).isReal then doneWith (s.setClock (calendarOf y mo d h mi sec))
    else .fail .badValue
  | _ => .fail .badRequest

/-- The largest adjustment, in seconds (R41). -/
def maxAdjust : Int := 86399

/-- ADJUST_CLOCK (R41). -/
def ownAdjustClock (params : List Byte) (s : State) : Verdict :=
  match params with
  | [b3, b2, b1, b0] =>
    if ¬ (-maxAdjust ≤ signedOf b3 b2 b1 b0 ∧ signedOf b3 b2 b1 b0 ≤ maxAdjust) then .fail .badValue
    else
      match s.clock.record with
      | none => .fail .clockUnset
      | some c =>
        let moved := c.adjust (signedOf b3 b2 b1 b0)
        .done (moved.1.bytes ++ [moved.2.byte]) (s.setClock moved.1) id
  | _ => .fail .badRequest

/-- The bank a code names (R161); none for another code. -/
def State.bankOf (s : State) (code : Byte) : Option Tables :=
  if code = 1 then some s.bank.active else if code = 2 then some s.bank.staging else none

/-- READ_ENTRY (R145). DESIGN CHOICE (notes/assumptions/18.md): the bytes of the entry format of an
undefined entry are left out, not sent as 0. -/
def ownReadEntry (params : List Byte) (s : State) : Verdict :=
  match params with
  | [bank, table, index] =>
    match readTable table with
    | none => .fail .badIndex
    | some name =>
      if ¬ index.toNat < name.entries then .fail .badIndex
      else
        match s.bankOf bank with
        | none => .fail .badValue
        | some image =>
          let entry := image.entryBytes name index.toNat
          .done ([bank, table, index] ++ twoBytes s.bank.generation.toNat ++
            [yesNo entry.isSome] ++ entry.getD []) s id
  | _ => .fail .badRequest

/-- The action codes of WRITE_ENTRY (R161). -/
def defineCode : Byte := 1
/-- The code of UNDEFINE. -/
def undefineCode : Byte := 2

/-- The length test of WRITE_ENTRY (R162, note 2). -/
def writeEntryLengthOk : List Byte → Bool
  | table :: _ :: action :: format =>
    match readTable table with
    | none => true
    | some name =>
      format.length == name.formatLength || (format.isEmpty && action != defineCode)
  | _ => false

/-- WRITE_ENTRY (R146). -/
def ownWriteEntry (params : List Byte) (s : State) : Verdict :=
  match params with
  | table :: index :: action :: format =>
    match readTable table with
    | none => .fail .badIndex
    | some name =>
      if ¬ index.toNat < name.entries then .fail .badIndex
      else if action = undefineCode then
        doneWith { s with bank.staging := s.bank.staging.undefine name index.toNat }
      else if action = defineCode then
        match s.bank.staging.define name index.toNat format with
        | some staging => doneWith { s with bank.staging := staging }
        | none => .fail .badValue
      else .fail .badValue
  | _ => .fail .badRequest

/-- Staging is made equal to the active image (R147). -/
def State.copyActive (s : State) : State :=
  { s with bank.staging := s.bank.active }

/-- COPY_ACTIVE (R147). -/
def ownCopyActive (s : State) : Verdict :=
  doneWith s.copyActive

/-- DISCARD_STAGING (R147). -/
def ownDiscardStaging (s : State) : Verdict :=
  doneWith s.copyActive

/-- COMMIT: a validation starts (R148). -/
def ownCommit (r : Request) (s : State) : Verdict :=
  .started
    { s with agent.commit :=
        .validating (s.pins.now + s.bank.staging.validationTime) r.source r.seq }

/-- A request that names a segment: BAD_INDEX above 3 (R136). -/
def withSegment (b : Byte) (act : Seg → Verdict) : Verdict :=
  match readSeg b with
  | some g => act g
  | none => .fail .badIndex

/-- SET_PROFILE (R91). -/
def ownSetProfile (params : List Byte) (s : State) : Verdict :=
  match params with
  | b :: block =>
    withSegment b fun g =>
      match readProfile block with
      | some p => doneWith (s.setSeg g { s.seg g with pendingProfile := some p })
      | none => .fail .badValue
  | [] => .fail .badRequest

/-- READ_PROFILE (R91, R162). -/
def ownReadProfile (params : List Byte) (s : State) : Verdict :=
  match params with
  | [b] =>
    withSegment b fun g =>
      .done ((s.seg g).profile.bytes ++ [yesNo (s.seg g).pendingProfile.isSome] ++
        ((s.seg g).pendingProfile.map Profile.bytes).getD (List.replicate 11 0)) s id
  | _ => .fail .badRequest

/-- SET_PACING (R56): the gap is recorded; the examination follows the response. -/
def ownSetPacing (params : List Byte) (s : State) : Verdict :=
  match params with
  | [b, high, low] =>
    withSegment b fun g =>
      .done [] (s.setSeg g { s.seg g with pacingGapMs := numberOf high low }) fun t => t.examine g
  | _ => .fail .badRequest

/-- HOLD_SEGMENT (R81). -/
def ownHoldSegment (params : List Byte) (s : State) : Verdict :=
  match params with
  | [b] =>
    withSegment b fun g => doneWith (s.setSeg g { s.seg g with state := .held .byRequest })
  | _ => .fail .badRequest

/-- RESUME_SEGMENT (R82): the walk follows the response. -/
def ownResumeSegment (params : List Byte) (s : State) : Verdict :=
  match params with
  | [b] =>
    withSegment b fun g =>
      .done [] (s.setSeg g { s.seg g with state := .active, conflictStreak := 0 }) fun t => t.walk g
  | _ => .fail .badRequest

/-! ### PURGE and FLUSH -/

/-- The code of the selection ALL (R161). -/
def allCode : Byte := 0xFF

/-- A segment selection of PURGE: the segments it takes, in order (R138). -/
def readSegSelection (b : Byte) : Option (List Seg) :=
  if b = allCode then some [0, 1, 2, 3] else (readSeg b).map fun g => [g]

/-- A class selection of PURGE, as a test on the class field of a slot (R138). -/
def readClassSelection (b : Byte) : Option (Slot → Bool) :=
  if b = allCode then some fun _ => true
  else if b.toNat < 16 then some fun r => r.cls.val == b.toNat
  else none

/-- A scope of PURGE: whether it takes queued slots (R138). -/
def readScope (b : Byte) : Option Bool :=
  if b = 1 then some false else if b = 2 then some true else none

/-- The slots a PURGE takes from one segment, counted. -/
def State.purgeCount (s : State) (test : Slot → Bool) (queued : Bool) (g : Seg) : Nat :=
  (s.selectDeferred g test).length + if queued then (s.selectQueued g test).length else 0

/-- PURGE on one segment: the Release Unit's part, then the Segment Scheduler's (R65, R85, R138). -/
def State.purgeSegment (test : Slot → Bool) (queued : Bool) (s : State) (g : Seg) : State :=
  let t := s.endAllDeferred g .purged test
  if queued then t.endAllQueued g .purged test else t

/-- PURGE (R138). -/
def ownPurge (params : List Byte) (s : State) : Verdict :=
  match params with
  | [segment, cls, scope] =>
    match readSegSelection segment, readClassSelection cls with
    | some segments, some test =>
      match readScope scope with
      | some queued =>
        .done (twoBytes (segments.map (s.purgeCount test queued)).sum)
          (segments.foldl (State.purgeSegment test queued) s) id
      | none => .fail .badValue
    | _, _ => .fail .badIndex
  | _ => .fail .badRequest

/-- A transmission is cut short by FLUSH (R103): the transceiver enters QUIET. -/
def Transceiver.cut (now gapMs : Nat) : Transceiver → Transceiver
  | .sending _ => .quiet (now + gapMs * Config.millisecond)
  | .idle => .idle
  | .quiet endsAt => .quiet endsAt
  | .receiving rx => .receiving rx

/-- FLUSH on a segment chain (R71, R88, R103, R115). -/
def Segment.flush (now : Nat) (x : Segment) : Segment :=
  { x with
    deferralQueue := []
    pacer := .idle
    sendQueue := []
    transceiver := x.transceiver.cut now x.profile.quietGap
    outstanding := []
    ring := [] }

/-- FLUSH on the part (R16, R139). DESIGN CHOICE (notes/assumptions/17.md): a STORE_CLEAR notice that finds
the Notice Queue full is counted NOTICES_LOST (R123), though R141 lets FLUSH change FLUSHED alone. -/
def State.flush (s : State) : State :=
  State.checkClear
    { s.countBy Counter.flushed s.inUse with
      segs := Vector.ofFn fun g => (s.segs[g]).flush s.pins.now
      reports.backlog := []
      buffer.slots := Vector.replicate 256 none }

/-- FLUSH (R139). -/
def ownFlush (s : State) : Verdict :=
  .done (twoBytes s.inUse) s.flush id

/-! ### The agent's own requests -/

/-- The 14 bytes READ_QUEUE gives for a segment (R137, R162). -/
def State.queueBytes (s : State) (g : Seg) : List Byte :=
  let x := s.seg g
  twoBytes x.deferralQueue.length ++ [yesNo x.deferralQueue.head?.isSome] ++
    fourBytes ((x.deferralQueue.head?.map fun n => (s.intakeOf n).toNat).getD 0) ++
    [byteOf x.sendQueue.length, byteOf x.outstanding.length] ++ x.state.bytes ++
    [x.transceiver.code, x.pacer.code, yesNo x.pendingProfile.isSome]

/-- READ_QUEUE (R137). -/
def ownReadQueue (s : State) : Verdict :=
  .done (s.queueBytes 0 ++ s.queueBytes 1 ++ s.queueBytes 2 ++ s.queueBytes 3) s id

/-- The first counter and the number of counters of a group (R141). -/
def counterGroup (b : Byte) : Option (Nat × Nat) :=
  match b.toNat with
  | 0 => some (0, 16)
  | 1 => some (16, 6)
  | 2 => some (22, 6)
  | 3 => some (28, 7)
  | 4 => some (35, 7)
  | 5 => some (42, 7)
  | 6 => some (49, 7)
  | _ => none

/-- The counters of a group, four bytes each (R162). -/
def State.counterBytes (s : State) (first count : Nat) : List Byte :=
  ((s.counters.toList.drop first).take count).flatMap fourBytes

/-- Every counter of a group set to 0 (R142). -/
def State.clearCounters (s : State) (first count : Nat) : State :=
  { s with counters := Vector.ofFn fun i =>
      if first ≤ i.val ∧ i.val < first + count then 0 else s.counters[i] }

/-- READ_COUNTERS (R142). -/
def ownReadCounters (params : List Byte) (s : State) : Verdict :=
  match params with
  | [group, clear] =>
    match counterGroup group with
    | none => .fail .badIndex
    | some (first, count) =>
      match readYesNo clear with
      | none => .fail .badValue
      | some yes =>
        .done (s.counterBytes first count) (if yes then s.clearCounters first count else s) id
  | _ => .fail .badRequest

/-- READ_COUNTERS is a write when its clear byte is not 0 (R132). -/
def readCountersWrites : List Byte → Bool
  | [_, clear] => clear != 0
  | _ => false

/-- SET_NOTICE_ADDRESS (R134). -/
def ownSetNoticeAddress (params : List Byte) (s : State) : Verdict :=
  match params with
  | [high, low] =>
    match readAddr high low with
    | none => .fail .badValue
    | some a =>
      if a = s.ownAddress then .fail .badValue
      else doneWith { s with agent.noticeAddress := a }
  | _ => .fail .badRequest

/-- The addresses of a SET_MANAGERS block, two bytes each; none when one of them is above 4095. -/
def readAddrs : List Byte → Option (List Addr)
  | [] => some []
  | high :: low :: rest => do
    let a ← readAddr high low
    let more ← readAddrs rest
    return a :: more
  | [_] => none

/-- The length test of SET_MANAGERS (R162, note 1). -/
def setManagersLengthOk : List Byte → Bool
  | [] => false
  | count :: rest => rest.length == 2 * count.toNat

/-- SET_MANAGERS (R134). -/
def ownSetManagers (params : List Byte) (s : State) : Verdict :=
  match params with
  | count :: rest =>
    if Config.maxManagers < count.toNat then .fail .badValue
    else
      match readAddrs rest with
      | none => .fail .badValue
      | some list =>
        if 0 ∈ list ∨ s.ownAddress ∈ list ∨ ¬ list.Nodup then .fail .badValue
        else doneWith { s with agent.managers := list }
  | [] => .fail .badRequest

/-- RESTART (R140). -/
def ownRestart (s : State) : Verdict :=
  doneWith { s with agent.restartPending := true }

end Sys2Proof.Machine
end

