-- ==== Sys2Proof/Machine/Requests.lean ====
section
/-! DEFINITION. Each management request by its code: what R162 requires of its parameter block,
whether it is a write (R132) and barred by a COMMIT in progress (R133), and its own part; the request
that no code names; and the commands of the requests. -/

namespace Sys2Proof.Machine

/-- READ_STATUS taken by the Management Agent (R135). -/
def State.takeReadStatus (s : State) (r : Request) : State :=
  s.takeRequest
    { code := 0x01, lengthOk := r.params.length == 0, write := false, barred := false }
    r ownReadStatus

/-- READ_CLOCK taken by the Management Agent (R39). -/
def State.takeReadClock (s : State) (r : Request) : State :=
  s.takeRequest
    { code := 0x02, lengthOk := r.params.length == 0, write := false, barred := false }
    r ownReadClock

/-- SET_CLOCK taken by the Management Agent (R40). -/
def State.takeSetClock (s : State) (r : Request) : State :=
  s.takeRequest
    { code := 0x03, lengthOk := r.params.length == 6, write := true, barred := false }
    r (ownSetClock r.params)

/-- ADJUST_CLOCK taken by the Management Agent (R41). -/
def State.takeAdjustClock (s : State) (r : Request) : State :=
  s.takeRequest
    { code := 0x04, lengthOk := r.params.length == 4, write := true, barred := false }
    r (ownAdjustClock r.params)

/-- READ_ENTRY taken by the Management Agent (R145). -/
def State.takeReadEntry (s : State) (r : Request) : State :=
  s.takeRequest
    { code := 0x05, lengthOk := r.params.length == 3, write := false, barred := false }
    r (ownReadEntry r.params)

/-- WRITE_ENTRY taken by the Management Agent (R146). -/
def State.takeWriteEntry (s : State) (r : Request) : State :=
  s.takeRequest
    { code := 0x06, lengthOk := writeEntryLengthOk r.params, write := true, barred := true }
    r (ownWriteEntry r.params)

/-- COPY_ACTIVE taken by the Management Agent (R147). -/
def State.takeCopyActive (s : State) (r : Request) : State :=
  s.takeRequest
    { code := 0x07, lengthOk := r.params.length == 0, write := true, barred := true }
    r ownCopyActive

/-- DISCARD_STAGING taken by the Management Agent (R147). -/
def State.takeDiscardStaging (s : State) (r : Request) : State :=
  s.takeRequest
    { code := 0x08, lengthOk := r.params.length == 0, write := true, barred := true }
    r ownDiscardStaging

/-- COMMIT taken by the Management Agent (R148). -/
def State.takeCommit (s : State) (r : Request) : State :=
  s.takeRequest
    { code := commitCode, lengthOk := r.params.length == 0, write := true, barred := true }
    r (ownCommit r)

/-- SET_PROFILE taken by the Management Agent (R91). -/
def State.takeSetProfile (s : State) (r : Request) : State :=
  s.takeRequest
    { code := 0x0A, lengthOk := r.params.length == 12, write := true, barred := false }
    r (ownSetProfile r.params)

/-- READ_PROFILE taken by the Management Agent (R91). -/
def State.takeReadProfile (s : State) (r : Request) : State :=
  s.takeRequest
    { code := 0x0B, lengthOk := r.params.length == 1, write := false, barred := false }
    r (ownReadProfile r.params)

/-- SET_PACING taken by the Management Agent (R56). -/
def State.takeSetPacing (s : State) (r : Request) : State :=
  s.takeRequest
    { code := 0x0C, lengthOk := r.params.length == 3, write := true, barred := false }
    r (ownSetPacing r.params)

/-- HOLD_SEGMENT taken by the Management Agent (R81). -/
def State.takeHoldSegment (s : State) (r : Request) : State :=
  s.takeRequest
    { code := 0x0D, lengthOk := r.params.length == 1, write := true, barred := false }
    r (ownHoldSegment r.params)

/-- RESUME_SEGMENT taken by the Management Agent (R82). -/
def State.takeResumeSegment (s : State) (r : Request) : State :=
  s.takeRequest
    { code := 0x0E, lengthOk := r.params.length == 1, write := true, barred := false }
    r (ownResumeSegment r.params)

/-- PURGE taken by the Management Agent (R138). -/
def State.takePurge (s : State) (r : Request) : State :=
  s.takeRequest
    { code := 0x0F, lengthOk := r.params.length == 3, write := true, barred := false }
    r (ownPurge r.params)

/-- READ_QUEUE taken by the Management Agent (R137). -/
def State.takeReadQueue (s : State) (r : Request) : State :=
  s.takeRequest
    { code := 0x10, lengthOk := r.params.length == 0, write := false, barred := false }
    r ownReadQueue

/-- READ_COUNTERS taken by the Management Agent (R142). -/
def State.takeReadCounters (s : State) (r : Request) : State :=
  s.takeRequest
    { code := 0x11, lengthOk := r.params.length == 2, write := readCountersWrites r.params, barred := false }
    r (ownReadCounters r.params)

/-- SET_NOTICE_ADDRESS taken by the Management Agent (R134). -/
def State.takeSetNoticeAddress (s : State) (r : Request) : State :=
  s.takeRequest
    { code := 0x12, lengthOk := r.params.length == 2, write := true, barred := false }
    r (ownSetNoticeAddress r.params)

/-- FLUSH taken by the Management Agent (R139). -/
def State.takeFlush (s : State) (r : Request) : State :=
  s.takeRequest
    { code := 0x13, lengthOk := r.params.length == 0, write := true, barred := false }
    r ownFlush

/-- RESTART taken by the Management Agent (R140). -/
def State.takeRestart (s : State) (r : Request) : State :=
  s.takeRequest
    { code := restartCode, lengthOk := r.params.length == 0, write := true, barred := true }
    r ownRestart

/-- SET_MANAGERS taken by the Management Agent (R134). -/
def State.takeSetManagers (s : State) (r : Request) : State :=
  s.takeRequest
    { code := 0x15, lengthOk := setManagersLengthOk r.params, write := true, barred := false }
    r (ownSetManagers r.params)

/-- A request whose code the agent does not know, or that carries none (code byte 0): BAD_REQUEST
after the tests of room, source and restart (R130). -/
def State.takeUnknown (s : State) (code : Byte) (r : Request) : State :=
  s.takeRequest { code := code, lengthOk := false, write := false, barred := false } r
    fun _ => .fail .badRequest

/-- A request taken by its code (R162). -/
def State.takeCode (s : State) (code : Byte) (r : Request) : State :=
  match code.toNat with
  | 1 => s.takeReadStatus r
  | 2 => s.takeReadClock r
  | 3 => s.takeSetClock r
  | 4 => s.takeAdjustClock r
  | 5 => s.takeReadEntry r
  | 6 => s.takeWriteEntry r
  | 7 => s.takeCopyActive r
  | 8 => s.takeDiscardStaging r
  | 9 => s.takeCommit r
  | 10 => s.takeSetProfile r
  | 11 => s.takeReadProfile r
  | 12 => s.takeSetPacing r
  | 13 => s.takeHoldSegment r
  | 14 => s.takeResumeSegment r
  | 15 => s.takePurge r
  | 16 => s.takeReadQueue r
  | 17 => s.takeReadCounters r
  | 18 => s.takeSetNoticeAddress r
  | 19 => s.takeFlush r
  | 20 => s.takeRestart r
  | 21 => s.takeSetManagers r
  | _ => s.takeUnknown code r

/-- A MGMT_REQUEST payload taken by the Management Agent (R129, R130). -/
def State.takePayload (s : State) (source : Addr) (seq : Byte) (payload : List Byte) : State :=
  match payload with
  | [] => s.takeUnknown 0 { source := source, seq := seq, params := [] }
  | code :: params => s.takeCode code { source := source, seq := seq, params := params }

/-- UNKNOWN_REQUEST (R130). A payload that opens with a code R162 lists is the request of that
code. -/
def execUnknownRequest (source : Addr) (seq : Byte) (payload : List Byte) :
    State → Host.Outcome State Fault Refusal :=
  whileRunning fun s => s.frameTaken.takePayload source seq payload

/-- READ_STATUS (R135). -/
def execReadStatus (r : Request) : State → Host.Outcome State Fault Refusal :=
  whileRunning fun s => s.frameTaken.takeReadStatus r

/-- READ_CLOCK (R39). -/
def execReadClock (r : Request) : State → Host.Outcome State Fault Refusal :=
  whileRunning fun s => s.frameTaken.takeReadClock r

/-- SET_CLOCK (R40). -/
def execSetClock (r : Request) : State → Host.Outcome State Fault Refusal :=
  whileRunning fun s => s.frameTaken.takeSetClock r

/-- ADJUST_CLOCK (R41). -/
def execAdjustClock (r : Request) : State → Host.Outcome State Fault Refusal :=
  whileRunning fun s => s.frameTaken.takeAdjustClock r

/-- READ_ENTRY (R145). -/
def execReadEntry (r : Request) : State → Host.Outcome State Fault Refusal :=
  whileRunning fun s => s.frameTaken.takeReadEntry r

/-- WRITE_ENTRY (R146). -/
def execWriteEntry (r : Request) : State → Host.Outcome State Fault Refusal :=
  whileRunning fun s => s.frameTaken.takeWriteEntry r

/-- COPY_ACTIVE (R147). -/
def execCopyActive (r : Request) : State → Host.Outcome State Fault Refusal :=
  whileRunning fun s => s.frameTaken.takeCopyActive r

/-- DISCARD_STAGING (R147). -/
def execDiscardStaging (r : Request) : State → Host.Outcome State Fault Refusal :=
  whileRunning fun s => s.frameTaken.takeDiscardStaging r

/-- COMMIT (R148). -/
def execCommit (r : Request) : State → Host.Outcome State Fault Refusal :=
  whileRunning fun s => s.frameTaken.takeCommit r

/-- SET_PROFILE (R91). -/
def execSetProfile (r : Request) : State → Host.Outcome State Fault Refusal :=
  whileRunning fun s => s.frameTaken.takeSetProfile r

/-- READ_PROFILE (R91). -/
def execReadProfile (r : Request) : State → Host.Outcome State Fault Refusal :=
  whileRunning fun s => s.frameTaken.takeReadProfile r

/-- SET_PACING (R56). -/
def execSetPacing (r : Request) : State → Host.Outcome State Fault Refusal :=
  whileRunning fun s => s.frameTaken.takeSetPacing r

/-- HOLD_SEGMENT (R81). -/
def execHoldSegment (r : Request) : State → Host.Outcome State Fault Refusal :=
  whileRunning fun s => s.frameTaken.takeHoldSegment r

/-- RESUME_SEGMENT (R82). -/
def execResumeSegment (r : Request) : State → Host.Outcome State Fault Refusal :=
  whileRunning fun s => s.frameTaken.takeResumeSegment r

/-- PURGE (R138). -/
def execPurge (r : Request) : State → Host.Outcome State Fault Refusal :=
  whileRunning fun s => s.frameTaken.takePurge r

/-- READ_QUEUE (R137). -/
def execReadQueue (r : Request) : State → Host.Outcome State Fault Refusal :=
  whileRunning fun s => s.frameTaken.takeReadQueue r

/-- READ_COUNTERS (R142). -/
def execReadCounters (r : Request) : State → Host.Outcome State Fault Refusal :=
  whileRunning fun s => s.frameTaken.takeReadCounters r

/-- SET_NOTICE_ADDRESS (R134). -/
def execSetNoticeAddress (r : Request) : State → Host.Outcome State Fault Refusal :=
  whileRunning fun s => s.frameTaken.takeSetNoticeAddress r

/-- FLUSH (R139). -/
def execFlush (r : Request) : State → Host.Outcome State Fault Refusal :=
  whileRunning fun s => s.frameTaken.takeFlush r

/-- RESTART (R140). -/
def execRestart (r : Request) : State → Host.Outcome State Fault Refusal :=
  whileRunning fun s => s.frameTaken.takeRestart r

/-- SET_MANAGERS (R134). -/
def execSetManagers (r : Request) : State → Host.Outcome State Fault Refusal :=
  whileRunning fun s => s.frameTaken.takeSetManagers r

end Sys2Proof.Machine
end

