-- ==== Sys2Proof/Machine/Trunk.lean ====
section
/-! DEFINITION. The receive side of the Trunk Port: the frame assembler and the completion of a frame
(R157, R158), and the commands that bytes, framing errors, gaps and discarded frames are. -/

namespace Sys2Proof.Machine

/-- The assembler in a new state. -/
def State.assemble (s : State) (a : Assembler) : State :=
  { s with port.assembler := a }

/-- A frame is dropped with every byte it had gathered, and FRAME_ERROR is counted (R157). -/
def State.dropFrame (s : State) : State :=
  (s.assemble .hunt).count Counter.frameError

/-- The header and payload of a frame (R161), as the fields the tests of R158 read. -/
structure FrameFields where
  kind : Nat
  destination : Nat
  source : Nat
  seq : Byte
  cls : Byte
  payload : List Byte
  deriving DecidableEq, Repr

/-- The header of a body read; none below the 7 bytes that every L of R157 includes. -/
def readHeader : List Byte → Option FrameFields
  | kind :: d1 :: d0 :: s1 :: s0 :: seq :: cls :: payload =>
    some { kind := kind.toNat, destination := numberOf d1 d0, source := numberOf s1 s0,
           seq := seq, cls := cls, payload := payload }
  | _ => none

/-- What the tests of R158 make of a completed frame. -/
inductive FrameVerdict where
  | discard (counter : CounterId)
  | command (t : CommandTelegram)
  | request (source : Addr) (seq : Byte) (payload : List Byte)
  deriving DecidableEq, Repr

/-- Tests 4 and 5 of R158, after the kind has passed. -/
def judgeFields (own : Addr) (f : FrameFields) : FrameVerdict :=
  if f.kind = 1 then
    if h : f.payload.length ≤ Config.maxPayload ∧ f.cls.toNat < 16 then
      .command
        { source := BitVec.ofNat 12 f.source, seq := f.seq, cls := ⟨f.cls.toNat, h.2⟩,
          destination := BitVec.ofNat 12 f.destination, payload := f.payload }
    else .discard Counter.frameError
  else if f.destination = own.toNat then
    .request (BitVec.ofNat 12 f.source) f.seq f.payload
  else .discard Counter.badAddress

/-- The tests of R158, in order, on a frame given as its length byte, its body and its two CRC
bytes. -/
def judgeFrame (own : Addr) (len : Byte) (body : List Byte) (crc : List Byte) : FrameVerdict :=
  if crcBytes (len :: body) ≠ crc then .discard Counter.checkError
  else
    match readHeader body with
    | none => .discard Counter.frameError
    | some f =>
      if ¬ (f.destination < 4096 ∧ f.source < 4096) then .discard Counter.frameError
      else if ¬ (f.kind = 1 ∨ f.kind = 2) then .discard Counter.badKind
      else judgeFields own f

/-- A completed frame: discarded and counted, or handed over (R158). The assembler returns to
HUNT. -/
def State.completeFrame (s : State) (len : Byte) (body : List Byte) (crc : List Byte) : State :=
  match judgeFrame s.ownAddress len body crc with
  | .discard counter => s.frameTaken.count counter
  | .command t => s.frameTaken.takeCommand t
  | .request source seq payload => s.frameTaken.takePayload source seq payload

/-- The opening byte of a trunk frame (section 11.2). -/
def openingByte : Byte := 0xA6

/-- A byte reaches the assembler (R157). -/
def State.receiveByte (s : State) (b : Byte) : State :=
  match s.port.assembler with
  | .hunt => if b = openingByte then s.assemble .length else s
  | .length =>
    if 7 ≤ b.toNat ∧ b.toNat ≤ 71 then s.assemble (.body b []) else s.dropFrame
  | .body len stored =>
    if (stored ++ [b]).length < len.toNat then s.assemble (.body len (stored ++ [b]))
    else s.assemble (.crc len (stored ++ [b]) none)
  | .crc len body none => s.assemble (.crc len body (some b))
  | .crc len body (some first) => s.completeFrame len body [first, b]

/-- A framing error or a gap timeout: ignored in HUNT, and otherwise the frame is dropped (R157). -/
def State.breakFrame (s : State) : State :=
  match s.port.assembler with
  | .hunt => s
  | .length => s.dropFrame
  | .body _ _ => s.dropFrame
  | .crc _ _ _ => s.dropFrame

/-- BYTE_RECEIVED (R157). A byte that completes a frame is judged under R158 and the telegram is
handed over in the same action. -/
def execByteReceived (b : Byte) : State → Host.Outcome State Fault Refusal :=
  whileRunning fun s => s.receiveByte b

/-- BYTE_FRAMING_ERROR (R157). -/
def execByteFramingError : State → Host.Outcome State Fault Refusal :=
  whileRunning fun s => s.breakFrame

/-- GAP_TIMEOUT (R157). -/
def execGapTimeout : State → Host.Outcome State Fault Refusal :=
  whileRunning fun s => s.breakFrame

/-- TRUNK_FRAME_DISCARDED (R158): a completed frame, from its length byte on, meets the tests. A frame
that passes them all is not discarded but handed over. -/
def execTrunkFrameDiscarded (frame : List Byte) : State → Host.Outcome State Fault Refusal :=
  whileRunning fun s =>
    s.completeFrame (frame.headD 0) ((frame.drop 1).take (frame.length - 3))
      (frame.drop (frame.length - 2))

end Sys2Proof.Machine
end

