-- ==== Sys2Proof/Machine/Power.lean ====
section
/-! DEFINITION. The second edge (R36) and the happenings of the supply and of RST_N (R164). -/

namespace Sys2Proof.Machine

/-! ### The second edge -/

/-- The tick: uptime and a VALID record advance by one second in one action (R36, R37). -/
def Clock.tick (c : Clock) : Clock where
  record := c.record.map Calendar.tick
  uptime := saturatingAdd c.uptime 1
  nextEdge := c.nextEdge + Config.second

/-- The second edge: the tick, the evaluation, and an expiry check owed by each Release Unit (R36,
R46, R62). -/
def State.edge (s : State) : State :=
  let t := State.evaluateWindows { s.reach s.clock.nextEdge with clock := s.clock.tick }
  (((t.owe (.expiryCheck 0)).owe (.expiryCheck 1)).owe (.expiryCheck 2)).owe (.expiryCheck 3)

/-- SECOND_EDGE (R36). -/
def execSecondEdge : State → Host.Outcome State Fault Refusal :=
  whileRunning fun s => s.edge

/-! ### The reset hold -/

/-- The length of a power-on hold after the supply has risen (R164). -/
def powerOnHoldTime : Nat := 20 * Config.millisecond

/-- A hold begins (R164): everything stops. The frame being assembled is lost and not counted, and a
trunk transmission stops at once (R126, R157); while the hold is on, no other happening of the part
takes place, no line is driven, and the inputs are ignored. -/
def State.beginHold (s : State) (hold : ResetHold) : State :=
  { s with
    pins.hold := some hold
    port := { assembler := .hunt, transmitter := .idle } }

/-- The supply falls below the power-on threshold (R164): a POWER_ON hold begins, or the hold that is
on becomes one. -/
def State.fallSupply (s : State) : State :=
  if s.pins.supplyUp then
    { s.beginHold { cause := .powerOn, dueAt := none, settled := false } with
      pins.supplyUp := false }
  else s

/-- The supply rises through the power-on threshold (R164): the hold's 20 ms begin. -/
def State.riseSupply (s : State) : State :=
  if s.pins.supplyUp then s
  else
    { s.beginHold
        { cause := .powerOn, dueAt := some (s.pins.now + powerOnHoldTime), settled := false } with
      pins.supplyUp := true }

/-- RST_N goes low (R164): a RESET_LINE hold begins, unless a hold is on. -/
def State.lowerRstN (s : State) : State :=
  if s.running then
    { s.beginHold { cause := .resetLine, dueAt := none, settled := false } with pins.rstN := false }
  else { s with pins.rstN := false }

/-- The hold that is on ends when RST_N is high: a RESET_LINE hold, or a power-on hold whose 20 ms
have run out (R164). -/
def ResetHold.endsWithRstN (h : ResetHold) : Bool :=
  match h.cause with
  | .powerOn => h.settled
  | .resetLine => true
  | .restart => true

/-- RST_N goes high (R164). -/
def State.raiseRstN (s : State) (straps : StrapPins) : State :=
  let t : State := { s with pins.rstN := true, pins.straps := straps }
  match s.pins.hold with
  | none => t
  | some h => if h.endsWithRstN then t.resetTakesEffect h.cause straps else t

/-- The 20 ms of a power-on hold run out (R164): with RST_N high the reset takes effect; otherwise
the hold goes on until RST_N is next high. With no such time running nothing changes. -/
def State.endPowerOnHold (s : State) (straps : StrapPins) : State :=
  match s.pins.hold with
  | none => s
  | some h =>
    match h.dueAt with
    | none => s
    | some due =>
      let t : State := { s.reach due with pins.straps := straps }
      if s.pins.rstN then t.resetTakesEffect h.cause straps
      else { t with pins.hold := some { h with dueAt := none, settled := true } }

/-- SUPPLY_FALL (R164). -/
def execSupplyFall (s : State) : Host.Outcome State Fault Refusal :=
  .next s.fallSupply

/-- SUPPLY_RISE (R164). -/
def execSupplyRise (s : State) : Host.Outcome State Fault Refusal :=
  .next s.riseSupply

/-- POWER_ON_HOLD_END (R164). -/
def execPowerOnHoldEnd (straps : StrapPins) (s : State) : Host.Outcome State Fault Refusal :=
  .next (s.endPowerOnHold straps)

/-- RST_N_LOW (R164). -/
def execRstNLow (s : State) : Host.Outcome State Fault Refusal :=
  .next s.lowerRstN

/-- RST_N_HIGH (R164). -/
def execRstNHigh (straps : StrapPins) (s : State) : Host.Outcome State Fault Refusal :=
  .next (s.raiseRstN straps)

end Sys2Proof.Machine
end

