-- ==== Sys2Proof/Machine/Dispatch.lean ====
section
/-! DEFINITION. The command dispatcher: one arm for each constructor of `Instr`, each one direct call of
that command's meaning. -/

namespace Sys2Proof.Machine

/-- The effect of a command on everything but the queue of waiting commands. -/
def exec (i : Instr) (s : State) : Host.Outcome State Fault Refusal :=
  match i with
  | .admission telegram => Sys2Proof.Machine.execAdmission telegram s
  | .trunkFrameDiscarded frame => Sys2Proof.Machine.execTrunkFrameDiscarded frame s
  | .gapTimeout => Sys2Proof.Machine.execGapTimeout s
  | .byteFramingError => Sys2Proof.Machine.execByteFramingError s
  | .unknownRequest source seq payload => Sys2Proof.Machine.execUnknownRequest source seq payload s
  | .readStatus request => Sys2Proof.Machine.execReadStatus request s
  | .readClock request => Sys2Proof.Machine.execReadClock request s
  | .setClock request => Sys2Proof.Machine.execSetClock request s
  | .adjustClock request => Sys2Proof.Machine.execAdjustClock request s
  | .readEntry request => Sys2Proof.Machine.execReadEntry request s
  | .writeEntry request => Sys2Proof.Machine.execWriteEntry request s
  | .copyActive request => Sys2Proof.Machine.execCopyActive request s
  | .discardStaging request => Sys2Proof.Machine.execDiscardStaging request s
  | .commit request => Sys2Proof.Machine.execCommit request s
  | .commitEnd => Sys2Proof.Machine.execCommitEnd s
  | .setProfile request => Sys2Proof.Machine.execSetProfile request s
  | .readProfile request => Sys2Proof.Machine.execReadProfile request s
  | .setPacing request => Sys2Proof.Machine.execSetPacing request s
  | .holdSegment request => Sys2Proof.Machine.execHoldSegment request s
  | .resumeSegment request => Sys2Proof.Machine.execResumeSegment request s
  | .purge request => Sys2Proof.Machine.execPurge request s
  | .readQueue request => Sys2Proof.Machine.execReadQueue request s
  | .readCounters request => Sys2Proof.Machine.execReadCounters request s
  | .setNoticeAddress request => Sys2Proof.Machine.execSetNoticeAddress request s
  | .setManagers request => Sys2Proof.Machine.execSetManagers request s
  | .flush request => Sys2Proof.Machine.execFlush request s
  | .restart request => Sys2Proof.Machine.execRestart request s
  | .secondEdge => Sys2Proof.Machine.execSecondEdge s
  | .expiryCheck segment => Sys2Proof.Machine.execExpiryCheck segment s
  | .examination segment => Sys2Proof.Machine.execExamination segment s
  | .pacerGapEnd segment => Sys2Proof.Machine.execPacerGapEnd segment s
  | .startWalk segment => Sys2Proof.Machine.execStartWalk segment s
  | .conflictAbort segment sampleUnit sensed => Sys2Proof.Machine.execConflictAbort segment sampleUnit sensed s
  | .transmissionEnd segment => Sys2Proof.Machine.execTransmissionEnd segment s
  | .quietGapEnd segment => Sys2Proof.Machine.execQuietGapEnd segment s
  | .lineActivity segment sensed => Sys2Proof.Machine.execLineActivity segment sensed s
  | .stuckLine record => Sys2Proof.Machine.execStuckLine record s
  | .receptionEnd segment line => Sys2Proof.Machine.execReceptionEnd segment line s
  | .answerTimerExpiry segment tag => Sys2Proof.Machine.execAnswerTimerExpiry segment tag s
  | .reportFormation => Sys2Proof.Machine.execReportFormation s
  | .arbiterTake => Sys2Proof.Machine.execArbiterTake s
  | .trunkTransmissionEnd pins => Sys2Proof.Machine.execTrunkTransmissionEnd pins s
  | .supplyFall => Sys2Proof.Machine.execSupplyFall s
  | .powerOnHoldEnd pins => Sys2Proof.Machine.execPowerOnHoldEnd pins s
  | .rstNLow => Sys2Proof.Machine.execRstNLow s
  | .rstNHigh pins => Sys2Proof.Machine.execRstNHigh pins s
  | .byteReceived byte => Sys2Proof.Machine.execByteReceived byte s
  | .supplyRise => Sys2Proof.Machine.execSupplyRise s

end Sys2Proof.Machine
end

