-- ==== Sys2Proof/Safety.lean ====
section
/-! DEFINITION. The terms in which claims about the part are made: explicit updates of vectors and
counts, when a request is accepted and what its response leaves, absolute clock time, consistent
tables, and the invariants of the part. -/

namespace Sys2Proof.Safety

open Sys2Proof.Machine

/-! ### Explicit updates -/

/-- A vector with one element replaced and every other as it was. -/
def put {α : Type} {n : Nat} (v : Vector α n) (i : Fin n) (x : α) : Vector α n :=
  v.set i.val x i.isLt

/-- A count raised by n, stopping at 2^32 - 1 (R141); n of 0 is no increment. -/
def raised (count n : Nat) : Nat :=
  if n = 0 then count else min (count + n) 4294967295

/-- The counters with one of them raised by n. -/
def bump (counters : Vector Nat 56) (c : CounterId) (n : Nat) : Vector Nat 56 :=
  put counters c (raised counters[c] n)

/-- The occasion for the arbiter that an entry joining a queue is while the transmitter is idle
(R125). -/
def takeOwed (s : State) : List Occasion :=
  match s.port.transmitter with
  | .idle => [.take]
  | .sending _ _ _ => []

/-! ### Requests -/

/-- The place of the Response Queue held for a COMMIT in progress (R131). -/
def heldPlace (s : State) : Nat :=
  match s.agent.commit with
  | .idle => 0
  | .validating _ _ _ => 1

/-- The source is neither 0 nor the own address (step 2 of R130). -/
abbrev goodSource (s : State) (a : Addr) : Prop :=
  a ≠ 0 ∧ a ≠ ownAddressOf s.pins.latched

/-- A request passes steps 1, 2, 3, 5 and 6 of R130: there is room for its response, its source is
one it can be answered to, no RESTART is pending, a write comes from a source that may write, and a
barred request meets no COMMIT in progress. -/
structure Accepts (s : State) (r : Request) (write barred : Bool) : Prop where
  running : s.pins.hold = none
  room : s.reports.responseQueue.length + heldPlace s < 4
  source : goodSource s r.source
  noRestart : s.agent.restartPending = false
  allowed : write = true → s.agent.managers = [] ∨ r.source ∈ s.agent.managers
  notBarred : barred = true → s.agent.commit = .idle

/-- The response to a request stands at the back of the Response Queue, and the assembler, whose
frame has been taken, is in HUNT (R124, R158). -/
def answered (s : State) (r : Request) (code : Byte) (status : Status) (result : List Byte) : State :=
  { s with
    port.assembler := .hunt
    reports.responseQueue := s.reports.responseQueue ++
      [{ destination := r.source, seq := r.seq, code := code, status := status, result := result }]
    occasions := s.occasions ++ takeOwed s }

/-- The management requests of R162 among the commands: code, request, whether the parameter block
has the required length, whether it is a write (R132), and whether a COMMIT in progress bars it
(R133). -/
def requestOf : Instr → Option (Byte × Request × Bool × Bool × Bool)
  | .readStatus r => some (0x01, r, r.params.length == 0, false, false)
  | .readClock r => some (0x02, r, r.params.length == 0, false, false)
  | .setClock r => some (0x03, r, r.params.length == 6, true, false)
  | .adjustClock r => some (0x04, r, r.params.length == 4, true, false)
  | .readEntry r => some (0x05, r, r.params.length == 3, false, false)
  | .writeEntry r => some (0x06, r, writeEntryLengthOk r.params, true, true)
  | .copyActive r => some (0x07, r, r.params.length == 0, true, true)
  | .discardStaging r => some (0x08, r, r.params.length == 0, true, true)
  | .commit r => some (0x09, r, r.params.length == 0, true, true)
  | .setProfile r => some (0x0A, r, r.params.length == 12, true, false)
  | .readProfile r => some (0x0B, r, r.params.length == 1, false, false)
  | .setPacing r => some (0x0C, r, r.params.length == 3, true, false)
  | .holdSegment r => some (0x0D, r, r.params.length == 1, true, false)
  | .resumeSegment r => some (0x0E, r, r.params.length == 1, true, false)
  | .purge r => some (0x0F, r, r.params.length == 3, true, false)
  | .readQueue r => some (0x10, r, r.params.length == 0, false, false)
  | .readCounters r =>
    some (0x11, r, r.params.length == 2, (r.params.getD 1 0) != 0, false)
  | .setNoticeAddress r => some (0x12, r, r.params.length == 2, true, false)
  | .flush r => some (0x13, r, r.params.length == 0, true, false)
  | .restart r => some (0x14, r, r.params.length == 0, true, true)
  | .setManagers r => some (0x15, r, setManagersLengthOk r.params, true, false)
  | _ => none

/-! ### Clock time -/

/-- Seconds of the 36525 days of the clock's range (R38). -/
def centurySeconds : Nat := 36525 * 86400

/-- Seconds from 2000-01-01 00:00:00 to a clock time. -/
def absoluteSeconds (c : Calendar) : Nat :=
  86400 * c.date.dayNumber + c.time.seconds

/-- The open state R44 gives each of the 32 windows of an image at a clock time. -/
def windowsAt (tables : Tables) (record : Option Calendar) : Vector Bool 32 :=
  Vector.ofFn fun i => windowStateAt tables.windows[i] record

/-- Some window closed as held is open as computed (R47). -/
def opens (held computed : Vector Bool 32) : Bool :=
  (List.finRange 32).any fun i => !held[i] && computed[i]

/-- The examinations that an opening signal brings, one by each Release Unit (R47, R58). -/
def examinations : List Occasion :=
  [.examination 0, .examination 1, .examination 2, .examination 3]

/-! ### Consistent tables -/

/-- What an image that has passed R149 whole satisfies. -/
structure Consistent (tables : Tables) : Prop where
  masks : ∀ (i : WindowNo) (w : Window), tables.windows[i] = some w → w.dayMask ≠ 0
  sets : ∀ (i : ClassNo) (p : ClassPolicy), tables.classes[i] = some p →
    p.windows.Nodup ∧ ∀ w ∈ p.windows, tables.windows[w].isSome = true
  ranges : ∀ (i : RouteNo) (r : Route), tables.routes[i] = some r →
    1 ≤ r.first.toNat ∧ r.first.toNat ≤ r.last.toNat ∧ r.last.toNat ≤ 4079
  apart : ∀ (i j : RouteNo) (r q : Route), i < j →
    tables.routes[i] = some r → tables.routes[j] = some q →
    r.last.toNat < q.first.toNat ∨ q.last.toNat < r.first.toNat

/-! ### Slots and their collections -/

/-- The slot a transceiver is sending. -/
def sendingSlot (x : Segment) : List SlotNo :=
  match x.transceiver with
  | .sending tx => [tx.slot]
  | _ => []

/-- The slots a segment chain holds. -/
def chainSlots (x : Segment) : List SlotNo :=
  x.deferralQueue ++ x.sendQueue ++ sendingSlot x ++ x.outstanding.map Outstanding.slot

/-- The slots the collections of the part hold. -/
def heldSlots (s : State) : List SlotNo :=
  chainSlots s.segs[0] ++ chainSlots s.segs[1] ++ chainSlots s.segs[2] ++ chainSlots s.segs[3] ++
    s.reports.backlog

/-- R5: no slot is held twice, the slots held are those in use, and a slot a segment chain holds has
that segment. -/
structure StoreInv (s : State) : Prop where
  once : (heldSlots s).Nodup
  inUse : ∀ n : SlotNo, n ∈ heldSlots s ↔ s.buffer.slots[n].isSome = true
  segment : ∀ (g : Seg) (n : SlotNo) (r : Slot),
    n ∈ chainSlots s.segs[g] → s.buffer.slots[n] = some r → r.segment = g

/-- The line tag a segment chain gives a slot: in SENDING and AWAITING (R4). -/
def chainTag (x : Segment) (n : SlotNo) (tag : Byte) : Prop :=
  (∃ tx, x.transceiver = .sending tx ∧ tx.slot = n ∧ tx.tag = tag) ∨
    ∃ e ∈ x.outstanding, e.slot = n ∧ e.tag = tag

/-- The record of an in-use slot: the fields R4 gives its state, and the attempts R109 allows. -/
structure RecordInv (s : State) (n : SlotNo) (r : Slot) : Prop where
  deferral : r.deferral.isSome = true ↔ n ∈ s.segs[r.segment].deferralQueue
  tag : ∀ tag, r.lineTag = some tag ↔ chainTag s.segs[r.segment] n tag
  outcome : r.outcome.isSome = true ↔ n ∈ s.reports.backlog
  answer : r.answer.isSome = true ↔ r.outcome = some .answered ∨ r.outcome = some .answeredLate
  attempts : r.attempts ≤ 1 + r.retryLimit.val
  waiting : n ∈ s.segs[r.segment].deferralQueue ∨ n ∈ s.segs[r.segment].sendQueue →
    r.attempts ≤ r.retryLimit.val

/-- Every slot in use has the record its state calls for (R4, R109). -/
def RecordsInv (s : State) : Prop :=
  ∀ (n : SlotNo) (r : Slot), s.buffer.slots[n] = some r → RecordInv s n r

/-- The priority of a slot in use is at least that of another. -/
def atLeastPriority (s : State) (a b : SlotNo) : Prop :=
  ∀ x y : Slot, s.buffer.slots[a] = some x → s.buffer.slots[b] = some y → y.priority ≤ x.priority

/-- What holds of each segment chain: the outstanding limit, the bound of R74, the order of the Send
Queue (R72), and a defined class for every waiting slot (R77). -/
structure ChainInv (s : State) (g : Seg) : Prop where
  outstanding : s.segs[g].outstanding.length ≤ 4
  expecting : ∀ (tx : Transmission) (r : Slot), s.segs[g].transceiver = .sending tx →
    s.buffer.slots[tx.slot] = some r → r.answerExpected = true → s.segs[g].outstanding.length ≤ 3
  total : s.segs[g].sendQueue.length + (sendingSlot s.segs[g]).length +
    s.segs[g].outstanding.length ≤ 21
  order : s.segs[g].sendQueue.Pairwise (atLeastPriority s)
  classes : ∀ (n : SlotNo) (r : Slot),
    n ∈ s.segs[g].deferralQueue ∨ n ∈ s.segs[g].sendQueue → s.buffer.slots[n] = some r →
    (s.bank.active.classes[r.cls]).isSome = true

/-- Every segment chain is as `ChainInv` says. -/
def ChainsInv (s : State) : Prop :=
  ∀ g : Seg, ChainInv s g

/-- The tags the Outstanding List and the Retired Ring of a segment hold (R79). -/
def heldTags (x : Segment) : List Byte :=
  x.outstanding.map Outstanding.tag ++ x.ring.map Retired.tag

/-- No tag stands twice in a segment's list and ring, and the tag being sent stands in neither
(R79, R105). -/
def TagsInv (s : State) : Prop :=
  ∀ g : Seg, (heldTags s.segs[g]).Nodup ∧
    ∀ tx, s.segs[g].transceiver = .sending tx → tx.tag ∉ heldTags s.segs[g]

/-! ### Intake order -/

/-- The slot stands in its segment's Deferral Queue or may still be placed there, its hold deadline
lying ahead: the slots whose intake numbers R9 compares for order. -/
def mayWait (s : State) (n : SlotNo) (r : Slot) : Prop :=
  n ∈ s.segs[r.segment].deferralQueue ∨ s.clock.uptime < r.holdDeadline

/-- The intake number of a slot in use is older than that of another (R9). -/
def olderSlot (s : State) (a b : SlotNo) : Prop :=
  ∀ x y : Slot, s.buffer.slots[a] = some x → s.buffer.slots[b] = some y →
    1 ≤ (y.intake - x.intake).toNat ∧ (y.intake - x.intake).toNat < 2 ^ 31

/-- No two slots in use hold one source and sequence (R11, R19), no two slots that may wait hold one
intake number (R7), and every Deferral Queue stands in intake order (R53). -/
structure IntakeInv (s : State) : Prop where
  pairs : ∀ (n m : SlotNo) (x y : Slot), s.buffer.slots[n] = some x → s.buffer.slots[m] = some y →
    n ≠ m → ¬ (x.source = y.source ∧ x.seq = y.seq)
  numbers : ∀ (n m : SlotNo) (x y : Slot), s.buffer.slots[n] = some x → s.buffer.slots[m] = some y →
    n ≠ m → mayWait s n x → mayWait s m y → x.intake ≠ y.intake
  order : ∀ g : Seg, s.segs[g].deferralQueue.Pairwise (olderSlot s)

/-- Fewer than 2^31 - 1 commands have been admitted since any slot that may wait was: what R9 derives
from the rate of the trunk and the longest hold limit. -/
def RecentIntakes (s : State) : Prop :=
  ∀ (n : SlotNo) (r : Slot), s.buffer.slots[n] = some r → mayWait s n r →
    (s.buffer.intakeCounter - r.intake).toNat < 2 ^ 31 - 1

/-! ### Queues, counts, occupancy, clock -/

/-- The in-use count (section 1.5). -/
def inUseCount (s : State) : Nat :=
  (s.buffer.slots.toList.filter Option.isSome).length

/-- The bounds of the queues, of the rings and the streaks, of the counters and the uptime, and what
the Management Agent may hold (R36, R83, R105, R121, R123, R129, R131, R141). -/
structure BoundsInv (s : State) : Prop where
  reports : s.reports.reportQueue.length ≤ 16
  notices : s.reports.noticeQueue.length ≤ 4
  responses : s.reports.responseQueue.length + heldPlace s ≤ 4
  rings : ∀ g : Seg, s.segs[g].ring.length ≤ 8
  streaks : ∀ g : Seg, s.segs[g].conflictStreak ≤ 8
  counters : ∀ c : CounterId, s.counters[c] ≤ 4294967295
  uptime : s.clock.uptime ≤ 4294967295
  managers : s.agent.managers.length ≤ 4 ∧ s.agent.managers.Nodup ∧
    ∀ a ∈ s.agent.managers, goodSource s a
  noticeAddress : s.agent.noticeAddress ≠ ownAddressOf s.pins.latched

/-- STORE_HIGH is true from 224 slots in use and false to 192 (R13, R14). -/
structure OccupancyInv (s : State) : Prop where
  high : 224 ≤ inUseCount s → s.buffer.storeHigh = true
  clear : inUseCount s ≤ 192 → s.buffer.storeHigh = false

/-- The record is a real date and time, and the held window states are those of R44 at that time
under the active image (R35, R46). -/
structure ClockInv (s : State) : Prop where
  real : ∀ c, s.clock.record = some c → c.isReal = true
  windows : s.windowOpen = windowsAt s.bank.active s.clock.record

/-! ### Formats and their checks -/

/-- The length of a month (R37): February has 29 days when the year's number is divisible by 4. -/
def daysIn (year month : Nat) : Nat :=
  if month = 2 then (if year % 4 = 0 then 29 else 28)
  else if month = 4 ∨ month = 6 ∨ month = 9 ∨ month = 11 then 30
  else 31

/-- The checks of R40 on the six values of a SET_CLOCK. -/
abbrev realDateTime (year month day hour minute second : Nat) : Prop :=
  year ≤ 99 ∧ (1 ≤ month ∧ month ≤ 12) ∧ (1 ≤ day ∧ day ≤ daysIn year month) ∧
    hour ≤ 23 ∧ minute ≤ 59 ∧ second ≤ 59

/-- The number of entries of the table a code names; 0 for a code that names none (R144, R161). -/
def tableSize (code : Byte) : Nat :=
  if code = 1 then 64 else if code = 2 then 16 else if code = 3 then 32 else 0

/-- A time of day in range. -/
abbrev timeOk (h m s : Byte) : Prop :=
  h.toNat ≤ 23 ∧ m.toNat ≤ 59 ∧ s.toNat ≤ 59

/-- A yes/no byte (R162). -/
abbrev yesNoOk (b : Byte) : Prop :=
  b = 0 ∨ b = 1

/-- The checks of R89 and R91 on the eleven bytes of a profile block. -/
abbrev profileOk (mode u1 u0 lm ls zm om bs p1 p2 qg : Byte) : Prop :=
  (1 ≤ mode.toNat ∧ mode.toNat ≤ 3) ∧
  (50 ≤ 256 * u1.toNat + u0.toNat ∧ 256 * u1.toNat + u0.toNat ≤ 5000) ∧
  (2 ≤ lm.toNat ∧ lm.toNat ≤ 64) ∧ (1 ≤ ls.toNat ∧ ls.toNat ≤ 32) ∧
  (1 ≤ zm.toNat ∧ zm.toNat ≤ 8) ∧ (2 ≤ om.toNat ∧ om.toNat ≤ 16) ∧
  (1 ≤ bs.toNat ∧ bs.toNat ≤ 8) ∧ 8 ≤ p1.toNat ∧ 8 ≤ p2.toNat ∧ 1 ≤ qg.toNat ∧
  zm.toNat < om.toNat ∧
  (mode.toNat = 2 → 4 * p1.toNat ≤ 256 * u1.toNat + u0.toNat) ∧
  (mode.toNat = 3 → p1 ≠ p2 ∧ 4 * max p1.toNat p2.toNat ≤ 256 * u1.toNat + u0.toNat)

/-- The mode a code names (R161). -/
def modeOf (code : Byte) : LineMode :=
  if code = 1 then .baseband else if code = 2 then .carrier else .shift

/-- The profile the eleven bytes of a block carry (R162, note 3). -/
def profileOf (mode u1 u0 lm ls zm om bs p1 p2 qg : Byte) : Profile where
  mode := modeOf mode
  unitTime := 256 * u1.toNat + u0.toNat
  leaderMark := lm.toNat
  leaderSpace := ls.toNat
  zeroMark := zm.toNat
  oneMark := om.toNat
  bitSpace := bs.toNat
  p1 := p1.toNat
  p2 := p2.toNat
  quietGap := qg.toNat

/-- The 14 bytes of READ_QUEUE for one segment (R137, R162). -/
def queueReport (s : State) (x : Segment) : List Byte :=
  twoBytes x.deferralQueue.length ++
    (match x.deferralQueue with
      | [] => ([0, 0, 0, 0, 0] : List Byte)
      | n :: _ =>
        1 :: fourBytes (match s.buffer.slots[n] with | some r => r.intake.toNat | none => 0)) ++
    [byteOf x.sendQueue.length, byteOf x.outstanding.length] ++
    (match x.state with
      | .active => ([0, 0] : List Byte)
      | .held .start => [1, 1]
      | .held .byRequest => [1, 2]
      | .held .lineFault => [1, 3]) ++
    ([match x.transceiver with | .idle => 0 | .sending _ => 1 | .quiet _ => 2 | .receiving _ => 3,
      match x.pacer with | .idle => 0 | .gap _ => 1,
      if x.pendingProfile.isSome then 1 else 0] : List Byte)

/-- The first counter of a group and the number of its counters (R141). -/
def groupFirst (group : Nat) : Nat :=
  [0, 16, 22, 28, 35, 42, 49].getD group 0

/-- The number of counters of a group (R141). -/
def groupSize (group : Nat) : Nat :=
  [16, 6, 6, 7, 7, 7, 7].getD group 0

/-! ### The CRC, code sets and rates -/

/-- One bit fed to the register of the polynomial x^16 + x^12 + x^5 + 1 (R160). -/
def crcFed (register : BitVec 16) (bit : Bool) : BitVec 16 :=
  if register.msb = bit then register <<< 1 else (register <<< 1) ^^^ 0x1021#16

/-- The outcome codes (R161). -/
def outcomeCode : ReportOutcome → Byte
  | .answered => 1
  | .answeredLate => 2
  | .sent => 3
  | .noAnswer => 4
  | .lineFailed => 5
  | .expired => 6
  | .displaced => 7
  | .purged => 8
  | .withdrawn => 9
  | .refusedDuplicate => 16
  | .refusedNoRoute => 17
  | .refusedNoPolicy => 18
  | .refusedClosed => 19
  | .refusedSegmentFull => 20
  | .refusedStoreFull => 21
  | .deferred => 32

/-- The status codes (R161). -/
def statusCode : Status → Byte
  | .ok => 0
  | .busy => 1
  | .denied => 2
  | .badRequest => 3
  | .badIndex => 4
  | .badValue => 5
  | .clockUnset => 6
  | .commitFailed => 7

/-- The table codes (R161). -/
def tableCode : TableName → Byte
  | .route => 1
  | .cls => 2
  | .window => 3

/-- The commit failure reason codes (R161). -/
def reasonCode : CommitReason → Byte
  | .emptyDayMask => 1
  | .duplicateWindow => 2
  | .undefinedWindow => 3
  | .addressOutOfRange => 4
  | .rangeReversed => 5
  | .rangeOverlap => 6

/-- The trunk rate a RATE value selects, in bit/s (R156). -/
def trunkRate (rate : BitVec 3) : Nat :=
  [4800, 9600, 19200, 38400, 57600, 115200, 230400, 460800].getD rate.toNat 0

/-- The bit-time of the trunk at the latched rate, in the model's unit of 1/288 microsecond. -/
def trunkBitTime (s : State) : Nat :=
  288000000 / trunkRate s.pins.latched.rate

/-! ### Slots in passing -/

/-- A slot record that leaves DEFERRED at an uptime (R6). -/
def leftDeferred (uptime : Nat) (r : Slot) : Slot :=
  match r.deferral with
  | none => r
  | some d =>
    { r with
      deferredSeconds := min (r.deferredSeconds + (uptime - d.since)) 65535
      deferral := none }

/-- A slot record that takes an outcome (R4). -/
def finished (outcome : ReportOutcome) (answer : Option AnswerPart) (r : Slot) : Slot :=
  { r with outcome := some outcome, answer := answer, lineTag := none }

/-- A class is open in the active tables at the held window states (R45). -/
def isOpen (s : State) (c : ClassNo) : Prop :=
  ∃ p, s.bank.active.classes[c] = some p ∧
    (p.windows = [] ∨ s.clock.record.isSome = true ∧ ∃ w ∈ p.windows, s.windowOpen[w] = true)

/-- A queued slot is held back by the outstanding limit of its segment (R76). -/
def heldBack (s : State) (g : Seg) (n : SlotNo) : Prop :=
  ∃ r, s.buffer.slots[n] = some r ∧ r.answerExpected = true ∧ 4 ≤ s.segs[g].outstanding.length

/-- The slot is in use and its class is open: a DEFERRED slot is eligible (R54). -/
def eligibleSlot (s : State) (n : SlotNo) : Prop :=
  ∃ r, s.buffer.slots[n] = some r ∧ isOpen s r.cls

/-- The Send Queue stands as entries of a priority or above, then entries below it. -/
def splitsAt (s : State) (queue higher lower : List SlotNo) (p : Fin 4) : Prop :=
  queue = higher ++ lower ∧
    (∀ m ∈ higher, ∃ x, s.buffer.slots[m] = some x ∧ p ≤ x.priority) ∧
    (∀ m ∈ lower, ∃ x, s.buffer.slots[m] = some x ∧ x.priority < p)

/-- The Send Queue stands as entries above a priority, then entries of it or below. -/
def splitsAbove (s : State) (queue higher lower : List SlotNo) (p : Fin 4) : Prop :=
  queue = higher ++ lower ∧
    (∀ m ∈ higher, ∃ x, s.buffer.slots[m] = some x ∧ p < x.priority) ∧
    (∀ m ∈ lower, ∃ x, s.buffer.slots[m] = some x ∧ x.priority ≤ p)

/-- The lowest-numbered FREE slot (R7). -/
def lowestFree (s : State) (n : SlotNo) : Prop :=
  s.buffer.slots[n] = none ∧ ∀ m : SlotNo, m < n → s.buffer.slots[m].isSome = true

/-- The pair is held by no slot in use (R11). -/
def pairFree (s : State) (source : Addr) (seq : Byte) : Prop :=
  ∀ (n : SlotNo) (r : Slot), s.buffer.slots[n] = some r → ¬ (r.source = source ∧ r.seq = seq)

/-- A defined active route entry contains the address and names the segment, and no other entry
that contains it stands before it (R20). -/
def routesTo (s : State) (a : Addr) (g : Seg) : Prop :=
  ∃ (i : RouteNo) (r : Route), s.bank.active.routes[i] = some r ∧
    (r.first.toNat ≤ a.toNat ∧ a.toNat ≤ r.last.toNat) ∧ r.segment = g ∧
    ∀ (j : RouteNo) (q : Route), j < i → s.bank.active.routes[j] = some q →
      ¬ (q.first.toNat ≤ a.toNat ∧ a.toNat ≤ q.last.toNat)

/-- No defined active route entry contains the address. -/
def unrouted (s : State) (a : Addr) : Prop :=
  ∀ (i : RouteNo) (r : Route), s.bank.active.routes[i] = some r →
    ¬ (r.first.toNat ≤ a.toNat ∧ a.toNat ≤ r.last.toNat)

/-- The record of a slot admitted with a policy (R1, R2, R4). -/
def admitted (s : State) (t : CommandTelegram) (p : ClassPolicy) (g : Seg)
    (deferral : Option Deferral) : Slot where
  intake := s.buffer.intakeCounter + 1
  source := t.source
  seq := t.seq
  cls := t.cls
  device := t.destination
  payload := t.payload
  segment := g
  admittedAt := s.clock.uptime
  priority := p.priority
  answerExpected := p.answerExpected
  retryLimit := p.retryLimit
  answerTimeoutMs := 10 * p.answerTimeout
  notifyOnDefer := p.notifyOnDefer
  holdDeadline := s.clock.uptime + p.holdLimit
  attempts := 0
  deferredSeconds := 0
  deferral := deferral
  lineTag := none
  outcome := none
  answer := none

/-- A final report about a slot, formed now (R116, R117). -/
def slotReport (s : State) (r : Slot) (outcome : ReportOutcome) (answer : Option AnswerPart) :
    Report where
  destination := r.source
  seq := r.seq
  cls := r.cls
  outcome := outcome
  segment := some r.segment
  attempts := r.attempts
  deferredSeconds := r.deferredSeconds
  stamp := s.clock.uptime
  intake := some r.intake
  answer := answer
  nextOpening := none

/-- A refusal report (R31). -/
def refusal (s : State) (t : CommandTelegram) (outcome : ReportOutcome) (segment : Option Seg) :
    Report where
  destination := t.source
  seq := t.seq
  cls := t.cls
  outcome := outcome
  segment := segment
  attempts := 0
  deferredSeconds := 0
  stamp := s.clock.uptime
  intake := none
  answer := none
  nextOpening := none

/-- The Notice Queue and the counters after a notice has been queued or dropped (R122, R123). -/
def noticed (s : State) (kind : NoticeKind) : State :=
  if s.reports.noticeQueue.length < 4 then
    { s with reports.noticeQueue :=
        s.reports.noticeQueue ++ [{ destination := s.agent.noticeAddress, kind := kind }] }
  else { s with counters := bump s.counters Counter.noticesLost 1 }

/-- The units of U a telegram lasts: R93's formula over its bits. -/
def telegramUnits (p : Profile) (bytes : List Byte) : Nat :=
  let ones := ((bytes.map fun b => ((List.range 8).filter fun i => b.getLsbD i).length)).sum
  p.leaderMark + p.leaderSpace + 8 * bytes.length * p.bitSpace + ones * p.oneMark +
    (8 * bytes.length - ones) * p.zeroMark + 1

/-- The i-th bit keyed of a line telegram (R93). -/
def bitAt (bytes : List Byte) (i : Nat) : Bool :=
  (bytes.getD (i / 8) 0).getLsbD (i % 8)

/-- The units of the mark of a bit (R89). -/
def markUnits (p : Profile) (bit : Bool) : Nat :=
  if bit then p.oneMark else p.zeroMark

/-- The units before the mark of the i-th bit: the leader, and the mark and space of every earlier bit
(R93). -/
def unitsBefore (p : Profile) (bytes : List Byte) (i : Nat) : Nat :=
  p.leaderMark + p.leaderSpace +
    ((List.range i).map fun j => markUnits p (bitAt bytes j) + p.bitSpace).sum

/-- The k-th unit, counted from 1, belongs to a mark: the leader mark, the mark of a bit, or the trailer
(R93). -/
def isMarkUnit (p : Profile) (bytes : List Byte) (k : Nat) : Prop :=
  (1 ≤ k ∧ k ≤ p.leaderMark) ∨
  (∃ i < 8 * bytes.length, unitsBefore p bytes i < k ∧
    k ≤ unitsBefore p bytes i + markUnits p (bitAt bytes i)) ∨
  k = telegramUnits p bytes

/-- The k-th unit, counted from 1, belongs to a space: the leader space or the space of a bit (R93). -/
def isSpaceUnit (p : Profile) (bytes : List Byte) (k : Nat) : Prop :=
  (p.leaderMark < k ∧ k ≤ p.leaderMark + p.leaderSpace) ∨
  ∃ i < 8 * bytes.length, unitsBefore p bytes i + markUnits p (bitAt bytes i) < k ∧
    k ≤ unitsBefore p bytes i + markUnits p (bitAt bytes i) + p.bitSpace

/-- A line telegram of a kind with its CRC (R163). -/
def lineBytes (destination source : Nat) (tag : Byte) (kind : Nat) (payload : List Byte) :
    List Byte :=
  let body := twoBytes destination ++ twoBytes source ++ [tag, byteOf (64 * kind + payload.length)] ++
    payload
  body ++ twoBytes (crc16 body).toNat

/-- A duration in microseconds lies from 0.75 to 1.25 times n units (R98). -/
def within (p : Profile) (micros n : Nat) : Prop :=
  3 * n * p.unitTime ≤ 4 * micros ∧ 4 * micros ≤ 5 * n * p.unitTime

/-- A mark between leader and trailer is judged as a bit (R98): within the tolerance of that bit's
mark, and on its side of the midpoint, which counts as a 0. -/
def judgedAs (p : Profile) (micros : Nat) (bit : Bool) : Prop :=
  within p micros (markUnits p bit) ∧
    (bit = true ↔ (p.zeroMark + p.oneMark) * p.unitTime < 2 * micros)

/-- What R101 asks of the bytes of a frame. -/
structure GoodFrame (bytes : List Byte) : Prop where
  length : 9 ≤ bytes.length ∧ bytes.length ≤ 56
  kind : (bytes.getD 5 0).toNat / 64 = 2
  payload : 1 ≤ (bytes.getD 5 0).toNat % 64 ∧ (bytes.getD 5 0).toNat % 64 ≤ 48 ∧
    bytes.length = 8 + (bytes.getD 5 0).toNat % 64
  destination : bytes.getD 0 0 = 0 ∧ bytes.getD 1 0 = 0
  source : (bytes.getD 2 0).toNat < 16
  crc : bytes.drop (bytes.length - 2) = twoBytes (crc16 (bytes.take (bytes.length - 2))).toNat

/-- What a good frame hands over (R102, R163). -/
def answerOf (bytes : List Byte) : LineAnswer where
  device := BitVec.ofNat 12 (256 * (bytes.getD 2 0).toNat + (bytes.getD 3 0).toNat)
  tag := bytes.getD 4 0
  part := { status := bytes.getD 6 0, data := (bytes.drop 7).take (bytes.length - 9) }

/-! ### Trunk frames, command by command -/

/-- Commands carried out one after the other, the waiting queue apart; none when one of them does
not end in a next state. -/
def runAll : List Instr → State → Option State
  | [], s => some s
  | c :: rest, s =>
    match exec c s with
    | .next t => runAll rest t
    | .fault _ => none
    | .refused _ => none

/-- A frame as it comes in on TRX: the opening byte, L, header and payload, and the CRC over L
through the payload, high byte first (section 11.2). -/
def trunkFrame (body : List Byte) : List Byte :=
  0xA6 :: byteOf body.length :: body ++ twoBytes (crc16 (byteOf body.length :: body)).toNat

/-- Header and payload of a telegram that comes from the head-end (R161). -/
def trunkBody (kind : Byte) (destination source : Addr) (seq cls : Byte) (payload : List Byte) :
    List Byte :=
  kind :: (twoBytes destination.toNat ++ twoBytes source.toNat ++ [seq, cls] ++ payload)

/-! ### Admission -/

/-- A refused COMMAND: its outcome counter and its report, or UNREPORTED (R31). -/
def refusedState (s : State) (t : CommandTelegram) (outcome : ReportOutcome) (segment : Option Seg)
    (counter : CounterId) : State :=
  if s.reports.reportQueue.length < 16 then
    { s with
      port.assembler := .hunt
      counters := bump s.counters counter 1
      reports.reportQueue := s.reports.reportQueue ++ [refusal s t outcome segment]
      occasions := s.occasions ++ takeOwed s }
  else
    { s with
      port.assembler := .hunt
      counters := bump (bump s.counters counter 1) Counter.unreported 1 }

/-- The source passes R18, the pair is free, a route gives the segment and the class is defined:
checks 1 to 3 of R17. -/
structure Routed (s : State) (t : CommandTelegram) (g : Seg) (p : ClassPolicy) : Prop where
  running : s.pins.hold = none
  payload : t.payload.length ≤ 48
  source : goodSource s t.source
  pair : pairFree s t.source t.seq
  route : routesTo s t.destination g
  policy : s.bank.active.classes[t.cls] = some p

/-- Check 4 of R17 passes (R23). -/
def mayWaitOrGo (s : State) (t : CommandTelegram) (g : Seg) (p : ClassPolicy) : Prop :=
  p.holdLimit = 0 → isOpen s t.cls ∧ s.segs[g].sendQueue.length < 16

/-- A FREE slot allocated with a record, and STORE_HIGH with its notice when the in-use count reaches
224 (R7, R13). -/
def allocated (s : State) (n : SlotNo) (r : Slot) : State :=
  let t : State :=
    { s with
      port.assembler := .hunt
      buffer.slots := put s.buffer.slots n (some r)
      buffer.intakeCounter := s.buffer.intakeCounter + 1 }
  if s.buffer.storeHigh = false ∧ 224 ≤ inUseCount s + 1 then
    noticed { t with buffer.storeHigh := true } (.storeHigh (inUseCount s + 1))
  else t

/-- A slot that joins the Send Queue of a segment between the entries of its priority or above and
those below it (R73). -/
def queuedBetween (s : State) (g : Seg) (n : SlotNo) (higher lower : List SlotNo) : State :=
  { s with segs := put s.segs g { s.segs[g] with sendQueue := higher ++ n :: lower } }

/-- A slot that joins the back of the Deferral Queue at admission, with DEFERRALS and the interim
report or INTERIM_LOST (R29, R30). -/
def deferredAtBack (s : State) (g : Seg) (n : SlotNo) (r : Slot) (interim : Report) : State :=
  let t : State :=
    { s with
      segs := put s.segs g { s.segs[g] with deferralQueue := s.segs[g].deferralQueue ++ [n] }
      counters := bump s.counters Counter.deferrals 1 }
  if r.notifyOnDefer = true then
    if s.reports.reportQueue.length < 16 then
      { t with reports.reportQueue := t.reports.reportQueue ++ [interim] }
    else { t with counters := bump t.counters Counter.interimLost 1 }
  else t

/-- The reason for which R29 defers. -/
def reasonFor (s : State) (g : Seg) (c : ClassNo) (reason : DeferralReason) : Prop :=
  (¬ isOpen s c ∧ reason = .window) ∨
  (isOpen s c ∧ 16 ≤ s.segs[g].sendQueue.length ∧ reason = .space) ∨
  (isOpen s c ∧ s.segs[g].sendQueue.length < 16 ∧ reason = .order)

/-- The interim report of R30 for a record just admitted. -/
def interimReport (s : State) (r : Slot) (reason : DeferralReason) : Report :=
  { slotReport s r .deferred none with
    attempts := 0
    deferredSeconds := 0
    nextOpening := if reason = .window then some (s.nextOpening r.cls) else none }

/-- A slot is the displacement victim for a priority (R25): DEFERRED, of lower priority, and of all
such slots the one of lowest priority and among those the youngest. -/
def isVictim (s : State) (p : Fin 4) (h : Seg) (v : SlotNo) (x : Slot) : Prop :=
  v ∈ s.segs[h].deferralQueue ∧ s.buffer.slots[v] = some x ∧ x.priority < p ∧
    ∀ (g : Seg) (m : SlotNo) (y : Slot), m ∈ s.segs[g].deferralQueue → s.buffer.slots[m] = some y →
      y.priority < p → m ≠ v →
      x.priority < y.priority ∨
        x.priority = y.priority ∧ 1 ≤ (x.intake - y.intake).toNat ∧
          (x.intake - y.intake).toNat < 2 ^ 31

/-- A displacement (R8, R26): the victim has left its queue with its DISPLACED report, and its slot
holds the newcomer's record. -/
def displaced (s : State) (h : Seg) (v : SlotNo) (x r : Slot) : State :=
  { s with
    port.assembler := .hunt
    segs := put s.segs h { s.segs[h] with
      deferralQueue := s.segs[h].deferralQueue.filter fun m => m ≠ v }
    buffer.slots := put s.buffer.slots v (some r)
    buffer.intakeCounter := s.buffer.intakeCounter + 1
    reports.reportQueue := s.reports.reportQueue ++
      [slotReport s (leftDeferred s.clock.uptime x) .displaced none]
    counters := bump s.counters 6 1 }

/-! ### Next opening -/

/-- A start offered to the search of R50: k days ahead, at a time of day. -/
def offered (s : State) (p : ClassPolicy) (now : Calendar) (k : Nat) (start : TimeOfDay) : Prop :=
  k ≤ 7 ∧ ∃ i ∈ p.windows, ∃ w : Window, s.bank.active.windows[i] = some w ∧ w.start = start ∧
    w.dayMask.getLsbD (now.date.addDays k).weekday = true ∧
    (k = 0 → now.time.seconds < start.seconds)

end Sys2Proof.Safety
end

