-- ==== Sys2Proof/Certificates/Slice0/Obligations.lean ====
section
/-! DEFINITION. The statements about the part, in the terms of Sys2Proof/Safety.lean. -/

open Sys2Proof Sys2Proof.Machine Sys2Proof.Safety

/-! ### The machine -/

/-- A step is the command at the front of the queue carried out with the queue's rest; with none
waiting the part idles (the model's choice: notes/assumptions/2.md). -/
def Obligations.StepTakesFrontCommand : Prop :=
  (∀ (c : Instr) (rest : List Instr) (s : State),
    step { s with pending := c :: rest } = exec c { s with pending := rest }) ∧
  ∀ s : State, s.pending = [] → step s = .next s

/-- The part answers every command, and no command touches the queue of those that wait
(spec/00_scope.md, section 3). -/
def Obligations.EveryCommandIsAnswered : Prop :=
  ∀ (c : Instr) (s : State), ∃ t, exec c s = .next t ∧ t.pending = s.pending

/-- R156, R164: while a reset hold is on, only the supply, RST_N and the end of the 20 ms reach the
part; how the holds begin and end; and the reset that takes effect at their end. (What stays during a
hold: notes/assumptions/6.md. Strap levels: notes/assumptions/7.md. Instants: notes/assumptions/15.md.) -/
def Obligations.SupplyAndResetLine : Prop :=
  (∀ (c : Instr) (s : State), s.pins.hold.isSome = true →
     c ≠ .supplyFall → c ≠ .supplyRise → c ≠ .rstNLow →
     (∀ pins, c ≠ .powerOnHoldEnd pins) → (∀ pins, c ≠ .rstNHigh pins) →
     exec c s = .next s) ∧
  (∀ (s t : State) (pins : StrapPins),
     t = { State.afterReset .powerOn pins with
           pins.straps := pins, pins.latched := pins, pins.supplyUp := s.pins.supplyUp,
           pins.hold := none, pins.now := 0, pending := s.pending } →
     (s.pins.supplyUp = true →
       exec .supplyFall s = .next { s with
         port := { assembler := .hunt, transmitter := .idle }
         pins.supplyUp := false
         pins.hold := some { cause := .powerOn, dueAt := none, settled := false } }) ∧
     (s.pins.supplyUp = false →
       exec .supplyRise s = .next { s with
         port := { assembler := .hunt, transmitter := .idle }
         pins.supplyUp := true
         pins.hold := some
           { cause := .powerOn, dueAt := some (s.pins.now + 20 * 288000), settled := false } }) ∧
     (∀ due, s.pins.hold = some { cause := .powerOn, dueAt := some due, settled := false } →
       (s.pins.rstN = true →
         exec (.powerOnHoldEnd pins) s = .next { t with pins.rstN := true }) ∧
       (s.pins.rstN = false →
         exec (.powerOnHoldEnd pins) s = .next { s with
           pins.now := max s.pins.now due
           pins.straps := pins
           pins.hold := some { cause := .powerOn, dueAt := none, settled := true } })) ∧
     (s.pins.hold = none →
       exec .rstNLow s = .next { s with
         port := { assembler := .hunt, transmitter := .idle }
         pins.rstN := false
         pins.hold := some { cause := .resetLine, dueAt := none, settled := false } }) ∧
     (s.pins.hold.isSome = true → exec .rstNLow s = .next { s with pins.rstN := false }) ∧
     (∀ h, s.pins.hold = some h →
       (h.cause = .powerOn → h.settled = true →
         exec (.rstNHigh pins) s = .next { t with pins.rstN := true }) ∧
       (h.cause = .powerOn → h.settled = false →
         exec (.rstNHigh pins) s = .next { s with pins.rstN := true, pins.straps := pins }) ∧
       (h.cause = .resetLine →
         exec (.rstNHigh pins) s = .next
           { State.afterReset .resetLine pins with
             pins.straps := pins, pins.latched := pins, pins.supplyUp := s.pins.supplyUp,
             pins.rstN := true, pins.hold := none, pins.now := 0, pending := s.pending })) ∧
     (s.pins.hold = none →
       exec (.rstNHigh pins) s = .next { s with pins.rstN := true, pins.straps := pins }))

/-! ### The path of a request -/

/-- R130 to R133: how steps 1 to 6 turn a request away, and that nothing else changes; a request with
a code the Agent does not know, or with none, meets steps 1 to 3 like any other and is then answered
BAD_REQUEST with the code echoed. -/
def Obligations.RequestsTurnedAway : Prop :=
  (∀ (c : Instr) (code : Byte) (r : Request) (lengthOk write barred : Bool) (s : State),
     requestOf c = some (code, r, lengthOk, write, barred) → s.pins.hold = none →
     (4 ≤ s.reports.responseQueue.length + heldPlace s →
       exec c s = .next { s with
         port.assembler := .hunt, counters := bump s.counters Counter.mgmtOverrun 1 }) ∧
     (s.reports.responseQueue.length + heldPlace s < 4 →
       (¬ goodSource s r.source →
         exec c s = .next { s with
           port.assembler := .hunt, counters := bump s.counters Counter.badAddress 1 }) ∧
       (goodSource s r.source →
         (s.agent.restartPending = true → exec c s = .next (answered s r code .busy [])) ∧
         (s.agent.restartPending = false →
           (lengthOk = false → exec c s = .next (answered s r code .badRequest [])) ∧
           (lengthOk = true →
             (write = true → s.agent.managers ≠ [] → r.source ∉ s.agent.managers →
               exec c s = .next (answered
                 { s with counters := bump s.counters Counter.mgmtDenied 1 } r code .denied [])) ∧
             ((write = true → s.agent.managers = [] ∨ r.source ∈ s.agent.managers) →
               barred = true → s.agent.commit ≠ .idle →
               exec c s = .next (answered s r code .busy []))))))) ∧
  (∀ (source : Addr) (seq : Byte) (payload : List Byte) (code : Byte) (r : Request) (s : State),
     s.pins.hold = none → r = { source := source, seq := seq, params := [] } →
     payload = [] ∧ code = 0 ∨
       (∃ params, payload = code :: params) ∧ (code.toNat = 0 ∨ 0x15 < code.toNat) →
     (4 ≤ s.reports.responseQueue.length + heldPlace s →
       exec (.unknownRequest source seq payload) s = .next { s with
         port.assembler := .hunt, counters := bump s.counters Counter.mgmtOverrun 1 }) ∧
     (s.reports.responseQueue.length + heldPlace s < 4 →
       (¬ goodSource s source →
         exec (.unknownRequest source seq payload) s = .next { s with
           port.assembler := .hunt, counters := bump s.counters Counter.badAddress 1 }) ∧
       (goodSource s source →
         (s.agent.restartPending = true →
           exec (.unknownRequest source seq payload) s = .next (answered s r code .busy [])) ∧
         (s.agent.restartPending = false →
           exec (.unknownRequest source seq payload) s =
             .next (answered s r code .badRequest [])))))

/-! ### Requests that read -/

/-- R135 and R137 with the layouts of R162: READ_STATUS and READ_QUEUE answer with the values as they
stand, and change nothing else. The code of the commit state is the model's choice
(notes/assumptions/19.md). -/
def Obligations.StatusAndQueueAreRead : Prop :=
  ∀ (r : Request) (s : State), Accepts s r false false → r.params = [] →
    exec (.readStatus r) s = .next (answered s r 0x01 .ok
      (([0x3C, 0x64, 0x02] : List Byte) ++ twoBytes (4080 + s.pins.latched.adr.toNat) ++
        ([match s.agent.startCause with | .powerOn => 1 | .resetLine => 2 | .restart => 3,
          if s.clock.record = none then 0 else 1] : List Byte) ++
        fourBytes s.clock.uptime ++ twoBytes (inUseCount s) ++
        ([if s.buffer.storeHigh = true then 1 else 0] : List Byte) ++ twoBytes s.bank.generation.toNat ++
        ([match s.agent.commit with | .idle => 0 | .validating _ _ _ => 1] : List Byte) ++
        (match s.agent.lastCommit with
          | .none => ([0, 0, 0, 0] : List Byte)
          | .ok => [1, 0, 0, 0]
          | .failed f => [2, tableCode f.table, byteOf f.index, reasonCode f.reason]) ++
        [byteOf s.agent.managers.length] ++ twoBytes s.agent.noticeAddress.toNat)) ∧
    exec (.readQueue r) s = .next (answered s r 0x10 .ok
      (queueReport s s.segs[0] ++ queueReport s s.segs[1] ++ queueReport s s.segs[2] ++
        queueReport s s.segs[3]))

/-- R39 with the layout of R162: READ_CLOCK. -/
def Obligations.ClockIsRead : Prop :=
  ∀ (r : Request) (s : State), Accepts s r false false → r.params = [] →
    (∀ c : Calendar, s.clock.record = some c →
      exec (.readClock r) s = .next (answered s r 0x02 .ok
        [byteOf c.date.year, byteOf c.date.month, byteOf c.date.day, byteOf c.time.hour,
          byteOf c.time.minute, byteOf c.time.second, byteOf ((6 + c.date.dayNumber) % 7)])) ∧
    (s.clock.record = none →
      exec (.readClock r) s = .next (answered s r 0x02 .clockUnset []))

/-- R142: READ_COUNTERS gives the counters of a group in order and, with clear yes, sets exactly
those to 0. -/
def Obligations.CountersAreRead : Prop :=
  ∀ (r : Request) (group clear : Byte) (s : State), r.params = [group, clear] →
    Accepts s r (clear != 0) false →
    (6 < group.toNat → exec (.readCounters r) s = .next (answered s r 0x11 .badIndex [])) ∧
    (group.toNat ≤ 6 →
      (¬ yesNoOk clear → exec (.readCounters r) s = .next (answered s r 0x11 .badValue [])) ∧
      (yesNoOk clear →
        exec (.readCounters r) s = .next (answered
          { s with counters := Vector.ofFn fun i =>
              if clear = 1 ∧ groupFirst group.toNat ≤ i.val ∧
                i.val < groupFirst group.toNat + groupSize group.toNat then 0 else s.counters[i] }
          r 0x11 .ok
          (((s.counters.toList.drop (groupFirst group.toNat)).take
            (groupSize group.toNat)).flatMap fourBytes))))

/-- R145 with the layout of R162: READ_ENTRY. That the format bytes of an undefined entry are left out
is the model's choice (notes/assumptions/18.md). -/
def Obligations.EntryIsRead : Prop :=
  ∀ (r : Request) (bank table index : Byte) (s : State), r.params = [bank, table, index] →
    Accepts s r false false →
    (tableSize table ≤ index.toNat →
      exec (.readEntry r) s = .next (answered s r 0x05 .badIndex [])) ∧
    (index.toNat < tableSize table →
      (bank ≠ 1 → bank ≠ 2 → exec (.readEntry r) s = .next (answered s r 0x05 .badValue [])) ∧
      ∀ image : Tables, bank = 1 ∧ image = s.bank.active ∨ bank = 2 ∧ image = s.bank.staging →
        exec (.readEntry r) s = .next (answered s r 0x05 .ok
          ([bank, table, index] ++ twoBytes s.bank.generation.toNat ++
            if table = 1 then
              (match image.routes[index.toNat]?.join with
                | none => [0]
                | some e => 1 :: (twoBytes e.first.toNat ++ twoBytes e.last.toNat ++
                    [byteOf e.segment.val]))
            else if table = 2 then
              (match image.classes[index.toNat]?.join with
                | none => [0]
                | some p => [1, byteOf p.windows.length] ++ (p.windows.map fun w => byteOf w.val) ++
                    List.replicate (4 - p.windows.length) 0 ++ twoBytes p.holdLimit ++
                    [byteOf p.priority.val, if p.answerExpected then 1 else 0,
                      byteOf p.retryLimit.val, byteOf p.answerTimeout,
                      if p.notifyOnDefer then 1 else 0])
            else
              (match image.windows[index.toNat]?.join with
                | none => [0]
                | some w => [1, byteOf w.dayMask.toNat, byteOf w.start.hour, byteOf w.start.minute,
                    byteOf w.start.second, byteOf w.stop.hour, byteOf w.stop.minute,
                    byteOf w.stop.second]))))

/-! ### Requests that write -/

/-- R40: SET_CLOCK takes a real date and time, evaluates every window at it and signals an opening;
any other is answered BAD_VALUE and changes nothing. (Owed actions: notes/assumptions/4.md.) -/
def Obligations.ClockIsSet : Prop :=
  ∀ (r : Request) (y mo d h mi sec : Byte) (s : State), r.params = [y, mo, d, h, mi, sec] →
    Accepts s r true false →
    (realDateTime y.toNat mo.toNat d.toNat h.toNat mi.toNat sec.toNat →
      ∀ c : Calendar, c = { date := { year := y.toNat, month := mo.toNat, day := d.toNat },
                            time := { hour := h.toNat, minute := mi.toNat, second := sec.toNat } } →
        exec (.setClock r) s = .next (answered
          { s with
            clock.record := some c
            windowOpen := windowsAt s.bank.active (some c)
            occasions := s.occasions ++
              if opens s.windowOpen (windowsAt s.bank.active (some c)) then examinations else [] }
          r 0x03 .ok [])) ∧
    (¬ realDateTime y.toNat mo.toNat d.toNat h.toNat mi.toNat sec.toNat →
      exec (.setClock r) s = .next (answered s r 0x03 .badValue []))

/-- R41: ADJUST_CLOCK moves the record by its number of seconds, around the century, with the flags of
the move, and evaluates every window. That bits 3 to 7 of the flags byte are 0 is the model's choice
(notes/assumptions/20.md). (Owed actions: notes/assumptions/4.md.) -/
def Obligations.ClockIsAdjusted : Prop :=
  ∀ (r : Request) (b3 b2 b1 b0 : Byte) (s : State) (n : Int), r.params = [b3, b2, b1, b0] →
    n = (b3 ++ b2 ++ b1 ++ b0 : BitVec 32).toInt → Accepts s r true false →
    (n < -86399 ∨ 86399 < n → exec (.adjustClock r) s = .next (answered s r 0x04 .badValue [])) ∧
    (-86399 ≤ n → n ≤ 86399 →
      (s.clock.record = none → exec (.adjustClock r) s = .next (answered s r 0x04 .clockUnset [])) ∧
      ∀ c : Calendar, s.clock.record = some c → c.isReal = true →
        ∃ c' : Calendar, c'.isReal = true ∧
          (absoluteSeconds c' : Int) = ((absoluteSeconds c : Int) + n) % (centurySeconds : Int) ∧
          exec (.adjustClock r) s = .next (answered
            { s with
              clock.record := some c'
              windowOpen := windowsAt s.bank.active (some c')
              occasions := s.occasions ++
                if opens s.windowOpen (windowsAt s.bank.active (some c')) then examinations else [] }
            r 0x04 .ok
            [byteOf c'.date.year, byteOf c'.date.month, byteOf c'.date.day, byteOf c'.time.hour,
              byteOf c'.time.minute, byteOf c'.time.second, byteOf ((6 + c'.date.dayNumber) % 7),
              byteOf ((if 86400 ≤ (c.time.seconds : Int) + n then 1 else 0) +
                (if (c.time.seconds : Int) + n < 0 then 2 else 0) +
                (if (absoluteSeconds c : Int) + n < 0 ∨
                    (centurySeconds : Int) ≤ (absoluteSeconds c : Int) + n then 4 else 0))]))

/-- R146, R162: WRITE_ENTRY writes the one staging entry named, with the fields its format carries (of
the four index bytes of a class the first count), or undefines it; an entry the table does not have is
BAD_INDEX, and a field out of range BAD_VALUE. -/
def Obligations.EntriesAreWritten : Prop :=
  (∀ (r : Request) (table index action : Byte) (format : List Byte) (s : State),
     r.params = table :: index :: action :: format → Accepts s r true true →
     writeEntryLengthOk r.params = true →
     (tableSize table ≤ index.toNat →
       exec (.writeEntry r) s = .next (answered s r 0x06 .badIndex [])) ∧
     (index.toNat < tableSize table →
       (action ≠ 1 → action ≠ 2 →
         exec (.writeEntry r) s = .next (answered s r 0x06 .badValue [])) ∧
       (action = 2 →
         exec (.writeEntry r) s = .next (answered
           { s with bank.staging :=
               if table = 1 then
                 { s.bank.staging with
                   routes := s.bank.staging.routes.setIfInBounds index.toNat none }
               else if table = 2 then
                 { s.bank.staging with
                   classes := s.bank.staging.classes.setIfInBounds index.toNat none }
               else
                 { s.bank.staging with
                   windows := s.bank.staging.windows.setIfInBounds index.toNat none } }
           r 0x06 .ok [])) ∧
       (action = 1 → table = 1 →
         ∀ f1 f0 l1 l0 g : Byte, format = [f1, f0, l1, l0, g] →
           (f1.toNat < 16 → l1.toNat < 16 → ∀ segment : Seg, segment.val = g.toNat →
             exec (.writeEntry r) s = .next (answered
               { s with bank.staging.routes :=
                   s.bank.staging.routes.setIfInBounds index.toNat (some
                     { first := BitVec.ofNat 12 (256 * f1.toNat + f0.toNat),
                       last := BitVec.ofNat 12 (256 * l1.toNat + l0.toNat), segment := segment }) }
               r 0x06 .ok [])) ∧
           (16 ≤ f1.toNat ∨ 16 ≤ l1.toNat ∨ 4 ≤ g.toNat →
             exec (.writeEntry r) s = .next (answered s r 0x06 .badValue []))) ∧
       (action = 1 → table = 3 →
         ∀ mask h0 m0 s0 h1 m1 s1 : Byte, format = [mask, h0, m0, s0, h1, m1, s1] →
           (mask.toNat < 128 → timeOk h0 m0 s0 → timeOk h1 m1 s1 →
             exec (.writeEntry r) s = .next (answered
               { s with bank.staging.windows :=
                   s.bank.staging.windows.setIfInBounds index.toNat (some
                     { dayMask := BitVec.ofNat 7 mask.toNat,
                       start := { hour := h0.toNat, minute := m0.toNat, second := s0.toNat },
                       stop := { hour := h1.toNat, minute := m1.toNat, second := s1.toNat } }) }
               r 0x06 .ok [])) ∧
           (¬ (mask.toNat < 128 ∧ timeOk h0 m0 s0 ∧ timeOk h1 m1 s1) →
             exec (.writeEntry r) s = .next (answered s r 0x06 .badValue []))))) ∧
  (∀ (r : Request) (index count i0 i1 i2 i3 h1 h0 prio expect retry timeout notify : Byte) (s : State),
     r.params = [2, index, 1, count, i0, i1, i2, i3, h1, h0, prio, expect, retry, timeout, notify] →
     Accepts s r true true → index.toNat < 16 →
     (∀ (windows : List WindowNo) (priority : Fin 4) (retryLimit : Fin 8),
       count.toNat ≤ 4 → windows.map Fin.val = ([i0, i1, i2, i3].take count.toNat).map BitVec.toNat →
       priority.val = prio.toNat → retryLimit.val = retry.toNat → yesNoOk expect → yesNoOk notify →
       1 ≤ timeout.toNat →
       exec (.writeEntry r) s = .next (answered
         { s with bank.staging.classes :=
             s.bank.staging.classes.setIfInBounds index.toNat (some
               { windows := windows, holdLimit := 256 * h1.toNat + h0.toNat, priority := priority,
                 answerExpected := expect == 1, retryLimit := retryLimit,
                 answerTimeout := timeout.toNat, notifyOnDefer := notify == 1 }) }
         r 0x06 .ok [])) ∧
     (4 < count.toNat ∨ (∃ i ∈ [i0, i1, i2, i3].take count.toNat, 32 ≤ i.toNat) ∨ 4 ≤ prio.toNat ∨
         8 ≤ retry.toNat ∨ ¬ yesNoOk expect ∨ ¬ yesNoOk notify ∨ timeout.toNat = 0 →
       exec (.writeEntry r) s = .next (answered s r 0x06 .badValue [])))

/-- R147: COPY_ACTIVE and DISCARD_STAGING make the staging image equal to the active one, and change
nothing else; with parameters they are no request, and during a COMMIT they are answered BUSY. -/
def Obligations.StagingIsCopied : Prop :=
  ∀ (r : Request) (s : State),
    (Accepts s r true true → r.params = [] →
      exec (.copyActive r) s =
        .next (answered { s with bank.staging := s.bank.active } r 0x07 .ok []) ∧
      exec (.discardStaging r) s =
        .next (answered { s with bank.staging := s.bank.active } r 0x08 .ok [])) ∧
    (Accepts s r false false → r.params ≠ [] →
      exec (.copyActive r) s = .next (answered s r 0x07 .badRequest []) ∧
      exec (.discardStaging r) s = .next (answered s r 0x08 .badRequest [])) ∧
    (Accepts s r true false → r.params = [] → s.agent.commit ≠ .idle →
      exec (.copyActive r) s = .next (answered s r 0x07 .busy []) ∧
      exec (.discardStaging r) s = .next (answered s r 0x08 .busy []))

/-- R91: SET_PROFILE writes the pending profile alone, READ_PROFILE gives both profiles, and a block
that was written is given back byte for byte. -/
def Obligations.ProfilesAreSetAndRead : Prop :=
  (∀ (r : Request) (b mode u1 u0 lm ls zm om bs p1 p2 qg : Byte) (s : State),
    r.params = [b, mode, u1, u0, lm, ls, zm, om, bs, p1, p2, qg] → Accepts s r true false →
    (4 ≤ b.toNat → exec (.setProfile r) s = .next (answered s r 0x0A .badIndex [])) ∧
    ∀ g : Seg, g.val = b.toNat →
      (profileOk mode u1 u0 lm ls zm om bs p1 p2 qg →
        exec (.setProfile r) s = .next (answered
          { s with segs := put s.segs g { s.segs[g] with
              pendingProfile := some (profileOf mode u1 u0 lm ls zm om bs p1 p2 qg) } }
          r 0x0A .ok []) ∧
        (profileOf mode u1 u0 lm ls zm om bs p1 p2 qg).bytes =
          [mode, u1, u0, lm, ls, zm, om, bs, p1, p2, qg]) ∧
      (¬ profileOk mode u1 u0 lm ls zm om bs p1 p2 qg →
        exec (.setProfile r) s = .next (answered s r 0x0A .badValue []))) ∧
  ∀ (r : Request) (b : Byte) (s : State), r.params = [b] → Accepts s r false false →
    (4 ≤ b.toNat → exec (.readProfile r) s = .next (answered s r 0x0B .badIndex [])) ∧
    ∀ g : Seg, g.val = b.toNat →
      exec (.readProfile r) s = .next (answered s r 0x0B .ok
        (s.segs[g].profile.bytes ++
          match s.segs[g].pendingProfile with
          | some p => 1 :: p.bytes
          | none => List.replicate 12 0))

/-- R56: SET_PACING records the gap; a gap that runs keeps its end and nothing is released, and
otherwise what follows the response is an EXAMINATION. (Owed actions: notes/assumptions/4.md.) -/
def Obligations.PacingIsSet : Prop :=
  ∀ (r : Request) (b high low : Byte) (s : State), r.params = [b, high, low] →
    Accepts s r true false →
    (4 ≤ b.toNat → exec (.setPacing r) s = .next (answered s r 0x0C .badIndex [])) ∧
    ∀ g : Seg, g.val = b.toNat →
      ∀ t : State, t = answered
          { s with segs := put s.segs g { s.segs[g] with
              pacingGapMs := 256 * high.toNat + low.toNat } } r 0x0C .ok [] →
        (∀ endsAt, s.segs[g].pacer = .gap endsAt → exec (.setPacing r) s = .next t) ∧
        exec (.setPacing r) s =
          exec (.examination g) { t with occasions := .examination g :: t.occasions }

/-- R81: HOLD_SEGMENT holds the segment BY_REQUEST whatever its state was, and touches nothing
else. -/
def Obligations.SegmentIsHeld : Prop :=
  ∀ (r : Request) (b : Byte) (s : State), r.params = [b] → Accepts s r true false →
    (4 ≤ b.toNat → exec (.holdSegment r) s = .next (answered s r 0x0D .badIndex [])) ∧
    ∀ g : Seg, g.val = b.toNat →
      exec (.holdSegment r) s = .next (answered
        { s with segs := put s.segs g { s.segs[g] with state := .held .byRequest } } r 0x0D .ok [])

/-- R82: RESUME_SEGMENT makes the segment ACTIVE with streak 0 and, once its response is placed, is an
occasion for a start walk; with an empty Send Queue or a busy transceiver nothing starts. (Owed
actions: notes/assumptions/4.md.) -/
def Obligations.SegmentIsResumed : Prop :=
  ∀ (r : Request) (b : Byte) (s : State), r.params = [b] → Accepts s r true false →
    (4 ≤ b.toNat → exec (.resumeSegment r) s = .next (answered s r 0x0E .badIndex [])) ∧
    ∀ g : Seg, g.val = b.toNat →
      ∀ t : State, t = answered
          { s with segs := put s.segs g { s.segs[g] with state := .active, conflictStreak := 0 } }
          r 0x0E .ok [] →
        (s.segs[g].sendQueue = [] ∨ s.segs[g].transceiver ≠ .idle →
          exec (.resumeSegment r) s = .next t) ∧
        exec (.resumeSegment r) s =
          exec (.startWalk g) { t with occasions := .startWalk g :: t.occasions }

/-- R134: SET_MANAGERS replaces the manager list and SET_NOTICE_ADDRESS the notice address, each
after its checks. -/
def Obligations.ManagersAndNoticeAddressAreSet : Prop :=
  (∀ (r : Request) (count : Byte) (rest : List Byte) (s : State), r.params = count :: rest →
    rest.length = 2 * count.toNat → Accepts s r true false →
    (∀ list : List Addr, list.flatMap (fun a => twoBytes a.toNat) = rest → list.length ≤ 4 →
      (∀ a ∈ list, goodSource s a) → list.Nodup →
      exec (.setManagers r) s = .next (answered { s with agent.managers := list } r 0x15 .ok [])) ∧
    (4 < count.toNat ∨ (∀ list : List Addr, list.flatMap (fun a => twoBytes a.toNat) = rest →
        ¬ ((∀ a ∈ list, goodSource s a) ∧ list.Nodup)) →
      exec (.setManagers r) s = .next (answered s r 0x15 .badValue []))) ∧
  ∀ (r : Request) (high low : Byte) (s : State), r.params = [high, low] → Accepts s r true false →
    (∀ a : Addr, a.toNat = 256 * high.toNat + low.toNat → a ≠ ownAddressOf s.pins.latched →
      exec (.setNoticeAddress r) s =
        .next (answered { s with agent.noticeAddress := a } r 0x12 .ok [])) ∧
    (4095 < 256 * high.toNat + low.toNat ∨
        256 * high.toNat + low.toNat = (ownAddressOf s.pins.latched).toNat →
      exec (.setNoticeAddress r) s = .next (answered s r 0x12 .badValue []))

/-- R140: an accepted RESTART sets restart pending and places its response; traffic goes on. -/
def Obligations.RestartIsAccepted : Prop :=
  ∀ (r : Request) (s : State), Accepts s r true true → r.params = [] →
    exec (.restart r) s = .next (answered { s with agent.restartPending := true } r 0x14 .ok [])

/-- R6, R65, R85, R138: PURGE ends PURGED every deferred slot, and under DEFERRED_AND_QUEUED every
queued slot, of the segment and class selected, in the order of R138, and answers with their number. -/
def Obligations.SlotsArePurged : Prop :=
  ∀ (r : Request) (segment cls scope : Byte) (s : State), r.params = [segment, cls, scope] →
    Accepts s r true false →
    (4 ≤ segment.toNat ∧ segment ≠ 0xFF ∨ 16 ≤ cls.toNat ∧ cls ≠ 0xFF →
      exec (.purge r) s = .next (answered s r 0x0F .badIndex [])) ∧
    ((segment.toNat < 4 ∨ segment = 0xFF) → (cls.toNat < 16 ∨ cls = 0xFF) →
      (scope ≠ 1 → scope ≠ 2 → exec (.purge r) s = .next (answered s r 0x0F .badValue [])) ∧
      (scope = 1 ∨ scope = 2 → StoreInv s → RecordsInv s →
        ∀ (taken : SlotNo → Bool) (deferred queued : Seg → List SlotNo) (all : List SlotNo),
          (∀ n, taken n = true ↔
            ∃ x, s.buffer.slots[n] = some x ∧ (cls = 0xFF ∨ x.cls.val = cls.toNat)) →
          (∀ g, deferred g =
            if segment = 0xFF ∨ g.val = segment.toNat then s.segs[g].deferralQueue.filter taken
            else []) →
          (∀ g, queued g =
            if scope = 2 ∧ (segment = 0xFF ∨ g.val = segment.toNat) then
              s.segs[g].sendQueue.filter taken
            else []) →
          all = deferred 0 ++ queued 0 ++ (deferred 1 ++ queued 1) ++ (deferred 2 ++ queued 2) ++
            (deferred 3 ++ queued 3) →
          ∃ occ, exec (.purge r) s = .next { answered
            { s with
              buffer.slots := Vector.ofFn fun n =>
                if n ∈ all then
                  s.buffer.slots[n].map fun x =>
                    finished .purged none (leftDeferred s.clock.uptime x)
                else s.buffer.slots[n]
              segs := Vector.ofFn fun g =>
                { s.segs[g] with
                  deferralQueue := s.segs[g].deferralQueue.filter fun n => n ∉ deferred g
                  sendQueue := s.segs[g].sendQueue.filter fun n => n ∉ queued g }
              reports.backlog := s.reports.backlog ++ all
              counters := bump s.counters 7 all.length }
            r 0x0F .ok (twoBytes all.length) with occasions := occ }))

/-- R14, R16, R71, R88, R103, R115, R118, R139: FLUSH frees every slot without a report, empties the
collections, cuts the transmissions, clears STORE_HIGH with its notice, and keeps everything else. That
the notice is counted NOTICES_LOST when the Notice Queue is full is the model's choice
(notes/assumptions/17.md). (Instants: notes/assumptions/15.md.) -/
def Obligations.TrafficIsFlushed : Prop :=
  ∀ (r : Request) (s : State), Accepts s r true false → r.params = [] →
    (∀ c : CounterId, s.counters[c] ≤ 4294967295) →
    ∃ occ, exec (.flush r) s = .next { answered
      (let flushed : State :=
        { s with
          buffer.slots := Vector.replicate 256 none
          buffer.storeHigh := false
          reports.backlog := []
          counters := bump s.counters 9 (inUseCount s)
          segs := Vector.ofFn fun g =>
            { s.segs[g] with
              deferralQueue := []
              pacer := .idle
              sendQueue := []
              transceiver :=
                match s.segs[g].transceiver with
                | .sending _ => .quiet (s.pins.now + s.segs[g].profile.quietGap * 288000)
                | other => other
              outstanding := []
              ring := [] } }
      if s.buffer.storeHigh = true then noticed flushed (.storeClear 0) else flushed)
      r 0x13 .ok (twoBytes (inUseCount s)) with occasions := occ }

/-! ### The trunk -/

/-- R157: what a byte, a framing error and a gap timeout do in each state of the frame assembler,
short of the byte that completes a frame. That a gap timeout in HUNT changes nothing is the model's
choice, where the table of R157 has a dash (notes/assumptions/16.md). -/
def Obligations.AssemblerFollowsItsTable : Prop :=
  ∀ s : State, s.pins.hold = none →
    (∀ b : Byte,
      (s.port.assembler = .hunt →
        exec (.byteReceived b) s = .next
          (if b = 0xA6 then { s with port.assembler := .length } else s)) ∧
      (s.port.assembler = .length →
        (7 ≤ b.toNat → b.toNat ≤ 71 →
          exec (.byteReceived b) s = .next { s with port.assembler := .body b [] }) ∧
        (b.toNat < 7 ∨ 71 < b.toNat →
          exec (.byteReceived b) s = .next { s with
            port.assembler := .hunt, counters := bump s.counters Counter.frameError 1 })) ∧
      (∀ len stored, s.port.assembler = .body len stored →
        (stored.length + 1 < len.toNat →
          exec (.byteReceived b) s = .next { s with port.assembler := .body len (stored ++ [b]) }) ∧
        (len.toNat ≤ stored.length + 1 →
          exec (.byteReceived b) s =
            .next { s with port.assembler := .crc len (stored ++ [b]) none })) ∧
      ∀ len body, s.port.assembler = .crc len body none →
        exec (.byteReceived b) s = .next { s with port.assembler := .crc len body (some b) }) ∧
    ∀ c : Instr, c = .byteFramingError ∨ c = .gapTimeout →
      (s.port.assembler = .hunt → exec c s = .next s) ∧
      (s.port.assembler ≠ .hunt →
        exec c s = .next { s with
          port.assembler := .hunt, counters := bump s.counters Counter.frameError 1 })

/-- R158, R160: a completed frame that fails a test is discarded, and the first test it fails decides
the counter; the byte that completes it in the assembler does the same; and the CRC feeds each byte
most significant bit first to a register preset to 0xFFFF. -/
def Obligations.BadFramesAreDiscarded : Prop :=
  (crc16 [] = 0xFFFF ∧ ∀ (bytes : List Byte) (b : Byte),
    crc16 (bytes ++ [b]) =
      ((List.range 8).map fun i => b.getLsbD (7 - i)).foldl crcFed (crc16 bytes)) ∧
  ∀ (s : State) (len kind d1 d0 s1 s0 seq cls c1 c0 : Byte) (payload body frame : List Byte)
    (counter : CounterId),
    s.pins.hold = none → body = kind :: d1 :: d0 :: s1 :: s0 :: seq :: cls :: payload →
    body.length = len.toNat → frame = len :: body ++ [c1, c0] →
    (¬ twoBytes (crc16 (len :: body)).toNat = [c1, c0] ∧ counter = Counter.checkError) ∨
    (twoBytes (crc16 (len :: body)).toNat = [c1, c0] ∧
      ((16 ≤ d1.toNat ∨ 16 ≤ s1.toNat) ∧ counter = Counter.frameError ∨
      d1.toNat < 16 ∧ s1.toNat < 16 ∧
        (kind ≠ 1 ∧ kind ≠ 2 ∧ counter = Counter.badKind ∨
        kind = 1 ∧ (48 < payload.length ∨ 16 ≤ cls.toNat) ∧ counter = Counter.frameError ∨
        kind = 2 ∧ 256 * d1.toNat + d0.toNat ≠ (ownAddressOf s.pins.latched).toNat ∧
          counter = Counter.badAddress))) →
    exec (.trunkFrameDiscarded frame) s = .next { s with
      port.assembler := .hunt, counters := bump s.counters counter 1 } ∧
    (s.port.assembler = .crc len body (some c1) →
      exec (.byteReceived c0) s = .next { s with
        port.assembler := .hunt, counters := bump s.counters counter 1 })

/-- R157, R158, R160, R161: the bytes of a COMMAND frame, received one by one from HUNT, do exactly
what the admission of the telegram they spell does, for every telegram. -/
def Obligations.CommandFramesDecode : Prop :=
  ∀ (t : CommandTelegram) (s : State), t.payload.length ≤ 48 → s.pins.hold = none →
    s.port.assembler = .hunt →
    (runAll [.admission t] s).isSome = true ∧
    runAll ((trunkFrame (trunkBody 1 t.destination t.source t.seq (byteOf t.cls.val)
      t.payload)).map .byteReceived) s = runAll [.admission t] s

/-- R157, R158, R160 to R162: the bytes of a MGMT_REQUEST frame to the own address, received one by
one from HUNT, do exactly what the request of its code does, for every code and parameter block. -/
def Obligations.RequestFramesDecode : Prop :=
  ∀ (c : Instr) (code : Byte) (r : Request) (lengthOk write barred : Bool) (cls : Byte) (s : State),
    requestOf c = some (code, r, lengthOk, write, barred) → r.params.length ≤ 63 →
    s.pins.hold = none → s.port.assembler = .hunt →
    (runAll [c] s).isSome = true ∧
    runAll ((trunkFrame (trunkBody 2 (ownAddressOf s.pins.latched) r.source r.seq cls
      (code :: r.params))).map .byteReceived) s = runAll [c] s

/-! ### Admission -/

/-- R17 to R23, R27, R31: the screening of the source and every refusal, with its counter and its
report or UNREPORTED, and nothing else changed. -/
def Obligations.CommandsAreRefused : Prop :=
  ∀ (t : CommandTelegram) (s : State), s.pins.hold = none →
    (48 < t.payload.length → exec (.admission t) s = .next { s with
      port.assembler := .hunt, counters := bump s.counters Counter.frameError 1 }) ∧
    (t.payload.length ≤ 48 →
      (¬ goodSource s t.source → exec (.admission t) s = .next { s with
        port.assembler := .hunt, counters := bump s.counters Counter.badAddress 1 }) ∧
      (goodSource s t.source →
        (¬ pairFree s t.source t.seq →
          exec (.admission t) s = .next (refusedState s t .refusedDuplicate none 10)) ∧
        (pairFree s t.source t.seq → unrouted s t.destination →
          exec (.admission t) s = .next (refusedState s t .refusedNoRoute none 11)) ∧
        (∀ g : Seg, pairFree s t.source t.seq → routesTo s t.destination g →
          s.bank.active.classes[t.cls] = none →
          exec (.admission t) s = .next (refusedState s t .refusedNoPolicy none 12)))) ∧
    ∀ (g : Seg) (p : ClassPolicy), Routed s t g p →
      (p.holdLimit = 0 → ¬ isOpen s t.cls →
        exec (.admission t) s = .next (refusedState s t .refusedClosed (some g) 13)) ∧
      (p.holdLimit = 0 → isOpen s t.cls → 16 ≤ s.segs[g].sendQueue.length →
        exec (.admission t) s = .next (refusedState s t .refusedSegmentFull (some g) 14)) ∧
      (mayWaitOrGo s t g p → (∀ n : SlotNo, s.buffer.slots[n].isSome = true) →
        16 ≤ s.reports.reportQueue.length ∨
          (∀ (h : Seg) (n : SlotNo) (x : Slot), n ∈ s.segs[h].deferralQueue →
            s.buffer.slots[n] = some x → p.priority ≤ x.priority) →
        exec (.admission t) s = .next (refusedState s t .refusedStoreFull (some g) 15))

/-- R7, R13, R24, R28 to R30: with a FREE slot a COMMAND takes the lowest-numbered one with the next
intake number, and is QUEUED at the back of its priority level or DEFERRED for the reason R29 gives,
with its interim report; nothing else changes. -/
def Obligations.CommandsArePlaced : Prop :=
  ∀ (t : CommandTelegram) (s : State) (g : Seg) (p : ClassPolicy) (n : SlotNo),
    StoreInv s → Routed s t g p → mayWaitOrGo s t g p → lowestFree s n →
    (isOpen s t.cls → s.segs[g].sendQueue.length < 16 →
      p.holdLimit = 0 ∨ (∀ m ∈ s.segs[g].deferralQueue, ¬ eligibleSlot s m) →
      ∀ higher lower, splitsAt s s.segs[g].sendQueue higher lower p.priority →
        ∃ occ, exec (.admission t) s = .next
          { queuedBetween (allocated s n (admitted s t p g none)) g n higher lower with
            occasions := occ }) ∧
    ∀ reason, p.holdLimit ≠ 0 → reasonFor s g t.cls reason →
      (reason = .order → ∃ m ∈ s.segs[g].deferralQueue, eligibleSlot s m) →
      ∃ occ, exec (.admission t) s = .next
        { deferredAtBack
            (allocated s n
              (admitted s t p g (some { reason := reason, since := s.clock.uptime }))) g n
            (admitted s t p g none) (interimReport s (admitted s t p g none) reason) with
          occasions := occ }

/-- R8, R25, R26: in a full store with room in the Report Queue, the youngest slot of the lowest
priority below the newcomer's is displaced and reported, and the newcomer takes its slot and is placed
by the queues as they then stand. -/
def Obligations.CommandsDisplace : Prop :=
  ∀ (t : CommandTelegram) (s : State) (g h : Seg) (p : ClassPolicy) (v : SlotNo) (x : Slot),
    StoreInv s → RecordsInv s → Routed s t g p → mayWaitOrGo s t g p →
    (∀ n : SlotNo, s.buffer.slots[n].isSome = true) → s.reports.reportQueue.length < 16 →
    isVictim s p.priority h v x →
    (isOpen s t.cls → s.segs[g].sendQueue.length < 16 →
      p.holdLimit = 0 ∨ (∀ m ∈ s.segs[g].deferralQueue, m ≠ v → ¬ eligibleSlot s m) →
      ∀ higher lower, splitsAt s s.segs[g].sendQueue higher lower p.priority →
        ∃ occ, exec (.admission t) s = .next
          { queuedBetween (displaced s h v x (admitted s t p g none)) g v higher lower with
            occasions := occ }) ∧
    ∀ reason, p.holdLimit ≠ 0 → reasonFor s g t.cls reason →
      (reason = .order → ∃ m ∈ s.segs[g].deferralQueue, m ≠ v ∧ eligibleSlot s m) →
      ∃ occ, exec (.admission t) s = .next
        { deferredAtBack
            (displaced s h v x
              (admitted s t p g (some { reason := reason, since := s.clock.uptime }))) g v
            (admitted s t p g none) (interimReport s (admitted s t p g none) reason) with
          occasions := occ }

/-! ### Clock and windows -/

/-- R36, R46, R47, R62: the second edge advances uptime and the record, evaluates every window,
signals an opening, and brings an expiry check to each Release Unit. (Instants:
notes/assumptions/15.md. Owed actions: notes/assumptions/4.md.) -/
def Obligations.SecondEdgeTicks : Prop :=
  ∀ s : State, s.pins.hold = none →
    exec .secondEdge s = .next { s with
      pins.now := max s.pins.now s.clock.nextEdge
      clock := { record := s.clock.record.map Calendar.tick
                 uptime := min (s.clock.uptime + 1) 4294967295
                 nextEdge := s.clock.nextEdge + 288000000 }
      windowOpen := windowsAt s.bank.active (s.clock.record.map Calendar.tick)
      occasions := s.occasions ++
        (if opens s.windowOpen (windowsAt s.bank.active (s.clock.record.map Calendar.tick)) then
          examinations else []) ++
        [.expiryCheck 0, .expiryCheck 1, .expiryCheck 2, .expiryCheck 3] }

/-- R37, R38: a tick takes a real clock time to the real one a second later, around the century, and
the weekday to the one that follows, but from 2099-12-31 to Saturday 2000-01-01. -/
def Obligations.TickIsOneSecond : Prop :=
  ∀ c : Calendar, c.isReal = true →
    c.tick.isReal = true ∧ absoluteSeconds c < centurySeconds ∧
    absoluteSeconds c.tick = (absoluteSeconds c + 1) % centurySeconds ∧
    (c.tick.date = c.date ∨
      c.tick.date.weekday = (c.date.weekday + 1) % 7 ∨
      c.date = { year := 99, month := 12, day := 31 } ∧ c.date.weekday = 4 ∧
        c.tick.date = { year := 0, month := 1, day := 1 } ∧ c.tick.date.weekday = 6)

/-- R43, R44: a defined window is open at a real clock time exactly when the time lies inside the
occurrence that begins on that date or on the date before, which lasts from its start to the next
time its end comes round; an undefined window, and every window while the clock is UNSET, is closed. -/
def Obligations.WindowsOpenInOccurrences : Prop :=
  (∀ (entry : Option Window) (record : Option Calendar), entry = none ∨ record = none →
    windowStateAt entry record = false) ∧
  ∀ (w : Window) (c : Calendar), c.isReal = true → w.start.isReal = true → w.stop.isReal = true →
    (windowStateAt (some w) (some c) = true ↔
      ∃ (daysBack length elapsed : Nat) (date : Date),
        (daysBack = 0 ∧ date = c.date ∨ daysBack = 1 ∧ date.next = c.date ∧ date.isReal = true) ∧
        w.dayMask.getLsbD date.weekday = true ∧
        1 ≤ length ∧ length ≤ 86400 ∧ (w.start.seconds + length) % 86400 = w.stop.seconds ∧
        86400 * daysBack + c.time.seconds = w.start.seconds + elapsed ∧ elapsed < length)

/-- R50, R51: the next opening of a class is the earliest of the starts offered on the eight dates,
and UNKNOWN when none is offered, the clock is UNSET or the class is undefined. -/
def Obligations.NextOpeningIsEarliest : Prop :=
  ∀ (s : State) (cls : ClassNo),
    (s.clock.record = none ∨ s.bank.active.classes[cls] = none → s.nextOpening cls = .unknown) ∧
    ∀ (now : Calendar) (p : ClassPolicy), s.clock.record = some now →
      s.bank.active.classes[cls] = some p →
      (s.nextOpening cls = .unknown ↔ ¬ ∃ k start, offered s p now k start) ∧
      ∀ (k weekday : Nat) (time : TimeOfDay), s.nextOpening cls = .on k weekday time →
        offered s p now k time ∧ weekday = (now.date.addDays k).weekday ∧
        ∀ k' start, offered s p now k' start → k < k' ∨ k = k' ∧ time.seconds ≤ start.seconds

/-! ### Deferral and release -/

/-- R54, R55, R57, R60: an EXAMINATION releases the oldest eligible slot of a paced segment into its
place in the Send Queue and starts the gap, and does nothing when a condition fails; at the end of a
gap the pacer is IDLE and what follows is an EXAMINATION. (Instants: notes/assumptions/15.md. Owed
actions: notes/assumptions/4.md.) -/
def Obligations.PacedReleases : Prop :=
  (∀ (g : Seg) (s t : State), s.pins.hold = none →
     t = { s with occasions := s.occasions.erase (.examination g) } →
     ((∃ endsAt, s.segs[g].pacer = .gap endsAt) ∨ 16 ≤ s.segs[g].sendQueue.length ∨
         (∀ n ∈ s.segs[g].deferralQueue, ¬ eligibleSlot s n) →
       exec (.examination g) s = .next t) ∧
     ∀ (before after higher lower : List SlotNo) (n : SlotNo) (r : Slot),
       s.segs[g].pacer = .idle → s.segs[g].sendQueue.length < 16 → s.segs[g].pacingGapMs ≠ 0 →
       s.segs[g].deferralQueue = before ++ n :: after →
       (∀ m ∈ before, ¬ eligibleSlot s m) → eligibleSlot s n → s.buffer.slots[n] = some r →
       splitsAt s s.segs[g].sendQueue higher lower r.priority →
       exec (.examination g) s = .next { t with
         segs := put s.segs g { s.segs[g] with
           deferralQueue := before ++ after
           sendQueue := higher ++ n :: lower
           pacer := .gap (s.pins.now + s.segs[g].pacingGapMs * 288000) }
         buffer.slots := put s.buffer.slots n (some (leftDeferred s.clock.uptime r))
         counters := bump s.counters Counter.releases 1
         occasions := t.occasions ++ [.startWalk g] }) ∧
  (∀ (g : Seg) (s t : State) (endsAt : Nat), s.pins.hold = none → s.segs[g].pacer = .gap endsAt →
     t = { s with
       pins.now := max s.pins.now endsAt
       segs := put s.segs g { s.segs[g] with pacer := .idle } } →
     (16 ≤ s.segs[g].sendQueue.length ∨ (∀ n ∈ s.segs[g].deferralQueue, ¬ eligibleSlot s n) →
       exec (.pacerGapEnd g) s = .next t) ∧
     exec (.pacerGapEnd g) s =
       exec (.examination g) { t with occasions := .examination g :: t.occasions })

/-- R59: with pacing gap 0 an EXAMINATION releases the oldest eligible slots until none is left or the
Send Queue holds 16 entries; they stand in their order at the back of their priority levels. -/
def Obligations.UnpacedExaminationFillsQueue : Prop :=
  ∀ (g : Seg) (s : State) (eligible : SlotNo → Bool) (released : List SlotNo),
    s.pins.hold = none → StoreInv s → ChainInv s g → s.segs[g].pacer = .idle →
    s.segs[g].pacingGapMs = 0 → (∀ n, eligible n = true ↔ eligibleSlot s n) →
    released = (s.segs[g].deferralQueue.filter eligible).take (16 - s.segs[g].sendQueue.length) →
    ∃ (occ : List Occasion) (sendQueue : List SlotNo),
      (∀ p : Fin 4, ∀ level : SlotNo → Bool,
        (∀ n, level n = true ↔ ∃ r, s.buffer.slots[n] = some r ∧ r.priority = p) →
        sendQueue.filter level = s.segs[g].sendQueue.filter level ++ released.filter level) ∧
      sendQueue.Pairwise (atLeastPriority s) ∧
      sendQueue.length = s.segs[g].sendQueue.length + released.length ∧
      exec (.examination g) s = .next { s with
        segs := put s.segs g { s.segs[g] with
          deferralQueue := s.segs[g].deferralQueue.filter fun n => n ∉ released
          sendQueue := sendQueue }
        buffer.slots := Vector.ofFn fun n =>
          if n ∈ released then s.buffer.slots[n].map (leftDeferred s.clock.uptime)
          else s.buffer.slots[n]
        counters := bump s.counters Counter.releases released.length
        occasions := occ }

/-- R62: an EXPIRY_CHECK ends EXPIRED, oldest first, every deferred slot whose deadline is at or below
the uptime, and no other. (Owed actions: notes/assumptions/4.md.) -/
def Obligations.DeadlinesExpire : Prop :=
  ∀ (g : Seg) (s : State) (due : SlotNo → Bool) (expired : List SlotNo), s.pins.hold = none →
    (∀ n, due n = true ↔ ∃ r, s.buffer.slots[n] = some r ∧ r.holdDeadline ≤ s.clock.uptime) →
    expired = s.segs[g].deferralQueue.filter due →
    exec (.expiryCheck g) s = .next { s with
      segs := put s.segs g { s.segs[g] with
        deferralQueue := s.segs[g].deferralQueue.filter fun n => !due n }
      buffer.slots := Vector.ofFn fun n =>
        if n ∈ expired then
          s.buffer.slots[n].map fun r => finished .expired none (leftDeferred s.clock.uptime r)
        else s.buffer.slots[n]
      reports.backlog := s.reports.backlog ++ expired
      counters := bump s.counters 5 expired.length
      occasions := s.occasions.erase (.expiryCheck g) ++
        List.replicate expired.length .formation }

/-! ### The Segment Scheduler -/

/-- R75 to R79, R92 to R94: a START_WALK does nothing on a HELD segment or with a busy transceiver; it
passes over slots held back by the outstanding limit, and the first that may start and whose class is
open starts, with the next free tag, under the pending profile. (Owed actions:
notes/assumptions/4.md.) -/
def Obligations.WalkStarts : Prop :=
  ∀ (g : Seg) (s t : State), s.pins.hold = none →
    t = { s with occasions := s.occasions.erase (.startWalk g) } →
    ((∃ reason, s.segs[g].state = .held reason) ∨ s.segs[g].transceiver ≠ .idle ∨
        s.segs[g].sendQueue = [] →
      exec (.startWalk g) s = .next t) ∧
    ∀ (before after : List SlotNo) (n : SlotNo) (r : Slot) (steps : Nat) (tag : Byte),
      s.segs[g].state = .active → s.segs[g].transceiver = .idle →
      s.segs[g].sendQueue = before ++ n :: after → s.buffer.slots[n] = some r → n ∉ before →
      (∀ m ∈ before, heldBack s g m) →
      (r.answerExpected = true → s.segs[g].outstanding.length < 4) → isOpen s r.cls →
      steps < 256 → tag = s.segs[g].tagCounter + 1 + BitVec.ofNat 8 steps →
      (∀ k < steps, s.segs[g].tagCounter + 1 + BitVec.ofNat 8 k ∈ heldTags s.segs[g]) →
      tag ∉ heldTags s.segs[g] →
      exec (.startWalk g) s = .next { t with
        segs := put s.segs g { s.segs[g] with
          sendQueue := before ++ after
          tagCounter := tag
          profile := match s.segs[g].pendingProfile with | some p => p | none => s.segs[g].profile
          pendingProfile := none
          transceiver := .sending
            { slot := n, tag := tag, telegram := lineBytes r.device.toNat 0 tag 1 r.payload,
              startedAt := s.pins.now } }
        buffer.slots := put s.buffer.slots n
          (some { r with attempts := r.attempts + 1, lineTag := some tag })
        counters := bump s.counters (Counter.ofSegment g 0) 1
        occasions := t.occasions ++ [.examination g] }

/-- R64, R76, R77: a walk passes over every slot held back by the outstanding limit, and does nothing
when all are. The first that may start but fails the gate check leaves the Send Queue and is
re-deferred for WINDOW at its intake-order place, or expires when its deadline has passed; the walk then
goes on as a walk of the state so reached, in which that slot is handed back and the others stand as
they did. (Owed actions: notes/assumptions/4.md.) -/
def Obligations.GateCheckHandsBack : Prop :=
  ∀ (g : Seg) (s t : State), s.pins.hold = none →
    t = { s with occasions := s.occasions.erase (.startWalk g) } →
    s.segs[g].state = .active → s.segs[g].transceiver = .idle →
    ((∀ m ∈ s.segs[g].sendQueue, heldBack s g m) → exec (.startWalk g) s = .next t) ∧
    ∀ (before after : List SlotNo) (n : SlotNo) (r : Slot) (u : State),
      s.segs[g].sendQueue = before ++ n :: after → (∀ m ∈ before, heldBack s g m) → n ∉ before →
      s.buffer.slots[n] = some r → (r.answerExpected = true → s.segs[g].outstanding.length < 4) →
      ¬ isOpen s r.cls →
      (r.holdDeadline ≤ s.clock.uptime ∧
        u = { t with
          segs := put s.segs g { s.segs[g] with sendQueue := before ++ after }
          buffer.slots := put s.buffer.slots n (some (finished .expired none r))
          reports.backlog := s.reports.backlog ++ [n]
          counters := bump s.counters 5 1
          occasions := t.occasions ++ [.examination g, .formation] } ∨
      s.clock.uptime < r.holdDeadline ∧ ∃ older younger : List SlotNo,
        s.segs[g].deferralQueue = older ++ younger ∧
        (∀ m ∈ older, ∃ x, s.buffer.slots[m] = some x ∧ 1 ≤ (r.intake - x.intake).toNat ∧
          (r.intake - x.intake).toNat < 2 ^ 31) ∧
        (∀ m ∈ younger, ∃ x, s.buffer.slots[m] = some x ∧ 1 ≤ (x.intake - r.intake).toNat ∧
          (x.intake - r.intake).toNat < 2 ^ 31) ∧
        u = { t with
          segs := put s.segs g { s.segs[g] with
            sendQueue := before ++ after, deferralQueue := older ++ n :: younger }
          buffer.slots := put s.buffer.slots n (some { r with
            deferral := some { reason := .window, since := s.clock.uptime } })
          counters := bump s.counters Counter.redeferrals 1
          occasions := t.occasions ++ [.examination g, .examination g] }) →
      ((∀ m ∈ after, heldBack s g m) → exec (.startWalk g) s = .next u) ∧
      exec (.startWalk g) s =
        exec (.startWalk g) { u with occasions := .startWalk g :: u.occasions }

/-- R77, R79: whatever a START_WALK meets, the slot it starts was in the Send Queue, its class is
open, and the outstanding limit allows it; its tag is the next that stands in no entry of the list or
the ring, found within 13 steps. -/
def Obligations.OnlyOpenClassesStart : Prop :=
  (∀ (g : Seg) (s t : State) (tx : Transmission), ChainInv s g → BoundsInv s →
     s.segs[g].transceiver = .idle → exec (.startWalk g) s = .next t →
     t.segs[g].transceiver = .sending tx →
     tx.slot ∈ s.segs[g].sendQueue ∧ s.segs[g].state = .active ∧ tx.tag ∉ heldTags s.segs[g] ∧
     ∃ r, s.buffer.slots[tx.slot] = some r ∧ isOpen s r.cls ∧
       (r.answerExpected = true → s.segs[g].outstanding.length < 4) ∧
       t.buffer.slots[tx.slot] =
         some { r with attempts := r.attempts + 1, lineTag := some tx.tag }) ∧
  (∀ x : Segment, x.outstanding.length ≤ 4 → x.ring.length ≤ 8 →
     ∃ k < 13, x.nextTag = x.tagCounter + 1 + BitVec.ofNat 8 k ∧ x.nextTag ∉ heldTags x ∧
       ∀ j < k, x.tagCounter + 1 + BitVec.ofNat 8 j ∈ heldTags x)

/-! ### The segment line -/

/-- R97 to R99, R84: activity takes an IDLE or QUIET transceiver into RECEIVING, a frame that opens
with a SPACE already bad; while SENDING it is left to the echo check, and while RECEIVING it is measured
with the reception. A condition other than IDLE that has lasted for 1 s of a reception is a stuck line:
1 s after it began it holds the segment with its notice and makes the frame bad, once for each such
condition. (What stands on the line: notes/assumptions/9.md. Instants: notes/assumptions/15.md.) -/
def Obligations.ReceptionBegins : Prop :=
  ∀ (g : Seg) (s : State), s.pins.hold = none →
    (∀ w : Wire, s.segs[g].transceiver = .idle ∨ (∃ endsAt, s.segs[g].transceiver = .quiet endsAt) →
      (s.segs[g].profile.isActivity w = true →
        exec (.lineActivity g w) s = .next { s with segs := put s.segs g { s.segs[g] with
          transceiver := .receiving
            { since := s.pins.now, bad := s.segs[g].profile.reads w == .space, stuck := none } } }) ∧
      (s.segs[g].profile.isActivity w = false → exec (.lineActivity g w) s = .next s)) ∧
    (∀ w : Wire,
      (∃ tx, s.segs[g].transceiver = .sending tx) ∨ (∃ rx, s.segs[g].transceiver = .receiving rx) →
      exec (.lineActivity g w) s = .next s) ∧
    ∀ (rx : Reception) (before : List LineSpan) (w : Wire) (micros start : Nat),
      s.segs[g].transceiver = .receiving rx →
      (∀ x : LineSpan, before.getLast? = some x →
        s.segs[g].profile.reads x.wire ≠ s.segs[g].profile.reads w) →
      start = rx.since + (before.map LineSpan.micros).sum * 288 →
      (s.segs[g].profile.isActivity w = true → 1000000 ≤ micros →
        (∀ b, rx.stuck = some b → b < start) →
        ∃ occ, exec (.stuckLine (LineRecord.mk g (before ++ [{ wire := w, micros := micros }]))) s =
            .next { (noticed
          { s with
            pins.now := max s.pins.now (start + 288000000)
            segs := put s.segs g { s.segs[g] with
              state := .held .lineFault
              transceiver := .receiving { since := rx.since, bad := true, stuck := some start } } }
          (.lineFault g .stuckLine)) with occasions := occ }) ∧
      (s.segs[g].profile.isActivity w = false ∨ micros < 1000000 ∨
          (∃ b, rx.stuck = some b ∧ start ≤ b) →
        exec (.stuckLine (LineRecord.mk g (before ++ [{ wire := w, micros := micros }]))) s = .next s)

/-- R90, R93 to R95: what is driven for a mark and a space in each mode, what a condition of the wires
is read as, and which readings are line activity; that what a valid profile drives is read back as
what it is; that the units R93 keys are those of marks and those of spaces; that the sample at the end
of a unit is a conflict exactly when it does not read MARK in a mark, or SPACE in a space; and what
stands on the line at each instant of a transmission, and outside it. (Instants:
notes/assumptions/15.md.) -/
def Obligations.LineIsReadAndSampled : Prop :=
  (∀ p : Profile,
     (p.mode = .baseband → p.drives true = .steady ∧ p.drives false = .undriven ∧
       p.reads .undriven = .space ∧ p.reads .steady = .mark ∧
       p.isActivity .steady = true ∧ p.isActivity .undriven = false) ∧
     (p.mode = .carrier → p.drives true = .carrier (1000 * p.p1) ∧ p.drives false = .undriven ∧
       p.reads .undriven = .space ∧ p.isActivity .undriven = false ∧ ∀ ns : Nat,
       (750 * p.p1 ≤ ns ∧ ns ≤ 1250 * p.p1 →
         p.reads (.carrier ns) = .mark ∧ p.isActivity (.carrier ns) = true) ∧
       (ns < 750 * p.p1 ∨ 1250 * p.p1 < ns →
         p.reads (.carrier ns) = .space ∧ p.isActivity (.carrier ns) = false)) ∧
     (p.mode = .shift → p.drives true = .carrier (1000 * p.p1) ∧
       p.drives false = .carrier (1000 * p.p2) ∧
       p.reads .undriven = .idle ∧ p.isActivity .undriven = false ∧
       (p.p1 ≠ p.p2 → ∀ ns : Nat, ∀ near1 near2 : Prop,
       (near1 ↔ 750 * p.p1 ≤ ns ∧ ns ≤ 1250 * p.p1) → (near2 ↔ 750 * p.p2 ≤ ns ∧ ns ≤ 1250 * p.p2) →
       (p.reads (.carrier ns) = .mark ↔
         near1 ∧ (near2 → |(ns : Int) - 1000 * p.p1| < |(ns : Int) - 1000 * p.p2| ∨
           |(ns : Int) - 1000 * p.p1| = |(ns : Int) - 1000 * p.p2| ∧ p.p1 < p.p2)) ∧
       (p.reads (.carrier ns) = .idle ↔ ¬ near1 ∧ ¬ near2) ∧
       (p.isActivity (.carrier ns) = true ↔ near1 ∨ near2))) ∧
     (p.isValid = true → p.reads (p.drives true) = .mark ∧ p.reads (p.drives false) = .space)) ∧
  (∀ (p : Profile) (bytes : List Byte) (k : Nat) (w : Wire),
     (1 ≤ k → k ≤ telegramUnits p bytes →
       (isMarkUnit p bytes k ∨ isSpaceUnit p bytes k) ∧
       ¬ (isMarkUnit p bytes k ∧ isSpaceUnit p bytes k)) ∧
     (isMarkUnit p bytes k → (p.mismatch bytes k w = true ↔ p.reads w ≠ .mark)) ∧
     (isSpaceUnit p bytes k → (p.mismatch bytes k w = true ↔ p.reads w ≠ .space)) ∧
     (k = 0 ∨ telegramUnits p bytes < k → p.mismatch bytes k w = false)) ∧
  (∀ (g : Seg) (s : State) (tx : Transmission) (k instant : Nat), s.pins.hold = none →
     s.segs[g].transceiver = .sending tx → 1 ≤ k →
     tx.startedAt + (k - 1) * (s.segs[g].profile.unitTime * 288) ≤ instant →
     instant < tx.startedAt + k * (s.segs[g].profile.unitTime * 288) →
     (isMarkUnit s.segs[g].profile tx.telegram k →
       s.lineOut g instant = s.segs[g].profile.drives true) ∧
     (isSpaceUnit s.segs[g].profile tx.telegram k →
       s.lineOut g instant = s.segs[g].profile.drives false) ∧
     (telegramUnits s.segs[g].profile tx.telegram < k → s.lineOut g instant = .undriven)) ∧
  ∀ (g : Seg) (s : State) (instant : Nat),
    s.pins.hold.isSome = true ∨ (∀ tx, s.segs[g].transceiver ≠ .sending tx) ∨
      (∃ tx, s.segs[g].transceiver = .sending tx ∧ instant < tx.startedAt) →
    s.lineOut g instant = .undriven

/-- R83, R95, R109, R110: a sample that does not match aborts the transmission: QUIET, CONFLICTS, the
streak and at 8 the hold with its notice, and the slot re-entered, WITHDRAWN or LINE_FAILED; a sample
that matches changes nothing. (Instants: notes/assumptions/15.md.) -/
def Obligations.ConflictAborts : Prop :=
  ∀ (g : Seg) (k : Nat) (w : Wire) (s t u : State) (tx : Transmission) (r : Slot),
    s.pins.hold = none → s.segs[g].transceiver = .sending tx → s.buffer.slots[tx.slot] = some r →
    s.segs[g].conflictStreak ≤ 8 →
    t = { s with
      pins.now := max s.pins.now (tx.startedAt + k * s.segs[g].profile.unitTime * 288)
      counters := bump s.counters (Counter.ofSegment g 1) 1 } →
    (∀ x : Segment, x = { s.segs[g] with
        transceiver := .quiet (t.pins.now + s.segs[g].profile.quietGap * 288000)
        conflictStreak := min (s.segs[g].conflictStreak + 1) 8 } →
      u = if 7 ≤ s.segs[g].conflictStreak then
          noticed { t with segs := put s.segs g { x with state := .held .lineFault } }
            (.lineFault g .conflicts)
        else { t with segs := put s.segs g x }) →
    (s.segs[g].profile.mismatch tx.telegram k w = false →
      exec (.conflictAbort g k w) s = .next s) ∧
    (s.segs[g].profile.mismatch tx.telegram k w = true →
      (r.attempts < 1 + r.retryLimit.val →
        ((s.bank.active.classes[r.cls]).isSome = true →
          ∀ higher lower, splitsAbove s s.segs[g].sendQueue higher lower r.priority →
            ∃ occ, exec (.conflictAbort g k w) s = .next { u with
              segs := put u.segs g { u.segs[g] with sendQueue := higher ++ tx.slot :: lower }
              buffer.slots := put s.buffer.slots tx.slot (some { r with lineTag := none })
              occasions := occ }) ∧
        (s.bank.active.classes[r.cls] = none →
          ∃ occ, exec (.conflictAbort g k w) s = .next { u with
            buffer.slots := put s.buffer.slots tx.slot (some (finished .withdrawn none r))
            reports.backlog := s.reports.backlog ++ [tx.slot]
            counters := bump u.counters 8 1
            occasions := occ })) ∧
      (1 + r.retryLimit.val ≤ r.attempts →
        ∃ occ, exec (.conflictAbort g k w) s = .next { u with
          buffer.slots := put s.buffer.slots tx.slot (some (finished .lineFailed none r))
          reports.backlog := s.reports.backlog ++ [tx.slot]
          counters := bump u.counters 4 1
          occasions := occ }))

/-- R83, R93, R96, R97, R104, R106: a transmission that ends without conflict lasts as R93's formula
says, clears the streak, enters QUIET, and leaves its slot AWAITING with its timer or SENT; when a
quiet gap runs out the transceiver is IDLE and what follows is a START_WALK. (Instants:
notes/assumptions/15.md. Owed actions: notes/assumptions/4.md.) -/
def Obligations.TransmissionsAndQuietGapsEnd : Prop :=
  (∀ (g : Seg) (s t : State) (tx : Transmission) (r : Slot) (x : Segment),
     s.pins.hold = none → s.segs[g].transceiver = .sending tx → s.buffer.slots[tx.slot] = some r →
     t = { s with
       pins.now := max s.pins.now
         (tx.startedAt + telegramUnits s.segs[g].profile tx.telegram *
           s.segs[g].profile.unitTime * 288) } →
     x = { s.segs[g] with
       transceiver := .quiet (t.pins.now + s.segs[g].profile.quietGap * 288000)
       conflictStreak := 0 } →
     (r.answerExpected = true →
       exec (.transmissionEnd g) s = .next { t with
         segs := put s.segs g { x with
           outstanding := s.segs[g].outstanding ++
             [{ tag := tx.tag, device := r.device, slot := tx.slot,
                expiry := t.pins.now + r.answerTimeoutMs * 288000 }] } }) ∧
     (r.answerExpected = false →
       exec (.transmissionEnd g) s = .next { t with
         segs := put s.segs g x
         buffer.slots := put s.buffer.slots tx.slot (some (finished .sent none r))
         reports.backlog := s.reports.backlog ++ [tx.slot]
         counters := bump s.counters 2 1
         occasions := s.occasions ++ [.formation] })) ∧
  (∀ (g : Seg) (s t : State) (endsAt : Nat), s.pins.hold = none →
     s.segs[g].transceiver = .quiet endsAt →
     t = { s with
       pins.now := max s.pins.now endsAt
       segs := put s.segs g { s.segs[g] with transceiver := .idle } } →
     ((∃ reason, s.segs[g].state = .held reason) ∨ s.segs[g].sendQueue = [] →
       exec (.quietGapEnd g) s = .next t) ∧
     exec (.quietGapEnd g) s =
       exec (.startWalk g) { t with occasions := .startWalk g :: t.occasions })

/-- R100 to R102, R105, R111, R112: at the end of a reception a bad frame is counted, and a good
answer is resolved by the first matching row of R111; and when that end is: 1.25 times the space
expected after the last condition that is not IDLE. (What stands on the line: notes/assumptions/9.md.
Instants: notes/assumptions/15.md. Owed actions: notes/assumptions/4.md.) -/
def Obligations.ReceptionEnds : Prop :=
  (∀ (p : Profile) (before after : List LineSpan) (x : LineSpan), p.isActivity x.wire = true →
    (∀ y ∈ after, p.isActivity y.wire = false) →
    p.receptionTime (before ++ x :: after) =
      ((before.map LineSpan.micros).sum + x.micros) * 288 +
        (if p.mode = .shift then 1
          else if ∀ y ∈ before, p.reads y.wire = .mark then p.leaderSpace
          else p.bitSpace) * p.unitTime * 360) ∧
  ∀ (g : Seg) (line : List LineSpan) (s t : State) (rx : Reception), s.pins.hold = none →
    s.segs[g].transceiver = .receiving rx →
    (∀ now : Nat,
      now = max s.pins.now (rx.since + s.segs[g].profile.receptionTime line) →
      t = { s with
        pins.now := now
        segs := put s.segs g { s.segs[g] with
          transceiver := .quiet (now + s.segs[g].profile.quietGap * 288000) } }) →
    (rx.bad = true ∨ s.segs[g].profile.receive line = none →
      exec (.receptionEnd g line) s =
        .next { t with counters := bump s.counters (Counter.ofSegment g 6) 1 }) ∧
    ∀ a : LineAnswer, rx.bad = false → s.segs[g].profile.receive line = some a →
      (∀ (older newer : List Outstanding) (e : Outstanding),
        s.segs[g].outstanding = older ++ e :: newer → (∀ y ∈ older, y.tag ≠ a.tag) →
        e.tag = a.tag →
        (e.device ≠ a.device → exec (.receptionEnd g line) s =
          .next { t with counters := bump s.counters (Counter.ofSegment g 5) 1 }) ∧
        ∀ r : Slot, e.device = a.device → s.buffer.slots[e.slot] = some r →
          s.segs[g].ring.length ≤ 8 →
          exec (.receptionEnd g line) s = .next { t with
            segs := put t.segs g { t.segs[g] with
              outstanding := older ++ newer
              ring := (if s.segs[g].ring.length = 8 then s.segs[g].ring.drop 1
                  else s.segs[g].ring) ++
                [{ tag := e.tag, device := e.device, slot := e.slot, intake := r.intake,
                   reason := .answered }] }
            buffer.slots := put s.buffer.slots e.slot (some (finished .answered (some a.part) r))
            reports.backlog := s.reports.backlog ++ [e.slot]
            counters := bump s.counters 0 1
            occasions := s.occasions ++ [.startWalk g, .formation] }) ∧
      ((∀ y ∈ s.segs[g].outstanding, y.tag ≠ a.tag) →
        ((∀ y ∈ s.segs[g].ring, ¬ (y.tag = a.tag ∧ y.device = a.device)) →
          exec (.receptionEnd g line) s =
            .next { t with counters := bump s.counters (Counter.ofSegment g 5) 1 }) ∧
        ∀ (older newer : List Retired) (e : Retired),
          s.segs[g].ring = older ++ e :: newer →
          (∀ y ∈ older ++ newer, ¬ (y.tag = a.tag ∧ y.device = a.device)) →
          e.tag = a.tag → e.device = a.device →
          (e.reason = .answered → exec (.receptionEnd g line) s =
            .next { t with counters := bump s.counters (Counter.ofSegment g 4) 1 }) ∧
          (e.reason = .timedOut →
            ((∀ r, s.buffer.slots[e.slot] = some r → r.intake = e.intake →
                e.slot ∉ s.segs[r.segment].deferralQueue ∧
                e.slot ∉ s.segs[r.segment].sendQueue) →
              exec (.receptionEnd g line) s =
                .next { t with counters := bump s.counters (Counter.ofSegment g 3) 1 }) ∧
            ∀ (r : Slot) (x : Segment), s.buffer.slots[e.slot] = some r → r.intake = e.intake →
              r.segment = g →
              x = { t.segs[g] with
                ring := older ++ { e with reason := .answered } :: newer } →
              (e.slot ∈ s.segs[g].deferralQueue → ∃ occ, exec (.receptionEnd g line) s = .next { t with
                segs := put t.segs g { x with
                  deferralQueue := s.segs[g].deferralQueue.erase e.slot }
                buffer.slots := put s.buffer.slots e.slot
                  (some (finished .answeredLate (some a.part) (leftDeferred s.clock.uptime r)))
                reports.backlog := s.reports.backlog ++ [e.slot]
                counters := bump s.counters 1 1
                occasions := occ }) ∧
              (e.slot ∉ s.segs[g].deferralQueue → e.slot ∈ s.segs[g].sendQueue →
                ∃ occ, exec (.receptionEnd g line) s = .next { t with
                  segs := put t.segs g { x with sendQueue := s.segs[g].sendQueue.erase e.slot }
                  buffer.slots := put s.buffer.slots e.slot
                    (some (finished .answeredLate (some a.part) r))
                  reports.backlog := s.reports.backlog ++ [e.slot]
                  counters := bump s.counters 1 1
                  occasions := occ })))

/-- R104, R105, R108, R109: when an answer timer runs out its entry enters the ring as TIMED_OUT,
TIMEOUTS is counted, and the slot is re-entered, WITHDRAWN or NO_ANSWER. (Instants:
notes/assumptions/15.md. Owed actions: notes/assumptions/4.md.) -/
def Obligations.AnswerTimersRunOut : Prop :=
  ∀ (g : Seg) (s t : State) (older newer : List Outstanding) (e : Outstanding) (r : Slot),
    s.pins.hold = none → s.segs[g].outstanding = older ++ e :: newer →
    (∀ y ∈ older, y.tag ≠ e.tag) → s.buffer.slots[e.slot] = some r → s.segs[g].ring.length ≤ 8 →
    t = { s with
      pins.now := max s.pins.now e.expiry
      segs := put s.segs g { s.segs[g] with
        outstanding := older ++ newer
        ring := (if s.segs[g].ring.length = 8 then s.segs[g].ring.drop 1 else s.segs[g].ring) ++
          [{ tag := e.tag, device := e.device, slot := e.slot, intake := r.intake,
             reason := .timedOut }] }
      counters := bump s.counters (Counter.ofSegment g 2) 1
      occasions := s.occasions ++ [.startWalk g] } →
    (r.attempts < 1 + r.retryLimit.val →
      ((s.bank.active.classes[r.cls]).isSome = true →
        ∀ higher lower, splitsAbove s s.segs[g].sendQueue higher lower r.priority →
          exec (.answerTimerExpiry g e.tag) s = .next { t with
            segs := put t.segs g { t.segs[g] with sendQueue := higher ++ e.slot :: lower }
            buffer.slots := put s.buffer.slots e.slot (some { r with lineTag := none })
            occasions := t.occasions ++ [.startWalk g] }) ∧
      (s.bank.active.classes[r.cls] = none →
        exec (.answerTimerExpiry g e.tag) s = .next { t with
          buffer.slots := put s.buffer.slots e.slot (some (finished .withdrawn none r))
          reports.backlog := s.reports.backlog ++ [e.slot]
          counters := bump t.counters 8 1
          occasions := t.occasions ++ [.formation] })) ∧
    (1 + r.retryLimit.val ≤ r.attempts →
      exec (.answerTimerExpiry g e.tag) s = .next { t with
        buffer.slots := put s.buffer.slots e.slot (some (finished .noAnswer none r))
        reports.backlog := s.reports.backlog ++ [e.slot]
        counters := bump t.counters 3 1
        occasions := t.occasions ++ [.formation] })

/-- R93, R98, R101, R102, R163: an answer keyed under a valid profile of any mode, every pulse at its
nominal length, is received as the answer it carries; conditions that are leader, bits and trailer in
turn are a good frame exactly when every pulse is within tolerance and the bytes they spell are what
R101 asks; stretches of one reading are one pulse, and the idle condition at the end belongs to none
(notes/assumptions/9.md); and a reception of another form is a bad frame: one that opens with anything
but a mark, one of fewer than three conditions, or, in SHIFT, one with a break in its carrier. -/
def Obligations.KeyedAnswersAreReceived : Prop :=
  (∀ (p : Profile) (device : Addr) (tag status : Byte) (data : List Byte),
    p.isValid = true → data.length ≤ 47 →
    p.receive ((p.key (lineBytes 0 device.toNat tag 2 (status :: data))).map fun x =>
      { wire := p.drives x.mark, micros := x.units * p.unitTime }) =
    some { device := device, tag := tag, part := { status := status, data := data } }) ∧
  (∀ (p : Profile) (leader gap trailer : LineSpan) (bits : List (LineSpan × LineSpan))
     (last : List LineSpan) (a : LineAnswer),
    p.reads leader.wire = .mark → p.reads gap.wire = .space →
    (∀ x ∈ bits, p.reads x.1.wire = .mark ∧ p.reads x.2.wire = .space) →
    p.reads trailer.wire = .mark →
    last = [] ∨ p.mode = .shift ∧ (∃ x, last = [x] ∧ p.reads x.wire = .space) →
    (p.receive (leader :: gap :: bits.flatMap (fun x => [x.1, x.2]) ++ trailer :: last) = some a ↔
      within p leader.micros p.leaderMark ∧ within p gap.micros p.leaderSpace ∧
      within p trailer.micros 1 ∧ (∀ x ∈ last, within p x.micros p.bitSpace) ∧
      ∃ bytes : List Byte, bits.length = 8 * bytes.length ∧
        (∀ (i : Nat) (x : LineSpan × LineSpan), bits[i]? = some x →
          judgedAs p x.1.micros (bitAt bytes i) ∧ within p x.2.micros p.bitSpace) ∧
        GoodFrame bytes ∧ a = answerOf bytes)) ∧
  (∀ (p : Profile) (before after : List LineSpan) (x y : LineSpan),
    p.reads x.wire = p.reads y.wire →
    p.receive (before ++ x :: y :: after) =
      p.receive (before ++ { wire := x.wire, micros := x.micros + y.micros } :: after)) ∧
  (∀ (p : Profile) (line : List LineSpan) (x : LineSpan), p.isActivity x.wire = false →
    p.receive (line ++ [x]) = p.receive line) ∧
  ∀ (p : Profile) (line : List LineSpan),
    line.length ≤ 2 ∨ (∃ x rest, line = x :: rest ∧ p.reads x.wire ≠ .mark) ∨
      p.mode = .shift ∧ (∃ before x after y, line = before ++ x :: after ∧ p.reads x.wire = .idle ∧
        y ∈ after ∧ p.reads y.wire ≠ .idle) →
    p.receive line = none

/-! ### Reports and the trunk transmitter -/

/-- R10, R14, R116, R117, R119: a REPORT_FORMATION forms the report of the oldest Backlog slot and
frees the slot, with STORE_CLEAR when the store has drained; with no slot or no room it does
nothing. (Owed actions: notes/assumptions/4.md.) -/
def Obligations.ReportsAreFormed : Prop :=
  ∀ s : State, s.pins.hold = none →
    (s.reports.backlog = [] ∨ 16 ≤ s.reports.reportQueue.length →
      exec .reportFormation s = .next { s with occasions := s.occasions.erase .formation }) ∧
    ∀ (n : SlotNo) (rest : List SlotNo) (r : Slot) (outcome : ReportOutcome) (t : State),
      s.reports.backlog = n :: rest → s.reports.reportQueue.length < 16 →
      s.buffer.slots[n] = some r → r.outcome = some outcome →
      t = { s with
        buffer.slots := put s.buffer.slots n none
        reports.backlog := rest
        reports.reportQueue := s.reports.reportQueue ++ [slotReport s r outcome r.answer] } →
      ∃ occ, exec .reportFormation s = .next { (
        if s.buffer.storeHigh = true ∧ inUseCount s ≤ 193 then
          noticed { t with buffer.storeHigh := false } (.storeClear (inUseCount s - 1))
        else t) with occasions := occ }

/-- R125, R159, R161: an idle transmitter takes the head of the Response Queue, else of the Notice
Queue, else of the Report Queue, and sends its frame for 10 bit-times a byte at the rate of R156; a
busy one takes nothing; and the layout of every REPORT and NOTICE payload, with its codes (R161). That
bits 4 to 7 of the presence byte are 0 is the model's choice (notes/assumptions/20.md).
(Instants: notes/assumptions/15.md. Owed actions: notes/assumptions/4.md.) -/
def Obligations.ArbiterTakesInOrder : Prop :=
  (∀ (s t : State) (own : Addr) (ends : List Byte → Nat), s.pins.hold = none →
     own = ownAddressOf s.pins.latched →
     t = { s with occasions := s.occasions.erase .take } →
     (∀ frame, ends frame =
       s.pins.now + frame.length * 10 * trunkBitTime s) →
     (s.port.transmitter ≠ .idle → exec .arbiterTake s = .next t) ∧
     (s.port.transmitter = .idle →
       (∀ r rest, s.reports.responseQueue = r :: rest →
         ∀ frame, frame = trunkFrame (trunkBody 4 r.destination own r.seq 0
             (r.code :: statusCode r.status :: r.result)) →
         exec .arbiterTake s = .next { t with
           reports.responseQueue := rest
           port.transmitter := .sending (.response r) frame (ends frame) }) ∧
       (s.reports.responseQueue = [] →
         (∀ n rest, s.reports.noticeQueue = n :: rest →
           ∀ frame, frame = trunkFrame (trunkBody 5 n.destination own 0 0 n.kind.payload) →
           exec .arbiterTake s = .next { t with
             reports.noticeQueue := rest
             port.transmitter := .sending (.notice n) frame (ends frame) }) ∧
         (s.reports.noticeQueue = [] →
           (∀ r rest, s.reports.reportQueue = r :: rest →
             ∀ frame, frame =
               trunkFrame (trunkBody 3 r.destination own r.seq (byteOf r.cls.val) r.payload) →
             exec .arbiterTake s = .next { t with
               reports.reportQueue := rest
               port.transmitter := .sending (.report r) frame (ends frame)
               occasions := t.occasions ++ [.formation] }) ∧
           (s.reports.reportQueue = [] → exec .arbiterTake s = .next t))))) ∧
  (∀ r : Report,
     ∃ presence : Byte,
       (∀ i : Nat, presence.getLsbD i = true ↔
         i = 0 ∧ r.segment.isSome = true ∨ i = 1 ∧ r.intake.isSome = true ∨
         i = 2 ∧ r.answer.isSome = true ∨ i = 3 ∧ r.nextOpening.isSome = true) ∧
       r.payload =
         [outcomeCode r.outcome, presence,
           match r.segment with | some g => byteOf g.val | none => 0, byteOf r.attempts] ++
         twoBytes r.deferredSeconds ++ fourBytes r.stamp ++
         (match r.intake with | some i => fourBytes i.toNat | none => [0, 0, 0, 0]) ++
         (match r.nextOpening with
           | none => []
           | some .unknown => [0xFF, 0, 0, 0, 0]
           | some (.on k d t) => [byteOf k, byteOf d, byteOf t.hour, byteOf t.minute, byteOf t.second]) ++
         match r.answer with
         | none => []
         | some a => a.status :: a.data) ∧
  (∀ own : Addr,
     (NoticeKind.started .powerOn own).payload =
       [1, 1] ++ twoBytes own.toNat ++ ([0x3C, 0x64, 2] : List Byte) ∧
     (NoticeKind.started .resetLine own).payload =
       [1, 2] ++ twoBytes own.toNat ++ ([0x3C, 0x64, 2] : List Byte) ∧
     (NoticeKind.started .restart own).payload =
       [1, 3] ++ twoBytes own.toNat ++ ([0x3C, 0x64, 2] : List Byte)) ∧
  (∀ inUse : Nat, (NoticeKind.storeHigh inUse).payload = 2 :: twoBytes inUse ∧
     (NoticeKind.storeClear inUse).payload = 3 :: twoBytes inUse) ∧
  ∀ g : Seg, (NoticeKind.lineFault g .conflicts).payload = [4, BitVec.ofNat 8 g.val, 1] ∧
    (NoticeKind.lineFault g .stuckLine).payload = [4, BitVec.ofNat 8 g.val, 2]

/-- R126, R140, R157, R159, R164: what stands on TTX in each bit-time of a transmission, its bytes in
turn with a start bit, 8 data bits least significant first, and a stop bit, and the stop-bit level
outside it; and at its end the transmitter is idle, an occasion for the arbiter; after the OK response
to a RESTART the reset takes effect. (Strap levels: notes/assumptions/7.md. Instants:
notes/assumptions/15.md. Owed actions: notes/assumptions/4.md.) -/
def Obligations.TrunkTransmissionsEnd : Prop :=
  (∀ (s : State) (e : Outgoing) (frame : List Byte) (began endsAt instant : Nat),
    s.pins.hold = none → s.port.transmitter = .sending e frame endsAt →
    endsAt = began + frame.length * 10 * trunkBitTime s →
    (∀ (i k : Nat) (b : Byte), frame[i]? = some b → k < 10 →
      began + (10 * i + k) * trunkBitTime s ≤ instant →
      instant < began + (10 * i + k + 1) * trunkBitTime s →
      s.ttxOut instant =
        if k = 0 then .start else if k = 9 then .stop else .data (b.getLsbD (k - 1))) ∧
    (instant < began ∨ endsAt ≤ instant → s.ttxOut instant = .stop)) ∧
  (∀ (s : State) (instant : Nat), s.pins.hold.isSome = true ∨ s.port.transmitter = .idle →
    s.ttxOut instant = .stop) ∧
  ∀ (pins : StrapPins) (s : State) (e : Outgoing) (frame : List Byte) (endsAt : Nat),
    s.pins.hold = none → s.port.transmitter = .sending e frame endsAt →
    ((∀ r, e = .response r → ¬ (r.code = 0x14 ∧ r.status = .ok)) →
      exec (.trunkTransmissionEnd pins) s = .next { s with
        pins.now := max s.pins.now endsAt
        pins.straps := pins
        port.transmitter := .idle
        occasions := s.occasions ++ [.take] }) ∧
    ∀ r, e = .response r → r.code = 0x14 → r.status = .ok →
      exec (.trunkTransmissionEnd pins) s = .next
        { State.afterReset .restart pins with
          pins.straps := pins, pins.latched := pins, pins.supplyUp := s.pins.supplyUp,
          pins.rstN := s.pins.rstN, pins.hold := none, pins.now := 0, pending := s.pending }

/-! ### Commit -/

/-- R148, R150: an accepted COMMIT starts a validation of 4 ms and 0.125 ms for each defined staging
entry, holds a place in the Response Queue and places no response yet; a validation that finds a
failure leaves the tables and all traffic as they were, records it and answers COMMIT_FAILED with
it. (Instants: notes/assumptions/15.md. Owed actions: notes/assumptions/4.md.) -/
def Obligations.CommitsStartAndFail : Prop :=
  (∀ (r : Request) (s t : State), Accepts s r true true → r.params = [] →
     t = { s with
       port.assembler := .hunt
       agent.commit := .validating (s.pins.now + 4 * 288000 +
         ((s.bank.staging.routes.toList.filter Option.isSome).length +
           (s.bank.staging.classes.toList.filter Option.isSome).length +
           (s.bank.staging.windows.toList.filter Option.isSome).length) * 36000) r.source r.seq } →
     exec (.commit r) s = .next t ∧ heldPlace t = 1) ∧
  (∀ (s : State) (endsAt : Nat) (source : Addr) (seq : Byte) (f : CommitFailure),
     s.pins.hold = none → s.agent.commit = .validating endsAt source seq →
     s.bank.staging.validate = some f →
     exec .commitEnd s = .next { s with
       pins.now := max s.pins.now endsAt
       agent.commit := .idle
       agent.lastCommit := .failed f
       reports.responseQueue := s.reports.responseQueue ++
         [{ destination := source, seq := seq, code := 0x09, status := .commitFailed,
            result := [tableCode f.table, byteOf f.index, reasonCode f.reason] }]
       occasions := s.occasions ++ takeOwed s })

/-- The defined entries of a staging image that fail a check of R149, by table, index and reason. -/
def Obligations.ValidationFindsTheFirstFailure : Prop :=
  ∀ (tables : Tables) (fails : CommitFailure → Prop) (rank : CommitFailure → Nat),
    (∀ table index reason, fails { table := table, index := index, reason := reason } ↔
      (table = .window ∧ reason = .emptyDayMask ∧
        ∃ (i : WindowNo) (w : Window), i.val = index ∧ tables.windows[i] = some w ∧ w.dayMask = 0) ∨
      (table = .cls ∧ ∃ (i : ClassNo) (p : ClassPolicy), i.val = index ∧ tables.classes[i] = some p ∧
        (reason = .duplicateWindow ∧ ¬ p.windows.Nodup ∨
          reason = .undefinedWindow ∧ ∃ w ∈ p.windows, tables.windows[w] = none)) ∨
      (table = .route ∧ ∃ (i : RouteNo) (r : Route), i.val = index ∧ tables.routes[i] = some r ∧
        (reason = .addressOutOfRange ∧
            ¬ (1 ≤ r.first.toNat ∧ r.first.toNat ≤ 4079 ∧ 1 ≤ r.last.toNat ∧ r.last.toNat ≤ 4079) ∨
          reason = .rangeReversed ∧ r.last.toNat < r.first.toNat ∨
          reason = .rangeOverlap ∧ ∃ (j : RouteNo) (q : Route), j < i ∧ tables.routes[j] = some q ∧
            r.first.toNat ≤ q.last.toNat ∧ q.first.toNat ≤ r.last.toNat))) →
    (∀ f, rank f =
      ((match f.table with | .window => 0 | .cls => 1 | .route => 2) * 64 + f.index) * 8 +
        (match f.reason with
          | .emptyDayMask => 1 | .duplicateWindow => 2 | .undefinedWindow => 3
          | .addressOutOfRange => 4 | .rangeReversed => 5 | .rangeOverlap => 6)) →
    (tables.validate = none ↔ Consistent tables) ∧
    ∀ f, tables.validate = some f ↔ fails f ∧ ∀ f', fails f' → rank f ≤ rank f'

/-- R66, R85, R148, R151, R152: a validation that finds no failure swaps the whole staging image in,
advances the generation, answers OK, withdraws every deferred and queued slot whose class is now
undefined, segment by segment, and evaluates the windows of the new tables. (Instants:
notes/assumptions/15.md.) -/
def Obligations.CommitSwaps : Prop :=
  ∀ (s : State) (endsAt : Nat) (source : Addr) (seq : Byte) (undefinedClass : SlotNo → Bool)
    (deferred queued : Seg → List SlotNo) (all : List SlotNo),
    s.pins.hold = none → s.agent.commit = .validating endsAt source seq →
    Consistent s.bank.staging → StoreInv s → RecordsInv s →
    (∀ n, undefinedClass n = true ↔
      ∃ r, s.buffer.slots[n] = some r ∧ s.bank.staging.classes[r.cls] = none) →
    (∀ g, deferred g = s.segs[g].deferralQueue.filter undefinedClass) →
    (∀ g, queued g = s.segs[g].sendQueue.filter undefinedClass) →
    all = deferred 0 ++ queued 0 ++ (deferred 1 ++ queued 1) ++ (deferred 2 ++ queued 2) ++
      (deferred 3 ++ queued 3) →
    ∃ occ, exec .commitEnd s = .next { s with
      pins.now := max s.pins.now endsAt
      bank := { active := s.bank.staging, staging := s.bank.staging,
                generation := s.bank.generation + 1 }
      agent.commit := .idle
      agent.lastCommit := .ok
      reports.responseQueue := s.reports.responseQueue ++
        [{ destination := source, seq := seq, code := 0x09, status := .ok,
           result := twoBytes (s.bank.generation + 1).toNat }]
      reports.backlog := s.reports.backlog ++ all
      buffer.slots := Vector.ofFn fun n =>
        if n ∈ all then
          s.buffer.slots[n].map fun r => finished .withdrawn none (leftDeferred s.clock.uptime r)
        else s.buffer.slots[n]
      segs := Vector.ofFn fun g =>
        { s.segs[g] with
          deferralQueue := s.segs[g].deferralQueue.filter fun n => !undefinedClass n
          sendQueue := s.segs[g].sendQueue.filter fun n => !undefinedClass n }
      counters := bump s.counters 8 all.length
      windowOpen := windowsAt s.bank.staging s.clock.record
      occasions := occ }

/-! ### Supply, RST_N and reset -/

/-- R15, R34, R35, R36, R46, R52, R71, R88, R89, R104, R105, R125, R129, R141, R144, R157, R165: what
each block holds once a reset has taken effect. -/
def Obligations.ResetValues : Prop :=
  ∀ (cause : StartCause) (straps : StrapPins) (s : State), s = State.afterReset cause straps →
    (∀ n : SlotNo, s.buffer.slots[n] = none) ∧ s.buffer.intakeCounter = 0 ∧
    s.buffer.storeHigh = false ∧
    s.clock = { record := none, uptime := 0, nextEdge := 288000000 } ∧
    (∀ i : WindowNo, s.windowOpen[i] = false) ∧
    (∀ image, image = s.bank.active ∨ image = s.bank.staging →
      (∀ i : RouteNo, image.routes[i] = none) ∧ (∀ i : ClassNo, image.classes[i] = none) ∧
      ∀ i : WindowNo, image.windows[i] = none) ∧
    s.bank.generation = 0 ∧
    s.agent = { managers := [], noticeAddress := 0, commit := .idle, lastCommit := .none,
                restartPending := false, startCause := cause } ∧
    s.reports = { backlog := [], reportQueue := [], responseQueue := [],
                  noticeQueue := [{
                    destination := 0
                    kind := .started cause (BitVec.ofNat 12 (4080 + straps.adr.toNat)) }] } ∧
    (∀ c : CounterId, s.counters[c] = 0) ∧
    s.port = { assembler := .hunt, transmitter := .idle } ∧ s.pins.latched = straps ∧
    s.pins.hold = none ∧
    ∀ g : Seg, s.segs[g] =
      { deferralQueue := [], pacer := .idle, pacingGapMs := 0, sendQueue := [],
        state := .held .start, tagCounter := 0, conflictStreak := 0,
        profile := { mode := .baseband, unitTime := 500, leaderMark := 16, leaderSpace := 8,
                     zeroMark := 1, oneMark := 3, bitSpace := 1, p1 := 26, p2 := 20, quietGap := 5 },
        pendingProfile := none, transceiver := .idle, outstanding := [], ring := [] }

/-! ### Invariants -/

/-- Every invariant below holds right after a reset, whatever its cause and straps. -/
def Obligations.InvariantsHoldAtReset : Prop :=
  ∀ (cause : StartCause) (straps : StrapPins) (s : State),
    s = State.afterReset cause straps ∨ s = State.reset →
    StoreInv s ∧ RecordsInv s ∧ ChainsInv s ∧ IntakeInv s ∧ TagsInv s ∧ BoundsInv s ∧
      OccupancyInv s ∧ ClockInv s ∧ Consistent s.bank.active

/-- R5: every step keeps the slots in use where R5 says: each in exactly one collection, of its own
segment, and no FREE slot in any. -/
def Obligations.StepsKeepTheStore : Prop :=
  ∀ s t : State, StoreInv s → step s = .next t → StoreInv t

/-- R4, R109: every step keeps the fields of each slot record those of its state, and the attempts
within the retry limit. -/
def Obligations.StepsKeepTheRecords : Prop :=
  ∀ s t : State, StoreInv s → RecordsInv s → step s = .next t → RecordsInv t

/-- R11, R19, R53, R72, R74, R76, R77, R104: every step keeps the outstanding limit, the bound of 21,
the order of the Send Queue, and a defined class for every waiting slot; and, while the intake numbers
that may be compared are as near to the counter as R9 says, it keeps every Deferral Queue in intake
order, those numbers distinct, and the source and sequence of the slots in use distinct. -/
def Obligations.StepsKeepTheChains : Prop :=
  ∀ s t : State, StoreInv s → step s = .next t →
    (ChainsInv s → ChainsInv t) ∧ (RecentIntakes s → IntakeInv s → IntakeInv t)

/-- R79, R105: every step keeps the line tags of a segment apart. -/
def Obligations.StepsKeepTheTags : Prop :=
  ∀ s t : State, StoreInv s → ChainsInv s → BoundsInv s → TagsInv s → step s = .next t → TagsInv t

/-- R83, R105, R121, R123, R124, R129, R131, R134, R141: every step keeps the bounds of the queues and
counts, and what the Management Agent may hold. -/
def Obligations.StepsKeepTheBounds : Prop :=
  ∀ s t : State, BoundsInv s → step s = .next t → BoundsInv t

/-- R13, R14: every step keeps STORE_HIGH true from 224 slots in use and false to 192. -/
def Obligations.StepsKeepTheOccupancyFlag : Prop :=
  ∀ s t : State, OccupancyInv s → step s = .next t → OccupancyInv t

/-- R35, R40, R41, R46 to R48: every step keeps the calendar record a real date and time, and the held
window states those of R44 at that time. -/
def Obligations.StepsKeepClockAndWindows : Prop :=
  ∀ s t : State, ClockInv s → step s = .next t → ClockInv t

/-- R151: every step keeps the active tables consistent. -/
def Obligations.StepsKeepTheActiveTables : Prop :=
  ∀ s t : State, Consistent s.bank.active → step s = .next t → Consistent t.bank.active
end

