-- ==== Sys2Proof/Laws/Checks.lean ====
section
/-! SUPPORT. The invariants of Sys2Proof/Safety.lean as checks that evaluate on a concrete state, each
with the lemma that a state which passes has the invariant. -/

namespace Sys2Proof.Laws

open Sys2Proof.Machine Sys2Proof.Safety

/-- `StoreInv`, evaluated. -/
def storeCheck (s : State) : Bool :=
  decide (heldSlots s).Nodup &&
  ((List.finRange 256).all fun n => (heldSlots s).contains n == s.buffer.slots[n].isSome) &&
  (List.finRange 4).all fun g => (chainSlots s.segs[g]).all fun n =>
    s.buffer.slots[n].all fun r => r.segment == g

theorem storeInv_of_check {s : State} (h : storeCheck s = true) : StoreInv s := by
  simp only [storeCheck, Bool.and_eq_true, decide_eq_true_eq, List.all_eq_true, List.mem_finRange,
    forall_const, beq_iff_eq, Option.all_eq_true] at h
  obtain ⟨⟨h1, h2⟩, h3⟩ := h
  refine ⟨h1, fun n => ?_, fun g n r hn hr => h3 g n hn r hr⟩
  rw [← h2 n, List.contains_iff_mem]

/-- `RecordInv`, evaluated. -/
def recordCheck (s : State) (n : SlotNo) (r : Slot) : Bool :=
  let x := s.segs[r.segment]
  let tags := (match x.transceiver with
      | .sending tx => if tx.slot = n then [tx.tag] else []
      | _ => []) ++ (x.outstanding.filter fun e => e.slot == n).map Outstanding.tag
  (r.deferral.isSome == x.deferralQueue.contains n) &&
  (tags.all fun t => r.lineTag == some t) &&
  (r.lineTag.all fun t => tags.contains t) &&
  (r.outcome.isSome == s.reports.backlog.contains n) &&
  (r.answer.isSome == (r.outcome == some .answered || r.outcome == some .answeredLate)) &&
  decide (r.attempts ≤ 1 + r.retryLimit.val) &&
  (!(x.deferralQueue.contains n || x.sendQueue.contains n) || decide (r.attempts ≤ r.retryLimit.val))

theorem recordInv_of_check {s : State} {n : SlotNo} {r : Slot} (h : recordCheck s n r = true) :
    RecordInv s n r := by
  unfold recordCheck at h
  simp only [Bool.and_eq_true, beq_iff_eq, decide_eq_true_eq] at h
  obtain ⟨⟨⟨⟨⟨⟨h1, h2⟩, h3⟩, h4⟩, h5⟩, h6⟩, h7⟩ := h
  have tags : ∀ t, t ∈ (match s.segs[r.segment].transceiver with
      | .sending tx => if tx.slot = n then [tx.tag] else []
      | _ => ([] : List Byte)) ++
        (s.segs[r.segment].outstanding.filter fun e => e.slot == n).map Outstanding.tag ↔
      chainTag s.segs[r.segment] n t := by
    intro t
    unfold chainTag
    rw [List.mem_append]
    refine or_congr ?_ ?_
    · cases hx : s.segs[r.segment].transceiver with
      | sending tx =>
        simp only [Transceiver.sending.injEq]
        constructor
        · intro ht
          split at ht
          · next hn => exact ⟨tx, rfl, hn, (List.mem_singleton.1 ht).symm⟩
          · simp at ht
        · rintro ⟨tx', rfl, rfl, rfl⟩
          simp
      | idle => simp
      | quiet e => simp
      | receiving rx => simp
    · simp only [List.mem_map, List.mem_filter, beq_iff_eq]
      constructor
      · rintro ⟨e, ⟨he, hs⟩, ht⟩
        exact ⟨e, he, hs, ht⟩
      · rintro ⟨e, he, hs, ht⟩
        exact ⟨e, ⟨he, hs⟩, ht⟩
  refine ⟨?_, ?_, ?_, ?_, h6, ?_⟩
  · rw [h1, List.contains_iff_mem]
  · intro t
    constructor
    · intro ht
      rw [ht] at h3
      exact (tags t).1 (List.contains_iff_mem.1 (by simpa using h3))
    · intro ht
      have := List.all_eq_true.1 h2 t ((tags t).2 ht)
      simpa using this
  · rw [h4, List.contains_iff_mem]
  · rw [h5, Bool.or_eq_true, beq_iff_eq, beq_iff_eq]
  · intro hw
    rw [Bool.or_eq_true, Bool.not_eq_true', Bool.or_eq_false_iff] at h7
    rcases h7 with ⟨a, b⟩ | h7
    · rw [← Bool.not_eq_true, List.contains_iff_mem] at a b
      exact absurd hw (by tauto)
    · simpa using h7

/-- `RecordsInv`, evaluated. -/
def recordsCheck (s : State) : Bool :=
  (List.finRange 256).all fun n => s.buffer.slots[n].all fun r => recordCheck s n r

theorem recordsInv_of_check {s : State} (h : recordsCheck s = true) : RecordsInv s := by
  intro n r hr
  simp only [recordsCheck, List.all_eq_true, List.mem_finRange, forall_const,
    Option.all_eq_true] at h
  exact recordInv_of_check (h n r hr)

/-- `ChainInv`, evaluated. -/
def chainCheck (s : State) (g : Seg) : Bool :=
  let x := s.segs[g]
  decide (x.outstanding.length ≤ 4) &&
  ((sendingSlot x).all fun n => s.buffer.slots[n].all fun r =>
    !r.answerExpected || decide (x.outstanding.length ≤ 3)) &&
  decide (x.sendQueue.length + (sendingSlot x).length + x.outstanding.length ≤ 21) &&
  decide (x.sendQueue.Pairwise fun a b => (s.buffer.slots[a].all fun y =>
    s.buffer.slots[b].all fun z => decide (z.priority ≤ y.priority)) = true) &&
  (x.deferralQueue ++ x.sendQueue).all fun n => s.buffer.slots[n].all fun r =>
    (s.bank.active.classes[r.cls]).isSome

theorem chainInv_of_check {s : State} {g : Seg} (h : chainCheck s g = true) : ChainInv s g := by
  simp only [chainCheck, Bool.and_eq_true, decide_eq_true_eq, List.all_eq_true,
    Option.all_eq_true] at h
  obtain ⟨⟨⟨⟨h1, h2⟩, h3⟩, h4⟩, h5⟩ := h
  refine ⟨h1, ?_, h3, ?_, ?_⟩
  · intro tx r ht hr ha
    have hm : tx.slot ∈ sendingSlot s.segs[g] := by
      unfold sendingSlot
      rw [ht]
      exact List.mem_singleton_self _
    simpa [ha] using h2 tx.slot hm r hr
  · exact h4.imp fun hab x y hx hy => hab x hx y hy
  · intro n r hn hr
    exact h5 n (List.mem_append.2 hn) r hr

/-- The slots in use with their records. -/
def entriesOf (s : State) : List (SlotNo × Slot) :=
  (List.finRange 256).filterMap fun n => s.buffer.slots[n].map fun r => (n, r)

theorem mem_entriesOf {s : State} {n : SlotNo} {r : Slot} :
    (n, r) ∈ entriesOf s ↔ s.buffer.slots[n] = some r := by
  simp [entriesOf]

/-- `IntakeInv`, evaluated on states in which every slot in use has an intake number of its own. -/
def intakeCheck (s : State) : Bool :=
  decide ((entriesOf s).Pairwise fun a b =>
    ¬ (a.2.source = b.2.source ∧ a.2.seq = b.2.seq) ∧ a.2.intake ≠ b.2.intake) &&
  (List.finRange 4).all fun g =>
    decide (s.segs[g].deferralQueue.Pairwise fun a b => (s.buffer.slots[a].all fun x =>
      s.buffer.slots[b].all fun y => decide (1 ≤ (y.intake - x.intake).toNat ∧
        (y.intake - x.intake).toNat < 2 ^ 31)) = true)

theorem intakeInv_of_check {s : State} (h : intakeCheck s = true) : IntakeInv s := by
  simp only [intakeCheck, Bool.and_eq_true, decide_eq_true_eq, List.all_eq_true, List.mem_finRange,
    forall_const, Option.all_eq_true] at h
  obtain ⟨h1, h2⟩ := h
  have apart : ∀ (n m : SlotNo) (x y : Slot), s.buffer.slots[n] = some x →
      s.buffer.slots[m] = some y → n ≠ m →
      ¬ (x.source = y.source ∧ x.seq = y.seq) ∧ x.intake ≠ y.intake := by
    intro n m x y hx hy ne
    have sym : Std.Symm fun a b : SlotNo × Slot =>
        ¬ (a.2.source = b.2.source ∧ a.2.seq = b.2.seq) ∧ a.2.intake ≠ b.2.intake :=
      ⟨fun a b ⟨p, q⟩ => ⟨fun ⟨e, f⟩ => p ⟨e.symm, f.symm⟩, q.symm⟩⟩
    exact h1.forall (mem_entriesOf.2 hx) (mem_entriesOf.2 hy)
      fun e => ne (congrArg Prod.fst e)
  exact ⟨fun n m x y hx hy ne => (apart n m x y hx hy ne).1,
    fun n m x y hx hy ne _ _ => (apart n m x y hx hy ne).2,
    fun g => (h2 g).imp fun hab x y hx hy => hab x hx y hy⟩

/-- `RecentIntakes`, evaluated for every slot in use. -/
def recentCheck (s : State) : Bool :=
  (entriesOf s).all fun e => decide ((s.buffer.intakeCounter - e.2.intake).toNat < 2 ^ 31 - 1)

theorem recentIntakes_of_check {s : State} (h : recentCheck s = true) : RecentIntakes s := by
  intro n r hr _
  simp only [recentCheck, List.all_eq_true, decide_eq_true_eq] at h
  exact h (n, r) (mem_entriesOf.2 hr)

/-- `TagsInv`, evaluated. -/
def tagsCheck (s : State) : Bool :=
  (List.finRange 4).all fun g => decide (heldTags s.segs[g]).Nodup &&
    match s.segs[g].transceiver with
    | .sending tx => !(heldTags s.segs[g]).contains tx.tag
    | _ => true

theorem tagsInv_of_check {s : State} (h : tagsCheck s = true) : TagsInv s := by
  intro g
  simp only [tagsCheck, List.all_eq_true, List.mem_finRange, forall_const, Bool.and_eq_true,
    decide_eq_true_eq] at h
  obtain ⟨h1, h2⟩ := h g
  refine ⟨h1, fun tx ht => ?_⟩
  rw [ht] at h2
  simpa using h2

/-- `BoundsInv`, evaluated. -/
def boundsCheck (s : State) : Bool :=
  decide (s.reports.reportQueue.length ≤ 16) && decide (s.reports.noticeQueue.length ≤ 4) &&
  decide (s.reports.responseQueue.length + heldPlace s ≤ 4) &&
  ((List.finRange 4).all fun g => decide (s.segs[g].ring.length ≤ 8)) &&
  ((List.finRange 4).all fun g => decide (s.segs[g].conflictStreak ≤ 8)) &&
  (s.counters.toList.all fun n => decide (n ≤ 4294967295)) &&
  decide (s.clock.uptime ≤ 4294967295) &&
  (decide (s.agent.managers.length ≤ 4) && decide s.agent.managers.Nodup &&
    s.agent.managers.all fun a => decide (a ≠ 0 ∧ a ≠ ownAddressOf s.pins.latched)) &&
  decide (s.agent.noticeAddress ≠ ownAddressOf s.pins.latched)

theorem boundsInv_of_check {s : State} (h : boundsCheck s = true) : BoundsInv s := by
  simp only [boundsCheck, Bool.and_eq_true, decide_eq_true_eq, List.all_eq_true, List.mem_finRange,
    forall_const] at h
  obtain ⟨⟨⟨⟨⟨⟨⟨⟨h1, h2⟩, h3⟩, h4⟩, h5⟩, h6⟩, h7⟩, ⟨h8, h9⟩, h10⟩, h11⟩ := h
  refine ⟨h1, h2, h3, h4, h5, fun c => h6 _ ?_, h7, ⟨h8, h9, fun a ha => h10 a ha⟩, h11⟩
  have : s.counters[c] = s.counters.toList[c.val]'(by simp) := by simp
  rw [this]
  exact List.getElem_mem _

/-- `Consistent`, evaluated. -/
def consistentCheck (t : Tables) : Bool :=
  ((List.finRange 32).all fun i => t.windows[i].all fun w => w.dayMask != 0) &&
  ((List.finRange 16).all fun i => t.classes[i].all fun p =>
    decide p.windows.Nodup && p.windows.all fun w => t.windows[w].isSome) &&
  ((List.finRange 64).all fun i => t.routes[i].all fun r =>
    decide (1 ≤ r.first.toNat ∧ r.first.toNat ≤ r.last.toNat ∧ r.last.toNat ≤ 4079)) &&
  (List.finRange 64).all fun i => t.routes[i].all fun r =>
    (List.finRange 64).all fun j => t.routes[j].all fun q =>
      decide (i < j → r.last.toNat < q.first.toNat ∨ q.last.toNat < r.first.toNat)

theorem consistent_of_check {t : Tables} (h : consistentCheck t = true) : Consistent t := by
  simp only [consistentCheck, Bool.and_eq_true, decide_eq_true_eq, List.all_eq_true,
    List.mem_finRange, forall_const, Option.all_eq_true, bne_iff_ne] at h
  obtain ⟨⟨⟨h1, h2⟩, h3⟩, h4⟩ := h
  exact ⟨h1, h2, h3, fun i j r q hij hr hq => h4 i r hr j q hq hij⟩

end Sys2Proof.Laws
end

