-- ==== Sys2Proof/Laws/State.lean ====
section
/-! SUPPORT. The fields each named update of the state leaves as they were: one lemma per field and
update. What an update does to the fields it writes stands in Laws/Ops.lean. -/

namespace Sys2Proof.Machine

variable (s : State)

/-! ### countBy -/

@[simp] theorem State.countBy_pins (c : CounterId) (n : Nat) : (s.countBy c n).pins = s.pins := rfl
@[simp] theorem State.countBy_port (c : CounterId) (n : Nat) : (s.countBy c n).port = s.port := rfl
@[simp] theorem State.countBy_buffer (c : CounterId) (n : Nat) : (s.countBy c n).buffer = s.buffer := rfl
@[simp] theorem State.countBy_clock (c : CounterId) (n : Nat) : (s.countBy c n).clock = s.clock := rfl
@[simp] theorem State.countBy_windowOpen (c : CounterId) (n : Nat) : (s.countBy c n).windowOpen = s.windowOpen := rfl
@[simp] theorem State.countBy_bank (c : CounterId) (n : Nat) : (s.countBy c n).bank = s.bank := rfl
@[simp] theorem State.countBy_agent (c : CounterId) (n : Nat) : (s.countBy c n).agent = s.agent := rfl
@[simp] theorem State.countBy_reports (c : CounterId) (n : Nat) : (s.countBy c n).reports = s.reports := rfl
@[simp] theorem State.countBy_segs (c : CounterId) (n : Nat) : (s.countBy c n).segs = s.segs := rfl
@[simp] theorem State.countBy_occasions (c : CounterId) (n : Nat) : (s.countBy c n).occasions = s.occasions := rfl
@[simp] theorem State.countBy_pending (c : CounterId) (n : Nat) : (s.countBy c n).pending = s.pending := rfl

/-! ### count -/

@[simp] theorem State.count_pins (c : CounterId) : (s.count c).pins = s.pins := rfl
@[simp] theorem State.count_port (c : CounterId) : (s.count c).port = s.port := rfl
@[simp] theorem State.count_buffer (c : CounterId) : (s.count c).buffer = s.buffer := rfl
@[simp] theorem State.count_clock (c : CounterId) : (s.count c).clock = s.clock := rfl
@[simp] theorem State.count_windowOpen (c : CounterId) : (s.count c).windowOpen = s.windowOpen := rfl
@[simp] theorem State.count_bank (c : CounterId) : (s.count c).bank = s.bank := rfl
@[simp] theorem State.count_agent (c : CounterId) : (s.count c).agent = s.agent := rfl
@[simp] theorem State.count_reports (c : CounterId) : (s.count c).reports = s.reports := rfl
@[simp] theorem State.count_segs (c : CounterId) : (s.count c).segs = s.segs := rfl
@[simp] theorem State.count_occasions (c : CounterId) : (s.count c).occasions = s.occasions := rfl
@[simp] theorem State.count_pending (c : CounterId) : (s.count c).pending = s.pending := rfl

/-! ### owe -/

@[simp] theorem State.owe_pins (o : Occasion) : (s.owe o).pins = s.pins := rfl
@[simp] theorem State.owe_port (o : Occasion) : (s.owe o).port = s.port := rfl
@[simp] theorem State.owe_buffer (o : Occasion) : (s.owe o).buffer = s.buffer := rfl
@[simp] theorem State.owe_clock (o : Occasion) : (s.owe o).clock = s.clock := rfl
@[simp] theorem State.owe_windowOpen (o : Occasion) : (s.owe o).windowOpen = s.windowOpen := rfl
@[simp] theorem State.owe_bank (o : Occasion) : (s.owe o).bank = s.bank := rfl
@[simp] theorem State.owe_agent (o : Occasion) : (s.owe o).agent = s.agent := rfl
@[simp] theorem State.owe_reports (o : Occasion) : (s.owe o).reports = s.reports := rfl
@[simp] theorem State.owe_counters (o : Occasion) : (s.owe o).counters = s.counters := rfl
@[simp] theorem State.owe_segs (o : Occasion) : (s.owe o).segs = s.segs := rfl
@[simp] theorem State.owe_pending (o : Occasion) : (s.owe o).pending = s.pending := rfl

/-! ### settle -/

@[simp] theorem State.settle_pins (o : Occasion) : (s.settle o).pins = s.pins := rfl
@[simp] theorem State.settle_port (o : Occasion) : (s.settle o).port = s.port := rfl
@[simp] theorem State.settle_buffer (o : Occasion) : (s.settle o).buffer = s.buffer := rfl
@[simp] theorem State.settle_clock (o : Occasion) : (s.settle o).clock = s.clock := rfl
@[simp] theorem State.settle_windowOpen (o : Occasion) : (s.settle o).windowOpen = s.windowOpen := rfl
@[simp] theorem State.settle_bank (o : Occasion) : (s.settle o).bank = s.bank := rfl
@[simp] theorem State.settle_agent (o : Occasion) : (s.settle o).agent = s.agent := rfl
@[simp] theorem State.settle_reports (o : Occasion) : (s.settle o).reports = s.reports := rfl
@[simp] theorem State.settle_counters (o : Occasion) : (s.settle o).counters = s.counters := rfl
@[simp] theorem State.settle_segs (o : Occasion) : (s.settle o).segs = s.segs := rfl
@[simp] theorem State.settle_pending (o : Occasion) : (s.settle o).pending = s.pending := rfl

/-! ### oweTake -/

@[simp] theorem State.oweTake_pins : (s.oweTake).pins = s.pins := by unfold State.oweTake; split <;> rfl
@[simp] theorem State.oweTake_port : (s.oweTake).port = s.port := by unfold State.oweTake; split <;> rfl
@[simp] theorem State.oweTake_buffer : (s.oweTake).buffer = s.buffer := by unfold State.oweTake; split <;> rfl
@[simp] theorem State.oweTake_clock : (s.oweTake).clock = s.clock := by unfold State.oweTake; split <;> rfl
@[simp] theorem State.oweTake_windowOpen : (s.oweTake).windowOpen = s.windowOpen := by unfold State.oweTake; split <;> rfl
@[simp] theorem State.oweTake_bank : (s.oweTake).bank = s.bank := by unfold State.oweTake; split <;> rfl
@[simp] theorem State.oweTake_agent : (s.oweTake).agent = s.agent := by unfold State.oweTake; split <;> rfl
@[simp] theorem State.oweTake_reports : (s.oweTake).reports = s.reports := by unfold State.oweTake; split <;> rfl
@[simp] theorem State.oweTake_counters : (s.oweTake).counters = s.counters := by unfold State.oweTake; split <;> rfl
@[simp] theorem State.oweTake_segs : (s.oweTake).segs = s.segs := by unfold State.oweTake; split <;> rfl
@[simp] theorem State.oweTake_pending : (s.oweTake).pending = s.pending := by unfold State.oweTake; split <;> rfl

/-! ### queueNotice -/

@[simp] theorem State.queueNotice_pins (kind : NoticeKind) : (s.queueNotice kind).pins = s.pins := by unfold State.queueNotice; split <;> simp
@[simp] theorem State.queueNotice_port (kind : NoticeKind) : (s.queueNotice kind).port = s.port := by unfold State.queueNotice; split <;> simp
@[simp] theorem State.queueNotice_buffer (kind : NoticeKind) : (s.queueNotice kind).buffer = s.buffer := by unfold State.queueNotice; split <;> simp
@[simp] theorem State.queueNotice_clock (kind : NoticeKind) : (s.queueNotice kind).clock = s.clock := by unfold State.queueNotice; split <;> simp
@[simp] theorem State.queueNotice_windowOpen (kind : NoticeKind) : (s.queueNotice kind).windowOpen = s.windowOpen := by unfold State.queueNotice; split <;> simp
@[simp] theorem State.queueNotice_bank (kind : NoticeKind) : (s.queueNotice kind).bank = s.bank := by unfold State.queueNotice; split <;> simp
@[simp] theorem State.queueNotice_agent (kind : NoticeKind) : (s.queueNotice kind).agent = s.agent := by unfold State.queueNotice; split <;> simp
@[simp] theorem State.queueNotice_segs (kind : NoticeKind) : (s.queueNotice kind).segs = s.segs := by unfold State.queueNotice; split <;> simp
@[simp] theorem State.queueNotice_pending (kind : NoticeKind) : (s.queueNotice kind).pending = s.pending := by unfold State.queueNotice; split <;> simp

/-! ### checkHigh -/

@[simp] theorem State.checkHigh_pins : (s.checkHigh).pins = s.pins := by unfold State.checkHigh; split <;> simp
@[simp] theorem State.checkHigh_port : (s.checkHigh).port = s.port := by unfold State.checkHigh; split <;> simp
@[simp] theorem State.checkHigh_clock : (s.checkHigh).clock = s.clock := by unfold State.checkHigh; split <;> simp
@[simp] theorem State.checkHigh_windowOpen : (s.checkHigh).windowOpen = s.windowOpen := by unfold State.checkHigh; split <;> simp
@[simp] theorem State.checkHigh_bank : (s.checkHigh).bank = s.bank := by unfold State.checkHigh; split <;> simp
@[simp] theorem State.checkHigh_agent : (s.checkHigh).agent = s.agent := by unfold State.checkHigh; split <;> simp
@[simp] theorem State.checkHigh_segs : (s.checkHigh).segs = s.segs := by unfold State.checkHigh; split <;> simp
@[simp] theorem State.checkHigh_pending : (s.checkHigh).pending = s.pending := by unfold State.checkHigh; split <;> simp

/-! ### checkClear -/

@[simp] theorem State.checkClear_pins : (s.checkClear).pins = s.pins := by unfold State.checkClear; split <;> simp
@[simp] theorem State.checkClear_port : (s.checkClear).port = s.port := by unfold State.checkClear; split <;> simp
@[simp] theorem State.checkClear_clock : (s.checkClear).clock = s.clock := by unfold State.checkClear; split <;> simp
@[simp] theorem State.checkClear_windowOpen : (s.checkClear).windowOpen = s.windowOpen := by unfold State.checkClear; split <;> simp
@[simp] theorem State.checkClear_bank : (s.checkClear).bank = s.bank := by unfold State.checkClear; split <;> simp
@[simp] theorem State.checkClear_agent : (s.checkClear).agent = s.agent := by unfold State.checkClear; split <;> simp
@[simp] theorem State.checkClear_segs : (s.checkClear).segs = s.segs := by unfold State.checkClear; split <;> simp
@[simp] theorem State.checkClear_pending : (s.checkClear).pending = s.pending := by unfold State.checkClear; split <;> simp

/-! ### oweExaminations -/

@[simp] theorem State.oweExaminations_pins : (s.oweExaminations).pins = s.pins := rfl
@[simp] theorem State.oweExaminations_port : (s.oweExaminations).port = s.port := rfl
@[simp] theorem State.oweExaminations_buffer : (s.oweExaminations).buffer = s.buffer := rfl
@[simp] theorem State.oweExaminations_clock : (s.oweExaminations).clock = s.clock := rfl
@[simp] theorem State.oweExaminations_windowOpen : (s.oweExaminations).windowOpen = s.windowOpen := rfl
@[simp] theorem State.oweExaminations_bank : (s.oweExaminations).bank = s.bank := rfl
@[simp] theorem State.oweExaminations_agent : (s.oweExaminations).agent = s.agent := rfl
@[simp] theorem State.oweExaminations_reports : (s.oweExaminations).reports = s.reports := rfl
@[simp] theorem State.oweExaminations_counters : (s.oweExaminations).counters = s.counters := rfl
@[simp] theorem State.oweExaminations_segs : (s.oweExaminations).segs = s.segs := rfl
@[simp] theorem State.oweExaminations_pending : (s.oweExaminations).pending = s.pending := rfl

/-! ### evaluateWindows -/

@[simp] theorem State.evaluateWindows_pins : (s.evaluateWindows).pins = s.pins := by unfold State.evaluateWindows; split <;> simp
@[simp] theorem State.evaluateWindows_port : (s.evaluateWindows).port = s.port := by unfold State.evaluateWindows; split <;> simp
@[simp] theorem State.evaluateWindows_buffer : (s.evaluateWindows).buffer = s.buffer := by unfold State.evaluateWindows; split <;> simp
@[simp] theorem State.evaluateWindows_clock : (s.evaluateWindows).clock = s.clock := by unfold State.evaluateWindows; split <;> simp
@[simp] theorem State.evaluateWindows_bank : (s.evaluateWindows).bank = s.bank := by unfold State.evaluateWindows; split <;> simp
@[simp] theorem State.evaluateWindows_agent : (s.evaluateWindows).agent = s.agent := by unfold State.evaluateWindows; split <;> simp
@[simp] theorem State.evaluateWindows_reports : (s.evaluateWindows).reports = s.reports := by unfold State.evaluateWindows; split <;> simp
@[simp] theorem State.evaluateWindows_counters : (s.evaluateWindows).counters = s.counters := by unfold State.evaluateWindows; split <;> simp
@[simp] theorem State.evaluateWindows_segs : (s.evaluateWindows).segs = s.segs := by unfold State.evaluateWindows; split <;> simp
@[simp] theorem State.evaluateWindows_pending : (s.evaluateWindows).pending = s.pending := by unfold State.evaluateWindows; split <;> simp

/-! ### reach -/

@[simp] theorem State.reach_port (instant : Nat) : (s.reach instant).port = s.port := rfl
@[simp] theorem State.reach_buffer (instant : Nat) : (s.reach instant).buffer = s.buffer := rfl
@[simp] theorem State.reach_clock (instant : Nat) : (s.reach instant).clock = s.clock := rfl
@[simp] theorem State.reach_windowOpen (instant : Nat) : (s.reach instant).windowOpen = s.windowOpen := rfl
@[simp] theorem State.reach_bank (instant : Nat) : (s.reach instant).bank = s.bank := rfl
@[simp] theorem State.reach_agent (instant : Nat) : (s.reach instant).agent = s.agent := rfl
@[simp] theorem State.reach_reports (instant : Nat) : (s.reach instant).reports = s.reports := rfl
@[simp] theorem State.reach_counters (instant : Nat) : (s.reach instant).counters = s.counters := rfl
@[simp] theorem State.reach_segs (instant : Nat) : (s.reach instant).segs = s.segs := rfl
@[simp] theorem State.reach_occasions (instant : Nat) : (s.reach instant).occasions = s.occasions := rfl
@[simp] theorem State.reach_pending (instant : Nat) : (s.reach instant).pending = s.pending := rfl

/-! ### setSeg -/

@[simp] theorem State.setSeg_pins (g : Seg) (x : Segment) : (s.setSeg g x).pins = s.pins := rfl
@[simp] theorem State.setSeg_port (g : Seg) (x : Segment) : (s.setSeg g x).port = s.port := rfl
@[simp] theorem State.setSeg_buffer (g : Seg) (x : Segment) : (s.setSeg g x).buffer = s.buffer := rfl
@[simp] theorem State.setSeg_clock (g : Seg) (x : Segment) : (s.setSeg g x).clock = s.clock := rfl
@[simp] theorem State.setSeg_windowOpen (g : Seg) (x : Segment) : (s.setSeg g x).windowOpen = s.windowOpen := rfl
@[simp] theorem State.setSeg_bank (g : Seg) (x : Segment) : (s.setSeg g x).bank = s.bank := rfl
@[simp] theorem State.setSeg_agent (g : Seg) (x : Segment) : (s.setSeg g x).agent = s.agent := rfl
@[simp] theorem State.setSeg_reports (g : Seg) (x : Segment) : (s.setSeg g x).reports = s.reports := rfl
@[simp] theorem State.setSeg_counters (g : Seg) (x : Segment) : (s.setSeg g x).counters = s.counters := rfl
@[simp] theorem State.setSeg_occasions (g : Seg) (x : Segment) : (s.setSeg g x).occasions = s.occasions := rfl
@[simp] theorem State.setSeg_pending (g : Seg) (x : Segment) : (s.setSeg g x).pending = s.pending := rfl

/-! ### setSlot -/

@[simp] theorem State.setSlot_pins (n : SlotNo) (x : Option Slot) : (s.setSlot n x).pins = s.pins := rfl
@[simp] theorem State.setSlot_port (n : SlotNo) (x : Option Slot) : (s.setSlot n x).port = s.port := rfl
@[simp] theorem State.setSlot_clock (n : SlotNo) (x : Option Slot) : (s.setSlot n x).clock = s.clock := rfl
@[simp] theorem State.setSlot_windowOpen (n : SlotNo) (x : Option Slot) : (s.setSlot n x).windowOpen = s.windowOpen := rfl
@[simp] theorem State.setSlot_bank (n : SlotNo) (x : Option Slot) : (s.setSlot n x).bank = s.bank := rfl
@[simp] theorem State.setSlot_agent (n : SlotNo) (x : Option Slot) : (s.setSlot n x).agent = s.agent := rfl
@[simp] theorem State.setSlot_reports (n : SlotNo) (x : Option Slot) : (s.setSlot n x).reports = s.reports := rfl
@[simp] theorem State.setSlot_counters (n : SlotNo) (x : Option Slot) : (s.setSlot n x).counters = s.counters := rfl
@[simp] theorem State.setSlot_segs (n : SlotNo) (x : Option Slot) : (s.setSlot n x).segs = s.segs := rfl
@[simp] theorem State.setSlot_occasions (n : SlotNo) (x : Option Slot) : (s.setSlot n x).occasions = s.occasions := rfl
@[simp] theorem State.setSlot_pending (n : SlotNo) (x : Option Slot) : (s.setSlot n x).pending = s.pending := rfl

/-! ### modifySlot -/

@[simp] theorem State.modifySlot_pins (n : SlotNo) (f : Slot → Slot) : (s.modifySlot n f).pins = s.pins := rfl
@[simp] theorem State.modifySlot_port (n : SlotNo) (f : Slot → Slot) : (s.modifySlot n f).port = s.port := rfl
@[simp] theorem State.modifySlot_clock (n : SlotNo) (f : Slot → Slot) : (s.modifySlot n f).clock = s.clock := rfl
@[simp] theorem State.modifySlot_windowOpen (n : SlotNo) (f : Slot → Slot) : (s.modifySlot n f).windowOpen = s.windowOpen := rfl
@[simp] theorem State.modifySlot_bank (n : SlotNo) (f : Slot → Slot) : (s.modifySlot n f).bank = s.bank := rfl
@[simp] theorem State.modifySlot_agent (n : SlotNo) (f : Slot → Slot) : (s.modifySlot n f).agent = s.agent := rfl
@[simp] theorem State.modifySlot_reports (n : SlotNo) (f : Slot → Slot) : (s.modifySlot n f).reports = s.reports := rfl
@[simp] theorem State.modifySlot_counters (n : SlotNo) (f : Slot → Slot) : (s.modifySlot n f).counters = s.counters := rfl
@[simp] theorem State.modifySlot_segs (n : SlotNo) (f : Slot → Slot) : (s.modifySlot n f).segs = s.segs := rfl
@[simp] theorem State.modifySlot_occasions (n : SlotNo) (f : Slot → Slot) : (s.modifySlot n f).occasions = s.occasions := rfl
@[simp] theorem State.modifySlot_pending (n : SlotNo) (f : Slot → Slot) : (s.modifySlot n f).pending = s.pending := rfl

/-! ### allocate -/

@[simp] theorem State.allocate_pins (n : SlotNo) (record : Intake → Slot) : (s.allocate n record).pins = s.pins := rfl
@[simp] theorem State.allocate_port (n : SlotNo) (record : Intake → Slot) : (s.allocate n record).port = s.port := rfl
@[simp] theorem State.allocate_clock (n : SlotNo) (record : Intake → Slot) : (s.allocate n record).clock = s.clock := rfl
@[simp] theorem State.allocate_windowOpen (n : SlotNo) (record : Intake → Slot) : (s.allocate n record).windowOpen = s.windowOpen := rfl
@[simp] theorem State.allocate_bank (n : SlotNo) (record : Intake → Slot) : (s.allocate n record).bank = s.bank := rfl
@[simp] theorem State.allocate_agent (n : SlotNo) (record : Intake → Slot) : (s.allocate n record).agent = s.agent := rfl
@[simp] theorem State.allocate_reports (n : SlotNo) (record : Intake → Slot) : (s.allocate n record).reports = s.reports := rfl
@[simp] theorem State.allocate_counters (n : SlotNo) (record : Intake → Slot) : (s.allocate n record).counters = s.counters := rfl
@[simp] theorem State.allocate_segs (n : SlotNo) (record : Intake → Slot) : (s.allocate n record).segs = s.segs := rfl
@[simp] theorem State.allocate_occasions (n : SlotNo) (record : Intake → Slot) : (s.allocate n record).occasions = s.occasions := rfl
@[simp] theorem State.allocate_pending (n : SlotNo) (record : Intake → Slot) : (s.allocate n record).pending = s.pending := rfl

/-! ### free -/

@[simp] theorem State.free_pins (n : SlotNo) : (s.free n).pins = s.pins := by simp [State.free]
@[simp] theorem State.free_port (n : SlotNo) : (s.free n).port = s.port := by simp [State.free]
@[simp] theorem State.free_clock (n : SlotNo) : (s.free n).clock = s.clock := by simp [State.free]
@[simp] theorem State.free_windowOpen (n : SlotNo) : (s.free n).windowOpen = s.windowOpen := by simp [State.free]
@[simp] theorem State.free_bank (n : SlotNo) : (s.free n).bank = s.bank := by simp [State.free]
@[simp] theorem State.free_agent (n : SlotNo) : (s.free n).agent = s.agent := by simp [State.free]
@[simp] theorem State.free_segs (n : SlotNo) : (s.free n).segs = s.segs := by simp [State.free]
@[simp] theorem State.free_pending (n : SlotNo) : (s.free n).pending = s.pending := by simp [State.free]

/-! ### leaveDeferralQueue -/

@[simp] theorem State.leaveDeferralQueue_pins (g : Seg) (n : SlotNo) : (s.leaveDeferralQueue g n).pins = s.pins := rfl
@[simp] theorem State.leaveDeferralQueue_port (g : Seg) (n : SlotNo) : (s.leaveDeferralQueue g n).port = s.port := rfl
@[simp] theorem State.leaveDeferralQueue_clock (g : Seg) (n : SlotNo) : (s.leaveDeferralQueue g n).clock = s.clock := rfl
@[simp] theorem State.leaveDeferralQueue_windowOpen (g : Seg) (n : SlotNo) : (s.leaveDeferralQueue g n).windowOpen = s.windowOpen := rfl
@[simp] theorem State.leaveDeferralQueue_bank (g : Seg) (n : SlotNo) : (s.leaveDeferralQueue g n).bank = s.bank := rfl
@[simp] theorem State.leaveDeferralQueue_agent (g : Seg) (n : SlotNo) : (s.leaveDeferralQueue g n).agent = s.agent := rfl
@[simp] theorem State.leaveDeferralQueue_reports (g : Seg) (n : SlotNo) : (s.leaveDeferralQueue g n).reports = s.reports := rfl
@[simp] theorem State.leaveDeferralQueue_counters (g : Seg) (n : SlotNo) : (s.leaveDeferralQueue g n).counters = s.counters := rfl
@[simp] theorem State.leaveDeferralQueue_occasions (g : Seg) (n : SlotNo) : (s.leaveDeferralQueue g n).occasions = s.occasions := rfl
@[simp] theorem State.leaveDeferralQueue_pending (g : Seg) (n : SlotNo) : (s.leaveDeferralQueue g n).pending = s.pending := rfl

/-! ### deferAtBack -/

@[simp] theorem State.deferAtBack_pins (g : Seg) (n : SlotNo) (reason : DeferralReason) : (s.deferAtBack g n reason).pins = s.pins := rfl
@[simp] theorem State.deferAtBack_port (g : Seg) (n : SlotNo) (reason : DeferralReason) : (s.deferAtBack g n reason).port = s.port := rfl
@[simp] theorem State.deferAtBack_clock (g : Seg) (n : SlotNo) (reason : DeferralReason) : (s.deferAtBack g n reason).clock = s.clock := rfl
@[simp] theorem State.deferAtBack_windowOpen (g : Seg) (n : SlotNo) (reason : DeferralReason) : (s.deferAtBack g n reason).windowOpen = s.windowOpen := rfl
@[simp] theorem State.deferAtBack_bank (g : Seg) (n : SlotNo) (reason : DeferralReason) : (s.deferAtBack g n reason).bank = s.bank := rfl
@[simp] theorem State.deferAtBack_agent (g : Seg) (n : SlotNo) (reason : DeferralReason) : (s.deferAtBack g n reason).agent = s.agent := rfl
@[simp] theorem State.deferAtBack_reports (g : Seg) (n : SlotNo) (reason : DeferralReason) : (s.deferAtBack g n reason).reports = s.reports := rfl
@[simp] theorem State.deferAtBack_counters (g : Seg) (n : SlotNo) (reason : DeferralReason) : (s.deferAtBack g n reason).counters = s.counters := rfl
@[simp] theorem State.deferAtBack_pending (g : Seg) (n : SlotNo) (reason : DeferralReason) : (s.deferAtBack g n reason).pending = s.pending := rfl

/-! ### joinFresh -/

@[simp] theorem State.joinFresh_pins (g : Seg) (n : SlotNo) : (s.joinFresh g n).pins = s.pins := rfl
@[simp] theorem State.joinFresh_port (g : Seg) (n : SlotNo) : (s.joinFresh g n).port = s.port := rfl
@[simp] theorem State.joinFresh_buffer (g : Seg) (n : SlotNo) : (s.joinFresh g n).buffer = s.buffer := rfl
@[simp] theorem State.joinFresh_clock (g : Seg) (n : SlotNo) : (s.joinFresh g n).clock = s.clock := rfl
@[simp] theorem State.joinFresh_windowOpen (g : Seg) (n : SlotNo) : (s.joinFresh g n).windowOpen = s.windowOpen := rfl
@[simp] theorem State.joinFresh_bank (g : Seg) (n : SlotNo) : (s.joinFresh g n).bank = s.bank := rfl
@[simp] theorem State.joinFresh_agent (g : Seg) (n : SlotNo) : (s.joinFresh g n).agent = s.agent := rfl
@[simp] theorem State.joinFresh_reports (g : Seg) (n : SlotNo) : (s.joinFresh g n).reports = s.reports := rfl
@[simp] theorem State.joinFresh_counters (g : Seg) (n : SlotNo) : (s.joinFresh g n).counters = s.counters := rfl
@[simp] theorem State.joinFresh_pending (g : Seg) (n : SlotNo) : (s.joinFresh g n).pending = s.pending := rfl

/-! ### joinReentry -/

@[simp] theorem State.joinReentry_pins (g : Seg) (n : SlotNo) : (s.joinReentry g n).pins = s.pins := rfl
@[simp] theorem State.joinReentry_port (g : Seg) (n : SlotNo) : (s.joinReentry g n).port = s.port := rfl
@[simp] theorem State.joinReentry_buffer (g : Seg) (n : SlotNo) : (s.joinReentry g n).buffer = s.buffer := rfl
@[simp] theorem State.joinReentry_clock (g : Seg) (n : SlotNo) : (s.joinReentry g n).clock = s.clock := rfl
@[simp] theorem State.joinReentry_windowOpen (g : Seg) (n : SlotNo) : (s.joinReentry g n).windowOpen = s.windowOpen := rfl
@[simp] theorem State.joinReentry_bank (g : Seg) (n : SlotNo) : (s.joinReentry g n).bank = s.bank := rfl
@[simp] theorem State.joinReentry_agent (g : Seg) (n : SlotNo) : (s.joinReentry g n).agent = s.agent := rfl
@[simp] theorem State.joinReentry_reports (g : Seg) (n : SlotNo) : (s.joinReentry g n).reports = s.reports := rfl
@[simp] theorem State.joinReentry_counters (g : Seg) (n : SlotNo) : (s.joinReentry g n).counters = s.counters := rfl
@[simp] theorem State.joinReentry_pending (g : Seg) (n : SlotNo) : (s.joinReentry g n).pending = s.pending := rfl

/-! ### leaveSendQueue -/

@[simp] theorem State.leaveSendQueue_pins (g : Seg) (n : SlotNo) : (s.leaveSendQueue g n).pins = s.pins := rfl
@[simp] theorem State.leaveSendQueue_port (g : Seg) (n : SlotNo) : (s.leaveSendQueue g n).port = s.port := rfl
@[simp] theorem State.leaveSendQueue_buffer (g : Seg) (n : SlotNo) : (s.leaveSendQueue g n).buffer = s.buffer := rfl
@[simp] theorem State.leaveSendQueue_clock (g : Seg) (n : SlotNo) : (s.leaveSendQueue g n).clock = s.clock := rfl
@[simp] theorem State.leaveSendQueue_windowOpen (g : Seg) (n : SlotNo) : (s.leaveSendQueue g n).windowOpen = s.windowOpen := rfl
@[simp] theorem State.leaveSendQueue_bank (g : Seg) (n : SlotNo) : (s.leaveSendQueue g n).bank = s.bank := rfl
@[simp] theorem State.leaveSendQueue_agent (g : Seg) (n : SlotNo) : (s.leaveSendQueue g n).agent = s.agent := rfl
@[simp] theorem State.leaveSendQueue_reports (g : Seg) (n : SlotNo) : (s.leaveSendQueue g n).reports = s.reports := rfl
@[simp] theorem State.leaveSendQueue_counters (g : Seg) (n : SlotNo) : (s.leaveSendQueue g n).counters = s.counters := rfl
@[simp] theorem State.leaveSendQueue_pending (g : Seg) (n : SlotNo) : (s.leaveSendQueue g n).pending = s.pending := rfl

/-! ### report -/

@[simp] theorem State.report_pins (n : SlotNo) (o : ReportOutcome) (a : Option AnswerPart) : (s.report n o a).pins = s.pins := rfl
@[simp] theorem State.report_port (n : SlotNo) (o : ReportOutcome) (a : Option AnswerPart) : (s.report n o a).port = s.port := rfl
@[simp] theorem State.report_clock (n : SlotNo) (o : ReportOutcome) (a : Option AnswerPart) : (s.report n o a).clock = s.clock := rfl
@[simp] theorem State.report_windowOpen (n : SlotNo) (o : ReportOutcome) (a : Option AnswerPart) : (s.report n o a).windowOpen = s.windowOpen := rfl
@[simp] theorem State.report_bank (n : SlotNo) (o : ReportOutcome) (a : Option AnswerPart) : (s.report n o a).bank = s.bank := rfl
@[simp] theorem State.report_agent (n : SlotNo) (o : ReportOutcome) (a : Option AnswerPart) : (s.report n o a).agent = s.agent := rfl
@[simp] theorem State.report_segs (n : SlotNo) (o : ReportOutcome) (a : Option AnswerPart) : (s.report n o a).segs = s.segs := rfl
@[simp] theorem State.report_pending (n : SlotNo) (o : ReportOutcome) (a : Option AnswerPart) : (s.report n o a).pending = s.pending := rfl

/-! ### endDeferred -/

@[simp] theorem State.endDeferred_pins (g : Seg) (o : ReportOutcome) (a : Option AnswerPart) (n : SlotNo) : (s.endDeferred g o a n).pins = s.pins := rfl
@[simp] theorem State.endDeferred_port (g : Seg) (o : ReportOutcome) (a : Option AnswerPart) (n : SlotNo) : (s.endDeferred g o a n).port = s.port := rfl
@[simp] theorem State.endDeferred_clock (g : Seg) (o : ReportOutcome) (a : Option AnswerPart) (n : SlotNo) : (s.endDeferred g o a n).clock = s.clock := rfl
@[simp] theorem State.endDeferred_windowOpen (g : Seg) (o : ReportOutcome) (a : Option AnswerPart) (n : SlotNo) : (s.endDeferred g o a n).windowOpen = s.windowOpen := rfl
@[simp] theorem State.endDeferred_bank (g : Seg) (o : ReportOutcome) (a : Option AnswerPart) (n : SlotNo) : (s.endDeferred g o a n).bank = s.bank := rfl
@[simp] theorem State.endDeferred_agent (g : Seg) (o : ReportOutcome) (a : Option AnswerPart) (n : SlotNo) : (s.endDeferred g o a n).agent = s.agent := rfl
@[simp] theorem State.endDeferred_pending (g : Seg) (o : ReportOutcome) (a : Option AnswerPart) (n : SlotNo) : (s.endDeferred g o a n).pending = s.pending := rfl

/-! ### endQueued -/

@[simp] theorem State.endQueued_pins (g : Seg) (o : ReportOutcome) (a : Option AnswerPart) (n : SlotNo) : (s.endQueued g o a n).pins = s.pins := rfl
@[simp] theorem State.endQueued_port (g : Seg) (o : ReportOutcome) (a : Option AnswerPart) (n : SlotNo) : (s.endQueued g o a n).port = s.port := rfl
@[simp] theorem State.endQueued_clock (g : Seg) (o : ReportOutcome) (a : Option AnswerPart) (n : SlotNo) : (s.endQueued g o a n).clock = s.clock := rfl
@[simp] theorem State.endQueued_windowOpen (g : Seg) (o : ReportOutcome) (a : Option AnswerPart) (n : SlotNo) : (s.endQueued g o a n).windowOpen = s.windowOpen := rfl
@[simp] theorem State.endQueued_bank (g : Seg) (o : ReportOutcome) (a : Option AnswerPart) (n : SlotNo) : (s.endQueued g o a n).bank = s.bank := rfl
@[simp] theorem State.endQueued_agent (g : Seg) (o : ReportOutcome) (a : Option AnswerPart) (n : SlotNo) : (s.endQueued g o a n).agent = s.agent := rfl
@[simp] theorem State.endQueued_pending (g : Seg) (o : ReportOutcome) (a : Option AnswerPart) (n : SlotNo) : (s.endQueued g o a n).pending = s.pending := rfl

/-! ### pushReport -/

@[simp] theorem State.pushReport_pins (r : Report) : (s.pushReport r).pins = s.pins := by simp [State.pushReport]
@[simp] theorem State.pushReport_port (r : Report) : (s.pushReport r).port = s.port := by simp [State.pushReport]
@[simp] theorem State.pushReport_buffer (r : Report) : (s.pushReport r).buffer = s.buffer := by simp [State.pushReport]
@[simp] theorem State.pushReport_clock (r : Report) : (s.pushReport r).clock = s.clock := by simp [State.pushReport]
@[simp] theorem State.pushReport_windowOpen (r : Report) : (s.pushReport r).windowOpen = s.windowOpen := by simp [State.pushReport]
@[simp] theorem State.pushReport_bank (r : Report) : (s.pushReport r).bank = s.bank := by simp [State.pushReport]
@[simp] theorem State.pushReport_agent (r : Report) : (s.pushReport r).agent = s.agent := by simp [State.pushReport]
@[simp] theorem State.pushReport_counters (r : Report) : (s.pushReport r).counters = s.counters := by simp [State.pushReport]
@[simp] theorem State.pushReport_segs (r : Report) : (s.pushReport r).segs = s.segs := by simp [State.pushReport]
@[simp] theorem State.pushReport_pending (r : Report) : (s.pushReport r).pending = s.pending := by simp [State.pushReport]

/-! ### pushResponse -/

@[simp] theorem State.pushResponse_pins (r : Response) : (s.pushResponse r).pins = s.pins := by simp [State.pushResponse]
@[simp] theorem State.pushResponse_port (r : Response) : (s.pushResponse r).port = s.port := by simp [State.pushResponse]
@[simp] theorem State.pushResponse_buffer (r : Response) : (s.pushResponse r).buffer = s.buffer := by simp [State.pushResponse]
@[simp] theorem State.pushResponse_clock (r : Response) : (s.pushResponse r).clock = s.clock := by simp [State.pushResponse]
@[simp] theorem State.pushResponse_windowOpen (r : Response) : (s.pushResponse r).windowOpen = s.windowOpen := by simp [State.pushResponse]
@[simp] theorem State.pushResponse_bank (r : Response) : (s.pushResponse r).bank = s.bank := by simp [State.pushResponse]
@[simp] theorem State.pushResponse_agent (r : Response) : (s.pushResponse r).agent = s.agent := by simp [State.pushResponse]
@[simp] theorem State.pushResponse_counters (r : Response) : (s.pushResponse r).counters = s.counters := by simp [State.pushResponse]
@[simp] theorem State.pushResponse_segs (r : Response) : (s.pushResponse r).segs = s.segs := by simp [State.pushResponse]
@[simp] theorem State.pushResponse_pending (r : Response) : (s.pushResponse r).pending = s.pending := by simp [State.pushResponse]

/-! ### frameTaken -/

@[simp] theorem State.frameTaken_pins : (s.frameTaken).pins = s.pins := rfl
@[simp] theorem State.frameTaken_buffer : (s.frameTaken).buffer = s.buffer := rfl
@[simp] theorem State.frameTaken_clock : (s.frameTaken).clock = s.clock := rfl
@[simp] theorem State.frameTaken_windowOpen : (s.frameTaken).windowOpen = s.windowOpen := rfl
@[simp] theorem State.frameTaken_bank : (s.frameTaken).bank = s.bank := rfl
@[simp] theorem State.frameTaken_agent : (s.frameTaken).agent = s.agent := rfl
@[simp] theorem State.frameTaken_reports : (s.frameTaken).reports = s.reports := rfl
@[simp] theorem State.frameTaken_counters : (s.frameTaken).counters = s.counters := rfl
@[simp] theorem State.frameTaken_segs : (s.frameTaken).segs = s.segs := rfl
@[simp] theorem State.frameTaken_occasions : (s.frameTaken).occasions = s.occasions := rfl
@[simp] theorem State.frameTaken_pending : (s.frameTaken).pending = s.pending := rfl

/-! ### assemble -/

@[simp] theorem State.assemble_pins (a : Assembler) : (s.assemble a).pins = s.pins := rfl
@[simp] theorem State.assemble_buffer (a : Assembler) : (s.assemble a).buffer = s.buffer := rfl
@[simp] theorem State.assemble_clock (a : Assembler) : (s.assemble a).clock = s.clock := rfl
@[simp] theorem State.assemble_windowOpen (a : Assembler) : (s.assemble a).windowOpen = s.windowOpen := rfl
@[simp] theorem State.assemble_bank (a : Assembler) : (s.assemble a).bank = s.bank := rfl
@[simp] theorem State.assemble_agent (a : Assembler) : (s.assemble a).agent = s.agent := rfl
@[simp] theorem State.assemble_reports (a : Assembler) : (s.assemble a).reports = s.reports := rfl
@[simp] theorem State.assemble_counters (a : Assembler) : (s.assemble a).counters = s.counters := rfl
@[simp] theorem State.assemble_segs (a : Assembler) : (s.assemble a).segs = s.segs := rfl
@[simp] theorem State.assemble_occasions (a : Assembler) : (s.assemble a).occasions = s.occasions := rfl
@[simp] theorem State.assemble_pending (a : Assembler) : (s.assemble a).pending = s.pending := rfl

/-! ### enterQuiet -/

@[simp] theorem State.enterQuiet_pins (g : Seg) : (s.enterQuiet g).pins = s.pins := rfl
@[simp] theorem State.enterQuiet_port (g : Seg) : (s.enterQuiet g).port = s.port := rfl
@[simp] theorem State.enterQuiet_buffer (g : Seg) : (s.enterQuiet g).buffer = s.buffer := rfl
@[simp] theorem State.enterQuiet_clock (g : Seg) : (s.enterQuiet g).clock = s.clock := rfl
@[simp] theorem State.enterQuiet_windowOpen (g : Seg) : (s.enterQuiet g).windowOpen = s.windowOpen := rfl
@[simp] theorem State.enterQuiet_bank (g : Seg) : (s.enterQuiet g).bank = s.bank := rfl
@[simp] theorem State.enterQuiet_agent (g : Seg) : (s.enterQuiet g).agent = s.agent := rfl
@[simp] theorem State.enterQuiet_reports (g : Seg) : (s.enterQuiet g).reports = s.reports := rfl
@[simp] theorem State.enterQuiet_counters (g : Seg) : (s.enterQuiet g).counters = s.counters := rfl
@[simp] theorem State.enterQuiet_occasions (g : Seg) : (s.enterQuiet g).occasions = s.occasions := rfl
@[simp] theorem State.enterQuiet_pending (g : Seg) : (s.enterQuiet g).pending = s.pending := rfl

/-! ### retire -/

@[simp] theorem State.retire_pins (g : Seg) (e : Outstanding) (reason : RetireReason) : (s.retire g e reason).pins = s.pins := rfl
@[simp] theorem State.retire_port (g : Seg) (e : Outstanding) (reason : RetireReason) : (s.retire g e reason).port = s.port := rfl
@[simp] theorem State.retire_buffer (g : Seg) (e : Outstanding) (reason : RetireReason) : (s.retire g e reason).buffer = s.buffer := rfl
@[simp] theorem State.retire_clock (g : Seg) (e : Outstanding) (reason : RetireReason) : (s.retire g e reason).clock = s.clock := rfl
@[simp] theorem State.retire_windowOpen (g : Seg) (e : Outstanding) (reason : RetireReason) : (s.retire g e reason).windowOpen = s.windowOpen := rfl
@[simp] theorem State.retire_bank (g : Seg) (e : Outstanding) (reason : RetireReason) : (s.retire g e reason).bank = s.bank := rfl
@[simp] theorem State.retire_agent (g : Seg) (e : Outstanding) (reason : RetireReason) : (s.retire g e reason).agent = s.agent := rfl
@[simp] theorem State.retire_reports (g : Seg) (e : Outstanding) (reason : RetireReason) : (s.retire g e reason).reports = s.reports := rfl
@[simp] theorem State.retire_counters (g : Seg) (e : Outstanding) (reason : RetireReason) : (s.retire g e reason).counters = s.counters := rfl
@[simp] theorem State.retire_pending (g : Seg) (e : Outstanding) (reason : RetireReason) : (s.retire g e reason).pending = s.pending := rfl

/-! ### startPacer -/

@[simp] theorem State.startPacer_pins (g : Seg) : (s.startPacer g).pins = s.pins := by unfold State.startPacer; split <;> rfl
@[simp] theorem State.startPacer_port (g : Seg) : (s.startPacer g).port = s.port := by unfold State.startPacer; split <;> rfl
@[simp] theorem State.startPacer_buffer (g : Seg) : (s.startPacer g).buffer = s.buffer := by unfold State.startPacer; split <;> rfl
@[simp] theorem State.startPacer_clock (g : Seg) : (s.startPacer g).clock = s.clock := by unfold State.startPacer; split <;> rfl
@[simp] theorem State.startPacer_windowOpen (g : Seg) : (s.startPacer g).windowOpen = s.windowOpen := by unfold State.startPacer; split <;> rfl
@[simp] theorem State.startPacer_bank (g : Seg) : (s.startPacer g).bank = s.bank := by unfold State.startPacer; split <;> rfl
@[simp] theorem State.startPacer_agent (g : Seg) : (s.startPacer g).agent = s.agent := by unfold State.startPacer; split <;> rfl
@[simp] theorem State.startPacer_reports (g : Seg) : (s.startPacer g).reports = s.reports := by unfold State.startPacer; split <;> rfl
@[simp] theorem State.startPacer_counters (g : Seg) : (s.startPacer g).counters = s.counters := by unfold State.startPacer; split <;> rfl
@[simp] theorem State.startPacer_occasions (g : Seg) : (s.startPacer g).occasions = s.occasions := by unfold State.startPacer; split <;> rfl
@[simp] theorem State.startPacer_pending (g : Seg) : (s.startPacer g).pending = s.pending := by unfold State.startPacer; split <;> rfl

/-! ### clearStreak -/

@[simp] theorem State.clearStreak_pins (g : Seg) : (s.clearStreak g).pins = s.pins := rfl
@[simp] theorem State.clearStreak_port (g : Seg) : (s.clearStreak g).port = s.port := rfl
@[simp] theorem State.clearStreak_buffer (g : Seg) : (s.clearStreak g).buffer = s.buffer := rfl
@[simp] theorem State.clearStreak_clock (g : Seg) : (s.clearStreak g).clock = s.clock := rfl
@[simp] theorem State.clearStreak_windowOpen (g : Seg) : (s.clearStreak g).windowOpen = s.windowOpen := rfl
@[simp] theorem State.clearStreak_bank (g : Seg) : (s.clearStreak g).bank = s.bank := rfl
@[simp] theorem State.clearStreak_agent (g : Seg) : (s.clearStreak g).agent = s.agent := rfl
@[simp] theorem State.clearStreak_reports (g : Seg) : (s.clearStreak g).reports = s.reports := rfl
@[simp] theorem State.clearStreak_counters (g : Seg) : (s.clearStreak g).counters = s.counters := rfl
@[simp] theorem State.clearStreak_occasions (g : Seg) : (s.clearStreak g).occasions = s.occasions := rfl
@[simp] theorem State.clearStreak_pending (g : Seg) : (s.clearStreak g).pending = s.pending := rfl

/-! ### holdForFault -/

@[simp] theorem State.holdForFault_pins (g : Seg) (fault : LineFault) : (s.holdForFault g fault).pins = s.pins := by simp [State.holdForFault]
@[simp] theorem State.holdForFault_port (g : Seg) (fault : LineFault) : (s.holdForFault g fault).port = s.port := by simp [State.holdForFault]
@[simp] theorem State.holdForFault_buffer (g : Seg) (fault : LineFault) : (s.holdForFault g fault).buffer = s.buffer := by simp [State.holdForFault]
@[simp] theorem State.holdForFault_clock (g : Seg) (fault : LineFault) : (s.holdForFault g fault).clock = s.clock := by simp [State.holdForFault]
@[simp] theorem State.holdForFault_windowOpen (g : Seg) (fault : LineFault) : (s.holdForFault g fault).windowOpen = s.windowOpen := by simp [State.holdForFault]
@[simp] theorem State.holdForFault_bank (g : Seg) (fault : LineFault) : (s.holdForFault g fault).bank = s.bank := by simp [State.holdForFault]
@[simp] theorem State.holdForFault_agent (g : Seg) (fault : LineFault) : (s.holdForFault g fault).agent = s.agent := by simp [State.holdForFault]
@[simp] theorem State.holdForFault_pending (g : Seg) (fault : LineFault) : (s.holdForFault g fault).pending = s.pending := by simp [State.holdForFault]

/-! ### send -/

@[simp] theorem State.send_pins (e : Outgoing) : (s.send e).pins = s.pins := rfl
@[simp] theorem State.send_buffer (e : Outgoing) : (s.send e).buffer = s.buffer := rfl
@[simp] theorem State.send_clock (e : Outgoing) : (s.send e).clock = s.clock := rfl
@[simp] theorem State.send_windowOpen (e : Outgoing) : (s.send e).windowOpen = s.windowOpen := rfl
@[simp] theorem State.send_bank (e : Outgoing) : (s.send e).bank = s.bank := rfl
@[simp] theorem State.send_agent (e : Outgoing) : (s.send e).agent = s.agent := rfl
@[simp] theorem State.send_reports (e : Outgoing) : (s.send e).reports = s.reports := rfl
@[simp] theorem State.send_counters (e : Outgoing) : (s.send e).counters = s.counters := rfl
@[simp] theorem State.send_segs (e : Outgoing) : (s.send e).segs = s.segs := rfl
@[simp] theorem State.send_occasions (e : Outgoing) : (s.send e).occasions = s.occasions := rfl
@[simp] theorem State.send_pending (e : Outgoing) : (s.send e).pending = s.pending := rfl

/-! ### withPending -/

@[simp] theorem State.withPending_pins (queue : List Instr) : (s.withPending queue).pins = s.pins := rfl
@[simp] theorem State.withPending_port (queue : List Instr) : (s.withPending queue).port = s.port := rfl
@[simp] theorem State.withPending_buffer (queue : List Instr) : (s.withPending queue).buffer = s.buffer := rfl
@[simp] theorem State.withPending_clock (queue : List Instr) : (s.withPending queue).clock = s.clock := rfl
@[simp] theorem State.withPending_windowOpen (queue : List Instr) : (s.withPending queue).windowOpen = s.windowOpen := rfl
@[simp] theorem State.withPending_bank (queue : List Instr) : (s.withPending queue).bank = s.bank := rfl
@[simp] theorem State.withPending_agent (queue : List Instr) : (s.withPending queue).agent = s.agent := rfl
@[simp] theorem State.withPending_reports (queue : List Instr) : (s.withPending queue).reports = s.reports := rfl
@[simp] theorem State.withPending_counters (queue : List Instr) : (s.withPending queue).counters = s.counters := rfl
@[simp] theorem State.withPending_segs (queue : List Instr) : (s.withPending queue).segs = s.segs := rfl
@[simp] theorem State.withPending_occasions (queue : List Instr) : (s.withPending queue).occasions = s.occasions := rfl

end Sys2Proof.Machine
end

