-- ==== Sys2Proof/Laws/Ops.lean ====
section
/-! SUPPORT. What each shared operation can do, said once: its result as one explicit update, or the
condition its test stands for. -/

namespace Sys2Proof.Machine

open Sys2Proof.Safety

variable {s : State}

/-! ### Running and time -/

theorem running_of_no_hold (h : s.pins.hold = none) : s.running = true := by
  simp [State.running, h]

theorem whileRunning_of_no_hold (effect : State → State) (h : s.pins.hold = none) :
    whileRunning effect s = .next (effect s) := by
  simp [whileRunning, running_of_no_hold h]

theorem whileRunning_of_hold (effect : State → State) (h : s.pins.hold.isSome = true) :
    whileRunning effect s = .next s := by
  have hr : s.running = false := by
    cases hh : s.pins.hold <;> simp_all [State.running]
  simp [whileRunning, hr]

/-! ### Segments -/

theorem setSeg_eq (g : Seg) (x : Segment) : s.setSeg g x = { s with segs := put s.segs g x } := rfl

@[simp] theorem put_same {α : Type} {n : Nat} (v : Vector α n) (i : Fin n) (x : α) :
    (put v i x)[i] = x := by
  simp [put]

theorem put_other {α : Type} {n : Nat} (v : Vector α n) (i j : Fin n) (x : α) (h : j ≠ i) :
    (put v i x)[j] = v[j] := by
  have : i.val ≠ j.val := fun e => h (Fin.ext e.symm)
  simp [put, this]

theorem put_get {α : Type} {n : Nat} (v : Vector α n) (i : Fin n) : put v i v[i] = v := by
  simp [put]

theorem put_put {α : Type} {n : Nat} (v : Vector α n) (i : Fin n) (x y : α) :
    put (put v i x) i y = put v i y := by
  simp [put, Vector.set_set]

@[simp] theorem seg_setSeg_same (g : Seg) (x : Segment) : (s.setSeg g x).seg g = x :=
  put_same s.segs g x

theorem seg_setSeg_other (g h : Seg) (x : Segment) (ne : h ≠ g) :
    (s.setSeg g x).seg h = s.seg h :=
  put_other s.segs g h x ne

/-! ### Slots -/

theorem setSlot_eq (n : SlotNo) (x : Option Slot) :
    s.setSlot n x = { s with buffer.slots := put s.buffer.slots n x } := rfl

@[simp] theorem slot_setSlot_same (n : SlotNo) (x : Option Slot) : (s.setSlot n x).slot n = x :=
  put_same s.buffer.slots n x

theorem slot_setSlot_other (n m : SlotNo) (x : Option Slot) (ne : m ≠ n) :
    (s.setSlot n x).slot m = s.slot m :=
  put_other s.buffer.slots n m x ne

@[simp] theorem slot_modifySlot_same (n : SlotNo) (f : Slot → Slot) :
    (s.modifySlot n f).slot n = (s.slot n).map f :=
  slot_setSlot_same n _

theorem slot_modifySlot_other (n m : SlotNo) (f : Slot → Slot) (ne : m ≠ n) :
    (s.modifySlot n f).slot m = s.slot m :=
  slot_setSlot_other n m _ ne

theorem allocate_eq (n : SlotNo) (record : Intake → Slot) :
    s.allocate n record = { s with
      buffer.slots := put s.buffer.slots n (some (record (s.buffer.intakeCounter + 1)))
      buffer.intakeCounter := s.buffer.intakeCounter + 1 } := rfl

theorem inUse_eq : s.inUse = inUseCount s := by
  simp [State.inUse, inUseCount, List.countP_eq_length_filter]

theorem pairHeld_iff (source : Addr) (seq : Byte) :
    s.pairHeld source seq = false ↔ pairFree s source seq := by
  unfold State.pairHeld pairFree
  rw [List.any_eq_false]
  constructor
  · intro h n r hr
    have := h n (List.mem_finRange n)
    simp only [State.slot, hr] at this
    simpa using this
  · intro h n _
    cases hr : s.slot n with
    | none => simp
    | some r => simpa using h n r hr

theorem mem_freeList (n : SlotNo) : n ∈ s.freeList ↔ s.buffer.slots[n] = none := by
  simp [State.freeList, State.slot]

theorem freeList_nil_iff : s.freeList = [] ↔ ∀ n : SlotNo, s.buffer.slots[n].isSome = true := by
  rw [List.eq_nil_iff_forall_not_mem]
  refine forall_congr' fun n => ?_
  rw [mem_freeList, Option.isSome_iff_ne_none]

/-! ### Counters and occasions -/

theorem count_eq (c : CounterId) : s.count c = { s with counters := bump s.counters c 1 } := by
  simp [State.count, State.countBy, bump, put, raised, saturatingAdd, Config.saturation]

theorem bump_other (counters : Vector Nat 56) (c d : CounterId) (n : Nat) (ne : d ≠ c) :
    (bump counters c n)[d] = counters[d] :=
  put_other counters c d _ ne

theorem bump_same (counters : Vector Nat 56) (c : CounterId) (n : Nat) :
    (bump counters c n)[c] = raised counters[c] n :=
  put_same counters c _

theorem oweTake_eq : s.oweTake = { s with occasions := s.occasions ++ takeOwed s } := by
  cases h : s.port.transmitter <;>
    simp [State.oweTake, State.transmitterIdle, takeOwed, h, State.owe]

/-! ### Notices and occupancy -/

theorem queueNotice_eq (kind : NoticeKind) :
    ∃ occ, s.queueNotice kind = { noticed s kind with occasions := occ } := by
  by_cases h : s.reports.noticeQueue.length < 4
  · refine ⟨s.occasions ++ takeOwed s, ?_⟩
    simp [State.queueNotice, noticed, h, Config.noticeQueueSize, oweTake_eq, takeOwed]
  · refine ⟨s.occasions, ?_⟩
    simp [State.queueNotice, noticed, h, Config.noticeQueueSize, count_eq]

theorem checkClear_eq :
    ∃ occ, s.checkClear = { (if s.buffer.storeHigh = true ∧ inUseCount s ≤ 192 then
      noticed { s with buffer.storeHigh := false } (.storeClear (inUseCount s)) else s) with
        occasions := occ } := by
  unfold State.checkClear
  rw [inUse_eq, show Config.storeClearLevel = 192 from rfl]
  split
  · exact queueNotice_eq _
  · exact ⟨s.occasions, rfl⟩

theorem checkHigh_eq :
    ∃ occ, s.checkHigh = { (if s.buffer.storeHigh = false ∧ 224 ≤ inUseCount s then
      noticed { s with buffer.storeHigh := true } (.storeHigh (inUseCount s)) else s) with
        occasions := occ } := by
  unfold State.checkHigh
  rw [inUse_eq, show Config.storeHighLevel = 224 from rfl]
  split
  · exact queueNotice_eq _
  · exact ⟨s.occasions, rfl⟩

/-! ### Open classes and eligible slots -/

theorem classOpen_iff (c : ClassNo) : s.classOpen c = true ↔ isOpen s c := by
  unfold State.classOpen isOpen State.livePolicy
  cases s.bank.active.classes[c] <;> simp

theorem eligible_iff (n : SlotNo) : s.eligible n = true ↔ eligibleSlot s n := by
  unfold State.eligible eligibleSlot State.slot
  cases s.buffer.slots[n] <;> simp [classOpen_iff]

/-! ### Evaluations -/

theorem computedWindows_eq : s.computedWindows = windowsAt s.bank.active s.clock.record := by
  unfold State.computedWindows windowsAt
  rfl

theorem evaluateWindows_eq :
    s.evaluateWindows = { s with
      windowOpen := windowsAt s.bank.active s.clock.record
      occasions := s.occasions ++
        if opens s.windowOpen (windowsAt s.bank.active s.clock.record) then examinations else [] } := by
  have h : s.hasOpening = opens s.windowOpen (windowsAt s.bank.active s.clock.record) := by
    simp only [State.hasOpening, computedWindows_eq, opens]
  unfold State.evaluateWindows
  rw [h, computedWindows_eq]
  cases opens s.windowOpen (windowsAt s.bank.active s.clock.record) <;>
    simp [State.oweExaminations, State.owe, examinations]

/-! ### Routes -/

theorem routeOf_none_iff (a : Addr) : s.bank.active.routeOf a = none ↔ unrouted s a := by
  unfold Tables.routeOf unrouted
  rw [List.findSome?_eq_none_iff]
  constructor
  · intro h i r hr hin
    have := h _ (Array.getElem_mem_toList (xs := s.bank.active.routes.toArray) (i := i.val) (by simp))
    have hr' : s.bank.active.routes[i.val] = some r := hr
    simp [hr', BitVec.le_def, hin] at this
  · intro h e he
    obtain ⟨i, hi, rfl⟩ := List.getElem_of_mem he
    cases hr : s.bank.active.routes.toList[i] with
    | none => rfl
    | some r =>
      have hi' : i < 64 := by simpa using hi
      have := h ⟨i, hi'⟩ r (by simpa using hr)
      simp only [BitVec.le_def]
      rw [if_neg this]

/-! ### DEFERRED, the queues and the Backlog -/

theorem leaveDeferred_eq (r : Slot) (uptime : Nat) :
    r.leaveDeferred uptime = leftDeferred uptime r := by
  cases h : r.deferral <;> simp [Slot.leaveDeferred, leftDeferred, h, Config.maxDeferredSeconds]

theorem leaveDeferralQueue_eq (g : Seg) (n : SlotNo) :
    s.leaveDeferralQueue g n = { s with
      segs := put s.segs g { s.segs[g] with deferralQueue := s.segs[g].deferralQueue.erase n }
      buffer.slots := put s.buffer.slots n
        (s.buffer.slots[n].map fun r => r.leaveDeferred s.clock.uptime) } := rfl

theorem leaveSendQueue_eq (g : Seg) (n : SlotNo) :
    s.leaveSendQueue g n = { s with
      segs := put s.segs g { s.segs[g] with sendQueue := s.segs[g].sendQueue.erase n }
      occasions := s.occasions ++ [.examination g] } := rfl

theorem joinFresh_eq (g : Seg) (n : SlotNo) :
    s.joinFresh g n = { s with
      segs := put s.segs g { s.segs[g] with
        sendQueue := s.insertFresh s.segs[g].sendQueue n (s.priorityOf n) }
      occasions := s.occasions ++ [.startWalk g] } := rfl

theorem joinReentry_eq (g : Seg) (n : SlotNo) :
    s.joinReentry g n = { s with
      segs := put s.segs g { s.segs[g] with
        sendQueue := s.insertReentry s.segs[g].sendQueue n (s.priorityOf n) }
      occasions := s.occasions ++ [.startWalk g] } := rfl

theorem deferAtBack_eq (g : Seg) (n : SlotNo) (reason : DeferralReason) :
    s.deferAtBack g n reason = { s with
      segs := put s.segs g { s.segs[g] with deferralQueue := s.segs[g].deferralQueue ++ [n] }
      buffer.slots := put s.buffer.slots n
        (s.buffer.slots[n].map fun r => r.enterDeferred reason s.clock.uptime)
      occasions := s.occasions ++ [.examination g] } := rfl

theorem enterQuiet_eq (g : Seg) :
    s.enterQuiet g = { s with
      segs := put s.segs g { s.segs[g] with
        transceiver := .quiet (s.pins.now + s.segs[g].profile.quietGap * 288000) } } := rfl

theorem retire_eq (g : Seg) (e : Outstanding) (reason : RetireReason) :
    s.retire g e reason = { s with
      segs := put s.segs g { s.segs[g] with
        outstanding := s.segs[g].outstanding.erase e
        ring := pushRing s.segs[g].ring
          { tag := e.tag, device := e.device, slot := e.slot, intake := s.intakeOf e.slot,
            reason := reason } }
      occasions := s.occasions ++ [.startWalk g] } := rfl

theorem pushRing_eq (ring : List Retired) (x : Retired) (h : ring.length ≤ 8) :
    pushRing ring x = (if ring.length = 8 then ring.drop 1 else ring) ++ [x] := by
  unfold pushRing
  have : Config.ringSize = 8 := rfl
  rw [List.length_append, List.length_singleton, this]
  split
  · next h8 => rw [h8, List.drop_append_of_le_length (by omega)]
  · rw [show ring.length + 1 - 8 = 0 by omega, List.drop_zero]

theorem report_eq (n : SlotNo) (outcome : ReportOutcome) (answer : Option AnswerPart) :
    s.report n outcome answer = { s with
      buffer.slots := put s.buffer.slots n (s.buffer.slots[n].map (finished outcome answer))
      reports.backlog := s.reports.backlog ++ [n]
      counters := bump s.counters outcome.counter 1
      occasions := s.occasions ++ [.formation] } := by
  simp only [State.report, count_eq]
  rfl

theorem insertFresh_of_splits {queue higher lower : List SlotNo} {p : Fin 4} (n : SlotNo)
    (h : splitsAt s queue higher lower p) : s.insertFresh queue n p = higher ++ n :: lower := by
  obtain ⟨rfl, hh, hl⟩ := h
  have h1 : ∀ m ∈ higher, decide (p ≤ s.priorityOf m) = true := by
    intro m hm
    obtain ⟨x, hx, hp⟩ := hh m hm
    have : s.slot m = some x := hx
    simp [State.priorityOf, this, hp]
  have h2 : ∀ m ∈ lower, decide (p ≤ s.priorityOf m) = false := by
    intro m hm
    obtain ⟨x, hx, hp⟩ := hl m hm
    have : s.slot m = some x := hx
    simp [State.priorityOf, this, hp]
  unfold State.insertFresh
  rw [List.takeWhile_append_of_pos h1, List.dropWhile_append_of_pos h1]
  cases lower with
  | nil => simp
  | cons m rest => simp [h2 m (by simp)]

theorem insertReentry_of_splits {queue higher lower : List SlotNo} {p : Fin 4} (n : SlotNo)
    (h : splitsAbove s queue higher lower p) : s.insertReentry queue n p = higher ++ n :: lower := by
  obtain ⟨rfl, hh, hl⟩ := h
  have h1 : ∀ m ∈ higher, decide (p < s.priorityOf m) = true := by
    intro m hm
    obtain ⟨x, hx, hp⟩ := hh m hm
    have : s.slot m = some x := hx
    simp [State.priorityOf, this, hp]
  have h2 : ∀ m ∈ lower, decide (p < s.priorityOf m) = false := by
    intro m hm
    obtain ⟨x, hx, hp⟩ := hl m hm
    have : s.slot m = some x := hx
    simp [State.priorityOf, this, hp]
  unfold State.insertReentry
  rw [List.takeWhile_append_of_pos h1, List.dropWhile_append_of_pos h1]
  cases lower with
  | nil => simp
  | cons m rest => simp [h2 m (by simp)]

/-! ### The segment line -/

theorem sum_joinPulse (x : Pulse) (rest : List Pulse) :
    ((joinPulse x rest).map Pulse.micros).sum = x.micros + (rest.map Pulse.micros).sum := by
  cases rest with
  | nil => simp [joinPulse]
  | cons y rest =>
    by_cases h : x.reading = y.reading <;> simp [joinPulse, h, Nat.add_assoc]

/-- Joining conditions of one reading keeps the time they last. -/
theorem sum_pulses (p : Profile) (line : List LineSpan) :
    ((p.pulses line).map Pulse.micros).sum = (line.map LineSpan.micros).sum := by
  induction line with
  | nil => rfl
  | cons x rest ih =>
    have e : p.pulses (x :: rest) =
        joinPulse { reading := p.reads x.wire, micros := x.micros } (p.pulses rest) := rfl
    rw [e, sum_joinPulse, ih]
    simp

theorem joinPulse_ne_nil (x : Pulse) (rest : List Pulse) : joinPulse x rest ≠ [] := by
  cases rest with
  | nil => simp [joinPulse]
  | cons y rest => by_cases h : x.reading = y.reading <;> simp [joinPulse, h]

theorem joinPulse_append (x l : Pulse) (rest : List Pulse)
    (h : rest = [] → x.reading ≠ l.reading) :
    joinPulse x (rest ++ [l]) = joinPulse x rest ++ [l] := by
  cases rest with
  | nil => simp [joinPulse, h rfl]
  | cons y rest =>
    simp only [joinPulse, List.cons_append]
    split <;> simp

/-- A condition read otherwise than the one before it is a pulse of its own. -/
theorem pulses_append (p : Profile) (before : List LineSpan) (w : Wire) (micros : Nat)
    (h : ∀ x : LineSpan, before.getLast? = some x → p.reads x.wire ≠ p.reads w) :
    p.pulses (before ++ [{ wire := w, micros := micros }]) =
      p.pulses before ++ [{ reading := p.reads w, micros := micros }] := by
  induction before with
  | nil => rfl
  | cons x rest ih =>
    have e : ∀ l : List LineSpan, p.pulses (x :: l) =
        joinPulse { reading := p.reads x.wire, micros := x.micros } (p.pulses l) := fun _ => rfl
    cases rest with
    | nil =>
      rw [List.cons_append, e, e, ih (by simp)]
      exact joinPulse_append _ _ _ fun _ => h x rfl
    | cons y more =>
      rw [List.cons_append, e, e, ih fun z hz => h z (by simpa using hz)]
      refine joinPulse_append _ _ _ fun hn => absurd hn ?_
      exact joinPulse_ne_nil _ _

/-- What a stuck line is, when the last condition is read otherwise than the one before it: it is no
IDLE and has lasted for 1 s; it began when the others ended. -/
theorem stuckSince_append (p : Profile) (before : List LineSpan) (w : Wire) (micros : Nat)
    (h : ∀ x : LineSpan, before.getLast? = some x → p.reads x.wire ≠ p.reads w) :
    p.stuckSince (before ++ [{ wire := w, micros := micros }]) =
      if p.isActivity w = true ∧ 1000000 ≤ micros then some (before.map LineSpan.micros).sum
      else none := by
  unfold Profile.stuckSince
  rw [pulses_append p before w micros h]
  simp only [List.getLast?_append, List.getLast?_singleton, Option.some_or, List.dropLast_concat,
    sum_pulses, Profile.isActivity, Bool.not_eq_true', stuckMicros]

/-- Stretches of one reading are one pulse (R98). -/
theorem pulses_join (p : Profile) (before after : List LineSpan) (x y : LineSpan)
    (h : p.reads x.wire = p.reads y.wire) :
    p.pulses (before ++ x :: y :: after) =
      p.pulses (before ++ { wire := x.wire, micros := x.micros + y.micros } :: after) := by
  have one : ∀ rest : List Pulse,
      joinPulse { reading := p.reads x.wire, micros := x.micros }
        (joinPulse { reading := p.reads y.wire, micros := y.micros } rest) =
      joinPulse { reading := p.reads x.wire, micros := x.micros + y.micros } rest := by
    intro rest
    rw [h]
    cases rest with
    | nil => simp [joinPulse]
    | cons z rest => by_cases e : p.reads y.wire = z.reading <;> simp [joinPulse, e, Nat.add_assoc]
  simp only [Profile.pulses, List.foldr_append, List.foldr_cons, one]

/-- The tolerance of R98 as a test. -/
theorem inTolerance_iff (p : Profile) (micros n : Nat) :
    p.inTolerance micros n = true ↔ within p micros n := by
  simp [Profile.inTolerance, within]

/-- A bit mark judged as R98 says. -/
theorem judgeBit_iff (p : Profile) (micros : Nat) (bit : Bool) :
    p.judgeBit micros = some bit ↔ judgedAs p micros bit := by
  unfold Profile.judgeBit judgedAs
  rw [← inTolerance_iff]
  cases bit <;> simp only [markUnits] <;> split <;> simp_all

/-- What a valid profile drives is read back as what it is (R90, R95). -/
theorem reads_drives (p : Profile) (valid : p.isValid = true) :
    p.reads (p.drives true) = .mark ∧ p.reads (p.drives false) = .space := by
  have near : ∀ n, withinPeriod (1000 * n) n = true := fun n => by simp [withinPeriod, distance]
  cases hm : p.mode with
  | baseband => simp [Profile.reads, Profile.drives, hm]
  | carrier => simp [Profile.reads, Profile.drives, hm, near]
  | shift =>
    have ne : p.p1 ≠ p.p2 := by
      simp only [Profile.isValid, hm, Bool.and_eq_true, decide_eq_true_eq] at valid
      exact valid.2.1
    constructor
    · simp only [Profile.reads, Profile.drives, hm, readShiftCarrier, near, Bool.true_and]
      have : distance (1000 * p.p1) (1000 * p.p1) < distance (1000 * p.p1) (1000 * p.p2) := by
        unfold distance; omega
      simp [this]
    · simp only [Profile.reads, Profile.drives, hm, readShiftCarrier, near, Bool.and_true]
      have h1 : ¬ distance (1000 * p.p2) (1000 * p.p1) < distance (1000 * p.p2) (1000 * p.p2) := by
        unfold distance; omega
      have h2 : distance (1000 * p.p2) (1000 * p.p2) < distance (1000 * p.p2) (1000 * p.p1) := by
        unfold distance; omega
      by_cases hw : withinPeriod (1000 * p.p2) p.p1 = true <;> simp [hw, h1, h2]

/-! ### The start walk -/

theorem mayStart_of_heldBack (g : Seg) (n : SlotNo) (r : Slot) (h : heldBack s g n)
    (hr : s.slot n = some r) : s.mayStart g r = false := by
  obtain ⟨x, hx, expected, full⟩ := h
  obtain rfl := Option.some.inj (hx.symm.trans hr)
  have : ¬ (s.seg g).outstanding.length < Config.outstandingSize := Nat.not_lt.2 full
  simp [State.mayStart, expected, this]

/-- A walk passes over the entries that the outstanding limit holds back (R76). -/
theorem walkFrom_heldBack (g : Seg) (before rest : List SlotNo) (h : ∀ m ∈ before, heldBack s g m) :
    State.walkFrom g (before ++ rest) s = State.walkFrom g rest s := by
  induction before with
  | nil => rfl
  | cons m more ih =>
    have hm := h m (by simp)
    obtain ⟨x, hx, _⟩ := id hm
    have hx' : s.slot m = some x := hx
    rw [List.cons_append, State.walkFrom]
    simp only [hx', mayStart_of_heldBack g m x hm hx', Bool.false_eq_true, if_false]
    exact ih fun k hk => h k (by simp [hk])

/-! ### Line tags -/

theorem nextFreeTag_eq (taken : List Byte) (fuel k : Nat) (t : Byte) (hk : k < fuel)
    (below : ∀ j < k, t + 1 + BitVec.ofNat 8 j ∈ taken)
    (free : t + 1 + BitVec.ofNat 8 k ∉ taken) :
    nextFreeTag taken fuel t = t + 1 + BitVec.ofNat 8 k := by
  induction fuel generalizing k t with
  | zero => omega
  | succ fuel ih =>
    cases k with
    | zero => simp_all [nextFreeTag]
    | succ k =>
      have h0 : t + 1 ∈ taken := by simpa using below 0 (by omega)
      have e : ∀ j : Nat, t + 1 + 1 + BitVec.ofNat 8 j = t + 1 + BitVec.ofNat 8 (j + 1) := by
        intro j
        rw [BitVec.ofNat_add, BitVec.add_assoc, BitVec.add_comm (BitVec.ofNat 8 j)]
        rfl
      rw [nextFreeTag, if_pos h0, ← e]
      refine ih k (t + 1) (by omega) (fun j hj => ?_) ?_
      · rw [e]; exact below (j + 1) (by omega)
      · rw [e]; exact free

/-! ### Requests -/

theorem respond_eq (r : Request) (code : Byte) (status : Status) (result : List Byte) :
    s.frameTaken.respond code r status result = answered s r code status result := by
  simp [State.respond, State.pushResponse, oweTake_eq, State.frameTaken, answered, takeOwed]

theorem responseRoom_eq :
    s.responseRoom = decide (s.reports.responseQueue.length + heldPlace s < 4) := by
  have : (if s.validating then 1 else 0) = heldPlace s := by
    cases h : s.agent.commit <;> simp [State.validating, heldPlace, h]
  rw [← this]
  rfl

theorem mayWrite_iff (a : Addr) :
    s.mayWrite a = true ↔ s.agent.managers = [] ∨ a ∈ s.agent.managers := by
  simp [State.mayWrite]

theorem validating_iff : s.validating = true ↔ s.agent.commit ≠ .idle := by
  cases h : s.agent.commit <;> simp [State.validating, h]

/-- A request that passes steps 1 to 6 of R130 ends as its own checks and effect say. -/
theorem takeRequest_of_accepts {r : Request} {write barred : Bool} (h : Accepts s r write barred)
    (code : Byte) (own : State → Verdict) :
    s.frameTaken.takeRequest { code := code, lengthOk := true, write := write, barred := barred } r
        own =
      match own s.frameTaken with
      | .fail status => s.frameTaken.respond code r status []
      | .done result after consequence => consequence (after.respond code r .ok result)
      | .started after => after := by
  obtain ⟨_, room, source, restart, allowed, notBarred⟩ := h
  have e1 : s.frameTaken.responseRoom = true := by
    rw [responseRoom_eq, decide_eq_true_eq]
    exact room
  have e2 : ¬ (r.source = 0 ∨ r.source = s.frameTaken.ownAddress) := by
    rintro (h | h)
    · exact source.1 h
    · exact source.2 h
  have e5 : ¬ (write = true ∧ ¬ s.frameTaken.mayWrite r.source = true) := by
    rintro ⟨hw, h⟩
    exact h ((mayWrite_iff _).2 (allowed hw))
  have e6 : ¬ (barred = true ∧ s.frameTaken.validating = true) := by
    rintro ⟨hw, h⟩
    exact validating_iff.1 h (notBarred hw)
  simp only [State.takeRequest, e1, not_true_eq_false, if_false, if_neg e2, State.frameTaken_agent,
    restart, State.carryOut, if_neg e5, if_neg e6, Bool.false_eq_true]
  all_goals rfl

/-! ### Codes and the trunk line -/

@[simp] theorem outcomeCode_eq (o : ReportOutcome) : o.code = outcomeCode o := by cases o <;> rfl

@[simp] theorem statusCode_eq (x : Status) : x.code = statusCode x := by cases x <;> rfl

@[simp] theorem tableCode_eq (x : TableName) : x.code = tableCode x := by cases x <;> rfl

@[simp] theorem reasonCode_eq (x : CommitReason) : x.code = reasonCode x := by cases x <;> rfl

/-- The bit-time of each RATE value is that of its rate (R156). -/
theorem bitTime_eq : Config.bitTime s.pins.latched.rate = trunkBitTime s := by
  have : ∀ rate : BitVec 3, Config.bitTime rate = 288000000 / trunkRate rate := by decide
  exact this _

theorem byteBits_length (b : Byte) : (byteBits b).length = 10 := by
  simp [byteBits, bitsOf]

theorem frameBits_length (frame : List Byte) : (frameBits frame).length = 10 * frame.length := by
  induction frame with
  | nil => rfl
  | cons b rest ih =>
    have : frameBits (b :: rest) = byteBits b ++ frameBits rest := rfl
    rw [this, List.length_append, byteBits_length, ih, List.length_cons]
    omega

/-- The bits of a frame are those of its bytes in turn (R159). -/
theorem frameBits_get (frame : List Byte) (i k : Nat) (b : Byte) (hb : frame[i]? = some b)
    (hk : k < 10) : (frameBits frame)[10 * i + k]? = (byteBits b)[k]? := by
  induction frame generalizing i with
  | nil => cases hb
  | cons c rest ih =>
    have split : frameBits (c :: rest) = byteBits c ++ frameBits rest := rfl
    rw [split]
    cases i with
    | zero =>
      obtain rfl := Option.some.inj hb
      rw [List.getElem?_append_left (by rw [byteBits_length]; omega)]
      congr 1
      omega
    | succ i =>
      rw [List.getElem?_append_right (by rw [byteBits_length]; omega), byteBits_length,
        show 10 * (i + 1) + k - 10 = 10 * i + k by omega]
      exact ih i (by simpa using hb)

/-- With nothing to send, TTX is at the level of a stop bit (R159). -/
theorem ttxOut_idle (instant : Nat) (h : s.port.transmitter = .idle) : s.ttxOut instant = .stop := by
  unfold State.ttxOut
  rw [h]
  split <;> simp_all

end Sys2Proof.Machine
end

