-- ==== Sys2Proof/WellFormed.lean ====
section
/-! DEFINITION. Which terms of `Instr` stand for something that can reach the part. -/

namespace Sys2Proof

/-- A carrier has a period. -/
def Wire.wellFormed : Wire → Bool
  | .undriven => true
  | .steady => true
  | .carrier periodNs => 0 < periodNs

/-- A measured condition lasts. -/
def LineSpan.wellFormed (x : LineSpan) : Bool :=
  x.wire.wellFormed && 0 < x.micros

/-- The parameter block of a request whose frame passed the length byte test of R157: at most
71 - 7 - 1 bytes. -/
def Request.wellFormed (r : Request) : Bool :=
  r.params.length ≤ 63

/-- A frame the assembler of R157 completes: a length byte L of 7 to 71, L bytes, and two CRC bytes. -/
def frameWellFormed : List Byte → Bool
  | [] => false
  | l :: rest => 7 ≤ l.toNat && l.toNat ≤ 71 && rest.length == l.toNat + 2

/-- The request codes of R162. -/
def knownRequestCode (code : Byte) : Bool :=
  1 ≤ code.toNat && code.toNat ≤ 0x15

/-- The payload of an UNKNOWN_REQUEST: empty, or opening with a code that R162 does not list. -/
def unknownPayloadWellFormed : List Byte → Bool
  | [] => true
  | code :: params => !knownRequestCode code && params.length ≤ 63

namespace Instr

/-- The operands are ones the command can carry. -/
def wellFormed : Instr → Bool
  | .admission t => t.payload.length ≤ Config.maxPayload
  | .trunkFrameDiscarded frame => frameWellFormed frame
  | .gapTimeout => true
  | .byteFramingError => true
  | .unknownRequest _ _ payload => unknownPayloadWellFormed payload
  | .readStatus r => r.wellFormed
  | .readClock r => r.wellFormed
  | .setClock r => r.wellFormed
  | .adjustClock r => r.wellFormed
  | .readEntry r => r.wellFormed
  | .writeEntry r => r.wellFormed
  | .copyActive r => r.wellFormed
  | .discardStaging r => r.wellFormed
  | .commit r => r.wellFormed
  | .commitEnd => true
  | .setProfile r => r.wellFormed
  | .readProfile r => r.wellFormed
  | .setPacing r => r.wellFormed
  | .holdSegment r => r.wellFormed
  | .resumeSegment r => r.wellFormed
  | .purge r => r.wellFormed
  | .readQueue r => r.wellFormed
  | .readCounters r => r.wellFormed
  | .setNoticeAddress r => r.wellFormed
  | .setManagers r => r.wellFormed
  | .flush r => r.wellFormed
  | .restart r => r.wellFormed
  | .secondEdge => true
  | .expiryCheck _ => true
  | .examination _ => true
  | .pacerGapEnd _ => true
  | .startWalk _ => true
  | .conflictAbort _ sampleUnit sensed => 0 < sampleUnit && sensed.wellFormed
  | .transmissionEnd _ => true
  | .quietGapEnd _ => true
  | .lineActivity _ sensed => sensed.wellFormed
  | .stuckLine record => record.spans.all LineSpan.wellFormed
  | .receptionEnd _ line => line.all LineSpan.wellFormed
  | .answerTimerExpiry _ _ => true
  | .reportFormation => true
  | .arbiterTake => true
  | .trunkTransmissionEnd _ => true
  | .supplyFall => true
  | .powerOnHoldEnd _ => true
  | .rstNLow => true
  | .rstNHigh _ => true
  | .byteReceived _ => true
  | .supplyRise => true

end Instr

end Sys2Proof
end

