-- ==== Sys2Proof/Tests/Slice0.lean ====
section
/-! SUPPORT. Tests of single steps against the examples of spec/, the smoke test of WellFormed, and for
every statement with hypotheses a witness: a state and operands that meet them. Where a hypothesis of a
statement only names a value (`t = …`), the witness leaves it out. -/

namespace Sys2Proof.Tests

open Sys2Proof.Machine Sys2Proof.Safety Sys2Proof.Laws

-- One theorem at a time: with all of them waiting for the kernel at once, their stacks fill the memory.
set_option Elab.async false

/-! ### WellFormed refuses an ill-formed term -/

theorem test_wf_long_payload :
    Instr.wellFormed (.admission
      { source := 1, seq := 0, cls := 0, destination := 2, payload := List.replicate 49 0 }) = false := by
  decide

theorem test_wf_short_frame : Instr.wellFormed (.trunkFrameDiscarded [6, 1, 2, 3, 4, 5, 6, 7, 8]) = false := by
  decide

theorem test_wf_long_frame :
    Instr.wellFormed (.trunkFrameDiscarded (72 :: List.replicate 74 0)) = false := by
  decide

theorem test_wf_frame_length : Instr.wellFormed (.trunkFrameDiscarded (7 :: List.replicate 8 0)) = false := by
  decide

theorem test_wf_long_params :
    Instr.wellFormed (.readClock { source := 1, seq := 0, params := List.replicate 64 0 }) = false := by
  decide

theorem test_wf_known_code : Instr.wellFormed (.unknownRequest 1 0 [0x15]) = false := by
  decide

theorem test_wf_unknown_code_length :
    Instr.wellFormed (.unknownRequest 1 0 (0x16 :: List.replicate 64 0)) = false := by
  decide

theorem test_wf_sample_unit : Instr.wellFormed (.conflictAbort 0 0 .steady) = false := by
  decide

theorem test_wf_carrier : Instr.wellFormed (.lineActivity 0 (.carrier 0)) = false := by
  decide

theorem test_wf_span : Instr.wellFormed (.receptionEnd 0 [{ wire := .steady, micros := 0 }]) = false := by
  decide

theorem test_wf_stuck_span :
    Instr.wellFormed (.stuckLine { segment := 0, spans := [{ wire := .carrier 0, micros := 1 }] }) = false := by
  decide

theorem test_wf_accepts : Instr.wellFormed (.conflictAbort 0 1 (.carrier 26000)) = true := by
  decide

/-! ### Values the spec gives -/

/-- Section 11.2: the CRC of the digits 1 to 9. -/
theorem test_crc : crc16 [0x31, 0x32, 0x33, 0x34, 0x35, 0x36, 0x37, 0x38, 0x39] = 0x29B1 := by
  decide +kernel

/-- Section 11.5.1: the response to a RESTART with sequence 40, from address 4083 to 12. -/
theorem test_restart_response_frame :
    trunkFrame (trunkBody 4 12 4083 40 0 [0x14, 0]) =
      (Outgoing.response
        { destination := 12, seq := 40, code := 0x14, status := .ok, result := [] }).frame 4083 ∧
    (trunkFrame (trunkBody 4 12 4083 40 0 [0x14, 0])).length = 13 := by
  decide +kernel

/-- Section 11.5.1: the payload of the STARTED notice. -/
theorem test_started_payload :
    (NoticeKind.started .restart 4083).payload = [1, 3, 0x0F, 0xF3, 0x3C, 0x64, 2] := by
  decide

/-- A clock time. -/
def at_ (year month day hour minute second : Nat) : Calendar :=
  { date := { year := year, month := month, day := day },
    time := { hour := hour, minute := minute, second := second } }

/-- Section 3.2.1: the ticks into a leap day and around the century. -/
theorem test_tick_leap :
    (at_ 32 2 28 23 59 59).tick = at_ 32 2 29 0 0 0 ∧ (at_ 32 2 29 0 0 0).date.weekday = 0 := by
  decide

theorem test_tick_century :
    (at_ 99 12 31 23 59 59).tick = at_ 0 1 1 0 0 0 ∧ (at_ 99 12 31 0 0 0).date.weekday = 4 ∧
      (at_ 0 1 1 0 0 0).date.weekday = 6 := by
  decide

/-- Section 3.8.2: the adjustments around the century. -/
theorem test_adjust_forward :
    (at_ 99 12 31 23 45 0).adjust 1800 =
      (at_ 0 1 1 0 15 0, { dayCarry := true, dayBorrow := false, centuryWrap := true }) := by
  decide

theorem test_adjust_back :
    (at_ 0 1 1 0 15 0).adjust (-1800) =
      (at_ 99 12 31 23 45 0, { dayCarry := false, dayBorrow := true, centuryWrap := true }) := by
  decide

/-- Section 3.8.1: W5, Fridays 22:00:00 to 06:00:00. -/
def w5 : Window :=
  { dayMask := 0b0100000, start := { hour := 22, minute := 0, second := 0 },
    stop := { hour := 6, minute := 0, second := 0 } }

theorem test_w5_saturday_morning : windowStateAt (some w5) (some (at_ 31 11 8 1 30 0)) = true := by
  decide

theorem test_w5_before_friday : windowStateAt (some w5) (some (at_ 31 11 7 21 59 59)) = false := by
  decide

theorem test_w5_after_wrap : windowStateAt (some w5) (some (at_ 0 1 1 0 0 0)) = false := by
  decide

/-- Section 3.8.3: W6, Mondays and Wednesdays 13:00:00 to 15:00:00, and the next openings. -/
def w6 : Window :=
  { dayMask := 0b0001010, start := { hour := 13, minute := 0, second := 0 },
    stop := { hour := 15, minute := 0, second := 0 } }

theorem test_next_opening :
    searchOpening [w5, w6] (at_ 31 11 9 10 0 0) [0, 1, 2, 3, 4, 5, 6, 7] =
      .on 1 1 { hour := 13, minute := 0, second := 0 } := by
  decide

/-- Section 5.3.1: the choice of a tag. -/
theorem test_tag_choice :
    nextFreeTag [254, 255, 0, 1, 2, 3, 4, 240, 246, 247, 249, 253] 256 1 = 5 := by
  decide

/-- Section 6.6: 14 one bits before the CRC, and 281 + 2k units in all. -/
theorem test_duration :
    let bytes := lineBytes 2210 0 5 1 [0x31, 0x02, 0, 0, 0, 0x28, 0, 0]
    let ones := fun l : List Byte =>
      (l.map fun b => ((List.range 8).filter fun i => b.getLsbD i).length).sum
    ones (bytes.take 14) = 14 ∧ bytes.length = 16 ∧
      Profile.atReset.duration bytes = (281 + 2 * ones bytes) * 500 * 288 := by
  decide +kernel

/-- Section 6.7: MARK sensed at the end of unit 21, in the leader space, is a conflict; at the end of
unit 16 it is none. -/
theorem test_echo :
    Profile.atReset.mismatch (lineBytes 2210 0 9 1 [1]) 21 .steady = true ∧
      Profile.atReset.mismatch (lineBytes 2210 0 9 1 [1]) 16 .steady = false := by
  decide

/-! ### Small states -/

/-- A policy of a small table. -/
def policy (windows : List WindowNo) (holdLimit : Nat) : ClassPolicy where
  windows := windows
  holdLimit := holdLimit
  priority := 1
  answerExpected := true
  retryLimit := 1
  answerTimeout := 5
  notifyOnDefer := true

/-- Class 0 is open; class 1 is closed while the clock is UNSET; classes 2 and 3 are the same with
hold limit 0. Route entry 3 gives devices 100 to 200 segment 0. -/
def tables : Tables where
  routes := put Tables.empty.routes 3 (some { first := 100, last := 200, segment := 0 })
  classes := put (put (put (put Tables.empty.classes 0 (some (policy [] 10))) 1
    (some (policy [0] 10))) 2 (some (policy [] 0))) 3 (some (policy [0] 0))
  windows := put Tables.empty.windows 0 (some w5)

/-- A slot record. -/
def entry (intake : Intake) (cls : ClassNo) : Slot where
  intake := intake
  source := 12
  seq := byteOf intake.toNat
  cls := cls
  device := 100
  payload := [1]
  segment := 0
  admittedAt := 0
  priority := 1
  answerExpected := true
  retryLimit := 1
  answerTimeoutMs := 50
  notifyOnDefer := false
  holdDeadline := 10
  attempts := 0
  deferredSeconds := 0
  deferral := none
  lineTag := none
  outcome := none
  answer := none

/-- A slot record in DEFERRED. -/
def waiting (intake : Intake) (cls : ClassNo) : Slot :=
  { entry intake cls with deferral := some { reason := .window, since := 0 } }

/-- A slot record in SENDING or AWAITING. -/
def tagged (intake : Intake) (tag : Byte) : Slot :=
  { entry intake 0 with attempts := 1, lineTag := some tag }

/-- Slots written in turn into an empty store. -/
def store (entries : List (SlotNo × Slot)) : Vector (Option Slot) 256 :=
  entries.foldl (fun v e => put v e.1 (some e.2)) (Vector.replicate 256 none)

/-- Segment 0 ACTIVE. -/
def active : Segment := { Segment.atReset with state := .active }

/-- A state with the small tables, slots, and a chain of segment 0. -/
def mk (entries : List (SlotNo × Slot)) (x : Segment) : State :=
  { State.reset with
    bank := { active := tables, staging := tables, generation := 1 }
    buffer := { slots := store entries, intakeCounter := 100, storeHigh := false }
    segs := put State.reset.segs 0 x }

/-- A state with no traffic. -/
def base : State := mk [] active

/-- A request from address 12. -/
def req (params : List Byte) : Request := { source := 12, seq := 1, params := params }

/-- A command of a class for device 150. -/
def command (cls : ClassNo) : CommandTelegram :=
  { source := 12, seq := 200, cls := cls, destination := 150, payload := [1, 2] }

/-- A small state that every request is accepted in. -/
theorem accepts_mk (entries : List (SlotNo × Slot)) (x : Segment) (params : List Byte)
    (write barred : Bool) : Accepts (mk entries x) (req params) write barred :=
  ⟨rfl, show 0 < 4 by decide,
    show (12 : Addr) ≠ 0 ∧ (12 : Addr) ≠ ownAddressOf { adr := 0, rate := 0 } by decide,
    rfl, fun _ => .inl rfl, fun _ => rfl⟩

/-- A transmission of slot 2. -/
def sending : Transmission :=
  { slot := 2, tag := 9, telegram := lineBytes 100 0 9 1 [1], startedAt := 0 }

/-- One slot in every place: 0 deferred, 1 queued for a retry, 2 in SENDING, 3 in AWAITING and 4 in
the Backlog; the second edge that opens window 0 comes next. -/
def busy : State :=
  { mk [(0, waiting 1 1), (1, { entry 2 0 with attempts := 1 }), (2, tagged 3 9), (3, tagged 4 8),
      (4, { entry 5 0 with outcome := some .sent })]
      { active with
        deferralQueue := [0]
        sendQueue := [1]
        transceiver := .sending sending
        outstanding := [{ tag := 8, device := 100, slot := 3, expiry := 500 }]
        ring := [{ tag := 7, device := 100, slot := 1, intake := 2, reason := .timedOut }] } with
    reports.backlog := [4]
    clock := { record := some (at_ 31 11 7 21 59 59), uptime := 5, nextEdge := 1728000000 }
    pending := [.secondEdge] }

theorem accepts_busy (params : List Byte) (write barred : Bool) :
    Accepts busy (req params) write barred :=
  ⟨rfl, show 0 < 4 by decide,
    show (12 : Addr) ≠ 0 ∧ (12 : Addr) ≠ ownAddressOf { adr := 0, rate := 0 } by decide,
    rfl, fun _ => .inl rfl, fun _ => rfl⟩

theorem busy_store : StoreInv busy := storeInv_of_check (by decide +kernel)
theorem busy_records : RecordsInv busy := recordsInv_of_check (by decide +kernel)
theorem busy_chains : ChainsInv busy := by
  intro g
  match g with
  | 0 => exact chainInv_of_check (by decide +kernel)
  | 1 => exact chainInv_of_check (by decide +kernel)
  | 2 => exact chainInv_of_check (by decide +kernel)
  | 3 => exact chainInv_of_check (by decide +kernel)
theorem busy_tags : TagsInv busy := tagsInv_of_check (by decide +kernel)
theorem busy_bounds : BoundsInv busy := boundsInv_of_check (by decide +kernel)
theorem busy_occupancy : OccupancyInv busy := ⟨by decide +kernel, by decide +kernel⟩
theorem busy_clock : ClockInv busy :=
  ⟨fun c h => by
    have : c = at_ 31 11 7 21 59 59 := (Option.some.inj h).symm
    subst this
    decide, by decide +kernel⟩
theorem busy_consistent : Consistent busy.bank.active := consistent_of_check (by decide +kernel)

/-! ### Witnesses: the machine and the path of a request -/

theorem witness_StepTakesFrontCommand : base.pending = [] := rfl

/-- A state in a reset hold. -/
def held (hold : ResetHold) (rstN : Bool) : State :=
  { State.reset with pins.hold := some hold, pins.rstN := rstN }

theorem witness_SupplyAndResetLine :
    let rising : ResetHold := { cause := .powerOn, dueAt := some 5760000, settled := false }
    let lasting : ResetHold := { cause := .powerOn, dueAt := none, settled := true }
    let line : ResetHold := { cause := .resetLine, dueAt := none, settled := false }
    ((held line false).pins.hold.isSome = true ∧ Instr.gapTimeout ≠ .supplyFall ∧
      Instr.gapTimeout ≠ .supplyRise ∧ Instr.gapTimeout ≠ .rstNLow ∧
      (∀ pins, Instr.gapTimeout ≠ .powerOnHoldEnd pins) ∧
      ∀ pins, Instr.gapTimeout ≠ .rstNHigh pins) ∧
    State.reset.pins.supplyUp = true ∧ State.reset.pins.hold = none ∧
    { State.reset with pins.supplyUp := false }.pins.supplyUp = false ∧
    (held rising true).pins.hold = some rising ∧ (held rising true).pins.rstN = true ∧
    (held rising false).pins.hold = some rising ∧ (held rising false).pins.rstN = false ∧
    (held lasting false).pins.hold = some lasting ∧ lasting.cause = .powerOn ∧
    lasting.settled = true ∧ rising.settled = false ∧
    (held line false).pins.hold = some line ∧ line.cause = .resetLine := by
  refine ⟨⟨rfl, by decide, by decide, by decide, fun _ => ?_, fun _ => ?_⟩, rfl, rfl, rfl, rfl, rfl,
    rfl, rfl, rfl, rfl, rfl, rfl, rfl, rfl⟩ <;> simp

/-- Three responses wait, and a COMMIT in progress holds the last place. -/
def crowded : State :=
  { base with
    reports.responseQueue := List.replicate 3
      { destination := 12, seq := 0, code := 1, status := .ok, result := [] }
    agent.commit := .validating 1152000 12 0 }

theorem witness_RequestsTurnedAway :
    requestOf (.readClock (req [])) = some (0x02, req [], true, false, false) ∧
    crowded.pins.hold = none ∧ 4 ≤ crowded.reports.responseQueue.length + heldPlace crowded ∧
    base.reports.responseQueue.length + heldPlace base < 4 ∧
    (¬ goodSource base 0) ∧ (¬ goodSource base 4080) ∧ goodSource base 4079 ∧
    { base with agent.restartPending := true }.agent.restartPending = true ∧
    requestOf (.readClock (req [1])) = some (0x02, req [1], false, false, false) ∧
    requestOf (.copyActive (req [])) = some (0x07, req [], true, true, true) ∧
    (let s : State := { base with agent.managers := [13] }
     s.agent.managers ≠ [] ∧ (req []).source ∉ s.agent.managers) ∧
    (let s : State := { base with agent.commit := .validating 1152000 12 0 }
     s.reports.responseQueue.length + heldPlace s < 4 ∧ s.agent.commit ≠ .idle) ∧
    base.pins.hold = none ∧ base.agent.restartPending = false ∧
    (∃ params, ([0x16, 7] : List Byte) = 0x16 :: params) ∧ 0x15 < (0x16 : Byte).toNat ∧
    (0 : Byte).toNat = 0 :=
  ⟨rfl, rfl, by decide, by decide, by decide, by decide, by decide, rfl, rfl, rfl, by decide,
    by decide, rfl, rfl, ⟨[7], rfl⟩, by decide, rfl⟩

theorem witness_StatusAndQueueAreRead :
    Accepts busy (req []) false false ∧ (req []).params = [] :=
  ⟨accepts_busy _ _ _, rfl⟩

theorem witness_ClockIsRead :
    (Accepts busy (req []) false false ∧ busy.clock.record = some (at_ 31 11 7 21 59 59)) ∧
      Accepts base (req []) false false ∧ base.clock.record = none :=
  ⟨⟨accepts_busy _ _ _, rfl⟩,
    accepts_mk _ _ _ _ _, rfl⟩

theorem witness_CountersAreRead :
    Accepts base (req [6, 1]) ((1 : Byte) != 0) false ∧ (6 : Byte).toNat ≤ 6 ∧ yesNoOk 1 ∧
    Accepts base (req [6, 2]) ((2 : Byte) != 0) false ∧ ¬ yesNoOk 2 ∧
    Accepts base (req [7, 0]) ((0 : Byte) != 0) false ∧ 6 < (7 : Byte).toNat :=
  ⟨accepts_mk _ _ _ _ _, by decide, by decide, accepts_mk _ _ _ _ _, by decide,
    accepts_mk _ _ _ _ _, by decide⟩

theorem witness_EntryIsRead :
    Accepts base (req [1, 3, 32]) false false ∧ tableSize 3 ≤ (32 : Byte).toNat ∧
    tableSize 4 ≤ (0 : Byte).toNat ∧
    Accepts base (req [3, 1, 63]) false false ∧ (63 : Byte).toNat < tableSize 1 ∧
    (3 : Byte) ≠ 1 ∧ (3 : Byte) ≠ 2 ∧
    Accepts base (req [2, 2, 15]) false false ∧ (15 : Byte).toNat < tableSize 2 :=
  ⟨accepts_mk _ _ _ _ _, by decide, by decide, accepts_mk _ _ _ _ _, by decide, by decide, by decide,
    accepts_mk _ _ _ _ _, by decide⟩

theorem witness_ClockIsSet :
    Accepts base (req [24, 2, 29, 23, 59, 59]) true false ∧ realDateTime 24 2 29 23 59 59 ∧
    Accepts base (req [23, 2, 29, 0, 0, 0]) true false ∧ ¬ realDateTime 23 2 29 0 0 0 :=
  ⟨accepts_mk _ _ _ _ _, by decide, accepts_mk _ _ _ _ _,
    by decide⟩

theorem witness_ClockIsAdjusted :
    Accepts base (req [0, 1, 0x51, 0x7F]) true false ∧
    ((0 : Byte) ++ (1 : Byte) ++ (0x51 : Byte) ++ (0x7F : Byte) : BitVec 32).toInt = 86399 ∧
    ((0 : Byte) ++ (1 : Byte) ++ (0x51 : Byte) ++ (0x80 : Byte) : BitVec 32).toInt = 86400 ∧
    ((0xFF : Byte) ++ (0xFE : Byte) ++ (0xAE : Byte) ++ (0x81 : Byte) : BitVec 32).toInt = -86399 ∧
    base.clock.record = none ∧ busy.clock.record = some (at_ 31 11 7 21 59 59) ∧
    (at_ 31 11 7 21 59 59).isReal = true ∧ Accepts busy (req [0, 1, 0x51, 0x7F]) true false :=
  ⟨accepts_mk _ _ _ _ _, by decide, by decide, by decide, rfl, rfl, by decide, accepts_busy _ _ _⟩

theorem witness_EntriesAreWritten :
    (Accepts base (req [1, 63, 1, 0x0F, 0xFF, 0, 1, 3]) true true ∧
      writeEntryLengthOk (req [1, 63, 1, 0x0F, 0xFF, 0, 1, 3]).params = true ∧
      (63 : Byte).toNat < tableSize 1 ∧ tableSize 1 ≤ (64 : Byte).toNat ∧ (0x0F : Byte).toNat < 16 ∧
      (3 : Seg).val = (3 : Byte).toNat ∧ 16 ≤ (0x10 : Byte).toNat ∧ 4 ≤ (4 : Byte).toNat) ∧
    (writeEntryLengthOk (req [3, 31, 2]).params = true ∧
      writeEntryLengthOk (req [3, 31, 3]).params = true ∧ (3 : Byte) ≠ 1 ∧ (3 : Byte) ≠ 2) ∧
    (writeEntryLengthOk (req [3, 31, 1, 127, 23, 59, 59, 0, 0, 0]).params = true ∧
      (127 : Byte).toNat < 128 ∧ timeOk 23 59 59 ∧ timeOk 0 0 0 ∧ ¬ timeOk 24 0 0) ∧
    (Accepts base (req [2, 15, 1, 2, 0, 31, 99, 99, 0, 0, 3, 1, 7, 1, 0]) true true ∧
      (2 : Byte).toNat ≤ 4 ∧
      ([0, 31] : List WindowNo).map Fin.val =
        (([0, 31, 99, 99] : List Byte).take (2 : Byte).toNat).map BitVec.toNat ∧
      (3 : Fin 4).val = (3 : Byte).toNat ∧ (7 : Fin 8).val = (7 : Byte).toNat ∧ yesNoOk 1 ∧
      yesNoOk 0 ∧ 1 ≤ (1 : Byte).toNat) ∧
    4 < (5 : Byte).toNat ∧ (∃ i ∈ ([32, 0, 0, 0] : List Byte).take 1, 32 ≤ i.toNat) ∧
    8 ≤ (8 : Byte).toNat ∧ ¬ yesNoOk 2 ∧ (0 : Byte).toNat = 0 :=
  ⟨⟨accepts_mk _ _ _ _ _, by decide, by decide, by decide, by decide, by decide, by decide,
      by decide⟩,
    ⟨by decide, by decide, by decide, by decide⟩,
    ⟨by decide, by decide, by decide, by decide,
      by decide⟩,
    ⟨accepts_mk _ _ _ _ _, by decide, by decide, by decide, by decide, by decide, by decide,
      by decide⟩, by decide, by decide, by decide, by decide, by decide⟩

theorem witness_StagingIsCopied :
    Accepts base (req []) true true ∧ (req []).params = [] ∧ Accepts base (req [1]) false false ∧
    (req [1]).params ≠ [] ∧
    let s : State := { base with agent.commit := .validating 1152000 12 0 }
    Accepts s (req []) true false ∧ s.agent.commit ≠ .idle :=
  ⟨accepts_mk _ _ _ _ _, rfl, accepts_mk _ _ _ _ _, by decide,
    ⟨rfl, by decide, by decide, rfl, fun _ => .inl rfl, (fun h => by cases h)⟩, by decide⟩

theorem witness_ProfilesAreSetAndRead :
    Accepts base (req [3, 3, 1, 0x90, 2, 1, 1, 2, 1, 100, 99, 1]) true false ∧
    (3 : Seg).val = (3 : Byte).toNat ∧ profileOk 3 1 0x90 2 1 1 2 1 100 99 1 ∧
    ¬ profileOk 3 1 0x8F 2 1 1 2 1 100 99 1 ∧ 4 ≤ (4 : Byte).toNat ∧
    Accepts base (req [3]) false false :=
  ⟨accepts_mk _ _ _ _ _, by decide, by decide, by decide,
    by decide, accepts_mk _ _ _ _ _⟩

theorem witness_PacingIsSet :
    Accepts base (req [3, 0, 0]) true false ∧ (3 : Seg).val = (3 : Byte).toNat ∧
    4 ≤ (4 : Byte).toNat ∧
    let s : State := mk [] { active with pacer := .gap 5 }
    Accepts s (req [0, 0, 1]) true false ∧ s.segs[(0 : Seg)].pacer = .gap 5 :=
  ⟨accepts_mk _ _ _ _ _, by decide, by decide, accepts_mk _ _ _ _ _, by decide +kernel⟩

theorem witness_SegmentIsHeld :
    Accepts base (req [3]) true false ∧ (3 : Seg).val = (3 : Byte).toNat ∧
    Accepts base (req [4]) true false ∧ 4 ≤ (4 : Byte).toNat :=
  ⟨accepts_mk _ _ _ _ _, by decide, accepts_mk _ _ _ _ _, by decide⟩

theorem witness_SegmentIsResumed :
    Accepts busy (req [0]) true false ∧ busy.segs[(0 : Seg)].transceiver ≠ .idle ∧
    Accepts base (req [3]) true false ∧ base.segs[(3 : Seg)].sendQueue = [] ∧
    4 ≤ (4 : Byte).toNat :=
  ⟨accepts_busy _ _ _, by decide +kernel,
    accepts_mk _ _ _ _ _, by decide +kernel, by decide⟩

theorem witness_ManagersAndNoticeAddressAreSet :
    let four : List Addr := [1, 2, 3, 4095]
    let rest : List Byte := four.flatMap fun a => twoBytes a.toNat
    (Accepts base (req (4 :: rest)) true false ∧ rest.length = 2 * (4 : Byte).toNat ∧
      four.length ≤ 4 ∧ (∀ a ∈ four, goodSource base a) ∧ four.Nodup) ∧
    (Accepts base (req (5 :: List.replicate 10 1)) true false ∧ 4 < (5 : Byte).toNat) ∧
    (∀ list : List Addr, list.flatMap (fun a => twoBytes a.toNat) = [0, 0] →
      ¬ ((∀ a ∈ list, goodSource base a) ∧ list.Nodup)) ∧
    (0x000 : Addr).toNat = 256 * (0 : Byte).toNat + (0 : Byte).toNat ∧
    (0 : Addr) ≠ ownAddressOf base.pins.latched ∧
    4095 < 256 * (0x10 : Byte).toNat + (0 : Byte).toNat ∧
    256 * (0x0F : Byte).toNat + (0xF0 : Byte).toNat = (ownAddressOf base.pins.latched).toNat := by
  refine ⟨⟨accepts_mk _ _ _ _ _, by decide +kernel, by decide +kernel, by decide +kernel,
      by decide +kernel⟩, ⟨accepts_mk _ _ _ _ _, by decide +kernel⟩, ?_, by decide +kernel,
    by decide +kernel, by decide +kernel, by decide +kernel⟩
  intro list h ⟨good, _⟩
  cases list with
  | nil => simp at h
  | cons a rest =>
    refine (good a (by simp)).1 ?_
    have h0 := congrArg (List.take 2) h
    simp only [List.flatMap_cons, twoBytes, byteOf, List.cons_append, List.nil_append,
      List.take_succ_cons, List.take_zero, List.cons.injEq, and_true] at h0
    have h1 := congrArg BitVec.toNat h0.1
    have h2 := congrArg BitVec.toNat h0.2
    simp only [BitVec.toNat_ofNat] at h1 h2
    have := a.isLt
    apply BitVec.eq_of_toNat_eq
    change a.toNat = 0
    change _ = 0 at h1 h2
    omega

theorem witness_RestartIsAccepted : Accepts base (req []) true true ∧ (req []).params = [] :=
  ⟨accepts_mk _ _ _ _ _, rfl⟩

theorem witness_SlotsArePurged :
    (Accepts busy (req [0xFF, 0, 2]) true false ∧ (0xFF : Byte) = 0xFF ∧ (0 : Byte).toNat < 16 ∧
      StoreInv busy ∧ RecordsInv busy) ∧
    (Accepts busy (req [3, 0xFF, 1]) true false ∧ (3 : Byte).toNat < 4) ∧
    (4 ≤ (4 : Byte).toNat ∧ (4 : Byte) ≠ 0xFF) ∧ (16 ≤ (16 : Byte).toNat ∧ (16 : Byte) ≠ 0xFF) ∧
    (3 : Byte) ≠ 1 ∧ (3 : Byte) ≠ 2 :=
  ⟨⟨accepts_busy _ _ _, rfl, by decide, busy_store,
      busy_records⟩, ⟨accepts_busy _ _ _, by decide⟩,
    by decide, by decide, by decide, by decide⟩

theorem witness_TrafficIsFlushed :
    Accepts busy (req []) true false ∧ (req []).params = [] ∧
      ∀ c : CounterId, busy.counters[c] ≤ 4294967295 :=
  ⟨accepts_busy _ _ _, rfl, busy_bounds.counters⟩

/-! ### Witnesses: the trunk -/

/-- The small state with the assembler in a state. -/
def assembling (a : Assembler) : State := { base with port.assembler := a }

theorem witness_AssemblerFollowsItsTable :
    (assembling .hunt).pins.hold = none ∧ (assembling .hunt).port.assembler = .hunt ∧
    (assembling .length).port.assembler = .length ∧ (assembling .length).port.assembler ≠ .hunt ∧
    (7 ≤ (7 : Byte).toNat ∧ (71 : Byte).toNat ≤ 71 ∧ (6 : Byte).toNat < 7 ∧ 71 < (72 : Byte).toNat) ∧
    (assembling (.body 7 [1, 2, 3, 4, 5])).port.assembler = .body 7 [1, 2, 3, 4, 5] ∧
    [1, 2, 3, 4, 5].length + 1 < (7 : Byte).toNat ∧
    (7 : Byte).toNat ≤ [1, 2, 3, 4, 5, 6].length + 1 ∧
    (assembling (.crc 7 [] none)).port.assembler = .crc 7 [] none :=
  ⟨rfl, rfl, rfl, by decide, by decide, rfl, by decide, by decide, rfl⟩

/-- The CRC bytes of a body. -/
def crcOf (body : List Byte) : List Byte :=
  twoBytes (crc16 (byteOf body.length :: body)).toNat

theorem witness_BadFramesAreDiscarded :
    (¬ twoBytes (crc16 [7, 1, 0, 100, 0, 12, 1, 0]).toNat = [0, 0]) ∧
    (twoBytes (crc16 [7, 1, 0x10, 0, 0, 12, 1, 0]).toNat =
      crcOf [1, 0x10, 0, 0, 12, 1, 0] ∧ 16 ≤ (0x10 : Byte).toNat) ∧
    ((3 : Byte) ≠ 1 ∧ (3 : Byte) ≠ 2) ∧ 16 ≤ (16 : Byte).toNat ∧
    48 < (List.replicate 49 (0 : Byte)).length ∧
    256 * (0x0F : Byte).toNat + (0xF1 : Byte).toNat ≠ (ownAddressOf base.pins.latched).toNat ∧
    ([1, 0, 100, 0, 12, 1, 0] : List Byte).length = (7 : Byte).toNat ∧
    (assembling (.crc 7 [1, 0, 100, 0, 12, 1, 0] (some 0))).port.assembler =
      .crc 7 [1, 0, 100, 0, 12, 1, 0] (some 0) :=
  ⟨by decide +kernel, by decide +kernel, by decide, by decide, by decide, by decide, by decide, rfl⟩

theorem witness_CommandFramesDecode :
    { command 0 with payload := List.replicate 48 0 }.payload.length ≤ 48 ∧
      base.pins.hold = none ∧ base.port.assembler = .hunt :=
  ⟨by decide, rfl, rfl⟩

theorem witness_RequestFramesDecode :
    requestOf (.commit (req (List.replicate 63 0))) =
      some (0x09, req (List.replicate 63 0), false, true, true) ∧
    (req (List.replicate 63 0)).params.length ≤ 63 ∧ base.pins.hold = none ∧
    base.port.assembler = .hunt :=
  ⟨by decide, by decide, rfl, rfl⟩

/-! ### Witnesses: admission -/

theorem routed {s : State} (c : ClassNo) (p : ClassPolicy) (hold : s.pins.hold = none)
    (straps : s.pins.latched = { adr := 0, rate := 0 }) (bank : s.bank.active = tables)
    (pair : s.pairHeld 12 200 = false) (cls : tables.classes[c] = some p) :
    Routed s (command c) 0 p where
  running := hold
  payload := show [1, 2].length ≤ 48 by decide
  source := by
    show (12 : Addr) ≠ 0 ∧ (12 : Addr) ≠ ownAddressOf s.pins.latched
    rw [straps]
    decide
  pair := (pairHeld_iff _ _).1 pair
  route := by
    refine ⟨3, { first := 100, last := 200, segment := 0 }, ?_,
      show 100 ≤ 150 ∧ 150 ≤ 200 by decide, rfl, fun j q hj hq => ?_⟩
    · rw [bank]
      decide +kernel
    · rw [bank] at hq
      have : ∀ k : RouteNo, k < 3 → tables.routes[k] = none := by decide +kernel
      rw [this j hj] at hq
      cases hq
  policy := by
    rw [bank]
    exact cls

/-- The record of slot n in a full store: queued below a number, else deferred; slot 254 is of a class
given, every other deferred one of the closed class 1. -/
def fullSlot (queued : Nat) (cls : ClassNo) (n : SlotNo) : Slot :=
  if n.val < queued then { entry (BitVec.ofNat 32 n.val) 0 with source := 31, priority := 0 }
  else { waiting (BitVec.ofNat 32 n.val) (if n = 254 then cls else 1) with source := 31, priority := 0 }

/-- A full store on segment 0, slot n with intake number n. -/
def fullWith (queued : Nat) (cls : ClassNo) : State :=
  { mk [] { active with
      deferralQueue := (List.finRange 256).filter fun n => queued ≤ n.val
      sendQueue := (List.finRange 256).filter fun n => n.val < queued } with
    buffer :=
      { slots := Vector.ofFn fun n : SlotNo => some (fullSlot queued cls n)
        intakeCounter := 255
        storeHigh := true } }

/-- A full store in which every slot is deferred and closed. -/
def full : State := fullWith 0 1

theorem fullWith_slot (q : Nat) (c : ClassNo) (n : SlotNo) :
    (fullWith q c).buffer.slots[n] = some (fullSlot q c n) := by
  simp [fullWith]

theorem full_slot (n : SlotNo) :
    full.buffer.slots[n] = some { waiting (BitVec.ofNat 32 n.val) 1 with source := 31, priority := 0 } := by
  have e : fullSlot 0 1 n = { waiting (BitVec.ofNat 32 n.val) 1 with source := 31, priority := 0 } := by
    simp [fullSlot]
  exact e ▸ fullWith_slot 0 1 n

theorem fullSlot_fields (q : Nat) (c : ClassNo) (n : SlotNo) :
    (fullSlot q c n).intake = BitVec.ofNat 32 n.val ∧ (fullSlot q c n).priority = 0 ∧
    (fullSlot q c n).segment = 0 ∧ (fullSlot q c n).lineTag = none ∧ (fullSlot q c n).outcome = none ∧
    (fullSlot q c n).answer = none ∧ (fullSlot q c n).attempts = 0 ∧
    ((fullSlot q c n).deferral.isSome = true ↔ q ≤ n.val) := by
  unfold fullSlot
  split
  · next h => exact ⟨rfl, rfl, rfl, rfl, rfl, rfl, rfl, by simp [entry]; omega⟩
  · next h => exact ⟨rfl, rfl, rfl, rfl, rfl, rfl, rfl, by simp [waiting]; omega⟩

theorem fullWith_chain (q : Nat) (c : ClassNo) :
    (fullWith q c).segs[(0 : Seg)] = { active with
      deferralQueue := (List.finRange 256).filter fun n => q ≤ n.val
      sendQueue := (List.finRange 256).filter fun n => n.val < q } ∧
    ∀ k : Seg, k ≠ 0 → chainSlots (fullWith q c).segs[k] = [] := by
  refine ⟨rfl, fun k hk => ?_⟩
  match k with
  | 0 => exact absurd rfl hk
  | 1 => rfl
  | 2 => rfl
  | 3 => rfl

theorem fullWith_store (q : Nat) (c : ClassNo) : StoreInv (fullWith q c) := by
  have chain := (fullWith_chain q c).1
  have rest := (fullWith_chain q c).2
  have h : heldSlots (fullWith q c) =
      ((List.finRange 256).filter fun n => q ≤ n.val) ++
        (List.finRange 256).filter fun n => n.val < q := by
    have e0 : chainSlots (fullWith q c).segs[(0 : Seg)] =
        ((List.finRange 256).filter fun n => q ≤ n.val) ++
          (List.finRange 256).filter fun n => n.val < q := by
      rw [chain]
      simp [chainSlots, sendingSlot, active, Segment.atReset]
    have e1 := rest 1 (by decide)
    have e2 := rest 2 (by decide)
    have e3 := rest 3 (by decide)
    have eb : (fullWith q c).reports.backlog = [] := rfl
    unfold heldSlots
    rw [eb]
    exact (congrArg₂ _ (congrArg₂ _ (congrArg₂ _ (congrArg₂ _ e0 e1) e2) e3) rfl).trans (by simp)
  refine ⟨?_, fun n => ?_, fun g n r hn hr => ?_⟩
  · rw [h, List.nodup_append]
    refine ⟨(List.nodup_finRange 256).filter _, (List.nodup_finRange 256).filter _, ?_⟩
    intro a ha b hb e
    simp only [List.mem_filter, decide_eq_true_eq] at ha hb
    subst e
    omega
  · rw [h, fullWith_slot]
    simp only [List.mem_append, List.mem_filter, List.mem_finRange, decide_eq_true_eq, true_and,
      Option.isSome_some, iff_true]
    omega
  · rw [fullWith_slot] at hr
    obtain rfl := Option.some.inj hr
    by_contra hg
    rw [rest g fun e => hg (by rw [e]; exact (fullSlot_fields q c n).2.2.1)] at hn
    cases hn

theorem full_store : StoreInv full := fullWith_store 0 1

theorem fullWith_records (q : Nat) (c : ClassNo) : RecordsInv (fullWith q c) := by
  intro n r hr
  rw [fullWith_slot] at hr
  obtain rfl := Option.some.inj hr
  obtain ⟨-, -, g, tag, outcome, answer, attempts, deferral⟩ := fullSlot_fields q c n
  have chain : (fullWith q c).segs[(fullSlot q c n).segment] = _ :=
    (congrArg (fun k : Seg => (fullWith q c).segs[k]) g).trans (fullWith_chain q c).1
  refine ⟨?_, fun t => ?_, ?_, ?_, ?_, fun _ => ?_⟩
  · rw [chain, deferral]
    simp
  · rw [chain, tag]
    simp [chainTag, active, Segment.atReset]
  · have none0 : (fullWith q c).reports.backlog = [] := rfl
    rw [outcome, none0]
    simp
  · rw [answer, outcome]
    simp
  · rw [attempts]
    omega
  · rw [attempts]
    omega

/-- Slot 255 is the victim of every newcomer of priority 1. -/
theorem fullWith_victim (q : Nat) (c : ClassNo) (hq : q ≤ 255) :
    isVictim (fullWith q c) 1 0 255 (fullSlot q c 255) := by
  refine ⟨?_, fullWith_slot q c 255, ?_, ?_⟩
  · have := (fullWith_chain q c).1
    rw [this]
    simpa using hq
  · rw [(fullSlot_fields q c 255).2.1]
    decide
  · intro g m y _ hy _ hm
    rw [fullWith_slot] at hy
    obtain rfl := Option.some.inj hy
    have : ∀ k : SlotNo, k ≠ 255 → 1 ≤ ((255 : Intake) - BitVec.ofNat 32 k.val).toNat ∧
        ((255 : Intake) - BitVec.ofNat 32 k.val).toNat < 2 ^ 31 := by decide +kernel
    refine .inr ⟨?_, ?_⟩
    · rw [(fullSlot_fields q c 255).2.1, (fullSlot_fields q c m).2.1]
    · rw [(fullSlot_fields q c 255).1, (fullSlot_fields q c m).1]
      exact this m hm

theorem full_closed (n : SlotNo) : ¬ eligibleSlot full n := by
  rintro ⟨r, hr, p, hp, h⟩
  rw [full_slot] at hr
  obtain rfl := Option.some.inj hr
  have h1 : tables.classes[(1 : ClassNo)] = some (policy [0] 10) := by decide +kernel
  obtain rfl := Option.some.inj (h1.symm.trans hp)
  rcases h with h | ⟨h, _⟩
  · cases h
  · cases h

/-- A Send Queue of 16 entries. -/
def sixteen : State :=
  mk (((List.finRange 256).take 16).map fun n => (n, entry (BitVec.ofNat 32 n.val) 0))
    { active with sendQueue := (List.finRange 256).take 16 }

theorem open_mk (entries : List (SlotNo × Slot)) (x : Segment) : isOpen (mk entries x) 0 ∧
    isOpen (mk entries x) 2 :=
  ⟨⟨policy [] 10, show tables.classes[(0 : ClassNo)] = _ by decide +kernel, .inl rfl⟩,
    ⟨policy [] 0, show tables.classes[(2 : ClassNo)] = _ by decide +kernel, .inl rfl⟩⟩

theorem closed_mk (entries : List (SlotNo × Slot)) (x : Segment) : ¬ isOpen (mk entries x) 1 ∧
    ¬ isOpen (mk entries x) 3 := by
  have h1 : tables.classes[(1 : ClassNo)] = some (policy [0] 10) := by decide +kernel
  have h3 : tables.classes[(3 : ClassNo)] = some (policy [0] 0) := by decide +kernel
  constructor <;> rintro ⟨p, hp, h | ⟨h, _⟩⟩
  · obtain rfl := Option.some.inj (h1.symm.trans hp); cases h
  · cases h
  · obtain rfl := Option.some.inj (h3.symm.trans hp); cases h
  · cases h

theorem witness_CommandsAreRefused :
    base.pins.hold = none ∧
    48 < { command 0 with payload := List.replicate 49 0 }.payload.length ∧
    (¬ goodSource base 0 ∧ goodSource base (command 0).source) ∧
    (¬ pairFree busy 12 1) ∧
    (pairFree base 12 200 ∧ unrouted base 99 ∧ unrouted base 201) ∧
    (routesTo base 150 0 ∧ base.bank.active.classes[(4 : ClassNo)] = none) ∧
    (Routed base (command 3) 0 (policy [0] 0) ∧ ¬ isOpen base 3) ∧
    (Routed sixteen (command 2) 0 (policy [] 0) ∧ isOpen sixteen 2 ∧
      16 ≤ sixteen.segs[(0 : Seg)].sendQueue.length) ∧
    (Routed full (command 0) 0 (policy [] 10) ∧ mayWaitOrGo full (command 0) 0 (policy [] 10) ∧
      ∀ n : SlotNo, full.buffer.slots[n].isSome = true) ∧
    16 ≤ (List.replicate 16 (refusal full (command 0) .refusedClosed none)).length := by
  refine ⟨rfl, by decide, by decide, ?_, ⟨?_, ?_, ?_⟩, ⟨?_, by decide +kernel⟩, ⟨?_, (closed_mk _ _).2⟩,
    ⟨?_, (open_mk _ _).2, by decide +kernel⟩, ⟨?_, (fun h => by cases h), (fun n => by rw [full_slot]; rfl)⟩,
    by decide⟩
  · rw [← pairHeld_iff]
    decide +kernel
  · rw [← pairHeld_iff]
    decide +kernel
  · rw [← routeOf_none_iff]
    decide +kernel
  · rw [← routeOf_none_iff]
    decide +kernel
  · exact (routed (s := base) 0 (policy [] 10) rfl rfl rfl (by decide +kernel)
      (by decide +kernel)).route
  · exact routed 3 (policy [0] 0) rfl rfl rfl (by decide +kernel) (by decide +kernel)
  · exact routed 2 (policy [] 0) rfl rfl rfl (by decide +kernel) (by decide +kernel)
  · exact routed 0 (policy [] 10) rfl rfl rfl (by decide +kernel) (by decide +kernel)

theorem base_store : StoreInv base := storeInv_of_check (by decide +kernel)

/-- Two slots deferred, the second of an open class, on a segment with a pacing gap. -/
def pacing (gap : Nat) (pacer : Pacer) : State :=
  mk [(0, waiting 1 1), (1, waiting 2 0)]
    { active with deferralQueue := [0, 1], pacingGapMs := gap, pacer := pacer }

theorem open_pacing (gap : Nat) (pacer : Pacer) : eligibleSlot (pacing gap pacer) 1 :=
  ⟨waiting 2 0, show (store [(0, waiting 1 1), (1, waiting 2 0)])[(1 : SlotNo)] = _ by decide +kernel,
    (open_mk _ _).1⟩

theorem closed_pacing (gap : Nat) (pacer : Pacer) : ¬ eligibleSlot (pacing gap pacer) 0 := by
  rintro ⟨r, hr, h⟩
  have : (store [(0, waiting 1 1), (1, waiting 2 0)])[(0 : SlotNo)] = some (waiting 1 1) := by
    decide +kernel
  obtain rfl := Option.some.inj (this.symm.trans hr)
  exact (closed_mk _ _).1 h

theorem witness_CommandsArePlaced :
    (StoreInv base ∧ Routed base (command 0) 0 (policy [] 10) ∧
      mayWaitOrGo base (command 0) 0 (policy [] 10) ∧ lowestFree base 0 ∧ isOpen base 0 ∧
      base.segs[(0 : Seg)].sendQueue.length < 16 ∧
      (∀ m ∈ base.segs[(0 : Seg)].deferralQueue, ¬ eligibleSlot base m) ∧
      splitsAt base base.segs[(0 : Seg)].sendQueue [] [] 1) ∧
    (Routed base (command 1) 0 (policy [0] 10) ∧ mayWaitOrGo base (command 1) 0 (policy [0] 10) ∧
      (policy [0] 10).holdLimit ≠ 0 ∧ reasonFor base 0 1 .window) ∧
    (StoreInv sixteen ∧ Routed sixteen (command 0) 0 (policy [] 10) ∧ lowestFree sixteen 16 ∧
      reasonFor sixteen 0 0 .space) ∧
    (Routed base (command 2) 0 (policy [] 0) ∧ mayWaitOrGo base (command 2) 0 (policy [] 0) ∧
      isOpen base 2 ∧ (policy [] 0).holdLimit = 0) ∧
    (StoreInv (pacing 0 .idle) ∧ Routed (pacing 0 .idle) (command 0) 0 (policy [] 10) ∧
      mayWaitOrGo (pacing 0 .idle) (command 0) 0 (policy [] 10) ∧ lowestFree (pacing 0 .idle) 2 ∧
      reasonFor (pacing 0 .idle) 0 0 .order ∧
      ∃ m ∈ (pacing 0 .idle).segs[(0 : Seg)].deferralQueue, eligibleSlot (pacing 0 .idle) m) := by
  have none0 : base.segs[(0 : Seg)].deferralQueue = [] := by decide +kernel
  have none1 : base.segs[(0 : Seg)].sendQueue = [] := by decide +kernel
  refine ⟨⟨base_store, ?_, (fun h => by cases h), ⟨by decide +kernel, by decide +kernel⟩, (open_mk _ _).1,
      by decide +kernel, (by rw [none0]; simp), (by rw [none1]; simp [splitsAt])⟩,
    ⟨?_, (fun h => by cases h), by decide, .inl ⟨(closed_mk _ _).1, rfl⟩⟩,
    ⟨storeInv_of_check (by decide +kernel), ?_, ⟨by decide +kernel, by decide +kernel⟩,
      .inr (.inl ⟨(open_mk _ _).1, by decide +kernel, rfl⟩)⟩,
    ⟨?_, (fun _ => ⟨(open_mk _ _).2, by decide +kernel⟩), (open_mk _ _).2, rfl⟩,
    storeInv_of_check (by decide +kernel), ?_, (fun h => by cases h),
    ⟨by decide +kernel, by decide +kernel⟩, .inr (.inr ⟨(open_mk _ _).1, by decide +kernel, rfl⟩),
    1, by decide +kernel, open_pacing 0 .idle⟩
  · exact routed 0 (policy [] 10) rfl rfl rfl (by decide +kernel) (by decide +kernel)
  · exact routed 1 (policy [0] 10) rfl rfl rfl (by decide +kernel) (by decide +kernel)
  · exact routed 0 (policy [] 10) rfl rfl rfl (by decide +kernel) (by decide +kernel)
  · exact routed 2 (policy [] 0) rfl rfl rfl (by decide +kernel) (by decide +kernel)
  · exact routed 0 (policy [] 10) rfl rfl rfl (by decide +kernel) (by decide +kernel)

theorem fullWith_routed (q : Nat) (c : ClassNo) (k : ClassNo) (p : ClassPolicy)
    (cls : tables.classes[k] = some p) : Routed (fullWith q c) (command k) 0 p := by
  refine routed k p rfl rfl rfl ((pairHeld_iff _ _).2 fun n r hr => ?_) cls
  rw [fullWith_slot] at hr
  obtain rfl := Option.some.inj hr
  have : (fullSlot q c n).source = 31 := by unfold fullSlot; split <;> rfl
  rw [this]
  exact fun h => absurd h.1 (by decide)

theorem fullWith_open (q : Nat) (c : ClassNo) : isOpen (fullWith q c) 0 :=
  ⟨policy [] 10, show tables.classes[(0 : ClassNo)] = _ by decide +kernel, .inl rfl⟩

theorem witness_CommandsDisplace :
    (∀ (q : Nat) (c : ClassNo), q ≤ 255 → StoreInv (fullWith q c) ∧ RecordsInv (fullWith q c) ∧
      Routed (fullWith q c) (command 0) 0 (policy [] 10) ∧
      mayWaitOrGo (fullWith q c) (command 0) 0 (policy [] 10) ∧
      (∀ n : SlotNo, (fullWith q c).buffer.slots[n].isSome = true) ∧
      (fullWith q c).reports.reportQueue.length < 16 ∧
      isVictim (fullWith q c) 1 0 255 (fullSlot q c 255) ∧ isOpen (fullWith q c) 0) ∧
    (full.segs[(0 : Seg)].sendQueue = [] ∧
      (∀ m ∈ full.segs[(0 : Seg)].deferralQueue, m ≠ 255 → ¬ eligibleSlot full m) ∧
      splitsAt full full.segs[(0 : Seg)].sendQueue [] [] 1) ∧
    (Routed full (command 1) 0 (policy [0] 10) ∧ reasonFor full 0 1 .window) ∧
    reasonFor (fullWith 16 1) 0 0 .space ∧
    (reasonFor (fullWith 0 0) 0 0 .order ∧
      ∃ m ∈ (fullWith 0 0).segs[(0 : Seg)].deferralQueue, m ≠ 255 ∧ eligibleSlot (fullWith 0 0) m) := by
  have none1 : full.segs[(0 : Seg)].sendQueue = [] := by decide +kernel
  refine ⟨fun q c hq => ⟨fullWith_store q c, fullWith_records q c, ?_, (fun h => by cases h),
    (fun n => by rw [fullWith_slot]; rfl), show 0 < 16 by decide, fullWith_victim q c hq, fullWith_open q c⟩,
    ⟨none1, fun m _ _ => full_closed m, (by rw [none1]; simp [splitsAt])⟩,
    ⟨fullWith_routed 0 1 1 (policy [0] 10) (by decide +kernel), .inl ⟨?_, rfl⟩⟩,
    .inr (.inl ⟨fullWith_open 16 1, by decide +kernel, rfl⟩),
    .inr (.inr ⟨fullWith_open 0 0, by decide +kernel, rfl⟩), 254, by decide +kernel, by decide,
    fullSlot 0 0 254, fullWith_slot 0 0 254, fullWith_open 0 0⟩
  · exact fullWith_routed q c 0 (policy [] 10) (by decide +kernel)
  · rintro ⟨p, hp, h | ⟨h, _⟩⟩
    · have h1 : tables.classes[(1 : ClassNo)] = some (policy [0] 10) := by decide +kernel
      obtain rfl := Option.some.inj (h1.symm.trans hp)
      cases h
    · cases h

/-! ### Witnesses: clock and windows -/

theorem witness_SecondEdgeTicks : busy.pins.hold = none := rfl

theorem witness_TickIsOneSecond :
    (at_ 99 12 31 23 59 59).isReal = true ∧ (at_ 24 2 29 23 59 59).isReal = true := by
  decide

theorem witness_WindowsOpenInOccurrences :
    (base.clock.record = none ∧ busy.bank.active.windows[(1 : WindowNo)] = none) ∧
    (at_ 0 1 1 0 0 0).isReal = true ∧ w5.start.isReal = true ∧ w5.stop.isReal = true := by
  decide +kernel

theorem witness_NextOpeningIsEarliest :
    base.clock.record = none ∧ base.bank.active.classes[(4 : ClassNo)] = none ∧
    busy.clock.record = some (at_ 31 11 7 21 59 59) ∧
    busy.bank.active.classes[(1 : ClassNo)] = some (policy [0] 10) ∧
    busy.nextOpening 1 = .on 0 5 { hour := 22, minute := 0, second := 0 } := by
  decide +kernel

/-! ### Witnesses: deferral and release -/

theorem witness_PacedReleases :
    ((pacing 2000 (.gap 5)).pins.hold = none ∧
      (pacing 2000 (.gap 5)).segs[(0 : Seg)].pacer = .gap 5) ∧
    (16 ≤ sixteen.segs[(0 : Seg)].sendQueue.length ∧
      ∀ n ∈ base.segs[(0 : Seg)].deferralQueue, ¬ eligibleSlot base n) ∧
    ((pacing 1 .idle).segs[(0 : Seg)].pacer = .idle ∧
      (pacing 1 .idle).segs[(0 : Seg)].sendQueue.length < 16 ∧
      (pacing 1 .idle).segs[(0 : Seg)].pacingGapMs ≠ 0 ∧
      (pacing 1 .idle).segs[(0 : Seg)].deferralQueue = [0] ++ 1 :: [] ∧
      (∀ m ∈ ([0] : List SlotNo), ¬ eligibleSlot (pacing 1 .idle) m) ∧
      eligibleSlot (pacing 1 .idle) 1 ∧
      (pacing 1 .idle).buffer.slots[(1 : SlotNo)] = some (waiting 2 0) ∧
      splitsAt (pacing 1 .idle) (pacing 1 .idle).segs[(0 : Seg)].sendQueue [] [] 1) := by
  have none0 : base.segs[(0 : Seg)].deferralQueue = [] := by decide +kernel
  have none1 : (pacing 1 .idle).segs[(0 : Seg)].sendQueue = [] := by decide +kernel
  refine ⟨⟨rfl, by decide +kernel⟩, ⟨by decide +kernel, (by rw [none0]; simp)⟩, by decide +kernel,
    by decide +kernel, by decide +kernel, by decide +kernel, ?_, open_pacing _ _, by decide +kernel,
    (by rw [none1]; simp [splitsAt])⟩
  intro m hm
  obtain rfl := List.mem_singleton.1 hm
  exact closed_pacing _ _

theorem witness_UnpacedExaminationFillsQueue :
    (pacing 0 .idle).pins.hold = none ∧ StoreInv (pacing 0 .idle) ∧ ChainInv (pacing 0 .idle) 0 ∧
    (pacing 0 .idle).segs[(0 : Seg)].pacer = .idle ∧
    (pacing 0 .idle).segs[(0 : Seg)].pacingGapMs = 0 ∧
    (∀ n, (pacing 0 .idle).eligible n = true ↔ eligibleSlot (pacing 0 .idle) n) :=
  ⟨rfl, storeInv_of_check (by decide +kernel), chainInv_of_check (by decide +kernel),
    by decide +kernel, by decide +kernel, eligible_iff⟩

theorem witness_DeadlinesExpire :
    (pacing 0 .idle).pins.hold = none ∧
    ∀ n : SlotNo, ((pacing 0 .idle).buffer.slots[n].any fun r =>
        r.holdDeadline ≤ (pacing 0 .idle).clock.uptime) = true ↔
      ∃ r, (pacing 0 .idle).buffer.slots[n] = some r ∧
        r.holdDeadline ≤ (pacing 0 .idle).clock.uptime :=
  ⟨rfl, fun n => by simp [Option.any_eq_true]⟩

/-! ### Witnesses: the Segment Scheduler -/

/-- Four outstanding entries. -/
def fourOut : List Outstanding :=
  [{ tag := 1, device := 100, slot := 10, expiry := 0 }, { tag := 2, device := 100, slot := 11, expiry := 0 },
    { tag := 3, device := 100, slot := 12, expiry := 0 }, { tag := 4, device := 100, slot := 13, expiry := 0 }]

/-- Slot 1 expects an answer and waits ahead of slot 2, which expects none; four entries are
outstanding. -/
def walking (cls : ClassNo) (deadline : Nat) : State :=
  mk [(1, entry 2 0), (2, { entry 3 cls with answerExpected := false, holdDeadline := deadline })]
    { active with sendQueue := [1, 2], outstanding := fourOut }

theorem witness_WalkStarts :
    let s := walking 0 10
    let r : Slot := { entry 3 0 with answerExpected := false }
    (s.pins.hold = none ∧ base.segs[(1 : Seg)].state = .held .start ∧
      busy.segs[(0 : Seg)].transceiver ≠ .idle ∧ base.segs[(0 : Seg)].sendQueue = []) ∧
    s.segs[(0 : Seg)].state = .active ∧ s.segs[(0 : Seg)].transceiver = .idle ∧
    s.segs[(0 : Seg)].sendQueue = [1] ++ 2 :: [] ∧ s.buffer.slots[(2 : SlotNo)] = some r ∧
    (2 : SlotNo) ∉ ([1] : List SlotNo) ∧
    (∀ m ∈ ([1] : List SlotNo), ∃ x, s.buffer.slots[m] = some x ∧ x.answerExpected = true ∧
      4 ≤ s.segs[(0 : Seg)].outstanding.length) ∧
    (r.answerExpected = true → s.segs[(0 : Seg)].outstanding.length < 4) ∧ isOpen s r.cls ∧
    4 < 256 ∧ (5 : Byte) = s.segs[(0 : Seg)].tagCounter + 1 + BitVec.ofNat 8 4 ∧
    (∀ k < 4, s.segs[(0 : Seg)].tagCounter + 1 + BitVec.ofNat 8 k ∈ heldTags s.segs[(0 : Seg)]) ∧
    (5 : Byte) ∉ heldTags s.segs[(0 : Seg)] := by
  refine ⟨⟨rfl, by decide +kernel, by decide +kernel, by decide +kernel⟩, by decide +kernel,
    by decide +kernel, by decide +kernel, by decide +kernel, by decide, ?_, (fun h => by cases h),
    (open_mk _ _).1, by decide, by decide +kernel, by decide +kernel, by decide +kernel⟩
  intro m hm
  obtain rfl := List.mem_singleton.1 hm
  exact ⟨entry 2 0, by decide +kernel, rfl, by decide +kernel⟩

/-- Slot 1, of a closed class, waits alone; slot 0 is deferred and older. -/
def closing (deadline : Nat) : State :=
  mk [(0, waiting 1 1), (1, { entry 2 1 with holdDeadline := deadline })]
    { active with deferralQueue := [0], sendQueue := [1] }

/-- Slot 1 expects an answer and is held back by four outstanding entries; slot 2, of a closed class,
fails the gate check; slot 3 is of an open class; slot 4 expects an answer. -/
def gateQueue (queue : List SlotNo) : State :=
  mk [(0, waiting 1 1), (1, entry 2 0), (2, { entry 3 1 with answerExpected := false }),
      (3, { entry 4 0 with answerExpected := false }), (4, entry 5 0)]
    { active with deferralQueue := [0], sendQueue := queue, outstanding := fourOut }

/-- R76, R77: a walk passes over slot 1, hands slot 2 back and starts slot 3. -/
theorem test_walk_goes_on :
    (match exec (.startWalk 0) (gateQueue [1, 2, 3, 4]) with
      | .next t => t.segs[(0 : Seg)].sendQueue == [1, 4] && t.segs[(0 : Seg)].deferralQueue == [0, 2] &&
          (match t.segs[(0 : Seg)].transceiver with | .sending tx => tx.slot == 3 | _ => false)
      | _ => false) = true := by
  decide +kernel

theorem witness_GateCheckHandsBack :
    let s := closing 0
    let t := closing 1
    (s.pins.hold = none ∧ s.segs[(0 : Seg)].state = .active ∧ s.segs[(0 : Seg)].transceiver = .idle ∧
      s.segs[(0 : Seg)].sendQueue = [1] ∧
      s.buffer.slots[(1 : SlotNo)] = some { entry 2 1 with holdDeadline := 0 } ∧
      s.segs[(0 : Seg)].outstanding.length < 4 ∧ ¬ isOpen s 1 ∧ 0 ≤ s.clock.uptime) ∧
    t.buffer.slots[(1 : SlotNo)] = some { entry 2 1 with holdDeadline := 1 } ∧ t.clock.uptime < 1 ∧
    t.segs[(0 : Seg)].deferralQueue = [0] ++ [] ∧ t.buffer.slots[(0 : SlotNo)] = some (waiting 1 1) ∧
    1 ≤ ((2 : Intake) - 1).toNat ∧ ((2 : Intake) - 1).toNat < 2 ^ 31 ∧
    (∀ m ∈ (gateQueue [1, 4]).segs[(0 : Seg)].sendQueue, heldBack (gateQueue [1, 4]) 0 m) ∧
    ((gateQueue [1, 2, 3, 4]).segs[(0 : Seg)].sendQueue = [1] ++ 2 :: [3, 4] ∧
      heldBack (gateQueue [1, 2, 3, 4]) 0 1 ∧
      (gateQueue [1, 2, 3, 4]).buffer.slots[(2 : SlotNo)] =
        some { entry 3 1 with answerExpected := false } ∧
      ¬ isOpen (gateQueue [1, 2, 3, 4]) 1) ∧
    (gateQueue [1, 2, 4]).segs[(0 : Seg)].sendQueue = [1] ++ 2 :: [4] ∧
    heldBack (gateQueue [1, 2, 4]) 0 4 := by
  refine ⟨⟨rfl, by decide +kernel, by decide +kernel, by decide +kernel, by decide +kernel,
      by decide +kernel, (closed_mk _ _).1, by decide⟩, by decide +kernel, by decide,
    by decide +kernel, by decide +kernel, by decide, by decide, fun m hm => ?_,
    ⟨by decide +kernel, ⟨entry 2 0, by decide +kernel, rfl, by decide +kernel⟩, by decide +kernel,
      (closed_mk _ _).1⟩, by decide +kernel, ⟨entry 5 0, by decide +kernel, rfl, by decide +kernel⟩⟩
  have : m = 1 ∨ m = 4 := by simpa [gateQueue, mk, put] using hm
  rcases this with rfl | rfl
  · exact ⟨entry 2 0, by decide +kernel, rfl, by decide +kernel⟩
  · exact ⟨entry 5 0, by decide +kernel, rfl, by decide +kernel⟩

theorem witness_OnlyOpenClassesStart :
    let s := walking 0 10
    ChainInv s 0 ∧ BoundsInv s ∧ s.segs[(0 : Seg)].transceiver = .idle ∧
    (∃ t tx, exec (.startWalk 0) s = .next t ∧ t.segs[(0 : Seg)].transceiver = .sending tx) ∧
    s.segs[(0 : Seg)].outstanding.length ≤ 4 ∧ s.segs[(0 : Seg)].ring.length ≤ 8 := by
  exact ⟨chainInv_of_check (by decide +kernel), boundsInv_of_check (by decide +kernel),
    by decide +kernel, ⟨_, ⟨2, 5, lineBytes 100 0 5 1 [1], 0⟩, rfl, by decide +kernel⟩,
    by decide +kernel, by decide +kernel⟩

/-! ### Witnesses: the segment line -/

/-- The small state with the transceiver of segment 0 in a state. -/
def listening (x : Transceiver) : State := mk [] { active with transceiver := x }

theorem witness_ReceptionBegins :
    base.pins.hold = none ∧ base.segs[(0 : Seg)].transceiver = .idle ∧
    (listening (.quiet 5)).segs[(0 : Seg)].transceiver = .quiet 5 ∧
    base.segs[(0 : Seg)].profile.isActivity .steady = true ∧
    base.segs[(0 : Seg)].profile.isActivity .undriven = false ∧
    busy.segs[(0 : Seg)].transceiver = .sending sending ∧
    (let rx : Reception := { since := 5, bad := false, stuck := some 293 }
     (listening (.receiving rx)).segs[(0 : Seg)].transceiver = .receiving rx ∧
     (∀ x : LineSpan, ([] : List LineSpan).getLast? = some x →
       Profile.atReset.reads x.wire ≠ Profile.atReset.reads .steady) ∧
     (∀ x : LineSpan, [{ wire := Wire.steady, micros := 2 }, { wire := .undriven, micros := 1 }].getLast? =
       some x → Profile.atReset.reads x.wire ≠ Profile.atReset.reads .steady) ∧
     5 + 0 * 288 ≤ 293 ∧ 293 < 5 + 3 * 288) := by
  refine ⟨by decide +kernel, by decide +kernel, by decide +kernel, by decide +kernel, by decide +kernel,
    by decide +kernel, by decide +kernel, (fun x h => by cases h), fun x h => ?_, by decide, by decide⟩
  obtain rfl := Option.some.inj h
  decide

/-- R99: a MARK of 1 s that follows other conditions is reported 1 s after it began, once. -/
theorem test_stuck_line :
    let rx : Reception := { since := 5, bad := false, stuck := none }
    let first : List LineSpan := [{ wire := .steady, micros := 700000 }, { wire := .undriven, micros := 300 },
      { wire := .steady, micros := 1000000 }]
    let again := first ++ [{ wire := .undriven, micros := 300 }, { wire := .steady, micros := 1000000 }]
    let notices (spans : List LineSpan) (s : State) : Nat :=
      match exec (.stuckLine { segment := 0, spans := spans }) s with
      | .next t => t.reports.noticeQueue.length
      | _ => 0
    (match exec (.stuckLine { segment := 0, spans := first }) (listening (.receiving rx)) with
      | .next t => t.pins.now == 5 + 1700300 * 288 && t.segs[(0 : Seg)].state == .held .lineFault &&
          t.reports.noticeQueue.length == 2 && notices first t == 2 && notices again t == 3
      | _ => false) = true := by
  decide +kernel

/-- A profile of a mode, valid at the boundary of its checks. -/
def profile (mode : LineMode) : Profile :=
  { Profile.atReset with mode := mode, unitTime := 104 }

theorem witness_LineIsReadAndSampled :
    (profile .baseband).mode = .baseband ∧ (profile .carrier).mode = .carrier ∧
    (750 * (profile .carrier).p1 ≤ 32500 ∧ 32500 ≤ 1250 * (profile .carrier).p1 ∧
      1250 * (profile .carrier).p1 < 32501) ∧
    (profile .shift).mode = .shift ∧ (profile .shift).p1 ≠ (profile .shift).p2 ∧
    (profile .shift).isValid = true ∧ 1 ≤ 16 ∧ 16 ≤ (profile .shift).leaderMark ∧
    ((profile .shift).leaderMark < 24 ∧
      24 ≤ (profile .shift).leaderMark + (profile .shift).leaderSpace) ∧
    25 = telegramUnits (profile .shift) [] ∧ telegramUnits (profile .shift) [] < 26 ∧
    isMarkUnit (profile .shift) [0x48] 25 ∧ isSpaceUnit (profile .shift) [0x48] 26 ∧
    isMarkUnit (profile .shift) [0x48] 45 ∧
    base.segs[(0 : Seg)].transceiver ≠ .sending sending ∧
    (busy.pins.hold = none ∧ busy.segs[(0 : Seg)].transceiver = .sending sending ∧
      0 + (17 - 1) * (busy.segs[(0 : Seg)].profile.unitTime * 288) ≤ 2304000 ∧
      2304000 < 0 + 17 * (busy.segs[(0 : Seg)].profile.unitTime * 288) ∧
      isSpaceUnit busy.segs[(0 : Seg)].profile sending.telegram 17) := by
  refine ⟨by decide, by decide, by decide, by decide, by decide, by decide, by decide, by decide,
    by decide, by decide, by decide, .inr (.inl ⟨0, by decide, by decide, by decide⟩),
    .inr ⟨0, by decide, by decide, by decide⟩, .inr (.inr (by decide)), by decide +kernel,
    by decide +kernel, by decide +kernel, by decide +kernel, by decide +kernel, ?_⟩
  have e : busy.segs[(0 : Seg)].profile = Profile.atReset := by decide +kernel
  rw [e]
  exact .inl (by decide)

/-- Section 6.2.1: the byte 0x48 under the reset profile: its fourth bit is a one, after six units, and
takes three; each instant drives what the unit keyed then calls for. -/
theorem test_line_out :
    (unitsBefore Profile.atReset [0x48] 3 = 24 + 6 ∧ bitAt [0x48] 3 = true ∧
      unitsBefore Profile.atReset [0x48] 8 = 24 + 20) ∧
    busy.lineOut 0 2303999 = .steady ∧ busy.lineOut 0 2304000 = .undriven ∧
    (profile .shift).drives false = .carrier 20000 := by
  decide +kernel

/-- A transmission of slot 2, of a class, with a number of attempts made, while slot 1 waits. -/
def conflicting (cls : ClassNo) (attempts streak : Nat) : State :=
  mk [(1, entry 2 0), (2, { tagged 3 9 with cls := cls, attempts := attempts })]
    { active with sendQueue := [1], transceiver := .sending sending, conflictStreak := streak }

theorem witness_ConflictAborts :
    ((conflicting 0 1 7).pins.hold = none ∧
      (conflicting 0 1 7).segs[(0 : Seg)].transceiver = .sending sending ∧
      (conflicting 0 1 7).buffer.slots[(2 : SlotNo)] = some (tagged 3 9) ∧
      (conflicting 0 1 7).segs[(0 : Seg)].conflictStreak ≤ 8 ∧
      7 ≤ (conflicting 0 1 7).segs[(0 : Seg)].conflictStreak) ∧
    (Profile.atReset.mismatch sending.telegram 16 .steady = false ∧
      Profile.atReset.mismatch sending.telegram 17 .steady = true) ∧
    ((tagged 3 9).attempts < 1 + (tagged 3 9).retryLimit.val ∧
      ((conflicting 0 1 7).bank.active.classes[(0 : ClassNo)]).isSome = true ∧
      splitsAbove (conflicting 0 1 7) (conflicting 0 1 7).segs[(0 : Seg)].sendQueue [] [1] 1) ∧
    (conflicting 4 1 0).bank.active.classes[(4 : ClassNo)] = none ∧
    (conflicting 0 2 0).buffer.slots[(2 : SlotNo)] = some { tagged 3 9 with attempts := 2 } := by
  refine ⟨by decide +kernel, by decide +kernel, ⟨by decide, by decide +kernel, by decide +kernel,
    (fun m hm => by cases hm), fun m hm => ?_⟩, by decide +kernel, by decide +kernel⟩
  obtain rfl := List.mem_singleton.1 hm
  exact ⟨entry 2 0, by decide +kernel, by decide⟩

theorem witness_TransmissionsAndQuietGapsEnd :
    (busy.pins.hold = none ∧ busy.segs[(0 : Seg)].transceiver = .sending sending ∧
      busy.buffer.slots[(2 : SlotNo)] = some (tagged 3 9) ∧ (tagged 3 9).answerExpected = true) ∧
    (let s := mk [(2, { tagged 3 9 with answerExpected := false })]
        { active with transceiver := .sending sending }
     s.buffer.slots[(2 : SlotNo)] = some { tagged 3 9 with answerExpected := false }) ∧
    (listening (.quiet 5)).segs[(0 : Seg)].transceiver = .quiet 5 ∧
    (listening (.quiet 5)).segs[(0 : Seg)].sendQueue = [] := by
  decide +kernel

/-- What device 100 keys to answer a tag with a status byte, on a line at the reset profile. -/
def keyed (tag : Byte) : List LineSpan :=
  (Profile.atReset.key (lineBytes 0 100 tag 2 [7])).map fun x =>
    { wire := if x.mark then .steady else .undriven, micros := x.units * 500 }

/-- The answer it carries. -/
def answerTo (tag : Byte) : LineAnswer :=
  { device := 100, tag := tag, part := { status := 7, data := [] } }

/-- A reception while slot 3 is AWAITING with tag 8, and slots 0 and 1 wait after timeouts of tags 6
and 7; tag 5 has been answered. -/
def hearing (bad : Bool) : State :=
  mk [(0, waiting 1 1), (1, entry 2 0), (3, tagged 4 8)]
    { active with
      deferralQueue := [0]
      sendQueue := [1]
      transceiver := .receiving { since := 5, bad := bad, stuck := none }
      outstanding := [{ tag := 8, device := 100, slot := 3, expiry := 500 }]
      ring := [{ tag := 5, device := 100, slot := 9, intake := 0, reason := .answered },
        { tag := 6, device := 100, slot := 0, intake := 1, reason := .timedOut },
        { tag := 7, device := 100, slot := 1, intake := 2, reason := .timedOut },
        { tag := 4, device := 100, slot := 20, intake := 2, reason := .timedOut }] }

/-- R98: a leader of 8000 us is within tolerance from 6000 to 10000 us. -/
theorem test_receive :
    let heard (micros : Nat) := Profile.atReset.receive
      ({ wire := .steady, micros := micros } :: (keyed 8).drop 1)
    heard 6000 = some (answerTo 8) ∧ heard 10000 = some (answerTo 8) ∧
      heard 5999 = none ∧ heard 10001 = none := by
  decide +kernel

/-- R101: another kind, another destination, and a CRC that does not match. -/
theorem test_bad_answers :
    readAnswer (lineBytes 0 100 8 1 [7]) = none ∧ readAnswer (lineBytes 1 100 8 2 [7]) = none ∧
      readAnswer ((lineBytes 0 100 8 2 [7]).set 6 6) = none := by
  decide +kernel

theorem witness_ReceptionEnds :
    let s := hearing false
    let x := s.segs[(0 : Seg)]
    (x.profile.isActivity .steady = true ∧ x.profile.isActivity .undriven = false) ∧
    (s.pins.hold = none ∧ x.transceiver = .receiving { since := 5, bad := false, stuck := none } ∧
      (hearing true).segs[(0 : Seg)].transceiver =
        .receiving { since := 5, bad := true, stuck := none } ∧
      x.profile.receive [] = none) ∧
    (x.profile.receive (keyed 8) = some (answerTo 8) ∧
      x.outstanding = [] ++ { tag := 8, device := 100, slot := 3, expiry := 500 } :: [] ∧
      s.buffer.slots[(3 : SlotNo)] = some (tagged 4 8) ∧ x.ring.length ≤ 8 ∧
      (101 : Addr) ≠ (answerTo 8).device) ∧
    (x.profile.receive (keyed 9) = some (answerTo 9) ∧ (∀ y ∈ x.outstanding, y.tag ≠ 9) ∧
      ∀ y ∈ x.ring, ¬ (y.tag = 9 ∧ y.device = 100)) ∧
    (x.profile.receive (keyed 5) = some (answerTo 5) ∧ (∀ y ∈ x.outstanding, y.tag ≠ 5) ∧
      x.ring = [] ++ { tag := 5, device := 100, slot := 9, intake := 0, reason := .answered } ::
        x.ring.drop 1 ∧ ∀ y ∈ [] ++ x.ring.drop 1, ¬ (y.tag = 5 ∧ y.device = 100)) ∧
    (x.profile.receive (keyed 6) = some (answerTo 6) ∧
      s.buffer.slots[(0 : SlotNo)] = some (waiting 1 1) ∧ (0 : SlotNo) ∈ x.deferralQueue) ∧
    (x.profile.receive (keyed 7) = some (answerTo 7) ∧
      s.buffer.slots[(1 : SlotNo)] = some (entry 2 0) ∧ (1 : SlotNo) ∉ x.deferralQueue ∧
      (1 : SlotNo) ∈ x.sendQueue) ∧
    x.profile.receive (keyed 4) = some (answerTo 4) ∧ s.buffer.slots[(20 : SlotNo)] = none := by
  decide +kernel

theorem witness_AnswerTimersRunOut :
    (busy.pins.hold = none ∧
      busy.segs[(0 : Seg)].outstanding =
        [] ++ { tag := 8, device := 100, slot := 3, expiry := 500 } :: [] ∧
      busy.buffer.slots[(3 : SlotNo)] = some (tagged 4 8) ∧ busy.segs[(0 : Seg)].ring.length ≤ 8 ∧
      (tagged 4 8).attempts < 1 + (tagged 4 8).retryLimit.val ∧
      (busy.bank.active.classes[(0 : ClassNo)]).isSome = true) ∧
    splitsAbove busy busy.segs[(0 : Seg)].sendQueue [] [1] 1 ∧
    (let r : Slot := { tagged 4 8 with attempts := 2 }
     1 + r.retryLimit.val ≤ r.attempts) ∧
    busy.bank.active.classes[(4 : ClassNo)] = none := by
  refine ⟨by decide +kernel, ⟨by decide +kernel, (fun m hm => by cases hm), fun m hm => ?_⟩,
    by decide, by decide +kernel⟩
  obtain rfl := List.mem_singleton.1 hm
  exact ⟨{ entry 2 0 with attempts := 1 }, by decide +kernel, by decide⟩

theorem witness_KeyedAnswersAreReceived :
    ((profile .baseband).isValid = true ∧ (profile .carrier).isValid = true ∧
      (profile .shift).isValid = true ∧ (List.replicate 47 (0xFF : Byte)).length ≤ 47) ∧
    ((profile .baseband).reads .steady = .mark ∧ (profile .baseband).reads .undriven = .space ∧
      (profile .shift).reads (.carrier 26000) = .mark ∧
      (profile .shift).reads (.carrier 20000) = .space) ∧
    (within Profile.atReset 6000 16 ∧ within Profile.atReset 10000 16 ∧ ¬ within Profile.atReset 5999 16 ∧
      judgedAs Profile.atReset 625 false ∧ judgedAs Profile.atReset 1125 true ∧
      ¬ judgedAs Profile.atReset 626 false) ∧
    (GoodFrame (lineBytes 0 100 8 2 [7]) ∧ answerOf (lineBytes 0 100 8 2 [7]) = answerTo 8 ∧
      GoodFrame (lineBytes 0 100 8 2 (List.replicate 48 7))) ∧
    ((profile .baseband).reads .steady = (profile .baseband).reads (.carrier 5) ∧
      (profile .carrier).isActivity .undriven = false) ∧
    ((profile .shift).mode = .shift ∧ (profile .shift).reads .undriven = .idle ∧
      (profile .baseband).reads .undriven ≠ .mark) := by
  refine ⟨by decide, by decide, ?_, ⟨⟨by decide, by decide, by decide, by decide, by decide, by decide +kernel⟩,
    by decide +kernel, by decide, by decide, by decide, by decide, by decide, by decide +kernel⟩,
    by decide, by decide⟩
  unfold judgedAs within
  decide

/-! ### Witnesses: reports and the trunk transmitter -/

theorem witness_ReportsAreFormed :
    busy.pins.hold = none ∧ busy.reports.backlog = 4 :: [] ∧ busy.reports.reportQueue.length < 16 ∧
    busy.buffer.slots[(4 : SlotNo)] = some { entry 5 0 with outcome := some .sent } ∧
    base.reports.backlog = [] ∧
    (let s : State :=
       { busy with reports.reportQueue := List.replicate 16 (refusal busy (command 0) .sent none) }
     16 ≤ s.reports.reportQueue.length) := by
  decide +kernel

theorem witness_ArbiterTakesInOrder :
    let r : Response := { destination := 12, seq := 0, code := 1, status := .ok, result := [] }
    let n : Notice := { destination := 0, kind := .storeClear 192 }
    let e : Report := refusal base (command 0) .refusedNoRoute none
    (base.pins.hold = none ∧ base.port.transmitter = .idle ∧ crowded.port.transmitter = .idle ∧
      crowded.reports.responseQueue = r :: [r, r]) ∧
    (base.reports.responseQueue = [] ∧ base.reports.noticeQueue ≠ []) ∧
    (let s : State := { base with reports.noticeQueue := [n], reports.reportQueue := [e] }
     s.reports.responseQueue = [] ∧ s.reports.noticeQueue = n :: []) ∧
    (let s : State := { base with reports.noticeQueue := [], reports.reportQueue := [e] }
     s.reports.responseQueue = [] ∧ s.reports.noticeQueue = [] ∧ s.reports.reportQueue = e :: []) ∧
    (let s : State := { base with reports.noticeQueue := [] }
     s.reports.noticeQueue = [] ∧ s.reports.reportQueue = []) ∧
    { base with port.transmitter := .sending (.notice n) [] 5 }.port.transmitter ≠ .idle := by
  decide +kernel

/-- The trunk transmitter sends the response with a code. -/
def responding (code : Byte) : State :=
  { base with port.transmitter := .sending (.response
      { destination := 12, seq := 40, code := code, status := .ok, result := [] }) [] 5 }

/-- The transmitter sends a frame of one byte at 4800 bit/s from instant 7. -/
def keying : State :=
  { base with port.transmitter :=
      .sending (.notice { destination := 0, kind := .storeClear 192 }) [0xA6] 600007 }

/-- R157: 0xA6 on TTX, least significant bit first. -/
theorem test_ttx :
    (List.range 12).map (fun i => keying.ttxOut (7 + 60000 * i - 1)) =
      [.stop, .start, .data false, .data true, .data true, .data false, .data false, .data true,
        .data false, .data true, .stop, .stop] := by
  decide +kernel

theorem witness_TrunkTransmissionsEnd :
    (keying.pins.hold = none ∧ keying.port.transmitter =
        .sending (.notice { destination := 0, kind := .storeClear 192 }) [0xA6] 600007 ∧
      600007 = 7 + [(0xA6 : Byte)].length * 10 * trunkBitTime keying ∧
      7 + (10 * 0 + 9) * trunkBitTime keying ≤ 600006 ∧
      600006 < 7 + (10 * 0 + 9 + 1) * trunkBitTime keying ∧ base.port.transmitter = .idle) ∧
    (responding 1).pins.hold = none ∧
    (responding 1).port.transmitter = .sending (.response
      { destination := 12, seq := 40, code := 1, status := .ok, result := [] }) [] 5 ∧
    (responding 0x14).port.transmitter = .sending (.response
      { destination := 12, seq := 40, code := 0x14, status := .ok, result := [] }) [] 5 ∧
    ¬ ((1 : Byte) = 0x14 ∧ Status.ok = .ok) := by
  decide

/-! ### Witnesses: commit -/

/-- An image with a defined window on no day. -/
def badTables : Tables :=
  { tables with windows := put tables.windows 31 (some { w5 with dayMask := 0 }) }

/-- A validation in progress, on a staging image. -/
def validating (staging : Tables) : State :=
  { busy with bank.staging := staging, agent.commit := .validating 1332000 12 77 }

theorem witness_CommitsStartAndFail :
    (Accepts base (req []) true true ∧ (req []).params = []) ∧
    (validating badTables).pins.hold = none ∧
    (validating badTables).agent.commit = .validating 1332000 12 77 ∧
    (validating badTables).bank.staging.validate =
      some { table := .window, index := 31, reason := .emptyDayMask } :=
  ⟨⟨accepts_mk _ _ _ _ _, rfl⟩, rfl, rfl, by decide +kernel⟩

theorem witness_ValidationFindsTheFirstFailure :
    tables.validate = none ∧
      badTables.validate = some { table := .window, index := 31, reason := .emptyDayMask } := by
  decide +kernel

theorem witness_CommitSwaps :
    let s := validating Tables.empty
    s.pins.hold = none ∧ s.agent.commit = .validating 1332000 12 77 ∧ Consistent s.bank.staging ∧
    StoreInv s ∧ RecordsInv s ∧
    (∀ n : SlotNo, (s.buffer.slots[n].any fun r => (s.bank.staging.classes[r.cls]).isNone) = true ↔
      ∃ r, s.buffer.slots[n] = some r ∧ s.bank.staging.classes[r.cls] = none) :=
  ⟨rfl, rfl, consistent_of_check (by decide +kernel), storeInv_of_check (by decide +kernel),
    recordsInv_of_check (by decide +kernel),
    fun n => by simp only [Option.any_eq_true, Option.isNone_iff_eq_none]⟩

/-! ### Witnesses: reset and invariants -/

theorem witness_ResetValues :
    State.reset = State.afterReset .powerOn { adr := 0, rate := 0 } := rfl

theorem witness_InvariantsHoldAtReset :
    State.afterReset .restart { adr := 3, rate := 1 } = State.afterReset .restart { adr := 3, rate := 1 } ∨
      State.afterReset .restart { adr := 3, rate := 1 } = State.reset := .inl rfl

theorem witness_step : ∃ t, step busy = .next t := ⟨_, rfl⟩

theorem witness_StepsKeepTheStore : StoreInv busy ∧ ∃ t, step busy = .next t :=
  ⟨busy_store, witness_step⟩

theorem witness_StepsKeepTheRecords : StoreInv busy ∧ RecordsInv busy ∧ ∃ t, step busy = .next t :=
  ⟨busy_store, busy_records, witness_step⟩

theorem busy_intakes : IntakeInv busy := intakeInv_of_check (by decide +kernel)
theorem busy_recent : RecentIntakes busy := recentIntakes_of_check (by decide +kernel)

theorem witness_StepsKeepTheChains :
    StoreInv busy ∧ ChainsInv busy ∧ RecentIntakes busy ∧ IntakeInv busy ∧ ∃ t, step busy = .next t :=
  ⟨busy_store, busy_chains, busy_recent, busy_intakes, witness_step⟩

theorem witness_StepsKeepTheTags :
    StoreInv busy ∧ ChainsInv busy ∧ BoundsInv busy ∧ TagsInv busy ∧ ∃ t, step busy = .next t :=
  ⟨busy_store, busy_chains, busy_bounds, busy_tags, witness_step⟩

theorem witness_StepsKeepTheBounds : BoundsInv busy ∧ ∃ t, step busy = .next t :=
  ⟨busy_bounds, witness_step⟩

theorem witness_StepsKeepTheOccupancyFlag : OccupancyInv busy ∧ ∃ t, step busy = .next t :=
  ⟨busy_occupancy, witness_step⟩

theorem witness_StepsKeepClockAndWindows : ClockInv busy ∧ ∃ t, step busy = .next t :=
  ⟨busy_clock, witness_step⟩

theorem witness_StepsKeepTheActiveTables :
    Consistent busy.bank.active ∧ ∃ t, step busy = .next t :=
  ⟨busy_consistent, witness_step⟩

/-! ### Single steps -/

/-- Section 3.8.1, step 4: the tick to Friday 22:00:00 opens W5 and signals it. -/
theorem test_edge_opens :
    (match step busy with
      | .next t => t.windowOpen[(0 : WindowNo)] && t.occasions.contains (.examination 3) &&
          t.clock.uptime == 6
      | _ => false) = true := by
  decide +kernel

/-- Section 8.8, step 7: a formation that brings the in-use count to 192 or less queues STORE_CLEAR. -/
theorem test_formation_clears :
    (match exec .reportFormation { busy with buffer.storeHigh := true } with
      | .next t => t.reports.noticeQueue.map Notice.kind == [.started .powerOn 4080, .storeClear 4] &&
          t.reports.reportQueue.map Report.outcome == [.sent] && !t.buffer.storeHigh
      | _ => false) = true := by
  decide +kernel

/-- Section 7.7: at a timeout the entry goes to the ring, the slot to the front of its level. -/
theorem test_timeout_retries :
    (match exec (.answerTimerExpiry 0 8) busy with
      | .next t => t.segs[(0 : Seg)].sendQueue == [3, 1] &&
          t.segs[(0 : Seg)].ring.map Retired.tag == [7, 8] && t.segs[(0 : Seg)].outstanding.isEmpty
      | _ => false) = true := by
  decide +kernel

/-- Section 5.8.3: the eighth conflict holds the segment with its notice. -/
theorem test_eighth_conflict :
    (match exec (.conflictAbort 0 17 .steady) (conflicting 0 1 7) with
      | .next t => t.segs[(0 : Seg)].state == .held .lineFault &&
          t.reports.noticeQueue.map Notice.kind ==
            [.started .powerOn 4080, .lineFault 0 .conflicts] && t.segs[(0 : Seg)].sendQueue == [2, 1]
      | _ => false) = true := by
  decide +kernel

/-- Section 2.7.2: with the store full the youngest slot of the lowest priority gives way. -/
theorem test_displacement :
    (match exec (.admission (command 0)) full with
      | .next t => t.segs[(0 : Seg)].sendQueue == [255] && t.buffer.intakeCounter == 256 &&
          t.reports.reportQueue.map Report.destination == [31]
      | _ => false) = true := by
  decide +kernel

end Sys2Proof.Tests
end

