-- ==== Sys2Proof/Proofs/Places.lean ====
section
/-! SUPPORT. Where each slot in use stands (R5) and what its record then holds (R4), as one list of
places: the terms in which the invariants of the store and of the records are kept. -/

namespace Sys2Proof.Machine

open Sys2Proof.Safety

/-! ### Vectors -/

theorem put_apply {α : Type} {n : Nat} (v : Vector α n) (i j : Fin n) (x : α) :
    (put v i x)[j] = if j = i then x else v[j] := by
  split
  · next h => rw [h, put_same]
  · next h => exact put_other v i j x h

/-! ### Places -/

/-- The place of a slot that a collection of the part holds (R5); SENDING and AWAITING are one place,
with the line tag given there. -/
inductive Place where
  | deferred (g : Seg)
  | queued (g : Seg)
  | onLine (g : Seg) (tag : Byte)
  | backlog
  deriving DecidableEq

/-- The segment whose chain a place belongs to. -/
def Place.segment : Place → Option Seg
  | .deferred g => some g
  | .queued g => some g
  | .onLine g _ => some g
  | .backlog => none

/-- The line tag of a place. -/
def Place.tag : Place → Option Byte
  | .onLine _ t => some t
  | _ => none

/-- The place is a Deferral Queue. -/
def Place.isDeferred : Place → Bool
  | .deferred _ => true
  | _ => false

/-- The place is the Report Backlog. -/
def Place.isBacklog : Place → Bool
  | .backlog => true
  | _ => false

/-- A slot in this place waits for a start. -/
def Place.waits : Place → Bool
  | .deferred _ => true
  | .queued _ => true
  | _ => false

/-- The place that a transceiver in SENDING gives a slot. -/
def sendingPlaces (g : Seg) : Transceiver → List (SlotNo × Place)
  | .sending tx => [(tx.slot, .onLine g tx.tag)]
  | _ => []

/-- The slots a segment chain holds, with their places. -/
def chainPlaces (g : Seg) (x : Segment) : List (SlotNo × Place) :=
  x.deferralQueue.map (fun n => (n, .deferred g)) ++ x.sendQueue.map (fun n => (n, .queued g)) ++
    sendingPlaces g x.transceiver ++ x.outstanding.map fun e => (e.slot, .onLine g e.tag)

/-- The slots of the Report Backlog, with their place. -/
def State.backlogPlaces (s : State) : List (SlotNo × Place) :=
  s.reports.backlog.map fun n => (n, .backlog)

/-- Every slot a collection holds, with its place. -/
def State.places (s : State) : List (SlotNo × Place) :=
  (List.finRange 4).flatMap (fun g => chainPlaces g s.segs[g]) ++ s.backlogPlaces

/-- The places outside one segment chain. -/
def State.placesOutside (s : State) (g : Seg) : List (SlotNo × Place) :=
  ((List.finRange 4).erase g).flatMap (fun h => chainPlaces h s.segs[h]) ++ s.backlogPlaces

theorem chainPlaces_fst (g : Seg) (x : Segment) :
    (chainPlaces g x).map Prod.fst = chainSlots x := by
  have sending : (sendingPlaces g x.transceiver).map Prod.fst = sendingSlot x := by
    cases h : x.transceiver <;> simp [sendingPlaces, sendingSlot, h]
  simp [chainPlaces, chainSlots, sending, Function.comp_def]

theorem places_fst (s : State) : s.places.map Prod.fst = heldSlots s := by
  have four : List.finRange 4 = [0, 1, 2, 3] := rfl
  simp [State.places, State.backlogPlaces, heldSlots, four, chainPlaces_fst, Function.comp_def]

/-- One chain's places apart from all others. -/
theorem places_perm (s : State) (g : Seg) :
    s.places.Perm (chainPlaces g s.segs[g] ++ s.placesOutside g) := by
  have four := List.perm_cons_erase (List.mem_finRange g)
  have chains := (four.flatMap_right fun h => chainPlaces h s.segs[h]).append_right s.backlogPlaces
  simpa [State.places, State.placesOutside] using chains

variable {s t : State}

theorem places_congr (segs : t.segs = s.segs) (backlog : t.reports.backlog = s.reports.backlog) :
    t.places = s.places := by
  simp only [State.places, State.backlogPlaces, segs, backlog]

theorem placesOutside_put {g : Seg} {x : Segment} (segs : t.segs = put s.segs g x)
    (backlog : t.reports.backlog = s.reports.backlog) : t.placesOutside g = s.placesOutside g := by
  unfold State.placesOutside State.backlogPlaces
  rw [backlog]
  congr 1
  refine List.flatMap_congr fun h hh => ?_
  have ne : h ≠ g := by
    rintro rfl
    exact (List.nodup_finRange 4).not_mem_erase hh
  rw [segs, put_other _ _ _ _ ne]

/-- The places after one chain has been replaced. -/
theorem places_perm_put {g : Seg} {x : Segment} (segs : t.segs = put s.segs g x)
    (backlog : t.reports.backlog = s.reports.backlog) :
    t.places.Perm (chainPlaces g x ++ s.placesOutside g) := by
  have := places_perm t g
  rwa [placesOutside_put segs backlog, segs, put_same] at this

/-- A chain replaced by one that holds the same slots in the same places. -/
theorem places_put_same {g : Seg} {x : Segment} (segs : t.segs = put s.segs g x)
    (backlog : t.reports.backlog = s.reports.backlog)
    (chain : chainPlaces g x = chainPlaces g s.segs[g]) : t.places = s.places := by
  unfold State.places State.backlogPlaces
  rw [backlog]
  congr 1
  refine List.flatMap_congr fun h _ => ?_
  rw [segs, put_apply]
  split
  · next e => rw [e, chain]
  · rfl

/-! ### Where a slot stands -/

section membership

variable {n : SlotNo} {P : Place} {g h : Seg} {x : Segment}

theorem mem_sendingPlaces {y : Transceiver} :
    (n, P) ∈ sendingPlaces g y ↔
      ∃ tx : Transmission, y = .sending tx ∧ tx.slot = n ∧ P = .onLine g tx.tag := by
  cases y <;> simp [sendingPlaces, eq_comm (a := n)]

theorem mem_chainPlaces_deferred :
    (n, Place.deferred h) ∈ chainPlaces g x ↔ g = h ∧ n ∈ x.deferralQueue := by
  simp [chainPlaces, mem_sendingPlaces, and_comm]

theorem mem_chainPlaces_queued :
    (n, Place.queued h) ∈ chainPlaces g x ↔ g = h ∧ n ∈ x.sendQueue := by
  simp [chainPlaces, mem_sendingPlaces, and_comm]

theorem mem_chainPlaces_onLine {tag : Byte} :
    (n, Place.onLine h tag) ∈ chainPlaces g x ↔ g = h ∧ chainTag x n tag := by
  simp only [chainPlaces, chainTag, List.mem_append, mem_sendingPlaces, List.mem_map, Prod.mk.injEq,
    Place.onLine.injEq, reduceCtorEq, and_false, exists_false, false_or]
  constructor
  · rintro (⟨tx, hx, hn, rfl, rfl⟩ | ⟨e, he, hn, rfl, rfl⟩)
    · exact ⟨rfl, .inl ⟨tx, hx, hn, rfl⟩⟩
    · exact ⟨rfl, .inr ⟨e, he, hn, rfl⟩⟩
  · rintro ⟨rfl, ⟨tx, hx, hn, rfl⟩ | ⟨e, he, hn, rfl⟩⟩
    · exact .inl ⟨tx, hx, hn, rfl, rfl⟩
    · exact .inr ⟨e, he, hn, rfl, rfl⟩

theorem not_mem_chainPlaces_backlog : (n, Place.backlog) ∉ chainPlaces g x := by
  simp [chainPlaces, mem_sendingPlaces]

/-- The places of a chain are those of its segment. -/
theorem segment_of_mem_chainPlaces (hm : (n, P) ∈ chainPlaces g x) : P.segment = some g := by
  cases P with
  | deferred h => exact congrArg some (mem_chainPlaces_deferred.1 hm).1.symm
  | queued h => exact congrArg some (mem_chainPlaces_queued.1 hm).1.symm
  | onLine h tag => exact congrArg some (mem_chainPlaces_onLine.1 hm).1.symm
  | backlog => exact absurd hm not_mem_chainPlaces_backlog

theorem mem_places_chain (hP : P.segment = some g) :
    (n, P) ∈ s.places ↔ (n, P) ∈ chainPlaces g s.segs[g] := by
  constructor
  · intro hm
    obtain hm | hm := List.mem_append.1 hm
    · obtain ⟨h, _, hh⟩ := List.mem_flatMap.1 hm
      obtain rfl := Option.some.inj (hP.symm.trans (segment_of_mem_chainPlaces hh))
      exact hh
    · obtain ⟨m, _, e⟩ := List.mem_map.1 hm
      obtain ⟨-, rfl⟩ := Prod.mk.inj e
      cases hP
  · intro hm
    exact List.mem_append_left _ (List.mem_flatMap.2 ⟨g, List.mem_finRange g, hm⟩)

theorem mem_places_deferred :
    (n, Place.deferred g) ∈ s.places ↔ n ∈ s.segs[g].deferralQueue := by
  rw [mem_places_chain rfl, mem_chainPlaces_deferred, and_iff_right rfl]

theorem mem_places_queued : (n, Place.queued g) ∈ s.places ↔ n ∈ s.segs[g].sendQueue := by
  rw [mem_places_chain rfl, mem_chainPlaces_queued, and_iff_right rfl]

theorem mem_places_onLine {tag : Byte} :
    (n, Place.onLine g tag) ∈ s.places ↔ chainTag s.segs[g] n tag := by
  rw [mem_places_chain rfl, mem_chainPlaces_onLine, and_iff_right rfl]

theorem mem_places_backlog : (n, Place.backlog) ∈ s.places ↔ n ∈ s.reports.backlog := by
  rw [State.places, List.mem_append, State.backlogPlaces, List.mem_map]
  constructor
  · rintro (hm | ⟨m, hm, e⟩)
    · obtain ⟨h, _, hh⟩ := List.mem_flatMap.1 hm
      exact absurd hh not_mem_chainPlaces_backlog
    · exact (Prod.mk.inj e).1 ▸ hm
  · exact fun hm => .inr ⟨n, hm, rfl⟩

end membership

/-! ### What a record holds in a place -/

/-- The fields of a record are those of a place (R4), and its attempts what R109 allows there. -/
structure Fits (P : Place) (r : Slot) : Prop where
  deferral : r.deferral.isSome = P.isDeferred
  tag : r.lineTag = P.tag
  outcome : r.outcome.isSome = P.isBacklog
  answer : r.answer.isSome = true ↔ r.outcome = some .answered ∨ r.outcome = some .answeredLate
  attempts : r.attempts ≤ 1 + r.retryLimit.val
  waiting : P.waits = true → r.attempts ≤ r.retryLimit.val

/-- The store is sound but for the slots in hand, which are in use and held by no collection; and,
when `records` is claimed, every record held fits its place. -/
structure Sound (records : Prop) (s : State) (hand : List SlotNo) : Prop where
  once : (hand ++ s.places.map Prod.fst).Nodup
  inUse : ∀ n : SlotNo, n ∈ hand ++ s.places.map Prod.fst ↔ s.buffer.slots[n].isSome = true
  segment : ∀ (n : SlotNo) (P : Place) (r : Slot) (g : Seg), (n, P) ∈ s.places →
    s.buffer.slots[n] = some r → P.segment = some g → r.segment = g
  fits : records → ∀ (n : SlotNo) (P : Place) (r : Slot), (n, P) ∈ s.places →
    s.buffer.slots[n] = some r → Fits P r

theorem mem_chainSlots {n : SlotNo} {g : Seg} :
    n ∈ chainSlots s.segs[g] ↔ ∃ P : Place, (n, P) ∈ s.places ∧ P.segment = some g := by
  rw [← chainPlaces_fst g, List.mem_map]
  constructor
  · rintro ⟨⟨m, P⟩, hm, rfl⟩
    have hP := segment_of_mem_chainPlaces hm
    exact ⟨P, (mem_places_chain hP).2 hm, hP⟩
  · rintro ⟨P, hm, hP⟩
    exact ⟨(n, P), (mem_places_chain hP).1 hm, rfl⟩

theorem sound_of_storeInv {records : Prop} (h : StoreInv s)
    (fits : records → ∀ (n : SlotNo) (P : Place) (r : Slot), (n, P) ∈ s.places →
      s.buffer.slots[n] = some r → Fits P r) : Sound records s [] where
  once := by simpa [places_fst] using h.once
  inUse n := by simpa [places_fst] using h.inUse n
  segment n P r g hm hr hP := h.segment g n r (mem_chainSlots.2 ⟨P, hm, hP⟩) hr
  fits := fits

theorem Sound.storeInv {records : Prop} (h : Sound records s []) : StoreInv s where
  once := by simpa [places_fst] using h.once
  inUse n := by simpa [places_fst] using h.inUse n
  segment g n r hn hr := by
    obtain ⟨P, hm, hP⟩ := mem_chainSlots.1 hn
    exact h.segment n P r g hm hr hP

/-- A slot stands in one place only. -/
theorem Sound.place_unique {records : Prop} {hand : List SlotNo} (h : Sound records s hand)
    {n : SlotNo} {P Q : Place} (hP : (n, P) ∈ s.places) (hQ : (n, Q) ∈ s.places) : P = Q :=
  congrArg Prod.snd
    (List.inj_on_of_nodup_map (List.nodup_append.1 h.once).2.1 hP hQ rfl)

theorem fits_of_recordsInv (store : StoreInv s) (h : RecordsInv s) {n : SlotNo} {P : Place} {r : Slot}
    (hm : (n, P) ∈ s.places) (hr : s.buffer.slots[n] = some r) : Fits P r := by
  have sound : Sound False s [] := sound_of_storeInv store False.elim
  have only : ∀ Q : Place, (n, Q) ∈ s.places ↔ P = Q :=
    fun Q => ⟨sound.place_unique hm, fun e => e ▸ hm⟩
  have seg : ∀ g, P.segment = some g → r.segment = g := fun g => sound.segment n P r g hm hr
  obtain ⟨deferral, tag, outcome, answer, attempts, waiting⟩ := h n r hr
  rw [← mem_places_deferred, only] at deferral
  simp only [← mem_places_onLine, only] at tag
  rw [← mem_places_backlog, only] at outcome
  rw [← mem_places_deferred, ← mem_places_queued, only, only] at waiting
  refine ⟨?_, ?_, ?_, answer, attempts, ?_⟩
  · cases P <;> simp_all [Place.isDeferred, Place.segment]
  · cases P with
    | onLine g t => exact (tag t).2 (by rw [seg g rfl])
    | _ => exact Option.eq_none_iff_forall_ne_some.2 fun t ht => by simpa using (tag t).1 ht
  · cases P <;> simp_all [Place.isBacklog]
  · cases P <;> simp_all [Place.waits, Place.segment]

/-- The invariants of the store and of the records, in terms of places. -/
theorem sound_of_invariants (store : StoreInv s) (h : RecordsInv s) : Sound True s [] :=
  sound_of_storeInv store fun _ _ _ _ hm hr => fits_of_recordsInv store h hm hr

theorem Sound.recordsInv (h : Sound True s []) : RecordsInv s := by
  intro n r hr
  have used : n ∈ s.places.map Prod.fst := (h.inUse n).2 (by rw [hr]; rfl)
  obtain ⟨⟨m, P⟩, hm, rfl⟩ := List.mem_map.1 used
  have only : ∀ Q : Place, (m, Q) ∈ s.places ↔ P = Q :=
    fun Q => ⟨h.place_unique hm, fun e => e ▸ hm⟩
  have seg : ∀ g, P.segment = some g → r.segment = g := fun g => h.segment m P r g hm hr
  obtain ⟨deferral, tag, outcome, answer, attempts, waiting⟩ := h.fits trivial m P r hm hr
  refine ⟨?_, fun t => ?_, ?_, answer, attempts, ?_⟩
  · rw [← mem_places_deferred, only, deferral]
    cases P <;> simp_all [Place.isDeferred, Place.segment]
  · rw [← mem_places_onLine, only, tag]
    cases P <;> simp_all [Place.tag, Place.segment]
  · rw [← mem_places_backlog, only, outcome]
    cases P <;> simp_all [Place.isBacklog]
  · rw [← mem_places_deferred, ← mem_places_queued, only, only]
    intro hw
    refine waiting ?_
    rcases hw with rfl | rfl <;> rfl

/-! ### A slot taken out of its place, changed, and put into another -/

section rules

variable {records : Prop} {hand : List SlotNo} {n : SlotNo} {P Q : Place} {r : Slot}

/-- A change that touches neither the slots nor their places. -/
theorem Sound.still (h : Sound records s hand) (places : t.places = s.places)
    (slots : t.buffer.slots = s.buffer.slots) : Sound records t hand := by
  obtain ⟨once, inUse, segment, fits⟩ := h
  exact ⟨places ▸ once, by rw [places, slots]; exact inUse, by rw [places, slots]; exact segment,
    by rw [places, slots]; exact fits⟩

/-- A slot leaves its place and is in hand. -/
theorem Sound.take (h : Sound records s []) (places : s.places.Perm ((n, P) :: t.places))
    (slots : t.buffer.slots = s.buffer.slots) : Sound records t [n] where
  once := (places.map Prod.fst).nodup h.once
  inUse m := by
    rw [slots, ← h.inUse m]
    exact ((places.map Prod.fst).mem_iff (a := m)).symm
  segment m R x g hm := by
    rw [slots]
    exact h.segment m R x g (places.mem_iff.2 (List.mem_cons_of_mem _ hm))
  fits hr m R x hm := by
    rw [slots]
    exact h.fits hr m R x (places.mem_iff.2 (List.mem_cons_of_mem _ hm))

/-- The slot in hand stands in no place. -/
theorem Sound.hand_not_mem (h : Sound records s [n]) {m : SlotNo} (hm : (m, P) ∈ s.places) :
    m ≠ n := by
  rintro rfl
  have := h.once
  simp only [List.cons_append, List.nil_append, List.nodup_cons] at this
  exact this.1 (List.mem_map.2 ⟨_, hm, rfl⟩)

/-- The record of the slot in hand is written. -/
theorem Sound.write (h : Sound records s [n]) (places : t.places = s.places)
    (slots : t.buffer.slots = put s.buffer.slots n (some r)) : Sound records t [n] where
  once := places ▸ h.once
  inUse m := by
    rw [places, h.inUse m, slots, put_apply]
    split
    · next e => rw [e, ← h.inUse n]; simp
    · rfl
  segment m R x g hm hx := by
    rw [places] at hm
    rw [slots, put_other _ _ _ _ (h.hand_not_mem hm)] at hx
    exact h.segment m R x g hm hx
  fits hr m R x hm hx := by
    rw [places] at hm
    rw [slots, put_other _ _ _ _ (h.hand_not_mem hm)] at hx
    exact h.fits hr m R x hm hx

/-- The slot in hand joins a place that its record fits. -/
theorem Sound.join (h : Sound records s [n]) (places : t.places.Perm ((n, Q) :: s.places))
    (slots : t.buffer.slots = put s.buffer.slots n (some r))
    (segment : ∀ g, Q.segment = some g → r.segment = g) (fits : records → Fits Q r) :
    Sound records t [] where
  once := (places.map Prod.fst).symm.nodup h.once
  inUse m := by
    rw [slots, put_apply, List.nil_append, (places.map Prod.fst).mem_iff]
    split
    · next e => simp [e]
    · exact h.inUse m
  segment m R x g hm hx hR := by
    obtain e | hm := List.mem_cons.1 (places.mem_iff.1 hm)
    · obtain ⟨rfl, rfl⟩ := Prod.mk.inj e
      rw [slots, put_same] at hx
      exact Option.some.inj hx ▸ segment g hR
    · rw [slots, put_other _ _ _ _ (h.hand_not_mem hm)] at hx
      exact h.segment m R x g hm hx hR
  fits hr m R x hm hx := by
    obtain e | hm := List.mem_cons.1 (places.mem_iff.1 hm)
    · obtain ⟨rfl, rfl⟩ := Prod.mk.inj e
      rw [slots, put_same] at hx
      exact Option.some.inj hx ▸ fits hr
    · rw [slots, put_other _ _ _ _ (h.hand_not_mem hm)] at hx
      exact h.fits hr m R x hm hx

/-- The slot in hand becomes FREE. -/
theorem Sound.release (h : Sound records s [n]) (places : t.places = s.places)
    (slots : t.buffer.slots = put s.buffer.slots n none) : Sound records t [] where
  once := by
    rw [places]
    exact h.once.of_cons
  inUse m := by
    have := h.inUse m
    rw [List.cons_append, List.mem_cons] at this
    rw [places, slots, put_apply]
    split
    · next e =>
      subst e
      have := h.once
      simp_all
    · next ne => simpa [ne] using this
  segment m R x g hm hx := by
    rw [places] at hm
    rw [slots, put_other _ _ _ _ (h.hand_not_mem hm)] at hx
    exact h.segment m R x g hm hx
  fits hr m R x hm hx := by
    rw [places] at hm
    rw [slots, put_other _ _ _ _ (h.hand_not_mem hm)] at hx
    exact h.fits hr m R x hm hx

/-- A FREE slot is taken into hand with a record. -/
theorem Sound.allocate (h : Sound records s []) (free : s.buffer.slots[n] = none)
    (places : t.places = s.places) (slots : t.buffer.slots = put s.buffer.slots n (some r)) :
    Sound records t [n] := by
  have fresh : ∀ R, (n, R) ∉ s.places := by
    intro R hm
    have := (h.inUse n).1 (List.mem_map.2 ⟨_, hm, rfl⟩)
    simp [free] at this
  have other : ∀ m R, (m, R) ∈ s.places → m ≠ n := by
    rintro m R hm rfl
    exact fresh R hm
  refine ⟨?_, fun m => ?_, fun m R x g hm hx => ?_, fun hr m R x hm hx => ?_⟩
  · rw [places, List.cons_append, List.nodup_cons]
    refine ⟨?_, h.once⟩
    rw [List.nil_append, List.mem_map]
    rintro ⟨⟨m, R⟩, hm, rfl⟩
    exact fresh R hm
  · rw [places, slots, put_apply, List.cons_append, List.mem_cons, h.inUse m]
    split
    · next e => simp [e]
    · next ne => simp [ne]
  · rw [places] at hm
    rw [slots, put_other _ _ _ _ (other m R hm)] at hx
    exact h.segment m R x g hm hx
  · rw [places] at hm
    rw [slots, put_other _ _ _ _ (other m R hm)] at hx
    exact h.fits hr m R x hm hx

end rules

end Sys2Proof.Machine
end

