-- ==== Sys2Proof/Proofs/PlaceRules.lean ====
section
/-! SUPPORT. What each shared operation does to the places of R5: a slot is taken out of a queue, a
transmission or the Outstanding List, its record is changed, and it joins another place. -/

namespace Sys2Proof.Machine

open Sys2Proof.Safety

/-! ### Chains with a slot more or less -/

section chains

variable {g : Seg} {x : Segment} {n : SlotNo}

theorem chainPlaces_erase_deferred (h : n ∈ x.deferralQueue) :
    (chainPlaces g x).Perm ((n, .deferred g) ::
      chainPlaces g { x with deferralQueue := x.deferralQueue.erase n }) := by
  have front := (List.perm_cons_erase h).map fun m => (m, Place.deferred g)
  exact ((front.append_right _).append_right _).append_right _

theorem chainPlaces_erase_queued (h : n ∈ x.sendQueue) :
    (chainPlaces g x).Perm ((n, .queued g) ::
      chainPlaces g { x with sendQueue := x.sendQueue.erase n }) := by
  have middle := (List.perm_cons_erase h).map fun m => (m, Place.queued g)
  exact (((middle.append_left _).trans List.perm_middle).append_right _).append_right _

theorem chainPlaces_sending {tx : Transmission} {y : Transceiver} (h : x.transceiver = .sending tx)
    (rest : sendingPlaces g y = []) :
    (chainPlaces g x).Perm ((tx.slot, .onLine g tx.tag) ::
      chainPlaces g { x with transceiver := y }) := by
  simp only [chainPlaces, h, rest]
  exact List.perm_middle.append_right _

theorem chainPlaces_erase_outstanding {e : Outstanding} {ring : List Retired}
    (h : e ∈ x.outstanding) :
    (chainPlaces g x).Perm ((e.slot, .onLine g e.tag) ::
      chainPlaces g { x with outstanding := x.outstanding.erase e, ring := ring }) := by
  have back := (List.perm_cons_erase h).map fun y => (y.slot, Place.onLine g y.tag)
  exact (back.append_left _).trans List.perm_middle

theorem chainPlaces_outstanding_append {e : Outstanding} :
    (chainPlaces g { x with outstanding := x.outstanding ++ [e] }).Perm
      ((e.slot, .onLine g e.tag) :: chainPlaces g x) := by
  have back := (List.perm_append_singleton e x.outstanding).map fun y =>
    (y.slot, Place.onLine g y.tag)
  exact (back.append_left _).trans List.perm_middle

theorem chainPlaces_of_deferred {queue : List SlotNo} (h : queue.Perm (n :: x.deferralQueue)) :
    (chainPlaces g { x with deferralQueue := queue }).Perm
      ((n, .deferred g) :: chainPlaces g x) := by
  have front := h.map fun m => (m, Place.deferred g)
  exact ((front.append_right _).append_right _).append_right _

theorem chainPlaces_of_queued {queue : List SlotNo} (h : queue.Perm (n :: x.sendQueue)) :
    (chainPlaces g { x with sendQueue := queue }).Perm ((n, .queued g) :: chainPlaces g x) := by
  have middle := h.map fun m => (m, Place.queued g)
  exact (((middle.append_left _).trans List.perm_middle).append_right _).append_right _

theorem insert_perm (queue : List SlotNo) (n : SlotNo) (test : SlotNo → Bool) :
    (queue.takeWhile test ++ n :: queue.dropWhile test).Perm (n :: queue) := by
  simpa using (List.perm_middle (a := n) (l₁ := queue.takeWhile test) (l₂ := queue.dropWhile test))

end chains

/-! ### A slot in hand -/

/-- A slot is in hand with a record that fits a place of its segment. -/
structure InHand (records : Prop) (s : State) (n : SlotNo) (P : Place) (r : Slot) : Prop where
  sound : Sound records s [n]
  slot : s.buffer.slots[n] = some r
  segment : P.segment = some r.segment
  fits : records → Fits P r

variable {records : Prop} {s t : State} {g : Seg} {n : SlotNo} {P Q : Place} {r r' : Slot}

theorem put_self {α : Type} {k : Nat} {v : Vector α k} {i : Fin k} {x : α} (h : v[i] = x) :
    put v i x = v := by
  rw [← h, put_get]

theorem Sound.record (h : Sound records s []) (hm : (n, P) ∈ s.places) :
    ∃ r, s.buffer.slots[n] = some r := by
  have := (h.inUse n).1 (List.mem_map.2 ⟨_, hm, rfl⟩)
  exact Option.isSome_iff_exists.1 this

/-- A slot leaves its chain. -/
theorem Sound.takeFromChain (h : Sound records s []) {x : Segment}
    (chain : (chainPlaces g s.segs[g]).Perm ((n, P) :: chainPlaces g x))
    (segs : t.segs = put s.segs g x) (backlog : t.reports.backlog = s.reports.backlog)
    (slots : t.buffer.slots = s.buffer.slots) :
    ∃ r, s.buffer.slots[n] = some r ∧ InHand records t n P r := by
  have hm : (n, P) ∈ chainPlaces g s.segs[g] := chain.mem_iff.2 (List.mem_cons_self ..)
  have hP := segment_of_mem_chainPlaces hm
  have hm := (mem_places_chain hP).2 hm
  obtain ⟨r, hr⟩ := h.record hm
  refine ⟨r, hr, h.take (P := P) ?_ slots, slots ▸ hr, ?_, fun b => h.fits b n P r hm hr⟩
  · refine (places_perm s g).trans ((chain.append_right _).trans ?_)
    exact (places_perm_put segs backlog).symm.cons _
  · rw [hP, h.segment n P r g hm hr hP]

/-- The record of the slot in hand changes. -/
theorem InHand.write (h : InHand records s n P r) (places : t.places = s.places)
    (slots : t.buffer.slots = put s.buffer.slots n (some r')) (segment : Q.segment = some r'.segment)
    (fits : records → Fits P r → Fits Q r') : InHand records t n Q r' :=
  ⟨h.sound.write places slots, by rw [slots, put_same], segment, fun b => fits b (h.fits b)⟩

/-- A change that touches neither the slots nor their places. -/
theorem InHand.still (h : InHand records s n P r) (places : t.places = s.places)
    (slots : t.buffer.slots = s.buffer.slots) : InHand records t n P r :=
  ⟨h.sound.still places slots, slots ▸ h.slot, h.segment, h.fits⟩

/-- The slot in hand, with its record changed, joins its chain. -/
theorem InHand.joinChain (h : InHand records s n P r) {x : Segment}
    (chain : (chainPlaces g x).Perm ((n, Q) :: chainPlaces g s.segs[g]))
    (segs : t.segs = put s.segs g x) (backlog : t.reports.backlog = s.reports.backlog)
    (slots : t.buffer.slots = put s.buffer.slots n (some r')) (hP : P.segment = some g)
    (same : r'.segment = r.segment) (fits : records → Fits P r → Fits Q r') :
    Sound records t [] := by
  have hQ : Q.segment = some g :=
    segment_of_mem_chainPlaces (chain.mem_iff.2 (List.mem_cons_self ..))
  have seg : r'.segment = g := same.trans (Option.some.inj (h.segment.symm.trans hP))
  refine h.sound.join ?_ slots (fun k hk => ?_) fun b => fits b (h.fits b)
  · refine (places_perm_put segs backlog).trans ((chain.append_right _).trans ?_)
    exact (places_perm s g).symm.cons _
  · exact seg.trans (Option.some.inj (hQ.symm.trans hk))

/-! ### The operations -/

/-- An answer comes with an answered outcome, and with no other (R4). -/
def Answers (o : ReportOutcome) (a : Option AnswerPart) : Prop :=
  a.isSome = true ↔ o = .answered ∨ o = .answeredLate

theorem answers_none {o : ReportOutcome} (h1 : o ≠ .answered) (h2 : o ≠ .answeredLate) :
    Answers o none := by
  simp [Answers, h1, h2]

theorem fits_leaveDeferred (uptime : Nat) (h : Fits (.deferred g) r) :
    Fits (.queued g) (r.leaveDeferred uptime) := by
  obtain ⟨deferral, tag, outcome, answer, attempts, waiting⟩ := h
  obtain ⟨d, hd⟩ := Option.isSome_iff_exists.1 deferral
  simp only [Slot.leaveDeferred, hd]
  exact ⟨rfl, tag, outcome, answer, attempts, waiting⟩

theorem segment_leaveDeferred (uptime : Nat) (r : Slot) :
    (r.leaveDeferred uptime).segment = r.segment := by
  cases h : r.deferral <;> simp [Slot.leaveDeferred, h]

theorem leaveDeferralQueue_inHand (h : Sound records s []) (hn : n ∈ s.segs[g].deferralQueue) :
    ∃ r, s.buffer.slots[n] = some r ∧
      InHand records (s.leaveDeferralQueue g n) n (.queued g) (r.leaveDeferred s.clock.uptime) := by
  obtain ⟨r, hr, hand⟩ := h.takeFromChain
    (t := s.setSeg g { s.segs[g] with deferralQueue := s.segs[g].deferralQueue.erase n })
    (chainPlaces_erase_deferred hn) rfl rfl rfl
  refine ⟨r, hr, hand.write (places_congr rfl rfl) ?_ ?_ fun _ => fits_leaveDeferred _⟩
  · rw [leaveDeferralQueue_eq, hr]
    rfl
  · rw [segment_leaveDeferred]
    exact hand.segment

theorem leaveSendQueue_inHand (h : Sound records s []) (hn : n ∈ s.segs[g].sendQueue) :
    ∃ r, s.buffer.slots[n] = some r ∧ InHand records (s.leaveSendQueue g n) n (.queued g) r :=
  h.takeFromChain (chainPlaces_erase_queued hn) rfl rfl rfl

theorem enterQuiet_inHand (h : Sound records s []) {tx : Transmission}
    (hx : s.segs[g].transceiver = .sending tx) :
    ∃ r, s.buffer.slots[tx.slot] = some r ∧
      InHand records (s.enterQuiet g) tx.slot (.onLine g tx.tag) r :=
  h.takeFromChain (chainPlaces_sending hx rfl) rfl rfl rfl

theorem retire_inHand (h : Sound records s []) {e : Outstanding} {reason : RetireReason}
    (he : e ∈ s.segs[g].outstanding) :
    ∃ r, s.buffer.slots[e.slot] = some r ∧
      InHand records (s.retire g e reason) e.slot (.onLine g e.tag) r :=
  h.takeFromChain (chainPlaces_erase_outstanding he) rfl rfl rfl

theorem fits_finish {o : ReportOutcome} {a : Option AnswerPart} (hP : P.isDeferred = false)
    (ha : Answers o a) (h : Fits P r) : Fits .backlog (r.finish o a) where
  deferral := h.deferral.trans hP
  tag := rfl
  outcome := rfl
  answer := ha.trans (by simp [Slot.finish])
  attempts := h.attempts
  waiting := nofun

theorem places_append_backlog (h : t.segs = s.segs)
    (backlog : t.reports.backlog = s.reports.backlog ++ [n]) :
    t.places.Perm ((n, .backlog) :: s.places) := by
  have : t.places = s.places ++ [(n, Place.backlog)] := by
    simp [State.places, State.backlogPlaces, h, backlog]
  rw [this]
  exact List.perm_append_singleton _ _

/-- The slot in hand ends with an outcome. -/
theorem InHand.report (h : InHand records s n P r) {o : ReportOutcome} {a : Option AnswerPart}
    (hP : P.isDeferred = false) (ha : Answers o a) : Sound records (s.report n o a) [] := by
  refine h.sound.join (Q := .backlog) (r := r.finish o a)
    (places_append_backlog rfl rfl) ?_ nofun fun b => fits_finish hP ha (h.fits b)
  rw [report_eq, h.slot]
  rfl

/-- The slot in hand joins the Send Queue as a fresh entry. -/
theorem InHand.joinFresh (h : InHand records s n (.queued g) r) :
    Sound records (s.joinFresh g n) [] :=
  h.joinChain (chainPlaces_of_queued (insert_perm ..)) rfl rfl (put_self h.slot).symm rfl rfl
    fun _ fits => fits

theorem fits_enterDeferred {reason : DeferralReason} {uptime : Nat} (h : Fits (.queued g) r) :
    Fits (.deferred g) (r.enterDeferred reason uptime) :=
  ⟨rfl, h.tag, h.outcome, h.answer, h.attempts, h.waiting⟩

/-- The slot in hand joins the back of the Deferral Queue. -/
theorem InHand.deferAtBack (h : InHand records s n (.queued g) r) (reason : DeferralReason) :
    Sound records (s.deferAtBack g n reason) [] := by
  refine h.joinChain (r' := r.enterDeferred reason s.clock.uptime)
    (chainPlaces_of_deferred (List.perm_append_singleton n _)) rfl rfl ?_ rfl rfl
    fun _ => fits_enterDeferred
  rw [deferAtBack_eq, h.slot]
  rfl

/-! ### The compound operations -/

theorem Sound.endDeferred (h : Sound records s []) (hn : n ∈ s.segs[g].deferralQueue)
    {o : ReportOutcome} {a : Option AnswerPart} (ha : Answers o a) :
    Sound records (s.endDeferred g o a n) [] := by
  obtain ⟨r, -, hand⟩ := leaveDeferralQueue_inHand h hn
  exact hand.report rfl ha

theorem Sound.endQueued (h : Sound records s []) (hn : n ∈ s.segs[g].sendQueue)
    {o : ReportOutcome} {a : Option AnswerPart} (ha : Answers o a) :
    Sound records (s.endQueued g o a n) [] := by
  obtain ⟨r, -, hand⟩ := leaveSendQueue_inHand h hn
  exact hand.report rfl ha

theorem Sound.releaseSlot (h : Sound records s []) (hn : n ∈ s.segs[g].deferralQueue) :
    Sound records ((s.leaveDeferralQueue g n).joinFresh g n) [] := by
  obtain ⟨r, -, hand⟩ := leaveDeferralQueue_inHand h hn
  exact hand.joinFresh

theorem Sound.handBack (h : Sound records s []) (hn : n ∈ s.segs[g].sendQueue)
    (hr : s.slot n = some r) : Sound records (s.handBack g n r) [] := by
  obtain ⟨x, hx, hand⟩ := leaveSendQueue_inHand h hn
  obtain rfl := Option.some.inj (hx.symm.trans hr)
  unfold State.handBack
  split
  · exact hand.report rfl (answers_none nofun nofun)
  · refine hand.joinChain (r' := x.enterDeferred .window s.clock.uptime)
      (chainPlaces_of_deferred (insert_perm ..)) rfl rfl ?_ rfl rfl fun _ => fits_enterDeferred
    exact congrArg (put _ n) (congrArg (Option.map _) hand.slot)

/-- A queued slot starts on an idle transceiver. -/
theorem Sound.start (h : Sound records s []) (hn : n ∈ s.segs[g].sendQueue)
    (idle : s.segs[g].transceiver = .idle) : Sound records (s.start g n r) [] := by
  obtain ⟨x, hx, hand⟩ := leaveSendQueue_inHand h hn
  refine hand.joinChain (r' := { x with attempts := x.attempts + 1, lineTag := some (s.seg g).nextTag })
    (Q := .onLine g (s.seg g).nextTag) ?_ rfl rfl ?_ rfl rfl ?_
  · refine (chainPlaces_sending (y := .idle) rfl rfl).trans (List.Perm.of_eq ?_)
    have same : (s.leaveSendQueue g n).segs[g].transceiver = .idle := by
      rw [leaveSendQueue_eq, put_same]
      exact idle
    simp only [chainPlaces, same]
    rfl
  · exact congrArg (put _ n) (congrArg (Option.map _) hand.slot)
  · intro _ fits
    have := fits.waiting rfl
    exact ⟨fits.deferral, rfl, fits.outcome, fits.answer, by simp only; omega, nofun⟩

/-- The retry decision about the slot in hand. -/
theorem InHand.retryDecision {tag : Byte} (h : InHand records s n (.onLine g tag) r)
    {o : ReportOutcome} (h1 : o ≠ .answered) (h2 : o ≠ .answeredLate) :
    Sound records (s.retryDecision g n o) [] := by
  have slot : s.slot n = some r := h.slot
  unfold State.retryDecision
  simp only [slot]
  split
  · next few =>
    split
    · refine h.joinChain (r' := { r with lineTag := none }) (Q := .queued g)
        (chainPlaces_of_queued (insert_perm ..)) rfl rfl ?_ rfl rfl fun _ fits => ?_
      · exact congrArg (put _ n) (congrArg (Option.map _) h.slot)
      · exact ⟨fits.deferral, rfl, fits.outcome, fits.answer, fits.attempts,
          fun _ => by simp only; omega⟩
    · exact h.report rfl (answers_none nofun nofun)
  · exact h.report rfl (answers_none h1 h2)

/-- The slot in hand, whose transmission ended, waits for its answer or ends SENT. -/
theorem InHand.afterTransmission {tx : Transmission}
    (h : InHand records s tx.slot (.onLine g tx.tag) r) :
    Sound records (s.afterTransmission g tx) [] := by
  have slot : s.slot tx.slot = some r := h.slot
  unfold State.afterTransmission
  simp only [slot]
  split
  · exact h.joinChain chainPlaces_outstanding_append rfl rfl (put_self h.slot).symm rfl rfl
      fun _ fits => fits
  · exact h.report rfl (answers_none nofun nofun)

theorem places_setSeg {x : Segment} (chain : chainPlaces g x = chainPlaces g s.segs[g]) :
    (s.setSeg g x).places = s.places :=
  places_put_same rfl rfl chain

theorem queueNotice_backlog (kind : NoticeKind) :
    (s.queueNotice kind).reports.backlog = s.reports.backlog := by
  unfold State.queueNotice
  split
  · rw [State.oweTake_reports]
  · rfl

theorem places_queueNotice (kind : NoticeKind) : (s.queueNotice kind).places = s.places :=
  places_congr (State.queueNotice_segs s kind) (queueNotice_backlog kind)

theorem places_holdForFault (fault : LineFault) : (s.holdForFault g fault).places = s.places :=
  (places_queueNotice _).trans (places_setSeg rfl)

theorem places_raiseStreak : (s.raiseStreak g).places = s.places := by
  dsimp only [State.raiseStreak]
  split
  · exact (places_holdForFault _).trans (places_put_same (s := s) rfl rfl rfl)
  · exact places_put_same rfl rfl rfl

theorem raiseStreak_buffer : (s.raiseStreak g).buffer = s.buffer := by
  dsimp only [State.raiseStreak]
  split
  · rw [State.holdForFault_buffer]
    rfl
  · rfl

theorem Sound.endTransmission (h : Sound records s []) : Sound records (s.endTransmission g) [] := by
  unfold State.endTransmission
  split
  · next tx hx =>
    have reached := h.still (t := s.reach (tx.startedAt + (s.seg g).profile.duration tx.telegram))
      (places_congr rfl rfl) rfl
    obtain ⟨r, -, hand⟩ := enterQuiet_inHand (g := g) (tx := tx) reached hx
    exact (hand.still (t := State.clearStreak _ g) (places_setSeg rfl) rfl).afterTransmission
  · exact h

theorem Sound.abort (h : Sound records s []) (k : Nat) (sensed : Wire) :
    Sound records (s.abort g k sensed) [] := by
  unfold State.abort
  split
  · next tx hx =>
    split
    · have reached := h.still
        (t := s.reach (tx.startedAt + k * (s.seg g).profile.unitTime * Config.microsecond))
        (places_congr rfl rfl) rfl
      obtain ⟨r, -, hand⟩ := enterQuiet_inHand (g := g) (tx := tx) reached hx
      exact (hand.still places_raiseStreak (congrArg _ raiseStreak_buffer)).retryDecision nofun nofun
    · exact h
  · exact h

theorem Sound.timeOut (h : Sound records s []) (tag : Byte) :
    Sound records (s.timeOut g tag) [] := by
  unfold State.timeOut
  split
  · exact h
  · next e he =>
    have reached := h.still (t := s.reach e.expiry) (places_congr rfl rfl) rfl
    obtain ⟨r, -, hand⟩ := retire_inHand (reason := .timedOut) reached (List.mem_of_find?_eq_some he)
    have counted := hand.still
      (t := ((s.reach e.expiry).retire g e .timedOut).count (Counter.timeouts g))
      (places_congr rfl rfl) rfl
    exact counted.retryDecision (o := .noAnswer) nofun nofun

theorem Sound.answer (h : Sound records s []) {e : Outstanding} (he : e ∈ s.segs[g].outstanding)
    (a : AnswerPart) :
    Sound records ((s.retire g e .answered).report e.slot .answered (some a)) [] := by
  obtain ⟨r, -, hand⟩ := retire_inHand (reason := .answered) h he
  exact hand.report rfl (by simp [Answers])

/-! ### Report formation -/

theorem checkClear_slots : s.checkClear.buffer.slots = s.buffer.slots := by
  unfold State.checkClear
  split
  · rw [State.queueNotice_buffer]
  · rfl

theorem checkHigh_slots : s.checkHigh.buffer.slots = s.buffer.slots := by
  unfold State.checkHigh
  split
  · rw [State.queueNotice_buffer]
  · rfl

theorem places_checkClear : s.checkClear.places = s.places := by
  unfold State.checkClear
  split
  · exact (places_queueNotice _).trans (places_congr rfl rfl)
  · rfl

theorem places_checkHigh : s.checkHigh.places = s.places := by
  unfold State.checkHigh
  split
  · exact (places_queueNotice _).trans (places_congr rfl rfl)
  · rfl

theorem pushReport_backlog (x : Report) : (s.pushReport x).reports.backlog = s.reports.backlog := by
  unfold State.pushReport
  rw [State.oweTake_reports]

theorem places_pushReport (x : Report) : (s.pushReport x).places = s.places :=
  places_congr (State.pushReport_segs s x) (pushReport_backlog x)

/-- The slot in hand is freed. -/
theorem Sound.free (h : Sound records s [n]) : Sound records (s.free n) [] :=
  h.release (places_checkClear.trans (places_congr rfl rfl)) checkClear_slots

theorem Sound.formOldest (h : Sound records s []) {rest : List SlotNo}
    (backlog : s.reports.backlog = n :: rest) : Sound records (s.formOldest n rest) [] := by
  have hm : (n, Place.backlog) ∈ s.places := by
    rw [mem_places_backlog, backlog]
    exact List.mem_cons_self ..
  obtain ⟨r, hr⟩ := h.record hm
  have hr : s.slot n = some r := hr
  have taken : Sound records { s with reports.backlog := rest } [n] := by
    refine h.take (P := .backlog) ?_ rfl
    simp only [State.places, State.backlogPlaces, backlog, List.map_cons]
    exact List.perm_middle
  unfold State.formOldest
  simp only [hr]
  split
  · exact taken.free.still (places_congr rfl rfl) rfl
  · refine Sound.still (Sound.free (taken.still (places_pushReport _) ?_)) (places_congr rfl rfl) rfl
    rw [State.pushReport_buffer]

end Sys2Proof.Machine
end

