-- ==== Sys2Proof/Proofs/StepRules.lean ====
section
/-! SUPPORT. What a step can do, said once: a predicate of the state that the operations on slots keep,
and that no other change of the state touches, is kept by every step. -/

namespace Sys2Proof.Machine

open Sys2Proof.Safety

/-! ### Candidates for displacement -/

theorem mem_candidatesOf {s : State} {p : Fin 4} {g : Seg} {x : Seg × SlotNo × Slot} :
    x ∈ s.candidatesOf p g ↔ x.1 = g ∧ x.2.1 ∈ s.segs[g].deferralQueue ∧
      s.buffer.slots[x.2.1] = some x.2.2 ∧ x.2.2.priority < p := by
  obtain ⟨h, n, r⟩ := x
  unfold State.candidatesOf
  rw [List.mem_filterMap]
  constructor
  · rintro ⟨m, hm, e⟩
    cases hr : s.slot m with
    | none => simp [hr] at e
    | some y =>
      simp only [hr, Option.ite_none_right_eq_some, Option.some.injEq, Prod.mk.injEq] at e
      obtain ⟨hp, rfl, rfl, rfl⟩ := e
      exact ⟨rfl, hm, hr, hp⟩
  · rintro ⟨rfl, hn, hr, hp⟩
    have hr : s.slot n = some r := hr
    exact ⟨n, hn, by simp only [hr, if_pos hp]⟩

theorem mem_candidates {s : State} {p : Fin 4} {x : Seg × SlotNo × Slot} :
    x ∈ s.candidates p ↔ x.2.1 ∈ s.segs[x.1].deferralQueue ∧
      s.buffer.slots[x.2.1] = some x.2.2 ∧ x.2.2.priority < p := by
  obtain ⟨g, n, r⟩ := x
  have four : ∀ g : Seg, g = 0 ∨ g = 1 ∨ g = 2 ∨ g = 3 := by decide
  simp only [State.candidates, List.mem_append, mem_candidatesOf]
  constructor
  · rintro (((⟨rfl, h⟩ | ⟨rfl, h⟩) | ⟨rfl, h⟩) | ⟨rfl, h⟩) <;> exact h
  · intro h
    obtain rfl | rfl | rfl | rfl := four g
    · exact .inl (.inl (.inl ⟨rfl, h⟩))
    · exact .inl (.inl (.inr ⟨rfl, h⟩))
    · exact .inl (.inr ⟨rfl, h⟩)
    · exact .inr ⟨rfl, h⟩

theorem chooseVictim_mem {l : List (Seg × SlotNo × Slot)} {x : Seg × SlotNo × Slot}
    (h : chooseVictim l = some x) : x ∈ l := by
  induction l generalizing x with
  | nil => cases h
  | cons y rest ih =>
    rw [chooseVictim] at h
    split at h
    · obtain rfl := Option.some.inj h
      exact List.mem_cons_self ..
    · next z hz =>
      split at h
      · exact List.mem_cons_of_mem _ (ih (hz.trans h))
      · obtain rfl := Option.some.inj h
        exact List.mem_cons_self ..

/-! ### The rules -/

/-- The operations on slots keep a predicate, each where the part carries it out, and so does every
change that leaves the buffer and the places of the slots as they are. -/
structure StepRules (Q : State → Prop) : Prop where
  still : ∀ {s t : State}, Q s → t.buffer = s.buffer → t.places = s.places → Q t
  endDeferred : ∀ {s : State} {g : Seg} {n : SlotNo} {o : ReportOutcome} {a : Option AnswerPart}, Q s →
    n ∈ s.segs[g].deferralQueue → Answers o a → Q (s.endDeferred g o a n)
  endQueued : ∀ {s : State} {g : Seg} {n : SlotNo} {o : ReportOutcome} {a : Option AnswerPart}, Q s →
    n ∈ s.segs[g].sendQueue → Answers o a → Q (s.endQueued g o a n)
  releaseSlot : ∀ {s : State} {g : Seg} {n : SlotNo}, Q s → n ∈ s.segs[g].deferralQueue →
    Q ((s.leaveDeferralQueue g n).joinFresh g n)
  handBack : ∀ {s : State} {g : Seg} {n : SlotNo} {r : Slot}, Q s → n ∈ s.segs[g].sendQueue →
    s.slot n = some r → Q (s.handBack g n r)
  start : ∀ {s : State} {g : Seg} {n : SlotNo} {r : Slot}, Q s → n ∈ s.segs[g].sendQueue →
    s.segs[g].transceiver = .idle → Q (s.start g n r)
  endTransmission : ∀ {s : State} {g : Seg}, Q s → Q (s.endTransmission g)
  abort : ∀ {s : State} {g : Seg} (k : Nat) (sensed : Wire), Q s → Q (s.abort g k sensed)
  timeOut : ∀ {s : State} {g : Seg} (tag : Byte), Q s → Q (s.timeOut g tag)
  answer : ∀ {s : State} {g : Seg} {e : Outstanding} (a : AnswerPart), Q s →
    e ∈ s.segs[g].outstanding → Q ((s.retire g e .answered).report e.slot .answered (some a))
  formOldest : ∀ {s : State} {n : SlotNo} {rest : List SlotNo}, Q s →
    s.reports.backlog = n :: rest → Q (s.formOldest n rest)
  admitRouted : ∀ {s : State} (t : CommandTelegram) (p : ClassPolicy) (g : Seg), Q s →
    Q (s.admitRouted t p g)
  flush : ∀ {s : State}, Q s → Q s.flush
  reset : ∀ (s : State) (cause : StartCause) (straps : StrapPins), Q (s.resetTakesEffect cause straps)

/-- What a verdict leaves has the property. -/
def Verdict.Keeps (Q : State → Prop) : Verdict → Prop
  | .fail _ => True
  | .done _ after consequence => Q after ∧ ∀ t, Q t → Q (consequence t)
  | .started after => Q after

namespace StepRules

variable {Q : State → Prop} (k : StepRules Q) {s t : State} {g : Seg}
include k

/-! ### Changes that touch no slot -/

theorem quiet (h : Q s) (buffer : t.buffer = s.buffer) (segs : t.segs = s.segs)
    (backlog : t.reports.backlog = s.reports.backlog) : Q t :=
  k.still h buffer (places_congr segs backlog)

theorem count (h : Q s) (c : CounterId) : Q (s.count c) := k.quiet h rfl rfl rfl

theorem settle (h : Q s) (o : Occasion) : Q (s.settle o) := k.quiet h rfl rfl rfl

theorem owe (h : Q s) (o : Occasion) : Q (s.owe o) := k.quiet h rfl rfl rfl

theorem reach (h : Q s) (instant : Nat) : Q (s.reach instant) := k.quiet h rfl rfl rfl

theorem frameTaken (h : Q s) : Q s.frameTaken := k.quiet h rfl rfl rfl

theorem assemble (h : Q s) (a : Assembler) : Q (s.assemble a) := k.quiet h rfl rfl rfl

theorem withPending (h : Q s) (queue : List Instr) : Q (s.withPending queue) :=
  k.quiet h rfl rfl rfl

theorem pushReport (h : Q s) (x : Report) : Q (s.pushReport x) :=
  k.quiet h (State.pushReport_buffer s x) (State.pushReport_segs s x) (pushReport_backlog x)

theorem pushResponse (h : Q s) (x : Response) : Q (s.pushResponse x) := by
  refine k.quiet h (State.pushResponse_buffer s x) (State.pushResponse_segs s x) ?_
  rw [State.pushResponse, State.oweTake_reports]

theorem oweExaminations (h : Q s) : Q s.oweExaminations := k.quiet h rfl rfl rfl

theorem evaluateWindows (h : Q s) : Q s.evaluateWindows :=
  k.quiet h (State.evaluateWindows_buffer s) (State.evaluateWindows_segs s)
    (by rw [State.evaluateWindows_reports])

theorem setSeg (h : Q s) {x : Segment} (chain : chainPlaces g x = chainPlaces g s.segs[g]) :
    Q (s.setSeg g x) :=
  k.still h rfl (places_setSeg chain)

theorem setTransceiver (h : Q s) {y : Transceiver}
    (before : sendingPlaces g s.segs[g].transceiver = []) (after : sendingPlaces g y = []) :
    Q (s.setSeg g { s.segs[g] with transceiver := y }) :=
  k.setSeg h (by simp only [chainPlaces, before, after])

theorem enterQuiet (h : Q s) (before : sendingPlaces g s.segs[g].transceiver = []) :
    Q (s.enterQuiet g) :=
  k.setTransceiver h before rfl

theorem holdForFault (h : Q s) (fault : LineFault) : Q (s.holdForFault g fault) :=
  k.still h (State.holdForFault_buffer s g fault) (places_holdForFault fault)

theorem startPacer (h : Q s) : Q (s.startPacer g) := by
  unfold State.startPacer
  split
  · exact h
  · exact k.setSeg h rfl

/-! ### The Release Unit and the Segment Scheduler -/

theorem release {n : SlotNo} (h : Q s) (hn : n ∈ s.segs[g].deferralQueue) :
    Q (s.release g n) :=
  k.startPacer (k.count (k.releaseSlot h hn) _)

theorem examine (h : Q s) : Q (s.examine g) := by
  unfold State.examine
  induction Config.sendQueueLimit generalizing s with
  | zero => exact h
  | succ fuel ih =>
    rw [State.releaseWhile]
    split
    · next n hn =>
      refine ih (k.release h ?_)
      unfold State.releasable at hn
      split at hn
      · exact List.mem_of_find?_eq_some hn
      · cases hn
    · exact h

theorem endAllDeferred (h : Q s) {o : ReportOutcome} (ho : Answers o none) (test : Slot → Bool) :
    Q (s.endAllDeferred g o test) := by
  have each : ∀ (l : List SlotNo) (s : State), Q s → l.Sublist s.segs[g].deferralQueue →
      Q (l.foldl (fun t n => t.endDeferred g o none n) s) := by
    intro l
    induction l with
    | nil => exact fun s h _ => h
    | cons n rest ih =>
      intro s h sub
      refine ih _ (k.endDeferred h (sub.subset (List.mem_cons_self ..)) ho) ?_
      have : (s.endDeferred g o none n).segs[g].deferralQueue = s.segs[g].deferralQueue.erase n :=
        congrArg Segment.deferralQueue (put_same s.segs g _)
      rw [this]
      simpa using sub.erase n
  exact each _ s h List.filter_sublist

theorem endAllQueued (h : Q s) {o : ReportOutcome} (ho : Answers o none) (test : Slot → Bool) :
    Q (s.endAllQueued g o test) := by
  have each : ∀ (l : List SlotNo) (s : State), Q s → l.Sublist s.segs[g].sendQueue →
      Q (l.foldl (fun t n => t.endQueued g o none n) s) := by
    intro l
    induction l with
    | nil => exact fun s h _ => h
    | cons n rest ih =>
      intro s h sub
      refine ih _ (k.endQueued h (sub.subset (List.mem_cons_self ..)) ho) ?_
      have : (s.endQueued g o none n).segs[g].sendQueue = s.segs[g].sendQueue.erase n :=
        congrArg Segment.sendQueue (put_same s.segs g _)
      rw [this]
      simpa using sub.erase n
  exact each _ s h List.filter_sublist

theorem expire (h : Q s) : Q (s.expire g) :=
  k.endAllDeferred h (answers_none (o := .expired) nofun nofun) _

omit k in
theorem handBack_seg (n : SlotNo) (r : Slot) :
    (s.handBack g n r).segs[g].sendQueue = s.segs[g].sendQueue.erase n ∧
      (s.handBack g n r).segs[g].transceiver = s.segs[g].transceiver := by
  have left : (s.leaveSendQueue g n).seg g =
      { s.segs[g] with sendQueue := s.segs[g].sendQueue.erase n } := put_same s.segs g _
  have queue : ((s.leaveSendQueue g n).seg g).sendQueue = s.segs[g].sendQueue.erase n := by
    rw [left]
  have transceiver : ((s.leaveSendQueue g n).seg g).transceiver = s.segs[g].transceiver := by
    rw [left]
  unfold State.handBack
  split
  · exact ⟨queue, transceiver⟩
  · have again := put_same (s.leaveSendQueue g n).segs g
      { (s.leaveSendQueue g n).seg g with
        deferralQueue := (s.leaveSendQueue g n).insertByIntake
          ((s.leaveSendQueue g n).seg g).deferralQueue n r.intake }
    exact ⟨(congrArg Segment.sendQueue again).trans queue,
      (congrArg Segment.transceiver again).trans transceiver⟩

theorem walkFrom (l : List SlotNo) : ∀ {s : State}, Q s → l.Sublist s.segs[g].sendQueue →
    s.segs[g].transceiver = .idle → Q (State.walkFrom g l s) := by
  induction l with
  | nil => exact fun h _ _ => h
  | cons n rest ih =>
    intro s h sub idle
    have past := (List.sublist_cons_self n rest).trans sub
    have here := sub.subset (List.mem_cons_self ..)
    rw [State.walkFrom]
    split
    · exact ih h past idle
    · next r hr =>
      split
      · split
        · exact k.start h here idle
        · obtain ⟨queue, transceiver⟩ := handBack_seg (s := s) (g := g) n r
          refine ih (k.handBack h here hr) ?_ (transceiver.trans idle)
          rw [queue]
          simpa using sub.erase n
      · exact ih h past idle

theorem walk (h : Q s) : Q (s.walk g) := by
  unfold State.walk
  split
  · next hc =>
    refine k.walkFrom _ h (List.Sublist.refl _) ?_
    cases hx : s.segs[g].transceiver <;> simp_all [Transceiver.isIdle, State.seg]
  · exact h

/-! ### The segment line -/

theorem lateAnswer (h : Q s) (x : Retired) (a : AnswerPart) : Q (s.lateAnswer g x a) := by
  unfold State.lateAnswer
  split
  · exact k.count h _
  · next place h' hw =>
    have places : ∀ {ring : List Retired}, (s.setSeg g { s.seg g with ring := ring }).places = s.places :=
      places_setSeg rfl
    have ringed := k.still h (t := s.setSeg g { s.seg g with
      ring := (s.seg g).ring.map fun y =>
        if y.tag = x.tag ∧ y.device = x.device then { y with reason := .answered } else y }) rfl places
    unfold State.intakeCheck at hw
    split at hw
    · cases hw
    · split at hw
      · split at hw
        · next hd =>
          cases hw
          refine k.endDeferred ringed ?_ (by simp [Answers])
          rw [← mem_places_deferred, places, mem_places_deferred]
          exact hd
        · split at hw
          · next hq =>
            cases hw
            refine k.endQueued ringed ?_ (by simp [Answers])
            rw [← mem_places_queued, places, mem_places_queued]
            exact hq
          · cases hw
      · cases hw

theorem resolve (h : Q s) (a : LineAnswer) : Q (s.resolve g a) := by
  unfold State.resolve
  split
  · next e he =>
    split
    · exact k.answer a.part h (List.mem_of_find?_eq_some he)
    · exact k.count h _
  · split
    · split
      · exact k.count h _
      · exact k.lateAnswer h _ _
    · exact k.count h _

theorem endReception (h : Q s) (line : List LineSpan) : Q (s.endReception g line) := by
  unfold State.endReception
  split
  · next rx hx =>
    have hx : s.segs[g].transceiver = .receiving rx := hx
    have quiet := k.enterQuiet (k.reach h (rx.since + (s.seg g).profile.receptionTime line))
      (congrArg (sendingPlaces g) hx)
    dsimp only
    split
    · exact k.resolve quiet _
    · exact k.count quiet _
  · exact h

theorem endQuietGap (h : Q s) : Q (s.endQuietGap g) := by
  unfold State.endQuietGap
  split
  · next endsAt hx =>
    have hx : s.segs[g].transceiver = .quiet endsAt := hx
    exact k.walk (k.setTransceiver (k.reach h endsAt) (by rw [State.reach_segs, hx]; rfl) rfl)
  · exact h

theorem beginReception (h : Q s) (sensed : Wire) : Q (s.beginReception g sensed) := by
  unfold State.beginReception
  split
  · dsimp only
    split
    · next hx => exact k.setTransceiver h (congrArg (sendingPlaces g) hx) rfl
    · next hx => exact k.setTransceiver h (congrArg (sendingPlaces g) hx) rfl
    · exact h
    · exact h
  · exact h

theorem stuckLine (h : Q s) (line : List LineSpan) : Q (s.stuckLine g line) := by
  unfold State.stuckLine
  split
  · next rx micros hx _ =>
    dsimp only
    split
    · exact h
    · exact k.holdForFault (k.setTransceiver (k.reach h _) (congrArg (sendingPlaces g) hx) rfl) _
  · exact h

/-! ### Reports, admission and requests -/

theorem formReport (h : Q s) : Q s.formReport := by
  unfold State.formReport
  split
  · exact h
  · next n rest backlog =>
    split
    · exact k.formOldest h backlog
    · exact h

theorem arbitrate (h : Q s) : Q s.arbitrate := by
  unfold State.arbitrate State.takeEntry
  split
  · split
    · exact k.quiet h rfl rfl rfl
    · split
      · exact k.quiet h rfl rfl rfl
      · split
        · exact k.quiet h rfl rfl rfl
        · exact h
  · exact h

theorem endTrunkTransmission (h : Q s) (straps : StrapPins) : Q (s.endTrunkTransmission straps) := by
  unfold State.endTrunkTransmission
  split
  · exact h
  · split
    · exact k.reset _ _ _
    · exact k.quiet h rfl rfl rfl

theorem refuse (h : Q s) (t : CommandTelegram) (o : ReportOutcome) (x : Option Seg) :
    Q (s.refuse t o x) := by
  unfold State.refuse
  split
  · exact k.pushReport (k.count h _) _
  · exact k.count (k.count h _) _

theorem takeCommand (h : Q s) (t : CommandTelegram) : Q (s.takeCommand t) := by
  unfold State.takeCommand State.admitScreened
  split
  · exact k.count h _
  · split
    · exact k.refuse h _ _ _
    · split
      · exact k.refuse h _ _ _
      · split
        · exact k.refuse h _ _ _
        · split
          · exact k.refuse h _ _ _
          · split
            · exact k.refuse h _ _ _
            · exact k.admitRouted _ _ _ h

theorem takeRequest (h : Q s) (c : RequestClass) (r : Request) {own : State → Verdict}
    (keeps : (own s).Keeps Q) : Q (s.takeRequest c r own) := by
  have respond : ∀ {u : State} (code : Byte) (status : Status) (result : List Byte), Q u →
      Q (u.respond code r status result) := fun _ _ _ hu => k.pushResponse hu _
  unfold State.takeRequest State.carryOut
  split
  · exact k.count h _
  · split
    · exact k.count h _
    · split
      · exact respond _ _ _ h
      · split
        · exact respond _ _ _ h
        · split
          · exact respond _ _ _ (k.count h _)
          · split
            · exact respond _ _ _ h
            · cases hv : own s with
              | fail status => exact respond _ _ _ h
              | done result after consequence =>
                rw [hv] at keeps
                exact keeps.2 _ (respond _ _ _ keeps.1)
              | started after =>
                rw [hv] at keeps
                exact keeps

omit k in
theorem keeps_doneWith (h : Q t) : (doneWith t).Keeps Q := ⟨h, fun _ hu => hu⟩

theorem keeps_setClock (h : Q s) (params : List Byte) : (ownSetClock params s).Keeps Q := by
  unfold ownSetClock
  split
  · split
    · exact keeps_doneWith (k.evaluateWindows (k.quiet h rfl rfl rfl))
    · trivial
  · trivial

theorem keeps_adjustClock (h : Q s) (params : List Byte) : (ownAdjustClock params s).Keeps Q := by
  unfold ownAdjustClock
  split
  · split
    · trivial
    · split
      · trivial
      · exact ⟨k.evaluateWindows (k.quiet h rfl rfl rfl), fun _ hu => hu⟩
  · trivial

omit k in
theorem keeps_readEntry (h : Q s) (params : List Byte) : (ownReadEntry params s).Keeps Q := by
  unfold ownReadEntry
  split
  · split
    · trivial
    · split
      · trivial
      · split
        · trivial
        · exact ⟨h, fun _ hu => hu⟩
  · trivial

theorem keeps_writeEntry (h : Q s) (params : List Byte) : (ownWriteEntry params s).Keeps Q := by
  unfold ownWriteEntry
  split
  · split
    · trivial
    · split
      · trivial
      · split
        · exact keeps_doneWith (k.quiet h rfl rfl rfl)
        · split
          · split
            · exact keeps_doneWith (k.quiet h rfl rfl rfl)
            · trivial
          · trivial
  · trivial

omit k in
theorem keeps_withSegment {b : Byte} {act : Seg → Verdict} (h : ∀ g, (act g).Keeps Q) :
    (withSegment b act).Keeps Q := by
  unfold withSegment
  split
  · exact h _
  · trivial

theorem keeps_setProfile (h : Q s) (params : List Byte) : (ownSetProfile params s).Keeps Q := by
  unfold ownSetProfile
  split
  · refine keeps_withSegment fun g => ?_
    dsimp only
    split
    · exact keeps_doneWith (k.setSeg h rfl)
    · trivial
  · trivial

omit k in
theorem keeps_readProfile (h : Q s) (params : List Byte) : (ownReadProfile params s).Keeps Q := by
  unfold ownReadProfile
  split
  · exact keeps_withSegment fun g => ⟨h, fun _ hu => hu⟩
  · trivial

theorem keeps_setPacing (h : Q s) (params : List Byte) : (ownSetPacing params s).Keeps Q := by
  unfold ownSetPacing
  split
  · exact keeps_withSegment fun g => ⟨k.setSeg h rfl, fun _ hu => k.examine hu⟩
  · trivial

theorem keeps_holdSegment (h : Q s) (params : List Byte) : (ownHoldSegment params s).Keeps Q := by
  unfold ownHoldSegment
  split
  · exact keeps_withSegment fun g => keeps_doneWith (k.setSeg h rfl)
  · trivial

theorem keeps_resumeSegment (h : Q s) (params : List Byte) :
    (ownResumeSegment params s).Keeps Q := by
  unfold ownResumeSegment
  split
  · exact keeps_withSegment fun g => ⟨k.setSeg h rfl, fun _ hu => k.walk hu⟩
  · trivial

theorem purgeSegment (h : Q s) (test : Slot → Bool) (queued : Bool) :
    Q (State.purgeSegment test queued s g) := by
  have deferred := k.endAllDeferred (g := g) h (answers_none (o := .purged) nofun nofun) test
  unfold State.purgeSegment
  dsimp only
  split
  · exact k.endAllQueued deferred (answers_none (o := .purged) nofun nofun) test
  · exact deferred

theorem purgeSegments (h : Q s) (test : Slot → Bool) (queued : Bool) (segments : List Seg) :
    Q (segments.foldl (State.purgeSegment test queued) s) := by
  induction segments generalizing s with
  | nil => exact h
  | cons g rest ih => exact ih (k.purgeSegment h test queued)

theorem keeps_purge (h : Q s) (params : List Byte) : (ownPurge params s).Keeps Q := by
  unfold ownPurge
  split
  · split
    · next segments test _ _ =>
      split
      · next queued _ => exact ⟨k.purgeSegments h test queued segments, fun _ hu => hu⟩
      · trivial
    · trivial
  · trivial

theorem clearCounters (h : Q s) (first count : Nat) : Q (s.clearCounters first count) := by
  unfold State.clearCounters
  exact k.quiet h rfl rfl rfl

theorem keeps_readCounters (h : Q s) (params : List Byte) : (ownReadCounters params s).Keeps Q := by
  unfold ownReadCounters
  split
  · split
    · trivial
    · split
      · trivial
      · refine ⟨?_, fun _ hu => hu⟩
        split
        · exact k.clearCounters h _ _
        · exact h
  · trivial

theorem keeps_setNoticeAddress (h : Q s) (params : List Byte) :
    (ownSetNoticeAddress params s).Keeps Q := by
  unfold ownSetNoticeAddress
  split
  · split
    · trivial
    · split
      · trivial
      · exact keeps_doneWith (k.quiet h rfl rfl rfl)
  · trivial

theorem keeps_setManagers (h : Q s) (params : List Byte) : (ownSetManagers params s).Keeps Q := by
  unfold ownSetManagers
  split
  · split
    · trivial
    · split
      · trivial
      · split
        · trivial
        · exact keeps_doneWith (k.quiet h rfl rfl rfl)
  · trivial

omit k in
theorem keeps_readClock (h : Q s) : (ownReadClock s).Keeps Q := by
  unfold ownReadClock
  split
  · exact ⟨h, fun _ hu => hu⟩
  · trivial

theorem takeCode (h : Q s) (code : Byte) (r : Request) : Q (s.takeCode code r) := by
  unfold State.takeCode
  split
  · exact k.takeRequest h _ r ⟨h, fun _ hu => hu⟩
  · exact k.takeRequest h _ r (keeps_readClock h)
  · exact k.takeRequest h _ r (k.keeps_setClock h _)
  · exact k.takeRequest h _ r (k.keeps_adjustClock h _)
  · exact k.takeRequest h _ r (keeps_readEntry h _)
  · exact k.takeRequest h _ r (k.keeps_writeEntry h _)
  · exact k.takeRequest h _ r (keeps_doneWith (k.quiet h rfl rfl rfl))
  · exact k.takeRequest h _ r (keeps_doneWith (k.quiet h rfl rfl rfl))
  · exact k.takeRequest h _ r (k.quiet (t := { s with agent.commit := _ }) h rfl rfl rfl)
  · exact k.takeRequest h _ r (k.keeps_setProfile h _)
  · exact k.takeRequest h _ r (keeps_readProfile h _)
  · exact k.takeRequest h _ r (k.keeps_setPacing h _)
  · exact k.takeRequest h _ r (k.keeps_holdSegment h _)
  · exact k.takeRequest h _ r (k.keeps_resumeSegment h _)
  · exact k.takeRequest h _ r (k.keeps_purge h _)
  · exact k.takeRequest h _ r ⟨h, fun _ hu => hu⟩
  · exact k.takeRequest h _ r (k.keeps_readCounters h _)
  · exact k.takeRequest h _ r (k.keeps_setNoticeAddress h _)
  · exact k.takeRequest h _ r ⟨k.flush h, fun _ hu => hu⟩
  · exact k.takeRequest h _ r (keeps_doneWith (k.quiet h rfl rfl rfl))
  · exact k.takeRequest h _ r (k.keeps_setManagers h _)
  · exact k.takeRequest h _ r trivial

theorem takePayload (h : Q s) (source : Addr) (seq : Byte) (payload : List Byte) :
    Q (s.takePayload source seq payload) := by
  unfold State.takePayload
  split
  · exact k.takeRequest h _ _ trivial
  · exact k.takeCode h _ _

/-! ### The commit end, the trunk, the second edge and the resets -/

theorem withdraw (h : Q s) : Q (s.withdraw g) :=
  have answers : Answers .withdrawn none := answers_none nofun nofun
  k.endAllQueued (k.endAllDeferred h answers _) answers _

theorem commitFailed (h : Q s) (source : Addr) (seq : Byte) (f : CommitFailure) :
    Q (s.commitFailed source seq f) :=
  k.pushResponse (k.quiet (t := { s with agent.commit := .idle, agent.lastCommit := .failed f })
    h rfl rfl rfl) _

theorem swapTables (h : Q s) (source : Addr) (seq : Byte) : Q (s.swapTables source seq) := by
  unfold State.swapTables
  refine k.pushResponse ?_ _
  exact k.quiet h rfl rfl rfl

theorem endCommit (h : Q s) : Q s.endCommit := by
  unfold State.endCommit
  split
  · exact h
  · next endsAt source seq _ =>
    split
    · exact k.commitFailed (k.reach h endsAt) _ _ _
    · have swapped := k.swapTables (k.reach h endsAt) source seq
      exact k.oweExaminations (k.evaluateWindows
        (k.withdraw (k.withdraw (k.withdraw (k.withdraw swapped)))))

theorem completeFrame (h : Q s) (len : Byte) (body crc : List Byte) :
    Q (s.completeFrame len body crc) := by
  unfold State.completeFrame
  split
  · exact k.count (k.frameTaken h) _
  · exact k.takeCommand (k.frameTaken h) _
  · exact k.takePayload (k.frameTaken h) _ _ _

theorem dropFrame (h : Q s) : Q s.dropFrame :=
  k.count (k.assemble h _) _

theorem receiveByte (h : Q s) (b : Byte) : Q (s.receiveByte b) := by
  unfold State.receiveByte
  split
  · split
    · exact k.assemble h _
    · exact h
  · split
    · exact k.assemble h _
    · exact k.dropFrame h
  · split <;> exact k.assemble h _
  · exact k.assemble h _
  · exact k.completeFrame h _ _ _

theorem breakFrame (h : Q s) : Q s.breakFrame := by
  unfold State.breakFrame
  split
  · exact h
  all_goals exact k.dropFrame h

theorem edge (h : Q s) : Q s.edge :=
  k.owe (k.owe (k.owe (k.owe (k.evaluateWindows
    (k.quiet h (t := { s.reach s.clock.nextEdge with clock := s.clock.tick }) rfl rfl rfl)) _) _) _) _

theorem fallSupply (h : Q s) : Q s.fallSupply := by
  unfold State.fallSupply
  split
  · exact k.quiet h rfl rfl rfl
  · exact h

theorem riseSupply (h : Q s) : Q s.riseSupply := by
  unfold State.riseSupply
  split
  · exact h
  · exact k.quiet h rfl rfl rfl

theorem lowerRstN (h : Q s) : Q s.lowerRstN := by
  unfold State.lowerRstN
  split <;> exact k.quiet h rfl rfl rfl

theorem raiseRstN (h : Q s) (straps : StrapPins) : Q (s.raiseRstN straps) := by
  have raised : Q { s with pins.rstN := true, pins.straps := straps } := k.quiet h rfl rfl rfl
  unfold State.raiseRstN
  dsimp only
  split
  · exact raised
  · split
    · exact k.reset _ _ _
    · exact raised

theorem endPowerOnHold (h : Q s) (straps : StrapPins) : Q (s.endPowerOnHold straps) := by
  unfold State.endPowerOnHold
  split
  · exact h
  · split
    · exact h
    · dsimp only
      split
      · exact k.reset _ _ _
      · exact k.quiet h rfl rfl rfl

/-! ### Every command -/

omit k in
theorem whileRunning {effect : State → State} (e : Machine.whileRunning effect s = .next t)
    (h : Q s) (after : Q (effect s)) : Q t := by
  unfold Machine.whileRunning at e
  obtain rfl := Host.Outcome.next.inj e
  split
  · exact after
  · exact h

omit k in
theorem next (e : Host.Outcome.next (φ := Fault) (ρ := Refusal) s = .next t) (after : Q s) : Q t :=
  Host.Outcome.next.inj e ▸ after

theorem exec (h : Q s) (i : Instr) (e : Machine.exec i s = .next t) : Q t := by
  have taken := k.frameTaken h
  unfold Machine.exec at e
  cases i with
  | admission telegram =>
    refine whileRunning e h ?_
    split
    · exact k.takeCommand taken _
    · exact k.count taken _
  | trunkFrameDiscarded frame => exact whileRunning e h (k.completeFrame h _ _ _)
  | gapTimeout => exact whileRunning e h (k.breakFrame h)
  | byteFramingError => exact whileRunning e h (k.breakFrame h)
  | unknownRequest source seq payload => exact whileRunning e h (k.takePayload taken _ _ _)
  | readStatus r => exact whileRunning e h (k.takeCode taken 1 r)
  | readClock r => exact whileRunning e h (k.takeCode taken 2 r)
  | setClock r => exact whileRunning e h (k.takeCode taken 3 r)
  | adjustClock r => exact whileRunning e h (k.takeCode taken 4 r)
  | readEntry r => exact whileRunning e h (k.takeCode taken 5 r)
  | writeEntry r => exact whileRunning e h (k.takeCode taken 6 r)
  | copyActive r => exact whileRunning e h (k.takeCode taken 7 r)
  | discardStaging r => exact whileRunning e h (k.takeCode taken 8 r)
  | commit r => exact whileRunning e h (k.takeCode taken 9 r)
  | commitEnd => exact whileRunning e h (k.endCommit h)
  | setProfile r => exact whileRunning e h (k.takeCode taken 10 r)
  | readProfile r => exact whileRunning e h (k.takeCode taken 11 r)
  | setPacing r => exact whileRunning e h (k.takeCode taken 12 r)
  | holdSegment r => exact whileRunning e h (k.takeCode taken 13 r)
  | resumeSegment r => exact whileRunning e h (k.takeCode taken 14 r)
  | purge r => exact whileRunning e h (k.takeCode taken 15 r)
  | readQueue r => exact whileRunning e h (k.takeCode taken 16 r)
  | readCounters r => exact whileRunning e h (k.takeCode taken 17 r)
  | setNoticeAddress r => exact whileRunning e h (k.takeCode taken 18 r)
  | setManagers r => exact whileRunning e h (k.takeCode taken 21 r)
  | flush r => exact whileRunning e h (k.takeCode taken 19 r)
  | restart r => exact whileRunning e h (k.takeCode taken 20 r)
  | secondEdge => exact whileRunning e h (k.edge h)
  | expiryCheck g => exact whileRunning e h (k.expire (k.settle h _))
  | examination g => exact whileRunning e h (k.examine (k.settle h _))
  | pacerGapEnd g =>
    refine whileRunning e h ?_
    unfold State.endPacerGap
    split
    · next endsAt _ => exact k.examine (k.setSeg (k.reach h endsAt) rfl)
    · exact h
  | startWalk g => exact whileRunning e h (k.walk (k.settle h _))
  | conflictAbort g unit sensed => exact whileRunning e h (k.abort unit sensed h)
  | transmissionEnd g => exact whileRunning e h (k.endTransmission h)
  | quietGapEnd g => exact whileRunning e h (k.endQuietGap h)
  | lineActivity g sensed => exact whileRunning e h (k.beginReception h sensed)
  | stuckLine record => exact whileRunning e h (k.stuckLine h _)
  | receptionEnd g line => exact whileRunning e h (k.endReception h line)
  | answerTimerExpiry g tag => exact whileRunning e h (k.timeOut tag h)
  | reportFormation => exact whileRunning e h (k.formReport (k.settle h _))
  | arbiterTake => exact whileRunning e h (k.arbitrate (k.settle h _))
  | trunkTransmissionEnd pins => exact whileRunning e h (k.endTrunkTransmission h pins)
  | supplyFall => exact next e (k.fallSupply h)
  | powerOnHoldEnd pins => exact next e (k.endPowerOnHold h pins)
  | rstNLow => exact next e (k.lowerRstN h)
  | rstNHigh pins => exact next e (k.raiseRstN h pins)
  | byteReceived b => exact whileRunning e h (k.receiveByte h b)
  | supplyRise => exact next e (k.riseSupply h)

/-- A predicate with these rules is kept by every step. -/
theorem step (h : Q s) (e : Machine.step s = .next t) : Q t := by
  unfold Machine.step at e
  split at e
  · exact next e h
  · next c rest _ => exact k.exec (k.withPending h rest) c e

end StepRules

end Sys2Proof.Machine
end

