-- ==== Sys2Proof/Proofs/StoreKept.lean ====
section
/-! SUPPORT. The invariants of the store and of the records (R4, R5) and the flag of R13 and R14 are kept
by every step. -/

namespace Sys2Proof.Machine

open Sys2Proof.Safety

variable {records : Prop} {s t : State} {g : Seg} {n : SlotNo} {P : Place} {r : Slot}

/-! ### Admission -/

/-- The slot in hand takes a new record with the next intake number. -/
theorem InHand.allocate (h : InHand records s n P r) {record : Intake → Slot}
    (segment : (record (s.buffer.intakeCounter + 1)).segment = g)
    (fits : Fits (.queued g) (record (s.buffer.intakeCounter + 1))) :
    InHand records (s.allocate n record) n (.queued g) (record (s.buffer.intakeCounter + 1)) :=
  h.write (places_congr rfl rfl) rfl (congrArg some segment.symm) fun _ _ => fits

theorem Sound.allocateFree (h : Sound records s []) (free : s.buffer.slots[n] = none)
    {record : Intake → Slot} (segment : (record (s.buffer.intakeCounter + 1)).segment = g)
    (fits : Fits (.queued g) (record (s.buffer.intakeCounter + 1))) :
    InHand records (s.allocate n record) n (.queued g) (record (s.buffer.intakeCounter + 1)) :=
  ⟨h.allocate free (places_congr rfl rfl) rfl, put_same .., congrArg some segment.symm, fun _ => fits⟩

theorem displace_inHand (h : Sound records s []) (hn : n ∈ s.segs[g].deferralQueue) (r : Slot) :
    ∃ x, InHand records (s.displace g n r) n (.queued g) x := by
  obtain ⟨x, -, hand⟩ := leaveDeferralQueue_inHand h hn
  refine ⟨_, hand.still ?_ ?_⟩
  · exact (places_congr rfl rfl).trans (places_pushReport _)
  · exact congrArg Buffer.slots (State.pushReport_buffer _ _)

/-- Step 5 of R17 gives a slot in hand that no collection holds. -/
theorem takeSlot_inHand (h : Sound records s []) {p : Fin 4} {record : Intake → Slot}
    (segment : ∀ i, (record i).segment = g) (fits : ∀ i, Fits (.queued g) (record i))
    (taken : s.takeSlot p record = some (n, t)) : ∃ x, InHand records t n (.queued g) x := by
  unfold State.takeSlot at taken
  split at taken
  · next m rest free =>
    obtain ⟨rfl, rfl⟩ := Prod.mk.inj (Option.some.inj taken)
    have free := (mem_freeList m).1 (free ▸ List.mem_cons_self ..)
    exact ⟨_, (h.allocateFree free (segment _) (fits _)).still places_checkHigh checkHigh_slots⟩
  · split at taken
    · cases taken
    · next k m x victim =>
      split at taken
      · obtain ⟨rfl, rfl⟩ := Prod.mk.inj (Option.some.inj taken)
        have hm := (mem_candidates.1 (chooseVictim_mem victim)).1
        obtain ⟨y, hand⟩ := displace_inHand h hm x
        exact ⟨_, hand.allocate (segment _) (fits _)⟩
      · cases taken

theorem places_interim (r : Slot) (reason : DeferralReason) :
    (s.interim r reason).places = s.places := by
  unfold State.interim
  split
  · split
    · exact places_pushReport _
    · exact places_congr rfl rfl
  · rfl

theorem interim_buffer (r : Slot) (reason : DeferralReason) :
    (s.interim r reason).buffer = s.buffer := by
  unfold State.interim
  split
  · split
    · exact State.pushReport_buffer _ _
    · rfl
  · rfl

theorem InHand.deferNew (h : InHand records s n (.queued g) r) (x : Slot) (reason : DeferralReason) :
    Sound records (s.deferNew g n x reason) [] :=
  (h.deferAtBack reason).still ((places_interim _ _).trans (places_congr rfl rfl))
    (congrArg Buffer.slots (interim_buffer _ _))

theorem InHand.place (h : InHand records s n (.queued g) r) (x : Slot) (holdLimit : Nat) :
    Sound records (s.place g n x holdLimit) [] := by
  unfold State.place
  split
  · exact h.deferNew x _
  · split
    · exact h.deferNew x _
    · split
      · exact h.joinFresh
      · exact h.deferNew x _

theorem refuse_quiet (u : CommandTelegram) (o : ReportOutcome) (x : Option Seg) :
    (s.refuse u o x).places = s.places ∧ (s.refuse u o x).buffer = s.buffer := by
  unfold State.refuse
  split
  · exact ⟨(places_pushReport _).trans (places_congr rfl rfl), State.pushReport_buffer _ _⟩
  · exact ⟨places_congr rfl rfl, rfl⟩

theorem fits_newSlot (u : CommandTelegram) (p : ClassPolicy) (uptime : Nat) (i : Intake) :
    Fits (.queued g) (newSlot u p g uptime i) :=
  ⟨rfl, rfl, rfl, by simp [newSlot], Nat.zero_le _, fun _ => Nat.zero_le _⟩

theorem Sound.admitRouted (h : Sound records s []) (u : CommandTelegram) (p : ClassPolicy) (g : Seg) :
    Sound records (s.admitRouted u p g) [] := by
  unfold State.admitRouted
  split
  · obtain ⟨places, buffer⟩ := refuse_quiet (s := s) u .refusedStoreFull (some g)
    exact h.still places (congrArg Buffer.slots buffer)
  · next n t taken =>
    obtain ⟨x, hand⟩ := takeSlot_inHand (g := g) h (fun _ => rfl) (fits_newSlot u p _) taken
    have slot : t.slot n = some x := hand.slot
    simp only [slot]
    exact hand.place x _

/-! ### FLUSH and the resets -/

/-- With every slot FREE and every collection empty the store is sound. -/
theorem sound_of_empty (places : s.places = []) (slots : s.buffer.slots = Vector.replicate 256 none) :
    Sound records s [] where
  once := by simp [places]
  inUse n := by simp [places, slots]
  segment n P r g hm := by simp [places] at hm
  fits _ n P r hm := by simp [places] at hm

theorem places_of_empty (chains : ∀ g, chainPlaces g s.segs[g] = [])
    (backlog : s.reports.backlog = []) : s.places = [] := by
  simp only [State.places, State.backlogPlaces, chains, backlog, List.map_nil, List.append_nil]
  exact List.flatMap_eq_nil_iff.2 fun _ _ => rfl

theorem chainPlaces_flush (now : Nat) (x : Segment) : chainPlaces g (x.flush now) = [] := by
  cases hx : x.transceiver <;>
    simp [chainPlaces, Segment.flush, Transceiver.cut, hx, sendingPlaces]

theorem sound_flush (s : State) : Sound records s.flush [] := by
  refine Sound.still (sound_of_empty ?_ rfl) places_checkClear checkClear_slots
  refine places_of_empty (fun g => ?_) rfl
  exact (congrArg (chainPlaces g) (Vector.getElem_ofFn _)).trans (chainPlaces_flush _ _)

theorem sound_afterReset (cause : StartCause) (straps : StrapPins) :
    Sound records (State.afterReset cause straps) [] := by
  refine sound_of_empty (places_of_empty (fun g => ?_) rfl) rfl
  exact congrArg (chainPlaces g) (Vector.getElem_replicate _)

theorem sound_resetTakesEffect (s : State) (cause : StartCause) (straps : StrapPins) :
    Sound records (s.resetTakesEffect cause straps) [] :=
  (sound_afterReset cause straps).still (places_congr rfl rfl) rfl

/-! ### The obligations -/

/-- Soundness of the store, with or without that of the records, has the rules of a step. -/
theorem soundRules (records : Prop) : StepRules fun s => Sound records s [] where
  still h buffer places := h.still places (congrArg Buffer.slots buffer)
  endDeferred h hn ha := h.endDeferred hn ha
  endQueued h hn ha := h.endQueued hn ha
  releaseSlot h := h.releaseSlot
  handBack h := h.handBack
  start h := h.start
  endTransmission h := h.endTransmission
  abort k sensed h := h.abort k sensed
  timeOut tag h := h.timeOut tag
  answer a h he := h.answer he a
  formOldest h := h.formOldest
  admitRouted t p g h := h.admitRouted t p g
  flush _ := sound_flush _
  reset := sound_resetTakesEffect

end Sys2Proof.Machine

namespace Sys2Proof.Proofs

open Sys2Proof.Machine Sys2Proof.Safety

/-- Settles O53: the rules of a step, with no claim about the records. -/
theorem stepsKeepTheStore : Obligations.StepsKeepTheStore := by
  intro s t store e
  have sound : Sound False s [] := sound_of_storeInv store False.elim
  exact ((soundRules False).step sound e).storeInv

/-- Settles O54: the rules of a step, with the records claimed. -/
theorem stepsKeepTheRecords : Obligations.StepsKeepTheRecords := by
  intro s t store fits e
  exact ((soundRules True).step (sound_of_invariants store fits) e).recordsInv

end Sys2Proof.Proofs
end

