-- ==== Sys2Proof/Proofs/Occupancy.lean ====
section
/-! SUPPORT. The in-use count and the STORE_HIGH flag (R13, R14) through the operations on slots. -/

namespace Sys2Proof.Machine

open Sys2Proof.Safety

variable {s t : State} {g : Seg} {n : SlotNo} {r : Slot}

/-! ### The in-use count -/

theorem inUseCount_eq (s : State) : inUseCount s = s.buffer.slots.countP Option.isSome := by
  rw [inUseCount, ← List.countP_eq_length_filter, Vector.countP_toList]

/-- The in-use count after a place of the buffer has been written. -/
theorem inUseCount_put {x : Option Slot} (slots : t.buffer.slots = put s.buffer.slots n x) :
    inUseCount t + (if s.buffer.slots[n].isSome then 1 else 0) =
      inUseCount s + (if x.isSome then 1 else 0) := by
  have used : (if s.buffer.slots[n].isSome then 1 else 0) ≤ s.buffer.slots.countP Option.isSome := by
    split
    · next h => exact Vector.countP_pos_iff.2 ⟨_, Vector.getElem_mem n.isLt, h⟩
    · exact Nat.zero_le _
  have := Vector.countP_set (p := Option.isSome) (xs := s.buffer.slots) (a := x) n.isLt
  simp only [inUseCount_eq, slots, put] at this used ⊢
  simp only [Fin.getElem_fin] at used ⊢
  omega

/-- The same slots are in use and STORE_HIGH is the same. -/
structure SameUse (s t : State) : Prop where
  used : t.buffer.slots.map Option.isSome = s.buffer.slots.map Option.isSome
  flag : t.buffer.storeHigh = s.buffer.storeHigh

theorem SameUse.trans {u : State} (h : SameUse s t) (k : SameUse t u) : SameUse s u :=
  ⟨k.used.trans h.used, k.flag.trans h.flag⟩

theorem sameUse_of_buffer (h : t.buffer = s.buffer) : SameUse s t :=
  ⟨by rw [h], by rw [h]⟩

theorem SameUse.count (h : SameUse s t) : inUseCount t = inUseCount s := by
  have count : ∀ v : Vector (Option Slot) 256,
      v.countP Option.isSome = (v.map Option.isSome).countP id := fun v => by
    rw [Vector.countP_map, Function.id_comp]
  rw [inUseCount_eq, inUseCount_eq, count, count, h.used]

theorem SameUse.isSome (h : SameUse s t) (n : SlotNo) :
    t.buffer.slots[n].isSome = s.buffer.slots[n].isSome := by
  have each : ∀ v : Vector (Option Slot) 256, (v.map Option.isSome)[n] = v[n].isSome :=
    fun v => Vector.getElem_map ..
  rw [← each, h.used, each]

theorem SameUse.occupancy (h : SameUse s t) (inv : OccupancyInv s) : OccupancyInv t :=
  ⟨by rw [h.count, h.flag]; exact inv.high, by rw [h.count, h.flag]; exact inv.clear⟩

/-- A place of the buffer is written that stays in use or stays FREE. -/
theorem sameUse_put {x : Option Slot} (slots : t.buffer.slots = put s.buffer.slots n x)
    (same : x.isSome = s.buffer.slots[n].isSome) (flag : t.buffer.storeHigh = s.buffer.storeHigh) :
    SameUse s t := by
  refine ⟨Vector.ext fun i hi => ?_, flag⟩
  have := put_apply s.buffer.slots n ⟨i, hi⟩ x
  rw [Vector.getElem_map, Vector.getElem_map, slots]
  refine (congrArg Option.isSome this).trans ?_
  split
  · next e => rw [same, ← e]; rfl
  · rfl

theorem occupancy_still (inv : OccupancyInv s) (h : t.buffer = s.buffer) : OccupancyInv t :=
  (sameUse_of_buffer h).occupancy inv

theorem sameUse_modify {f : Slot → Slot}
    (slots : t.buffer.slots = put s.buffer.slots n (s.buffer.slots[n].map f))
    (flag : t.buffer.storeHigh = s.buffer.storeHigh) : SameUse s t :=
  sameUse_put slots Option.isSome_map flag

theorem occupancy_modify (inv : OccupancyInv s) {f : Slot → Slot}
    (slots : t.buffer.slots = put s.buffer.slots n (s.buffer.slots[n].map f))
    (flag : t.buffer.storeHigh = s.buffer.storeHigh) : OccupancyInv t :=
  (sameUse_modify slots flag).occupancy inv

/-! ### The operations -/

theorem sameUse_report (o : ReportOutcome) (a : Option AnswerPart) : SameUse s (s.report n o a) :=
  sameUse_modify rfl rfl

theorem sameUse_leaveDeferralQueue : SameUse s (s.leaveDeferralQueue g n) :=
  sameUse_modify rfl rfl

theorem sameUse_endDeferred (o : ReportOutcome) (a : Option AnswerPart) :
    SameUse s (s.endDeferred g o a n) :=
  sameUse_leaveDeferralQueue.trans (sameUse_report o a)

theorem sameUse_endQueued (o : ReportOutcome) (a : Option AnswerPart) :
    SameUse s (s.endQueued g o a n) :=
  (sameUse_of_buffer (s := s) (t := s.leaveSendQueue g n) rfl).trans (sameUse_report o a)

theorem sameUse_handBack : SameUse s (s.handBack g n r) := by
  unfold State.handBack
  split
  · exact sameUse_endQueued _ _
  · exact sameUse_modify rfl rfl

theorem sameUse_retryDecision (o : ReportOutcome) : SameUse s (s.retryDecision g n o) := by
  unfold State.retryDecision
  split
  · exact sameUse_of_buffer rfl
  · split
    · split
      · exact sameUse_modify rfl rfl
      · exact sameUse_report _ _
    · exact sameUse_report _ _

theorem sameUse_endTransmission : SameUse s (s.endTransmission g) := by
  unfold State.endTransmission
  split
  · unfold State.afterTransmission
    dsimp only
    split
    · exact sameUse_of_buffer rfl
    · split
      · exact sameUse_of_buffer rfl
      · exact sameUse_modify rfl rfl
  · exact sameUse_of_buffer rfl

theorem sameUse_abort (k : Nat) (sensed : Wire) : SameUse s (s.abort g k sensed) := by
  unfold State.abort
  split
  · split
    · next tx _ =>
      refine SameUse.trans (sameUse_of_buffer ?_) (sameUse_retryDecision _)
      rw [raiseStreak_buffer, State.enterQuiet_buffer, State.reach_buffer]
    · exact sameUse_of_buffer rfl
  · exact sameUse_of_buffer rfl

theorem sameUse_timeOut (tag : Byte) : SameUse s (s.timeOut g tag) := by
  unfold State.timeOut
  split
  · exact sameUse_of_buffer rfl
  · next e _ =>
    exact (sameUse_of_buffer (s := s) (t := ((s.reach e.expiry).retire g e .timedOut).count
      (Counter.timeouts g)) rfl).trans (sameUse_retryDecision _)

theorem sameUse_interim (x : Slot) (reason : DeferralReason) : SameUse s (s.interim x reason) :=
  sameUse_of_buffer (interim_buffer x reason)

theorem sameUse_deferNew (x : Slot) (reason : DeferralReason) :
    SameUse s (s.deferNew g n x reason) :=
  (sameUse_modify (s := s) (t := (s.deferAtBack g n reason).count Counter.deferrals) rfl rfl).trans
    (sameUse_interim x reason)

theorem sameUse_place (x : Slot) (holdLimit : Nat) : SameUse s (s.place g n x holdLimit) := by
  unfold State.place
  split
  · exact sameUse_deferNew _ _
  · split
    · exact sameUse_deferNew _ _
    · split
      · exact sameUse_of_buffer rfl
      · exact sameUse_deferNew _ _

/-! ### The comparisons of R13 and R14 -/

theorem noticed_buffer (kind : NoticeKind) : (noticed s kind).buffer = s.buffer := by
  unfold noticed
  split <;> rfl

/-- The check of R14 clears the flag where it has to be false. -/
theorem occupancy_checkClear (high : 224 ≤ inUseCount s → s.buffer.storeHigh = true) :
    OccupancyInv s.checkClear := by
  obtain ⟨occ, e⟩ := checkClear_eq (s := s)
  have count : inUseCount s.checkClear = inUseCount s := by
    rw [inUseCount, checkClear_slots, inUseCount]
  have flag : s.checkClear.buffer.storeHigh =
      if s.buffer.storeHigh = true ∧ inUseCount s ≤ 192 then false else s.buffer.storeHigh := by
    rw [e]
    split
    · exact congrArg Buffer.storeHigh (noticed_buffer _)
    · rfl
  refine ⟨fun h => ?_, fun h => ?_⟩ <;> rw [count] at h
  · rw [flag, if_neg (by omega)]
    exact high h
  · cases hs : s.buffer.storeHigh <;> simp [flag, hs, h]

/-- The check of R13 sets the flag where it has to be true. -/
theorem occupancy_checkHigh (clear : inUseCount s ≤ 192 → s.buffer.storeHigh = false) :
    OccupancyInv s.checkHigh := by
  obtain ⟨occ, e⟩ := checkHigh_eq (s := s)
  have count : inUseCount s.checkHigh = inUseCount s := by
    rw [inUseCount, checkHigh_slots, inUseCount]
  have flag : s.checkHigh.buffer.storeHigh =
      if s.buffer.storeHigh = false ∧ 224 ≤ inUseCount s then true else s.buffer.storeHigh := by
    rw [e]
    split
    · exact congrArg Buffer.storeHigh (noticed_buffer _)
    · rfl
  refine ⟨fun h => ?_, fun h => ?_⟩ <;> rw [count] at h
  · cases hs : s.buffer.storeHigh <;> simp [flag, hs, h]
  · rw [flag, if_neg (by omega)]
    exact clear h

theorem occupancy_free (h : OccupancyInv s) : OccupancyInv (s.free n) := by
  have count := inUseCount_put (s := s) (t := s.setSlot n none) (n := n) rfl
  refine occupancy_checkClear fun high => h.high ?_
  simp only [Option.isSome_none, Bool.false_eq_true, if_false, Nat.add_zero] at count
  omega

theorem occupancy_formOldest {rest : List SlotNo} (h : OccupancyInv s) :
    OccupancyInv (s.formOldest n rest) := by
  have taken : OccupancyInv { s with reports.backlog := rest } :=
    occupancy_still h rfl
  have owed : ∀ {u : State}, OccupancyInv u → OccupancyInv (u.owe .formation) :=
    fun hu => occupancy_still hu rfl
  unfold State.formOldest
  dsimp only
  split
  · exact owed taken
  · split
    · exact owed (occupancy_free taken)
    · exact owed (occupancy_free
        (occupancy_still taken (State.pushReport_buffer _ _)))

/-- Step 5 of R17 keeps the flag: an allocation is followed by the comparison of R13, and a displacement
leaves the slot in use. -/
theorem occupancy_takeSlot (h : OccupancyInv s) {p : Fin 4} {record : Intake → Slot}
    (taken : s.takeSlot p record = some (n, t)) : OccupancyInv t := by
  unfold State.takeSlot at taken
  split at taken
  · next m rest _ =>
    obtain ⟨rfl, rfl⟩ := Prod.mk.inj (Option.some.inj taken)
    have count := inUseCount_put (s := s) (t := s.allocate m record) (n := m) rfl
    refine occupancy_checkHigh fun few => h.clear ?_
    simp only [Option.isSome_some, if_true] at count
    split at count <;> omega
  · next full =>
    split at taken
    · cases taken
    · next k m x _ =>
      split at taken
      · obtain ⟨rfl, rfl⟩ := Prod.mk.inj (Option.some.inj taken)
        have used := freeList_nil_iff.1 full m
        have left : SameUse s (s.displace k m x) :=
          sameUse_leaveDeferralQueue.trans (sameUse_of_buffer (State.pushReport_buffer _ _))
        refine (left.trans ?_).occupancy h
        refine sameUse_put (s := s.displace k m x) (n := m)
          (x := some (record ((s.displace k m x).buffer.intakeCounter + 1))) rfl ?_ rfl
        exact (left.isSome m).trans used |>.symm
      · cases taken

theorem occupancy_admitRouted (h : OccupancyInv s) (u : CommandTelegram) (p : ClassPolicy) (g : Seg) :
    OccupancyInv (s.admitRouted u p g) := by
  unfold State.admitRouted
  split
  · exact (sameUse_of_buffer (refuse_quiet u .refusedStoreFull (some g)).2).occupancy h
  · next n t taken =>
    have := occupancy_takeSlot h taken
    split
    · exact (sameUse_place _ _).occupancy this
    · exact this

theorem inUseCount_of_empty (h : s.buffer.slots = Vector.replicate 256 none) : inUseCount s = 0 := by
  rw [inUseCount_eq, h, Vector.countP_replicate]
  rfl

theorem occupancy_flush (s : State) : OccupancyInv s.flush := by
  refine occupancy_checkClear fun high => ?_
  rw [inUseCount_of_empty rfl] at high
  omega

theorem occupancy_afterReset (cause : StartCause) (straps : StrapPins) :
    OccupancyInv (State.afterReset cause straps) := by
  have count : inUseCount (State.afterReset cause straps) = 0 := inUseCount_of_empty rfl
  exact ⟨by rw [count]; omega, fun _ => rfl⟩

/-- STORE_HIGH follows the in-use count with the rules of a step. -/
theorem occupancyRules : StepRules OccupancyInv where
  still h buffer _ := occupancy_still h buffer
  endDeferred h _ _ := (sameUse_endDeferred _ _).occupancy h
  endQueued h _ _ := (sameUse_endQueued _ _).occupancy h
  releaseSlot h _ := occupancy_modify h rfl rfl
  handBack h _ _ := sameUse_handBack.occupancy h
  start h _ _ := occupancy_modify h rfl rfl
  endTransmission h := sameUse_endTransmission.occupancy h
  abort k sensed h := (sameUse_abort k sensed).occupancy h
  timeOut tag h := (sameUse_timeOut tag).occupancy h
  answer _ h _ := occupancy_modify h rfl rfl
  formOldest h _ := occupancy_formOldest h
  admitRouted u p g h := occupancy_admitRouted h u p g
  flush _ := occupancy_flush _
  reset _ cause straps := occupancy_still (occupancy_afterReset cause straps) rfl

end Sys2Proof.Machine

namespace Sys2Proof.Proofs

open Sys2Proof.Machine Sys2Proof.Safety

/-- Settles O58, by the rules of a step: every freeing and every allocation of a FREE slot is followed by
its comparison. -/
theorem stepsKeepTheOccupancyFlag : Obligations.StepsKeepTheOccupancyFlag :=
  fun _ _ h e => occupancyRules.step h e

end Sys2Proof.Proofs
end

