-- ==== Sys2Proof/Proofs/Resets.lean ====
section
/-! SUPPORT. The state after a reset, and the tick of an uptime past its top. -/

namespace Sys2Proof.Machine

open Sys2Proof.Safety

variable {cause : StartCause} {straps : StrapPins}

/-! ### After a reset -/

@[simp] theorem afterReset_seg (g : Seg) : (State.afterReset cause straps).segs[g] = Segment.atReset :=
  Vector.getElem_replicate ..

@[simp] theorem afterReset_slot (n : SlotNo) :
    (State.afterReset cause straps).buffer.slots[n] = none :=
  Vector.getElem_replicate ..

@[simp] theorem empty_route (i : RouteNo) : Tables.empty.routes[i] = none :=
  Vector.getElem_replicate ..

@[simp] theorem empty_class (i : ClassNo) : Tables.empty.classes[i] = none :=
  Vector.getElem_replicate ..

@[simp] theorem empty_window (i : WindowNo) : Tables.empty.windows[i] = none :=
  Vector.getElem_replicate ..

theorem chainsInv_afterReset : ChainsInv (State.afterReset cause straps) := by
  intro g
  refine ⟨?_, fun tx r h => ?_, ?_, ?_, fun n r h => ?_⟩
  · rw [afterReset_seg]
    exact Nat.zero_le _
  · rw [afterReset_seg] at h
    cases h
  · rw [afterReset_seg]
    decide
  · rw [afterReset_seg]
    exact List.Pairwise.nil
  · rw [afterReset_seg] at h
    simp [Segment.atReset] at h

theorem intakeInv_afterReset : IntakeInv (State.afterReset cause straps) where
  pairs n m x y hx := by
    rw [afterReset_slot] at hx
    cases hx
  numbers n m x y hx := by
    rw [afterReset_slot] at hx
    cases hx
  order g := by
    rw [afterReset_seg]
    exact List.Pairwise.nil

theorem tagsInv_afterReset : TagsInv (State.afterReset cause straps) := by
  intro g
  rw [afterReset_seg]
  exact ⟨List.nodup_nil, nofun⟩

/-- No strap level gives the part the address 0 (R156). -/
theorem ownAddressOf_ne_zero : (0 : Addr) ≠ ownAddressOf straps := by
  have all : ∀ adr : BitVec 4, (0 : Addr) ≠ BitVec.ofNat 12 (Config.ownAddressBase + adr.toNat) := by
    decide
  exact all straps.adr

theorem boundsInv_afterReset : BoundsInv (State.afterReset cause straps) where
  reports := Nat.zero_le _
  notices := Nat.le_of_ble_eq_true rfl
  responses := Nat.zero_le _
  rings g := by
    rw [afterReset_seg]
    exact Nat.zero_le _
  streaks g := by
    rw [afterReset_seg]
    exact Nat.zero_le _
  counters c := by
    have : (State.afterReset cause straps).counters[c] = 0 := Vector.getElem_replicate ..
    rw [this]
    exact Nat.zero_le _
  uptime := Nat.zero_le _
  managers := ⟨Nat.zero_le _, List.nodup_nil, nofun⟩
  noticeAddress := ownAddressOf_ne_zero

theorem clockInv_afterReset : ClockInv (State.afterReset cause straps) where
  real := nofun
  windows := by
    refine Vector.ext fun i hi => ?_
    refine (Vector.getElem_replicate hi).trans (Eq.trans ?_ (Vector.getElem_ofFn hi).symm)
    exact (congrArg (windowStateAt · none) (empty_window ⟨i, hi⟩)).symm

theorem consistent_empty : Consistent Tables.empty where
  masks i w h := by
    rw [empty_window] at h
    cases h
  sets i p h := by
    rw [empty_class] at h
    cases h
  ranges i r h := by
    rw [empty_route] at h
    cases h
  apart i j r q _ h := by
    rw [empty_route] at h
    cases h

/-! ### A tick past the top of the uptime -/

/-- A record whose hold deadline is 2^32. -/
def lateSlot (source : Addr) : Slot where
  intake := 1
  source := source
  seq := 0
  cls := 0
  device := 1
  payload := []
  segment := 0
  admittedAt := 0
  priority := 0
  answerExpected := false
  retryLimit := 0
  answerTimeoutMs := 0
  notifyOnDefer := false
  holdDeadline := 4294967296
  attempts := 0
  deferredSeconds := 0
  deferral := none
  lineTag := none
  outcome := none
  answer := none

/-- Two queued slots of one intake number whose deadline lies behind an uptime of 2^32, above the
saturation value; the second edge waits. -/
def pastTop : State :=
  { State.reset with
    buffer.slots := put (put State.reset.buffer.slots 0 (some (lateSlot 1))) 1 (some (lateSlot 2))
    segs := put State.reset.segs 0 { Segment.atReset with sendQueue := [0, 1] }
    clock.uptime := 4294967296
    pending := [.secondEdge] }

theorem pastTop_slot {n : SlotNo} {r : Slot} (h : pastTop.buffer.slots[n] = some r) :
    n = 0 ∧ r = lateSlot 1 ∨ n = 1 ∧ r = lateSlot 2 := by
  have e : pastTop.buffer.slots[n] =
      if n = 1 then some (lateSlot 2) else if n = 0 then some (lateSlot 1) else none := by
    refine (put_apply _ _ _ _).trans (congrArg (ite _ _) ((put_apply _ _ _ _).trans ?_))
    exact congrArg (ite _ _) (afterReset_slot n)
  rw [e] at h
  split at h
  · next hn => exact .inr ⟨hn, (Option.some.inj h).symm⟩
  · split at h
    · next hn => exact .inl ⟨hn, (Option.some.inj h).symm⟩
    · cases h

theorem pastTop_deferralQueue (g : Seg) : pastTop.segs[g].deferralQueue = [] := by
  have e : pastTop.segs[g] = if g = 0 then { Segment.atReset with sendQueue := [0, 1] }
      else Segment.atReset :=
    (put_apply _ _ _ _).trans (congrArg (ite _ _) (afterReset_seg g))
  rw [e]
  split <;> rfl

/-- At an uptime past the top neither slot may wait. -/
theorem pastTop_not_mayWait {n : SlotNo} {r : Slot} (h : pastTop.buffer.slots[n] = some r) :
    ¬ mayWait pastTop n r := by
  have deadline : r.holdDeadline = 4294967296 := by
    obtain ⟨-, rfl⟩ | ⟨-, rfl⟩ := pastTop_slot h <;> rfl
  rintro (hw | hw)
  · rw [pastTop_deferralQueue] at hw
    cases hw
  · rw [deadline] at hw
    exact Nat.lt_irrefl _ hw

theorem pastTop_recent : RecentIntakes pastTop :=
  fun _ _ h hw => absurd hw (pastTop_not_mayWait h)

theorem pastTop_intakeInv : IntakeInv pastTop where
  pairs n m x y hx hy ne := by
    rintro ⟨same, -⟩
    obtain ⟨rfl, rfl⟩ | ⟨rfl, rfl⟩ := pastTop_slot hx <;>
      obtain ⟨rfl, rfl⟩ | ⟨rfl, rfl⟩ := pastTop_slot hy
    · exact ne rfl
    · exact absurd same (by decide)
    · exact absurd same (by decide)
    · exact ne rfl
  numbers n m x y hx _ _ hw := absurd hw (pastTop_not_mayWait hx)
  order g := by
    rw [pastTop_deferralQueue]
    exact List.Pairwise.nil

end Sys2Proof.Machine

namespace Sys2Proof.Proofs

open Sys2Proof.Machine Sys2Proof.Safety Sys2Proof.Laws

/-- Settles O51: each block is the constant of its reset. -/
theorem resetValues : Obligations.ResetValues := by
  rintro cause straps s rfl
  refine ⟨afterReset_slot, rfl, rfl, rfl, fun i => Vector.getElem_replicate .., ?_, rfl, rfl, rfl,
    fun c => Vector.getElem_replicate .., rfl, rfl, rfl, afterReset_seg⟩
  rintro image (rfl | rfl) <;> exact ⟨empty_route, empty_class, empty_window⟩

/-- Settles O52: nothing is held, queued or defined after a reset. -/
theorem invariantsHoldAtReset : Obligations.InvariantsHoldAtReset := by
  have all : ∀ cause straps, let s := State.afterReset cause straps
      StoreInv s ∧ RecordsInv s ∧ ChainsInv s ∧ IntakeInv s ∧ TagsInv s ∧ BoundsInv s ∧
        OccupancyInv s ∧ ClockInv s ∧ Consistent s.bank.active := fun cause straps =>
    have sound : Sound True (State.afterReset cause straps) [] := sound_afterReset cause straps
    ⟨sound.storeInv, sound.recordsInv, chainsInv_afterReset, intakeInv_afterReset, tagsInv_afterReset,
      boundsInv_afterReset, occupancy_afterReset cause straps, clockInv_afterReset, consistent_empty⟩
  rintro cause straps s (rfl | rfl)
  · exact all cause straps
  · exact all .powerOn { adr := 0, rate := 0 }

/-- Refutes O55: its premises do not bound the uptime, and the tick brings an uptime above 2^32 - 1 back
to 2^32 - 1. In `pastTop` that puts a hold deadline of 2^32 ahead again, for two queued slots with one
intake number, which may then both wait. -/
theorem not_stepsKeepTheChains : ¬ Obligations.StepsKeepTheChains := by
  intro h
  have store : StoreInv pastTop := storeInv_of_check (by decide +kernel)
  obtain ⟨-, intakes⟩ := h pastTop (pastTop.withPending []).edge store rfl
  have inv := intakes pastTop_recent pastTop_intakeInv
  have slots : (pastTop.withPending []).edge.buffer.slots = pastTop.buffer.slots :=
    congrArg Buffer.slots (State.evaluateWindows_buffer _)
  have uptime : (pastTop.withPending []).edge.clock.uptime = 4294967295 :=
    congrArg Clock.uptime (State.evaluateWindows_clock _)
  have ahead : ∀ (n : SlotNo) (source : Addr),
      mayWait (pastTop.withPending []).edge n (lateSlot source) := fun n source =>
    .inr (uptime ▸ (by decide : 4294967295 < 4294967296))
  refine inv.numbers 0 1 (lateSlot 1) (lateSlot 2) ?_ ?_ (by decide) (ahead 0 1) (ahead 1 2) rfl <;>
    rw [slots] <;> rfl

end Sys2Proof.Proofs
end

