-- ==== Sys2Proof/Proofs/SlotsEnd.lean ====
section
/-! SUPPORT. Slots that end together: the deferred and the queued slots of segments that a test selects,
as one explicit update (R62, R65, R66, R85). -/

namespace Sys2Proof.Machine

open Sys2Proof.Safety

variable {s : State} {g : Seg} {n : SlotNo}

/-! ### Counts raised several times -/

theorem raised_raised (count m k : Nat) : raised (raised count m) k = raised count (m + k) := by
  unfold raised
  split_ifs <;> omega

theorem bump_bump (counters : Vector Nat 56) (c : CounterId) (m k : Nat) :
    bump (bump counters c m) c k = bump counters c (m + k) := by
  unfold bump
  rw [put_put, put_same, raised_raised]

theorem bump_zero (counters : Vector Nat 56) (c : CounterId) : bump counters c 0 = counters :=
  put_self rfl

/-! ### Records changed in several places -/

/-- The records of the listed slots changed. -/
def mapSlots (v : Vector (Option Slot) 256) (l : List SlotNo) (f : Slot → Slot) :
    Vector (Option Slot) 256 :=
  Vector.ofFn fun n => if n ∈ l then v[n].map f else v[n]

theorem mapSlots_get (v : Vector (Option Slot) 256) (l : List SlotNo) (f : Slot → Slot) (n : SlotNo) :
    (mapSlots v l f)[n] = if n ∈ l then v[n].map f else v[n] :=
  Vector.getElem_ofFn ..

theorem slots_ext {v w : Vector (Option Slot) 256} (h : ∀ n : SlotNo, v[n] = w[n]) : v = w :=
  Vector.ext fun i hi => h ⟨i, hi⟩

theorem mapSlots_nil (v : Vector (Option Slot) 256) (f : Slot → Slot) : mapSlots v [] f = v :=
  slots_ext fun n => by simp only [mapSlots_get, List.not_mem_nil, if_false]

/-- One record after the other, when a second change of a record leaves it as the first did. -/
theorem mapSlots_mapSlots {v : Vector (Option Slot) 256} {l m : List SlotNo} {f h : Slot → Slot}
    (again : ∀ r, h (f r) = f r) (same : ∀ n ∈ m, ∀ r, v[n] = some r → h r = f r) :
    mapSlots (mapSlots v l f) m h = mapSlots v (l ++ m) f := by
  refine slots_ext fun n => ?_
  simp only [mapSlots_get, List.mem_append]
  by_cases hl : n ∈ l <;> by_cases hm : n ∈ m <;> simp only [hl, hm, if_true, if_false, or_true, or_false]
  · rw [Option.map_map]
    exact congrFun (congrArg Option.map (funext again)) _
  · cases hr : v[n] with
    | none => rfl
    | some r => exact congrArg some (same n hm r hr)

theorem mapSlots_put {v : Vector (Option Slot) 256} {l : List SlotNo} {f : Slot → Slot}
    (again : ∀ r, f (f r) = f r) (n : SlotNo) :
    mapSlots (put v n (v[n].map f)) l f = mapSlots v (n :: l) f := by
  refine slots_ext fun m => ?_
  simp only [mapSlots_get, put_apply, List.mem_cons]
  by_cases hn : m = n
  · subst hn
    by_cases hl : m ∈ l <;> simp only [hl, if_true, if_false, true_or]
    rw [Option.map_map]
    exact congrFun (congrArg Option.map (funext again)) _
  · simp only [hn, if_false, false_or]

theorem mapSlots_congr {v : Vector (Option Slot) 256} {l m : List SlotNo} {f h : Slot → Slot}
    (mem : ∀ n, n ∈ l ↔ n ∈ m) (same : ∀ n ∈ l, ∀ r, v[n] = some r → f r = h r) :
    mapSlots v l f = mapSlots v m h := by
  refine slots_ext fun n => ?_
  simp only [mapSlots_get, ← mem]
  split
  · next hn =>
    cases hr : v[n] with
    | none => rfl
    | some r => exact congrArg some (same n hn r hr)
  · rfl

/-! ### Lists without the selected -/

theorem diff_filter (l : List SlotNo) (p : SlotNo → Bool) :
    l.diff (l.filter p) = l.filter fun n => !p n := by
  induction l with
  | nil => rfl
  | cons n rest ih =>
    by_cases hn : p n = true
    · rw [List.filter_cons_of_pos hn, List.filter_cons_of_neg (by simp [hn]), List.diff_cons,
        List.erase_cons_head, ih]
    · have out : n ∉ rest.filter p := fun h => hn (List.mem_filter.1 h).2
      rw [List.filter_cons_of_neg hn, List.filter_cons_of_pos (by simpa using hn), List.cons_diff,
        if_neg out, ih]

/-! ### Slots that end -/

theorem leftDeferred_leftDeferred (u : Nat) (r : Slot) :
    leftDeferred u (leftDeferred u r) = leftDeferred u r := by
  cases h : r.deferral <;> simp [leftDeferred, h]

theorem leftDeferred_of_none {r : Slot} (h : r.deferral = none) (u : Nat) : leftDeferred u r = r := by
  simp [leftDeferred, h]

/-- A record that ends with an outcome, out of DEFERRED where it was there (R4, R6). -/
def endedSlot (o : ReportOutcome) (u : Nat) (r : Slot) : Slot :=
  finished o none (leftDeferred u r)

theorem endedSlot_endedSlot (o : ReportOutcome) (u : Nat) (r : Slot) :
    endedSlot o u (endedSlot o u r) = endedSlot o u r := by
  cases h : r.deferral <;> simp [endedSlot, leftDeferred, finished, h]

theorem finished_endedSlot (o : ReportOutcome) (u : Nat) (r : Slot) :
    finished o none (endedSlot o u r) = endedSlot o u r := rfl

@[simp] theorem endedSlot_cls (o : ReportOutcome) (u : Nat) (r : Slot) :
    (endedSlot o u r).cls = r.cls := by
  cases h : r.deferral <;> simp [endedSlot, leftDeferred, finished, h]

@[simp] theorem endedSlot_deferral (o : ReportOutcome) (u : Nat) (r : Slot) :
    (endedSlot o u r).deferral = none := by
  cases h : r.deferral <;> simp [endedSlot, leftDeferred, finished, h]

theorem endDeferred_eq (o : ReportOutcome) :
    s.endDeferred g o none n = { s with
      segs := put s.segs g { s.segs[g] with deferralQueue := s.segs[g].deferralQueue.erase n }
      buffer.slots := put s.buffer.slots n (s.buffer.slots[n].map (endedSlot o s.clock.uptime))
      reports.backlog := s.reports.backlog ++ [n]
      counters := bump s.counters o.counter 1
      occasions := s.occasions ++ [.formation] } := by
  rw [State.endDeferred, report_eq, leaveDeferralQueue_eq]
  simp only [put_same, put_put, Option.map_map]
  have : (finished o none ∘ fun r => r.leaveDeferred s.clock.uptime) =
      endedSlot o s.clock.uptime := funext fun r => by
    rw [Function.comp, leaveDeferred_eq, endedSlot]
  rw [this]

theorem endQueued_eq (o : ReportOutcome) :
    s.endQueued g o none n = { s with
      segs := put s.segs g { s.segs[g] with sendQueue := s.segs[g].sendQueue.erase n }
      buffer.slots := put s.buffer.slots n (s.buffer.slots[n].map (finished o none))
      reports.backlog := s.reports.backlog ++ [n]
      counters := bump s.counters o.counter 1
      occasions := s.occasions ++ [.examination g, .formation] } := by
  rw [State.endQueued, report_eq, leaveSendQueue_eq]
  simp only [List.append_assoc, List.cons_append, List.nil_append]

theorem foldl_endDeferred (o : ReportOutcome) (l : List SlotNo) :
    l.foldl (fun t n => t.endDeferred g o none n) s = { s with
      segs := put s.segs g { s.segs[g] with deferralQueue := s.segs[g].deferralQueue.diff l }
      buffer.slots := mapSlots s.buffer.slots l (endedSlot o s.clock.uptime)
      reports.backlog := s.reports.backlog ++ l
      counters := bump s.counters o.counter l.length
      occasions := s.occasions ++ List.replicate l.length .formation } := by
  induction l generalizing s with
  | nil =>
    simp only [List.foldl_nil, List.diff_nil, mapSlots_nil, List.append_nil, List.length_nil,
      bump_zero, List.replicate_zero]
    exact (congrArg (fun segs => { s with segs := segs }) (put_get s.segs g)).symm
  | cons n rest ih =>
    rw [List.foldl_cons, ih, endDeferred_eq]
    simp only [put_same, put_put, List.diff_cons, mapSlots_put (endedSlot_endedSlot o _), bump_bump,
      List.append_assoc, List.singleton_append, List.length_cons, List.replicate_succ,
      Nat.add_comm 1]

theorem foldl_endQueued (o : ReportOutcome) (l : List SlotNo) :
    l.foldl (fun t n => t.endQueued g o none n) s = { s with
      segs := put s.segs g { s.segs[g] with sendQueue := s.segs[g].sendQueue.diff l }
      buffer.slots := mapSlots s.buffer.slots l (finished o none)
      reports.backlog := s.reports.backlog ++ l
      counters := bump s.counters o.counter l.length
      occasions := s.occasions ++ l.flatMap fun _ => [.examination g, .formation] } := by
  induction l generalizing s with
  | nil =>
    simp only [List.foldl_nil, List.diff_nil, mapSlots_nil, List.append_nil, List.length_nil,
      bump_zero, List.flatMap_nil]
    exact (congrArg (fun segs => { s with segs := segs }) (put_get s.segs g)).symm
  | cons n rest ih =>
    rw [List.foldl_cons, ih, endQueued_eq]
    simp only [put_same, put_put, List.diff_cons, mapSlots_put (f := finished o none) (fun _ => rfl),
      bump_bump, List.append_assoc, List.cons_append, List.nil_append, List.length_cons,
      List.flatMap_cons, Nat.add_comm 1]

/-- The slots in use whose record a test selects. -/
def State.selects (s : State) (test : Slot → Bool) (n : SlotNo) : Bool :=
  s.buffer.slots[n].any test

/-- Every deferred slot of a segment that a test selects ends, whatever the state. -/
theorem endAllDeferred_eq (o : ReportOutcome) (test : Slot → Bool) :
    s.endAllDeferred g o test = { s with
      segs := put s.segs g { s.segs[g] with
        deferralQueue := s.segs[g].deferralQueue.filter fun n => !s.selects test n }
      buffer.slots := mapSlots s.buffer.slots (s.segs[g].deferralQueue.filter (s.selects test))
        (endedSlot o s.clock.uptime)
      reports.backlog := s.reports.backlog ++ s.segs[g].deferralQueue.filter (s.selects test)
      counters := bump s.counters o.counter (s.segs[g].deferralQueue.filter (s.selects test)).length
      occasions := s.occasions ++ List.replicate
        (s.segs[g].deferralQueue.filter (s.selects test)).length .formation } := by
  rw [← diff_filter]
  exact foldl_endDeferred o _

/-- Every queued slot of a segment that a test selects ends, whatever the state. -/
theorem endAllQueued_eq (o : ReportOutcome) (test : Slot → Bool) :
    s.endAllQueued g o test = { s with
      segs := put s.segs g { s.segs[g] with
        sendQueue := s.segs[g].sendQueue.filter fun n => !s.selects test n }
      buffer.slots := mapSlots s.buffer.slots (s.segs[g].sendQueue.filter (s.selects test))
        (finished o none)
      reports.backlog := s.reports.backlog ++ s.segs[g].sendQueue.filter (s.selects test)
      counters := bump s.counters o.counter (s.segs[g].sendQueue.filter (s.selects test)).length
      occasions := s.occasions ++ (s.segs[g].sendQueue.filter (s.selects test)).flatMap
        fun _ => [.examination g, .formation] } := by
  rw [← diff_filter]
  exact foldl_endQueued o _

theorem exec_expiryCheck (hold : s.pins.hold = none) :
    exec (.expiryCheck g) s = .next ((s.settle (.expiryCheck g)).expire g) :=
  whileRunning_of_no_hold (fun s => (s.settle (.expiryCheck g)).expire g) hold

end Sys2Proof.Machine

namespace Sys2Proof.Proofs

open Sys2Proof.Machine Sys2Proof.Safety

/-- Settles O34: the slots due are those the expiry check selects. -/
theorem deadlinesExpire : Obligations.DeadlinesExpire := by
  rintro g s due expired hold hdue rfl
  have e : due = s.selects (Slot.deadlineReached s.clock.uptime) := by
    funext n
    rw [Bool.eq_iff_iff, hdue]
    simp only [State.selects, Option.any_eq_true, Slot.deadlineReached, decide_eq_true_eq]
  subst e
  rw [exec_expiryCheck hold, State.expire, endAllDeferred_eq]
  rfl

end Sys2Proof.Proofs
end

