-- ==== Sys2Proof/Proofs/Withdrawal.lean ====
section
/-! SUPPORT. The withdrawal at a commit and a PURGE as one explicit update over the segments (R65, R66,
R85, R138, R152), and when a validation passes (R149). -/

namespace Sys2Proof.Machine

open Sys2Proof.Safety

variable {s t : State} {g : Seg} {n : SlotNo}

/-! ### Segment by segment -/

/-- The deferred and, when asked, the queued slots of a segment that a test selects end. -/
def State.endSegment (o : ReportOutcome) (test : Slot → Bool) (queued : Bool) (s : State) (g : Seg) :
    State :=
  if queued then (s.endAllDeferred g o test).endAllQueued g o test else s.endAllDeferred g o test

/-- The queued slots of a segment that a test selects, when they are asked for. -/
def State.chosenQueued (s : State) (test : Slot → Bool) (queued : Bool) (g : Seg) : List SlotNo :=
  if queued then s.segs[g].sendQueue.filter (s.selects test) else []

/-- The slots of a segment that end: the deferred, then the queued. -/
def State.chosen (s : State) (test : Slot → Bool) (queued : Bool) (g : Seg) : List SlotNo :=
  s.segs[g].deferralQueue.filter (s.selects test) ++ s.chosenQueued test queued g

theorem chosen_congr (segs : t.segs = s.segs) (slots : t.buffer.slots = s.buffer.slots) :
    t.chosen = s.chosen := by
  funext test queued g
  have selects : t.selects test = s.selects test := by
    funext n
    rw [State.selects, State.selects, slots]
  simp only [State.chosen, State.chosenQueued, selects, segs]

/-- A segment chain without the slots that end. -/
def State.spared (s : State) (test : Slot → Bool) (queued : Bool) (g : Seg) : Segment :=
  { s.segs[g] with
    deferralQueue := s.segs[g].deferralQueue.filter fun n => !s.selects test n
    sendQueue := if queued then s.segs[g].sendQueue.filter fun n => !s.selects test n
      else s.segs[g].sendQueue }

/-- The state once the slots chosen in the segments listed have ended. -/
def State.ended (s : State) (o : ReportOutcome) (test : Slot → Bool) (queued : Bool) (gs : List Seg)
    (occ : List Occasion) : State :=
  { s with
    segs := Vector.ofFn fun g => if g ∈ gs then s.spared test queued g else s.segs[g]
    buffer.slots := mapSlots s.buffer.slots (gs.flatMap (s.chosen test queued))
      (endedSlot o s.clock.uptime)
    reports.backlog := s.reports.backlog ++ gs.flatMap (s.chosen test queued)
    counters := bump s.counters o.counter (gs.flatMap (s.chosen test queued)).length
    occasions := occ }

/-- No queued slot has deferral fields (R4). -/
def QueuedPlain (s : State) : Prop :=
  ∀ (g : Seg) (n : SlotNo) (r : Slot), n ∈ s.segs[g].sendQueue → s.buffer.slots[n] = some r →
    r.deferral = none

theorem queuedPlain_of_invariants (store : StoreInv s) (records : RecordsInv s) : QueuedPlain s :=
  fun g _ _ hn hr => by
    have := (fits_of_recordsInv store records (mem_places_queued (g := g).2 hn) hr).deferral
    simpa [Place.isDeferred] using this

/-- A test that reads the class of a record alone. -/
def OnClass (test : Slot → Bool) : Prop :=
  ∀ r x : Slot, r.cls = x.cls → test r = test x

theorem selects_mapSlots {test : Slot → Bool} (onClass : OnClass test) {l : List SlotNo}
    {f : Slot → Slot} (cls : ∀ r, (f r).cls = r.cls)
    (slots : t.buffer.slots = mapSlots s.buffer.slots l f) : t.selects test = s.selects test := by
  funext n
  simp only [State.selects, slots, mapSlots_get]
  split
  · cases s.buffer.slots[n] with
    | none => rfl
    | some r => exact onClass _ _ (cls r)
  · rfl

theorem endSegment_eq {o : ReportOutcome} {test : Slot → Bool} (onClass : OnClass test)
    (queued : Bool) (plain : QueuedPlain s) :
    ∃ occ, s.endSegment o test queued g = { s with
      segs := put s.segs g (s.spared test queued g)
      buffer.slots := mapSlots s.buffer.slots (s.chosen test queued g) (endedSlot o s.clock.uptime)
      reports.backlog := s.reports.backlog ++ s.chosen test queued g
      counters := bump s.counters o.counter (s.chosen test queued g).length
      occasions := occ } := by
  cases queued with
  | false =>
    refine ⟨s.occasions ++ List.replicate (s.chosen test false g).length .formation,
      (endAllDeferred_eq o test).trans ?_⟩
    simp only [State.chosen, State.chosenQueued, State.spared, Bool.false_eq_true, if_false,
      List.append_nil]
  | true =>
    have selects : (s.endAllDeferred g o test).selects test = s.selects test :=
      selects_mapSlots onClass (f := endedSlot o s.clock.uptime) (fun r => endedSlot_cls ..)
        (by rw [endAllDeferred_eq])
    refine ⟨(s.endSegment o test true g).occasions, ?_⟩
    rw [State.endSegment, if_pos rfl, endAllQueued_eq, selects, endAllDeferred_eq]
    have slots : ∀ m, m = s.segs[g].sendQueue.filter (s.selects test) →
        ∀ n ∈ m, ∀ r, s.buffer.slots[n] = some r →
          finished o none r = endedSlot o s.clock.uptime r := by
      rintro _ rfl n hn r hr
      rw [endedSlot, leftDeferred_of_none (plain g n r (List.mem_filter.1 hn).1 hr)]
    simp only [put_same, put_put, mapSlots_mapSlots (finished_endedSlot o _) (slots _ rfl), bump_bump,
      State.chosen, State.chosenQueued, State.spared, if_true, List.append_assoc, List.length_append]

theorem ended_nil (o : ReportOutcome) (test : Slot → Bool) (queued : Bool) :
    s.ended o test queued [] s.occasions = s := by
  have segs : (Vector.ofFn fun g : Seg => s.segs[g]) = s.segs :=
    Vector.ext fun i hi => Vector.getElem_ofFn hi
  simp only [State.ended, List.flatMap_nil, mapSlots_nil, List.append_nil, List.length_nil, bump_zero,
    List.not_mem_nil, if_false, segs]

theorem segs_ext {v w : Vector Segment 4} (h : ∀ g : Seg, v[g] = w[g]) : v = w :=
  Vector.ext fun i hi => h ⟨i, hi⟩

theorem segs_ofFn (f : Seg → Segment) (g : Seg) : (Vector.ofFn f)[g] = f g :=
  Vector.getElem_ofFn ..

/-- The slots chosen in one segment after the other end as in one update. -/
theorem foldl_endSegment {o : ReportOutcome} {test : Slot → Bool} (onClass : OnClass test)
    (queued : Bool) {gs : List Seg} (once : gs.Nodup) (plain : QueuedPlain s) :
    ∃ occ, gs.foldl (State.endSegment o test queued) s = s.ended o test queued gs occ := by
  induction gs generalizing s with
  | nil => exact ⟨s.occasions, (ended_nil o test queued).symm⟩
  | cons g rest ih =>
    obtain ⟨out, once⟩ := List.nodup_cons.1 once
    obtain ⟨occ, e⟩ := endSegment_eq (g := g) (o := o) onClass queued plain
    rw [List.foldl_cons]
    generalize s.endSegment o test queued g = t at e ⊢
    have other : ∀ h, h ≠ g → t.segs[h] = s.segs[h] := fun h ne => by
      rw [e]
      exact put_other _ _ _ _ ne
    have selects : t.selects test = s.selects test :=
      selects_mapSlots onClass (f := endedSlot o s.clock.uptime) (fun r => endedSlot_cls ..)
        (by rw [e])
    have plain' : QueuedPlain t := by
      intro h n r hn hr
      have hn : n ∈ s.segs[h].sendQueue := by
        by_cases hg : h = g
        · subst hg
          rw [e, put_same] at hn
          cases queued with
          | false => exact hn
          | true => exact (List.mem_filter.1 hn).1
        · rwa [other h hg] at hn
      rw [e, mapSlots_get] at hr
      split at hr
      · obtain ⟨x, -, rfl⟩ := Option.map_eq_some_iff.1 hr
        exact endedSlot_deferral ..
      · exact plain h n r hn hr
    have chosen : ∀ h ∈ rest, t.chosen test queued h = s.chosen test queued h := fun h hh => by
      have ne : h ≠ g := fun hg => out (hg ▸ hh)
      simp only [State.chosen, State.chosenQueued, selects, other h ne]
    have spared : ∀ h ∈ rest, t.spared test queued h = s.spared test queued h := fun h hh => by
      have ne : h ≠ g := fun hg => out (hg ▸ hh)
      simp only [State.spared, selects, other h ne]
    obtain ⟨occ', e'⟩ := ih (s := t) once plain'
    have all : rest.flatMap (t.chosen test queued) = rest.flatMap (s.chosen test queued) :=
      List.flatMap_congr chosen
    have segs : (Vector.ofFn fun h => if h ∈ rest then t.spared test queued h else t.segs[h]) =
        Vector.ofFn fun h => if h ∈ g :: rest then s.spared test queued h else s.segs[h] := by
      refine segs_ext fun h => ?_
      simp only [segs_ofFn, List.mem_cons]
      by_cases hr : h ∈ rest
      · simp only [hr, if_true, or_true, spared h hr]
      · by_cases hg : h = g
        · subst hg
          simp only [hr, if_false, or_false, if_true]
          rw [e, put_same]
        · simp only [hr, hg, if_false, or_false, other h hg]
    refine ⟨occ', e'.trans ?_⟩
    simp only [State.ended, all, segs]
    simp only [e, mapSlots_mapSlots (endedSlot_endedSlot o _) (fun _ _ _ _ => rfl), bump_bump,
      List.append_assoc, List.flatMap_cons, List.length_append]

/-! ### PURGE -/

theorem purgeSegment_eq (test : Slot → Bool) (queued : Bool) :
    State.purgeSegment test queued s g = State.endSegment .purged test queued s g := rfl

theorem purgeCount_eq (test : Slot → Bool) (queued : Bool) (g : Seg) :
    s.purgeCount test queued g = (s.chosen test queued g).length := by
  unfold State.purgeCount State.chosen State.chosenQueued
  rw [List.length_append]
  cases queued <;> rfl

/-! ### Validation (R149) -/

theorem firstFailure_eq_none {check : Nat → Option CommitFailure} {l : List Nat}
    (h : ∀ i ∈ l, check i = none) : firstFailure check l = none := by
  induction l with
  | nil => rfl
  | cons i rest ih =>
    rw [firstFailure, h i (List.mem_cons_self ..)]
    exact ih fun j hj => h j (List.mem_cons_of_mem _ hj)

theorem getElem?_join {α : Type} {k : Nat} (v : Vector (Option α) k) {i : Nat} (hi : i < k) :
    v[i]?.join = v[(⟨i, hi⟩ : Fin k)] := by
  rw [Vector.getElem?_eq_getElem hi]
  rfl

variable {tables : Tables}

theorem checkWindow_of_consistent (h : Consistent tables) {i : Nat} (hi : i < 32) :
    tables.checkWindow i = none := by
  unfold Tables.checkWindow
  rw [getElem?_join _ hi]
  split
  · rfl
  · next w hw => rw [if_neg (h.masks _ w hw)]

theorem checkClass_of_consistent (h : Consistent tables) {i : Nat} (hi : i < 16) :
    tables.checkClass i = none := by
  unfold Tables.checkClass
  rw [getElem?_join _ hi]
  split
  · rfl
  · next p hp =>
    obtain ⟨nodup, defined⟩ := h.sets _ p hp
    rw [if_neg (not_not.2 nodup), if_pos (List.all_eq_true.2 defined)]

theorem overlapsLower_of_consistent (h : Consistent tables) {i : Nat} (hi : i < 64) {r : Route}
    (hr : tables.routes[(⟨i, hi⟩ : RouteNo)] = some r) : tables.overlapsLower i r = false := by
  unfold Tables.overlapsLower
  rw [List.any_eq_false]
  intro entry he
  obtain ⟨j, hj, rfl⟩ := List.getElem_of_mem he
  have below : j < i ∧ j < 64 := by simpa using hj
  rw [List.getElem_take]
  cases hq : tables.routes.toList[j]'(by simpa using below.2) with
  | none => simp
  | some q =>
    have hq : tables.routes[(⟨j, below.2⟩ : RouteNo)] = some q := by simpa using hq
    have := h.apart ⟨j, below.2⟩ ⟨i, hi⟩ q r (Fin.mk_lt_mk.2 below.1) hq hr
    simp only [Option.any_some, Route.overlaps, BitVec.le_def, Bool.and_eq_true, decide_eq_true_eq]
    omega

theorem checkRoute_of_consistent (h : Consistent tables) {i : Nat} (hi : i < 64) :
    tables.checkRoute i = none := by
  unfold Tables.checkRoute
  rw [getElem?_join _ hi]
  split
  · rfl
  · next r hr =>
    obtain ⟨low, order, high⟩ := h.ranges _ r hr
    have addresses : isDeviceAddress r.first = true ∧ isDeviceAddress r.last = true := by
      simp only [isDeviceAddress, Bool.and_eq_true, decide_eq_true_eq]
      omega
    rw [if_neg (not_not.2 addresses), if_neg (not_not.2 (BitVec.le_def.2 order)),
      overlapsLower_of_consistent h hi hr]
    rfl

/-- A consistent image passes its validation. -/
theorem validate_of_consistent (h : Consistent tables) : tables.validate = none := by
  unfold Tables.validate
  rw [firstFailure_eq_none fun i hi => checkWindow_of_consistent h (List.mem_range.1 hi),
    firstFailure_eq_none fun i hi => checkClass_of_consistent h (List.mem_range.1 hi)]
  exact firstFailure_eq_none fun i hi => checkRoute_of_consistent h (List.mem_range.1 hi)

/-! ### The commit end -/

/-- The class test of the withdrawal: undefined in an image. -/
def undefinedIn (tables : Tables) (r : Slot) : Bool :=
  (tables.classes[r.cls]).isNone

theorem onClass_undefinedIn : OnClass (undefinedIn tables) := fun r x h => by
  simp only [undefinedIn, h]

theorem withdraw_eq (bank : s.bank.active = tables) :
    s.withdraw g = s.endSegment .withdrawn (undefinedIn tables) true g := by
  subst bank
  rfl

/-- Withdrawal takes the four segments in turn. -/
theorem withdraw_all (plain : QueuedPlain s) :
    ∃ occ, (((s.withdraw 0).withdraw 1).withdraw 2).withdraw 3 =
      s.ended .withdrawn (undefinedIn s.bank.active) true [0, 1, 2, 3] occ := by
  obtain ⟨occ, e⟩ := foldl_endSegment (o := .withdrawn) (gs := [0, 1, 2, 3])
    (onClass_undefinedIn (tables := s.bank.active)) true (by decide) plain
  simp only [List.foldl_cons, List.foldl_nil] at e
  refine ⟨occ, Eq.trans ?_ e⟩
  have bank : ∀ (u : State) (h : Seg), u.bank.active = s.bank.active →
      (u.withdraw h).bank.active = s.bank.active := fun u h hu => by
    rw [withdraw_eq hu, State.endSegment, if_pos rfl, endAllQueued_eq, endAllDeferred_eq]
    exact hu
  have b0 := bank s 0 rfl
  have b1 := bank _ 1 b0
  have b2 := bank _ 2 b1
  rw [withdraw_eq b2, withdraw_eq b1, withdraw_eq b0, withdraw_eq rfl]

theorem swapTables_eq (source : Addr) (seq : Byte) :
    ∃ occ, s.swapTables source seq = { s with
      bank := { active := s.bank.staging, staging := s.bank.staging,
                generation := s.bank.generation + 1 }
      agent.commit := .idle
      agent.lastCommit := .ok
      reports.responseQueue := s.reports.responseQueue ++
        [{ destination := source, seq := seq, code := 0x09, status := .ok,
           result := twoBytes (s.bank.generation + 1).toNat }]
      occasions := occ } := by
  refine ⟨s.occasions ++ takeOwed s, ?_⟩
  unfold State.swapTables State.pushResponse
  rw [oweTake_eq]
  rfl

theorem exec_commitEnd (hold : s.pins.hold = none) : exec .commitEnd s = .next s.endCommit :=
  whileRunning_of_no_hold State.endCommit hold

theorem endCommit_of_consistent {endsAt : Nat} {source : Addr} {seq : Byte}
    (commit : s.agent.commit = .validating endsAt source seq) (ok : Consistent s.bank.staging) :
    s.endCommit = ((s.reach endsAt).swapTables source seq).commitTraffic := by
  unfold State.endCommit
  rw [commit]
  simp only [validate_of_consistent ok]

/-- The withdrawal of every slot whose class is undefined, over the four segments. -/
theorem ended_all {o : ReportOutcome} {test : Slot → Bool} {occ : List Occasion} {all : List SlotNo}
    (h : [0, 1, 2, 3].flatMap (s.chosen test true) = all) :
    s.ended o test true [0, 1, 2, 3] occ = { s with
      segs := Vector.ofFn fun g =>
        { s.segs[g] with
          deferralQueue := s.segs[g].deferralQueue.filter fun n => !s.selects test n
          sendQueue := s.segs[g].sendQueue.filter fun n => !s.selects test n }
      buffer.slots := mapSlots s.buffer.slots all (endedSlot o s.clock.uptime)
      reports.backlog := s.reports.backlog ++ all
      counters := bump s.counters o.counter all.length
      occasions := occ } := by
  have four : ∀ g : Seg, g ∈ ([0, 1, 2, 3] : List Seg) := by decide
  unfold State.ended
  simp only [h, four, if_true, State.spared]

end Sys2Proof.Machine

namespace Sys2Proof.Proofs

open Sys2Proof.Machine Sys2Proof.Safety

/-- Settles O50: the swap, then the withdrawal over the four segments, then the evaluation. -/
theorem commitSwaps : Obligations.CommitSwaps := by
  intro s endsAt source seq undefinedClass deferred queued all hold commit ok store records hundef
    hdeferred hqueued hall
  obtain ⟨occ1, swap⟩ := swapTables_eq (s := s.reach endsAt) source seq
  have plain := queuedPlain_of_invariants store records
  have plain : QueuedPlain ((s.reach endsAt).swapTables source seq) := by
    rw [swap]
    exact plain
  obtain ⟨occ2, withdrawn⟩ := withdraw_all plain
  have selects : ∀ u : State, u.buffer.slots = s.buffer.slots →
      u.selects (undefinedIn s.bank.staging) = undefinedClass := by
    intro u hu
    funext n
    rw [Bool.eq_iff_iff, hundef]
    simp only [State.selects, hu, Option.any_eq_true, undefinedIn, Option.isNone_iff_eq_none]
  have chosen : [0, 1, 2, 3].flatMap
      (((s.reach endsAt).swapTables source seq).chosen (undefinedIn s.bank.staging) true) = all := by
    rw [chosen_congr (s := s) (by rw [swap]; rfl) (by rw [swap]; rfl), hall]
    simp only [State.chosen, State.chosenQueued, selects s rfl, if_true, hdeferred, hqueued,
      List.flatMap_cons, List.flatMap_nil, List.append_nil, List.append_assoc]
  rw [exec_commitEnd hold, endCommit_of_consistent commit ok, State.commitTraffic, withdrawn,
    evaluateWindows_eq]
  have bank : ((s.reach endsAt).swapTables source seq).bank.active = s.bank.staging := by
    rw [swap]
    rfl
  rw [bank, ended_all chosen, selects _ (by rw [swap]; rfl), swap]
  exact ⟨_, rfl⟩

end Sys2Proof.Proofs
end

