-- ==== Sys2Proof/Proofs/Requests.lean ====
section
/-! SUPPORT. PURGE, FLUSH and report formation as explicit updates (R119, R138, R139). -/

namespace Sys2Proof.Machine

open Sys2Proof.Safety

variable {s t : State} {g : Seg} {n : SlotNo}

/-- A next state that is another up to the occasions owed, which the model alone records. -/
theorem next_up_to_occasions (h : s = { t with occasions := s.occasions }) :
    ∃ occ, Host.Outcome.next (φ := Fault) (ρ := Refusal) s = .next { t with occasions := occ } :=
  ⟨_, congrArg _ h⟩

/-! ### Requests -/

/-- An accepted request whose own part ends OK with no consequence. -/
theorem takeRequest_done {r : Request} {write barred : Bool} (h : Accepts s r write barred)
    (code : Byte) {own : State → Verdict} {result : List Byte}
    (done : own s.frameTaken = .done result t.frameTaken id) :
    s.frameTaken.takeRequest { code := code, lengthOk := true, write := write, barred := barred } r
        own = answered t r code .ok result := by
  rw [takeRequest_of_accepts h, done]
  exact respond_eq r code .ok result

/-- An accepted request that its own checks turn away. -/
theorem takeRequest_fail {r : Request} {write barred : Bool} (h : Accepts s r write barred)
    (code : Byte) {own : State → Verdict} {status : Status} (fail : own s.frameTaken = .fail status) :
    s.frameTaken.takeRequest { code := code, lengthOk := true, write := write, barred := barred } r
        own = answered s r code status [] := by
  rw [takeRequest_of_accepts h, fail]
  exact respond_eq r code status []

/-! ### PURGE -/

theorem exec_purge {r : Request} {segment cls scope : Byte} (params : r.params = [segment, cls, scope])
    (hold : s.pins.hold = none) :
    exec (.purge r) s = .next (s.frameTaken.takeRequest
      { code := 0x0F, lengthOk := true, write := true, barred := false } r
      (ownPurge [segment, cls, scope])) := by
  have e := whileRunning_of_no_hold (fun s => s.frameTaken.takePurge r) hold
  rw [State.takePurge, params] at e
  exact e

/-- A segment selection of PURGE as R138 gives it. -/
theorem readSegSelection_some {b : Byte} (h : b.toNat < 4 ∨ b = 0xFF) :
    ∃ gs, readSegSelection b = some gs ∧ gs.Nodup ∧
      (∀ g : Seg, g ∈ gs ↔ b = 0xFF ∨ g.val = b.toNat) ∧
      ∀ f : Seg → List SlotNo, (∀ g, g ∉ gs → f g = []) →
        gs.flatMap f = f 0 ++ (f 1 ++ (f 2 ++ f 3)) := by
  by_cases all : b = 0xFF
  · refine ⟨[0, 1, 2, 3], if_pos all, by decide, fun g => ?_, fun f _ => ?_⟩
    · exact iff_of_true ((by decide : ∀ g : Seg, g ∈ ([0, 1, 2, 3] : List Seg)) g) (.inl all)
    · simp only [List.flatMap_cons, List.flatMap_nil, List.append_nil]
  · have low := h.resolve_right all
    refine ⟨[⟨b.toNat, low⟩], ?_, List.nodup_singleton _, fun g => ?_, fun f hf => ?_⟩
    · rw [readSegSelection, if_neg (show b ≠ allCode from all), readSeg, dif_pos low]
      rfl
    · rw [List.mem_singleton, Fin.ext_iff]
      exact (or_iff_right all).symm
    · generalize (⟨b.toNat, low⟩ : Seg) = k at hf ⊢
      have others : ∀ g, g ≠ k → f g = [] := fun g ne => hf g (by simpa using ne)
      rw [List.flatMap_singleton]
      have four : ∀ g : Seg, g = 0 ∨ g = 1 ∨ g = 2 ∨ g = 3 := by decide
      obtain rfl | rfl | rfl | rfl := four k
      · simp [others 1 (by decide), others 2 (by decide), others 3 (by decide)]
      · simp [others 0 (by decide), others 2 (by decide), others 3 (by decide)]
      · simp [others 0 (by decide), others 1 (by decide), others 3 (by decide)]
      · simp [others 0 (by decide), others 1 (by decide), others 2 (by decide)]

theorem filter_not_mem_filter (l : List SlotNo) (p : SlotNo → Bool) :
    (l.filter fun n => n ∉ l.filter p) = l.filter fun n => !p n :=
  List.filter_congr fun n hn => by simp [hn]

theorem readSegSelection_none {b : Byte} (h : 4 ≤ b.toNat ∧ b ≠ 0xFF) :
    readSegSelection b = none := by
  rw [readSegSelection, if_neg (show b ≠ allCode from h.2), readSeg, dif_neg (Nat.not_lt.2 h.1)]
  rfl

/-- A class selection of PURGE as R138 gives it. -/
theorem readClassSelection_some {b : Byte} (h : b.toNat < 16 ∨ b = 0xFF) :
    ∃ test, readClassSelection b = some test ∧ OnClass test ∧
      ∀ r, test r = true ↔ b = 0xFF ∨ r.cls.val = b.toNat := by
  by_cases all : b = 0xFF
  · exact ⟨_, if_pos all, fun _ _ _ => rfl, fun r => iff_of_true rfl (.inl all)⟩
  · have low := h.resolve_right all
    refine ⟨_, (if_neg all).trans (if_pos low), fun r x e => by simp only [e], fun r => ?_⟩
    rw [beq_iff_eq, or_iff_right all]

theorem readClassSelection_none {b : Byte} (h : 16 ≤ b.toNat ∧ b ≠ 0xFF) :
    readClassSelection b = none := by
  rw [readClassSelection, if_neg (show b ≠ allCode from h.2), if_neg (Nat.not_lt.2 h.1)]

theorem readScope_some {b : Byte} (h : b = 1 ∨ b = 2) : readScope b = some (b == 2) := by
  obtain rfl | rfl := h <;> rfl

theorem readScope_none {b : Byte} (h1 : b ≠ 1) (h2 : b ≠ 2) : readScope b = none := by
  rw [readScope, if_neg h1, if_neg h2]

/-- A PURGE of valid segments, classes and scope, of the slots that its selections choose. -/
theorem ownPurge_done {segment cls scope : Byte} {gs : List Seg} {test : Slot → Bool} {queued : Bool}
    (hs : readSegSelection segment = some gs) (hc : readClassSelection cls = some test)
    (hq : readScope scope = some queued) (onClass : OnClass test) (once : gs.Nodup)
    (plain : QueuedPlain s) :
    ∃ occ, ownPurge [segment, cls, scope] s.frameTaken =
      .done (twoBytes (gs.flatMap (s.chosen test queued)).length)
        (s.ended .purged test queued gs occ).frameTaken id := by
  have plain' : QueuedPlain s.frameTaken := plain
  obtain ⟨occ, e⟩ := foldl_endSegment (o := .purged) onClass queued once plain'
  have fold : gs.foldl (State.purgeSegment test queued) s.frameTaken =
      s.frameTaken.ended .purged test queued gs occ := e
  have count : (gs.map (s.frameTaken.purgeCount test queued)).sum =
      (gs.flatMap (s.chosen test queued)).length := by
    rw [List.length_flatMap]
    exact congrArg List.sum (List.map_congr_left fun g _ => purgeCount_eq test queued g)
  refine ⟨occ, ?_⟩
  rw [ownPurge, hs, hc]
  simp only [hq, fold, count]
  rfl

/-! ### FLUSH -/

theorem exec_flush {r : Request} (params : r.params = []) (hold : s.pins.hold = none) :
    exec (.flush r) s = .next (s.frameTaken.takeRequest
      { code := 0x13, lengthOk := true, write := true, barred := false } r ownFlush) := by
  have e := whileRunning_of_no_hold (fun s => s.frameTaken.takeFlush r) hold
  rw [State.takeFlush, params] at e
  exact e

theorem noticed_frameTaken (kind : NoticeKind) :
    noticed s.frameTaken kind = (noticed s kind).frameTaken := by
  unfold noticed
  rw [State.frameTaken_reports]
  split <;> rfl

/-- The state FLUSH leaves, but for the flag and its notice. -/
def State.emptied (s : State) : State :=
  { s with
    buffer.slots := Vector.replicate 256 none
    buffer.storeHigh := false
    reports.backlog := []
    counters := bump s.counters 9 (inUseCount s)
    segs := Vector.ofFn fun g =>
      { s.segs[g] with
        deferralQueue := []
        pacer := .idle
        sendQueue := []
        transceiver :=
          match s.segs[g].transceiver with
          | .sending _ => .quiet (s.pins.now + s.segs[g].profile.quietGap * 288000)
          | other => other
        outstanding := []
        ring := [] } }

theorem segment_flush (now : Nat) (x : Segment) :
    x.flush now = { x with
      deferralQueue := []
      pacer := .idle
      sendQueue := []
      transceiver :=
        match x.transceiver with
        | .sending _ => .quiet (now + x.profile.quietGap * 288000)
        | other => other
      outstanding := []
      ring := [] } := by
  cases hx : x.transceiver with
  | sending tx =>
    simp only [Segment.flush, Transceiver.cut, hx]
    rfl
  | _ => simp only [Segment.flush, Transceiver.cut, hx]

/-- A raise of a counter within its range, by any number (R141). -/
theorem countBy_eq (c : CounterId) (k : Nat) (top : s.counters[c] ≤ 4294967295) :
    s.countBy c k = { s with counters := bump s.counters c k } := by
  have : saturatingAdd s.counters[c] k = raised s.counters[c] k := by
    simp only [saturatingAdd, raised, Config.saturation]
    split
    · next hk => rw [hk, Nat.add_zero, Nat.min_eq_left top]
    · rfl
  rw [State.countBy, this]
  rfl

/-- The check of R14 in an empty store. -/
theorem checkClear_empty (empty : s.buffer.slots = Vector.replicate 256 none) :
    ∃ occ, s.checkClear = { (if s.buffer.storeHigh = true then
      noticed { s with buffer.storeHigh := false } (.storeClear 0)
      else { s with buffer.storeHigh := false }) with occasions := occ } := by
  obtain ⟨occ, e⟩ := checkClear_eq (s := s)
  refine ⟨occ, e.trans ?_⟩
  rw [inUseCount_of_empty empty]
  by_cases high : s.buffer.storeHigh = true
  · rw [if_pos high, if_pos ⟨high, Nat.zero_le _⟩]
  · have same : { s with buffer.storeHigh := false } = s := by rw [← Bool.eq_false_iff.2 high]
    rw [if_neg high, if_neg fun h => high h.1, same]

theorem flush_eq (top : s.counters[Counter.flushed] ≤ 4294967295) :
    ∃ occ, s.flush = { (if s.buffer.storeHigh = true then noticed s.emptied (.storeClear 0)
      else s.emptied) with occasions := occ } := by
  unfold State.flush
  rw [countBy_eq _ _ top, inUse_eq]
  simp only [segment_flush]
  exact checkClear_empty rfl

/-! ### Report formation -/

theorem exec_reportFormation (hold : s.pins.hold = none) :
    exec .reportFormation s = .next (s.settle .formation).formReport :=
  whileRunning_of_no_hold (fun s => (s.settle .formation).formReport) hold

theorem reportRoom_iff : s.reportRoom = true ↔ s.reports.reportQueue.length < 16 :=
  decide_eq_true_iff

theorem pushReport_eq (x : Report) :
    s.pushReport x = { s with
      reports.reportQueue := s.reports.reportQueue ++ [x]
      occasions := s.occasions ++ takeOwed s } := by
  rw [State.pushReport, oweTake_eq]
  rfl

theorem reportOf_eq (r : Slot) (o : ReportOutcome) :
    s.reportOf r o = slotReport s r o r.answer := rfl

/-- What is owed has no part in a notice. -/
theorem noticed_occasions (kind : NoticeKind) (owed occ : List Occasion) :
    { noticed { s with occasions := owed } kind with occasions := occ } =
      { noticed s kind with occasions := occ } := by
  by_cases h : s.reports.noticeQueue.length < 4
  · rw [noticed, noticed, if_pos h, if_pos h]
  · rw [noticed, noticed, if_neg h, if_neg h]

/-- The in-use count falls by one when a slot in use is freed. -/
theorem inUseCount_free {r : Slot} (hr : s.buffer.slots[n] = some r)
    (slots : t.buffer.slots = put s.buffer.slots n none) : inUseCount t + 1 = inUseCount s := by
  have := inUseCount_put slots
  simpa [hr] using this

theorem free_eq {r : Slot} (hr : s.buffer.slots[n] = some r) (t : State)
    (ht : t = { s with buffer.slots := put s.buffer.slots n none }) :
    ∃ occ, s.free n = { (if s.buffer.storeHigh = true ∧ inUseCount s ≤ 193 then
      noticed { t with buffer.storeHigh := false } (.storeClear (inUseCount s - 1)) else t) with
        occasions := occ } := by
  subst ht
  obtain ⟨occ, e⟩ := checkClear_eq (s := s.setSlot n none)
  have count := inUseCount_free (t := s.setSlot n none) hr rfl
  have less : inUseCount (s.setSlot n none) = inUseCount s - 1 := by omega
  refine ⟨occ, e.trans ?_⟩
  by_cases hc : s.buffer.storeHigh = true ∧ inUseCount s ≤ 193
  · have low : inUseCount (s.setSlot n none) ≤ 192 := by omega
    rw [if_pos hc, if_pos ⟨hc.1, low⟩, less]
    rfl
  · rw [if_neg hc, if_neg fun h => hc ⟨h.1, by omega⟩]
    rfl

end Sys2Proof.Machine

namespace Sys2Proof.Proofs

open Sys2Proof.Machine Sys2Proof.Safety

/-- Settles O19: the selections read, then the slots they choose end over the segments in order. -/
theorem slotsArePurged : Obligations.SlotsArePurged := by
  intro r segment cls scope s params accepts
  rw [exec_purge params accepts.running]
  refine ⟨fun bad => ?_, fun hs hc => ⟨fun h1 h2 => ?_, ?_⟩⟩
  · refine congrArg _ (takeRequest_fail accepts _ ?_)
    rcases bad with bad | bad
    · simp only [ownPurge, readSegSelection_none bad]
    · simp only [ownPurge, readClassSelection_none bad]
      cases readSegSelection segment <;> rfl
  · obtain ⟨gs, hgs, -⟩ := readSegSelection_some hs
    obtain ⟨test, htest, -⟩ := readClassSelection_some hc
    refine congrArg _ (takeRequest_fail accepts _ ?_)
    simp only [ownPurge, hgs, htest, readScope_none h1 h2]
  · intro hscope store records taken deferred queued all htaken hdeferred hqueued hall
    obtain ⟨gs, hgs, once, mem, flat⟩ := readSegSelection_some hs
    obtain ⟨test, htest, onClass, reads⟩ := readClassSelection_some hc
    obtain ⟨occ, done⟩ := ownPurge_done hgs htest (readScope_some hscope) onClass once
      (queuedPlain_of_invariants store records)
    have selects : s.selects test = taken := by
      funext n
      rw [Bool.eq_iff_iff, htaken]
      simp only [State.selects, Option.any_eq_true, reads]
    have inDeferred : ∀ g, deferred g = if g ∈ gs then s.segs[g].deferralQueue.filter taken else [] :=
      fun g => by simp only [hdeferred, mem]
    have inQueued : ∀ g, queued g = if g ∈ gs then s.chosenQueued test (scope == 2) g else [] := by
      intro g
      simp only [hqueued, mem, State.chosenQueued, selects, beq_iff_eq]
      by_cases h2 : scope = 2
      · simp only [h2, true_and, if_true]
      · simp only [h2, false_and, if_false, ite_self]
    have chosen : gs.flatMap (s.chosen test (scope == 2)) = all := by
      have each : ∀ g ∈ gs, s.chosen test (scope == 2) g = deferred g ++ queued g := fun g hg => by
        rw [inDeferred, inQueued, if_pos hg, if_pos hg, State.chosen, selects]
      rw [List.flatMap_congr each, flat _ fun g hg => by
        rw [inDeferred, inQueued, if_neg hg, if_neg hg, List.append_nil], hall]
      simp only [List.append_assoc]
    have segs : (Vector.ofFn fun g => if g ∈ gs then s.spared test (scope == 2) g else s.segs[g]) =
        Vector.ofFn fun g =>
          { s.segs[g] with
            deferralQueue := s.segs[g].deferralQueue.filter fun n => n ∉ deferred g
            sendQueue := s.segs[g].sendQueue.filter fun n => n ∉ queued g } := by
      refine segs_ext fun g => ?_
      rw [segs_ofFn, segs_ofFn, inDeferred, inQueued]
      by_cases hg : g ∈ gs
      · simp only [if_pos hg, State.spared, State.chosenQueued, selects, filter_not_mem_filter]
        cases scope == 2
        · simp only [Bool.false_eq_true, if_false, List.not_mem_nil, not_false_eq_true, decide_true,
            List.filter_true]
        · simp only [if_true, filter_not_mem_filter]
      · simp only [if_neg hg, List.not_mem_nil, not_false_eq_true, decide_true, List.filter_true]
    rw [takeRequest_done accepts _ done]
    refine next_up_to_occasions ?_
    simp only [State.ended, chosen, segs]
    rfl

/-- Settles O20: the check of R14 finds no slot in use. -/
theorem trafficIsFlushed : Obligations.TrafficIsFlushed := by
  intro r s accepts params top
  obtain ⟨occ, e⟩ := flush_eq (s := s.frameTaken) (top _)
  rw [exec_flush params accepts.running, takeRequest_done (result := twoBytes (inUseCount s))
    (t := { (if s.buffer.storeHigh = true then noticed s.emptied (.storeClear 0) else s.emptied) with
      occasions := occ }) accepts]
  · exact next_up_to_occasions rfl
  · have emptied : s.frameTaken.emptied = s.emptied.frameTaken := rfl
    rw [ownFlush, e, inUse_eq, emptied, noticed_frameTaken]
    by_cases high : s.buffer.storeHigh = true
    · rw [if_pos high, if_pos (show s.frameTaken.buffer.storeHigh = true from high)]
      rfl
    · rw [if_neg high, if_neg (show ¬ s.frameTaken.buffer.storeHigh = true from high)]
      rfl

/-- Settles O45: the oldest slot's report is queued and its slot freed. -/
theorem reportsAreFormed : Obligations.ReportsAreFormed := by
  intro s hold
  rw [exec_reportFormation hold]
  refine ⟨fun none => ?_, ?_⟩
  · refine congrArg _ ?_
    unfold State.formReport
    split
    · rfl
    · next n rest backlog =>
      have full := none.resolve_left (by rw [show s.reports.backlog = n :: rest from backlog]; simp)
      rw [if_neg (by rw [reportRoom_iff]; exact Nat.not_lt.2 full)]
      rfl
  · rintro n rest r outcome t backlog room hr ho rfl
    have slot : (s.settle .formation).slot n = some r := hr
    unfold State.formReport
    rw [show (s.settle .formation).reports.backlog = n :: rest from backlog]
    simp only [(reportRoom_iff (s := s.settle .formation)).2 room, if_true, State.formOldest, slot, ho]
    rw [pushReport_eq]
    obtain ⟨u, hu⟩ : ∃ u : State, u = { s with
      reports.backlog := rest
      reports.reportQueue := s.reports.reportQueue ++ [slotReport s r outcome r.answer]
      occasions := s.occasions.erase .formation ++ takeOwed s } := ⟨_, rfl⟩
    have buffer : u.buffer = s.buffer := by rw [hu]
    have count : inUseCount u = inUseCount s := by rw [inUseCount, buffer, inUseCount]
    obtain ⟨occ, e⟩ := free_eq (s := u) (by rw [buffer]; exact hr) _ rfl
    rw [buffer, count] at e
    refine ⟨occ ++ [.formation], ?_⟩
    by_cases low : s.buffer.storeHigh = true ∧ inUseCount s ≤ 193
    · rw [if_pos low] at e ⊢
      rw [← noticed_occasions _ (s.occasions.erase .formation ++ takeOwed s)]
      subst hu
      exact congrArg (fun v : State => Host.Outcome.next (v.owe .formation)) e
    · rw [if_neg low] at e ⊢
      subst hu
      exact congrArg (fun v : State => Host.Outcome.next (v.owe .formation)) e

end Sys2Proof.Proofs
end

