-- ==== Sys2Proof/Proofs/Examinations.lean ====
section
/-! SUPPORT. Releases by an examination, one after the other, as one explicit update (R54 to R60). -/

namespace Sys2Proof.Machine

open Sys2Proof.Safety

variable {s t : State} {g : Seg} {n : SlotNo} {r : Slot}

/-! ### Priorities -/

@[simp] theorem leftDeferred_priority (u : Nat) (r : Slot) : (leftDeferred u r).priority = r.priority := by
  cases h : r.deferral <;> simp [leftDeferred, h]

@[simp] theorem leftDeferred_cls (u : Nat) (r : Slot) : (leftDeferred u r).cls = r.cls := by
  cases h : r.deferral <;> simp [leftDeferred, h]

theorem priorityOf_of_slot (hr : s.buffer.slots[n] = some r) : s.priorityOf n = r.priority := by
  rw [State.priorityOf, show s.slot n = some r from hr]

/-- Records changed but for their priority leave every slot's priority. -/
theorem priorityOf_mapSlots {l : List SlotNo} {f : Slot → Slot} (same : ∀ r, (f r).priority = r.priority)
    (slots : t.buffer.slots = mapSlots s.buffer.slots l f) : t.priorityOf = s.priorityOf := by
  funext n
  have here : t.slot n = if n ∈ l then (s.slot n).map f else s.slot n := by
    rw [State.slot, slots, mapSlots_get]
    rfl
  rw [State.priorityOf, State.priorityOf, here]
  by_cases h : n ∈ l
  · rw [if_pos h]
    cases s.slot n with
    | none => rfl
    | some r => exact same r
  · rw [if_neg h]

theorem put_map_eq_mapSlots (v : Vector (Option Slot) 256) (n : SlotNo) (f : Slot → Slot) :
    put v n (v[n].map f) = mapSlots v [n] f := by
  refine slots_ext fun m => ?_
  rw [put_apply, mapSlots_get]
  by_cases h : m = n
  · rw [if_pos h, if_pos (by simp [h]), h]
  · rw [if_neg h, if_neg (by simp [h])]

theorem insertFresh_congr (same : t.priorityOf = s.priorityOf) : t.insertFresh = s.insertFresh := by
  funext queue n p
  simp only [State.insertFresh, same]

/-- A queue in order of priority (R73). -/
def State.Sorted (s : State) (queue : List SlotNo) : Prop :=
  queue.Pairwise fun a b => s.priorityOf b ≤ s.priorityOf a

/-- In a sorted queue the entries behind the first of a lower priority are lower too. -/
theorem lower_of_mem_dropWhile {queue : List SlotNo} (sorted : s.Sorted queue) {p : Fin 4} {m : SlotNo}
    (hm : m ∈ queue.dropWhile fun k => decide (p ≤ s.priorityOf k)) : s.priorityOf m < p := by
  induction queue with
  | nil => cases hm
  | cons k rest ih =>
    obtain ⟨first, more⟩ := List.pairwise_cons.1 sorted
    by_cases hk : p ≤ s.priorityOf k
    · rw [List.dropWhile_cons_of_pos (by simpa using hk)] at hm
      exact ih more hm
    · rw [List.dropWhile_cons_of_neg (by simpa using hk)] at hm
      obtain rfl | hm := List.mem_cons.1 hm
      · exact not_le.1 hk
      · exact lt_of_le_of_lt (first m hm) (not_le.1 hk)

/-- A slot inserted behind the entries of its priority or above leaves the queue sorted (R73). -/
theorem sorted_insertFresh {queue : List SlotNo} (sorted : s.Sorted queue) :
    s.Sorted (s.insertFresh queue n (s.priorityOf n)) := by
  have parts := sorted
  unfold State.Sorted at parts
  rw [← List.takeWhile_append_dropWhile (p := fun k => decide (s.priorityOf n ≤ s.priorityOf k))
    (l := queue), List.pairwise_append] at parts
  obtain ⟨before, behind, across⟩ := parts
  refine List.pairwise_append.2 ⟨before, List.pairwise_cons.2 ⟨fun m hm => ?_, behind⟩, ?_⟩
  · exact le_of_lt (lower_of_mem_dropWhile sorted hm)
  · intro a ha b hb
    obtain rfl | hb := List.mem_cons.1 hb
    · simpa using List.mem_takeWhile_imp ha
    · exact across a ha b hb

/-- A slot inserted behind the entries of its priority is the last of its level. -/
theorem level_insertFresh {queue : List SlotNo} (sorted : s.Sorted queue) {p : Fin 4}
    {level : SlotNo → Bool} (of : ∀ m, level m = true → s.priorityOf m = p) :
    (s.insertFresh queue n (s.priorityOf n)).filter level =
      queue.filter level ++ [n].filter level := by
  obtain ⟨q, hq⟩ : ∃ q : SlotNo → Bool, q = fun k => decide (s.priorityOf n ≤ s.priorityOf k) :=
    ⟨_, rfl⟩
  have e : s.insertFresh queue n (s.priorityOf n) = queue.takeWhile q ++ n :: queue.dropWhile q := by
    rw [hq]; rfl
  have whole : queue.filter level =
      (queue.takeWhile q).filter level ++ (queue.dropWhile q).filter level := by
    rw [← List.filter_append, List.takeWhile_append_dropWhile]
  rw [e, whole]
  by_cases hn : level n = true
  · have none : (queue.dropWhile q).filter level = [] := by
      refine List.filter_eq_nil_iff.2 fun m hm hl => ?_
      rw [hq] at hm
      have := lower_of_mem_dropWhile sorted hm
      rw [of m hl, of n hn] at this
      exact lt_irrefl _ this
    simp [none, hn]
  · simp [hn]

theorem length_insertFresh (queue : List SlotNo) (p : Fin 4) :
    (s.insertFresh queue n p).length = queue.length + 1 := by
  have := congrArg List.length
    (List.takeWhile_append_dropWhile (p := fun k => decide (p ≤ s.priorityOf k)) (l := queue))
  rw [List.length_append] at this
  unfold State.insertFresh
  rw [List.length_append, List.length_cons]
  omega

/-! ### One release -/

/-- The chain of a segment once a slot has been released from it (R55, R57). -/
def State.releasedFrom (s : State) (g : Seg) (n : SlotNo) : Segment :=
  { s.segs[g] with
    deferralQueue := s.segs[g].deferralQueue.erase n
    sendQueue := s.insertFresh s.segs[g].sendQueue n (s.priorityOf n)
    pacer := if s.segs[g].pacingGapMs = 0 then s.segs[g].pacer
      else .gap (s.pins.now + s.segs[g].pacingGapMs * 288000) }

theorem release_eq : s.release g n = { s with
    segs := put s.segs g (s.releasedFrom g n)
    buffer.slots := put s.buffer.slots n (s.buffer.slots[n].map (leftDeferred s.clock.uptime))
    counters := bump s.counters Counter.releases 1
    occasions := s.occasions ++ [.startWalk g] } := by
  have left : (fun r : Slot => r.leaveDeferred s.clock.uptime) = leftDeferred s.clock.uptime :=
    funext fun r => leaveDeferred_eq r _
  obtain ⟨u, hu⟩ : ∃ u, u = s.leaveDeferralQueue g n := ⟨_, rfl⟩
  have same : u.priorityOf = s.priorityOf :=
    priorityOf_mapSlots (l := [n]) (fun r => leftDeferred_priority s.clock.uptime r)
      (by rw [hu, leaveDeferralQueue_eq, left, put_map_eq_mapSlots])
  rw [State.release, ← hu, joinFresh_eq, count_eq, insertFresh_congr same, same, State.startPacer]
  rw [leaveDeferralQueue_eq, left] at hu
  subst hu
  simp only [State.seg, put_same, put_put]
  by_cases gap : s.segs[g].pacingGapMs = 0
  · rw [if_pos gap, State.releasedFrom, if_pos gap]
  · rw [if_neg gap, State.releasedFrom, if_neg gap, setSeg_eq]
    simp only [put_put, Config.millisecond]

/-! ### When there is a release -/

theorem pacerIdle_iff : s.pacerIdle g = true ↔ s.segs[g].pacer = .idle := by
  unfold State.pacerIdle State.seg
  cases s.segs[g].pacer <;> simp

theorem releasable_none (h : (∃ endsAt, s.segs[g].pacer = .gap endsAt) ∨
    16 ≤ s.segs[g].sendQueue.length ∨ (∀ n ∈ s.segs[g].deferralQueue, ¬ eligibleSlot s n)) :
    s.releasable g = none := by
  unfold State.releasable
  obtain ⟨endsAt, gap⟩ | full | none := h
  · exact if_neg fun h => Pacer.noConfusion (gap.symm.trans (pacerIdle_iff.1 h.2))
  · exact if_neg fun h => Nat.not_lt.2 full h.1
  · have : s.oldestEligible g = .none :=
      List.find?_eq_none.2 fun n hn he => none n hn ((eligible_iff n).1 he)
    rw [this, ite_self]

theorem releasable_eq (idle : s.segs[g].pacer = .idle) (room : s.segs[g].sendQueue.length < 16) :
    s.releasable g = s.segs[g].deferralQueue.find? s.eligible :=
  if_pos ⟨room, pacerIdle_iff.2 idle⟩

theorem releaseWhile_of_none (fuel : Nat) (h : s.releasable g = none) :
    State.releaseWhile g fuel s = s := by
  cases fuel with
  | zero => rfl
  | succ fuel => rw [State.releaseWhile, h]

theorem releaseWhile_of_some (fuel : Nat) (h : s.releasable g = some n) :
    State.releaseWhile g (fuel + 1) s = State.releaseWhile g fuel (s.release g n) := by
  rw [State.releaseWhile, h]

theorem eligible_release : (s.release g n).eligible = s.eligible := by
  funext m
  rw [Bool.eq_iff_iff, eligible_iff, eligible_iff, release_eq]
  simp only [eligibleSlot, put_apply]
  split
  · next h =>
    subst h
    cases s.buffer.slots[m] with
    | none => simp
    | some r => simp [isOpen]
  · rfl

theorem priorityOf_release : (s.release g n).priorityOf = s.priorityOf :=
  priorityOf_mapSlots (l := [n]) (fun r => leftDeferred_priority s.clock.uptime r)
    (by rw [release_eq, put_map_eq_mapSlots])

/-! ### Releases with no pacing gap -/

/-- The state once the slots listed have been released and the Send Queue is as given (R59). -/
def State.afterReleases (s : State) (g : Seg) (released queue : List SlotNo) (occ : List Occasion) :
    State :=
  { s with
    segs := put s.segs g { s.segs[g] with
      deferralQueue := s.segs[g].deferralQueue.filter fun n => n ∉ released
      sendQueue := queue }
    buffer.slots := mapSlots s.buffer.slots released (leftDeferred s.clock.uptime)
    counters := bump s.counters Counter.releases released.length
    occasions := occ }

theorem afterReleases_nil : s.afterReleases g [] s.segs[g].sendQueue s.occasions = s := by
  have all : (s.segs[g].deferralQueue.filter fun n => n ∉ ([] : List SlotNo)) =
      s.segs[g].deferralQueue := List.filter_eq_self.2 fun _ _ => by simp
  rw [State.afterReleases, all, mapSlots_nil, List.length_nil, bump_zero]
  exact congrArg (fun segs => { s with segs := segs }) (put_get s.segs g)

/-- One release and then others are releases of all. -/
theorem afterReleases_release (gap : s.segs[g].pacingGapMs = 0)
    (once : s.segs[g].deferralQueue.Nodup) (rest queue : List SlotNo) (occ : List Occasion) :
    (s.release g n).afterReleases g rest queue occ = s.afterReleases g (n :: rest) queue occ := by
  have others : (s.segs[g].deferralQueue.erase n).filter (fun m => m ∉ rest) =
      s.segs[g].deferralQueue.filter fun m => m ∉ n :: rest := by
    rw [once.erase_eq_filter, List.filter_filter]
    refine List.filter_congr fun m _ => ?_
    by_cases h : m = n <;> simp [h]
  rw [release_eq]
  simp only [State.afterReleases, put_same, put_put, State.releasedFrom, others, gap, if_true,
    mapSlots_put (leftDeferred_leftDeferred _), bump_bump, List.length_cons, Nat.add_comm 1]

/-- The slots that the releases take: the oldest eligible ones (R59). -/
def State.oldest (s : State) (g : Seg) (k : Nat) : List SlotNo :=
  (s.segs[g].deferralQueue.filter s.eligible).take k

/-- The order of a Send Queue after releases: sorted, and each level the old one followed by the
released slots of that level (R73). -/
structure Follows (s : State) (old released queue : List SlotNo) : Prop where
  sorted : s.Sorted queue
  length : queue.length = old.length + released.length
  level : ∀ (p : Fin 4) (level : SlotNo → Bool), (∀ m, level m = true → s.priorityOf m = p) →
    queue.filter level = old.filter level ++ released.filter level

theorem Follows.cons {old rest queue : List SlotNo} (sorted : s.Sorted old)
    (h : Follows s (s.insertFresh old n (s.priorityOf n)) rest queue) :
    Follows s old (n :: rest) queue where
  sorted := h.sorted
  length := by
    rw [h.length, length_insertFresh, List.length_cons]
    omega
  level p level of := by
    rw [h.level p level of, level_insertFresh sorted of, List.append_assoc, ← List.filter_append,
      List.singleton_append]

/-- What releases with no pacing gap come to: the oldest eligible slots follow the queued ones, as
many as there is room for up to 16. -/
def State.FillsQueue (s : State) (g : Seg) (after : State) : Prop :=
  ∃ occ queue, Follows s s.segs[g].sendQueue (s.oldest g (16 - s.segs[g].sendQueue.length)) queue ∧
    after = s.afterReleases g (s.oldest g (16 - s.segs[g].sendQueue.length)) queue occ

theorem fillsQueue_self (sorted : s.Sorted s.segs[g].sendQueue)
    (h : s.oldest g (16 - s.segs[g].sendQueue.length) = []) : s.FillsQueue g s := by
  unfold State.FillsQueue
  rw [h]
  exact ⟨s.occasions, s.segs[g].sendQueue, ⟨sorted, rfl, fun _ _ _ => (List.append_nil _).symm⟩,
    afterReleases_nil.symm⟩

/-- The slots to release are the first one and then those of the state it leaves. -/
theorem oldest_release (room : s.segs[g].sendQueue.length < 16)
    (found : s.segs[g].deferralQueue.find? s.eligible = some n) :
    s.oldest g (16 - s.segs[g].sendQueue.length) =
      n :: (s.release g n).oldest g (16 - (s.segs[g].sendQueue.length + 1)) := by
  obtain ⟨he, before, after, hq, hb⟩ := List.find?_eq_some_iff_append.1 found
  have out : n ∉ before := fun h => by simpa [he] using hb n h
  have none : before.filter s.eligible = [] :=
    List.filter_eq_nil_iff.2 fun m hm => by simpa using hb m hm
  have chain : (s.release g n).segs[g] = s.releasedFrom g n := by
    rw [release_eq, put_same]
  rw [State.oldest, State.oldest, eligible_release, chain, State.releasedFrom, hq,
    List.erase_append_right _ out, List.erase_cons_head, List.filter_append,
    List.filter_append, none, List.filter_cons_of_pos he,
    show 16 - s.segs[g].sendQueue.length = 16 - (s.segs[g].sendQueue.length + 1) + 1 by omega]
  rfl

theorem follows_congr {old released queue : List SlotNo} (same : t.priorityOf = s.priorityOf)
    (h : Follows t old released queue) : Follows s old released queue where
  sorted := by
    have := h.sorted
    rwa [State.Sorted, same] at this
  length := h.length
  level := same ▸ h.level

/-- Releases with no pacing gap, by the fuel they are given. -/
theorem releaseWhile_fillsQueue (fuel : Nat) (idle : s.segs[g].pacer = .idle)
    (gap : s.segs[g].pacingGapMs = 0) (once : s.segs[g].deferralQueue.Nodup)
    (sorted : s.Sorted s.segs[g].sendQueue) (enough : 16 ≤ fuel + s.segs[g].sendQueue.length) :
    s.FillsQueue g (State.releaseWhile g fuel s) := by
  induction fuel generalizing s with
  | zero =>
    refine fillsQueue_self sorted ?_
    rw [show 16 - s.segs[g].sendQueue.length = 0 by omega]
    rfl
  | succ fuel ih =>
    by_cases room : s.segs[g].sendQueue.length < 16
    case neg =>
      rw [releaseWhile_of_none _ (releasable_none (.inr (.inl (Nat.not_lt.1 room))))]
      refine fillsQueue_self sorted ?_
      rw [show 16 - s.segs[g].sendQueue.length = 0 by omega]
      rfl
    cases found : s.segs[g].deferralQueue.find? s.eligible with
    | none =>
      rw [releaseWhile_of_none _ ((releasable_eq idle room).trans found)]
      refine fillsQueue_self sorted ?_
      rw [State.oldest, List.filter_eq_nil_iff.2 (List.find?_eq_none.1 found), List.take_nil]
    | some n =>
      rw [releaseWhile_of_some fuel ((releasable_eq idle room).trans found)]
      have chain : (s.release g n).segs[g] = s.releasedFrom g n := by
        rw [release_eq, put_same]
      have length : (s.releasedFrom g n).sendQueue.length = s.segs[g].sendQueue.length + 1 :=
        length_insertFresh ..
      obtain ⟨occ, queue, follows, e⟩ := ih (s := s.release g n)
        (by rw [chain, State.releasedFrom, if_pos gap, idle]) (by rw [chain]; exact gap)
        (by rw [chain]; exact once.erase n)
        (by
          rw [chain, State.Sorted, priorityOf_release]
          exact sorted_insertFresh sorted)
        (by rw [chain, length]; omega)
      rw [chain, length] at follows e
      unfold State.FillsQueue
      rw [oldest_release room found]
      exact ⟨occ, queue, .cons sorted (follows_congr priorityOf_release follows),
        e.trans (afterReleases_release gap once _ _ _)⟩

/-! ### Queues of a sound store -/

theorem chainSlots_nodup (store : StoreInv s) : (chainSlots s.segs[g]).Nodup := by
  have once := ((places_perm s g).map Prod.fst).nodup (places_fst s ▸ store.once)
  rw [List.map_append, chainPlaces_fst] at once
  exact (List.nodup_append.1 once).1

theorem deferralQueue_sublist (x : Segment) : x.deferralQueue.Sublist (chainSlots x) := by
  simp only [chainSlots, List.append_assoc]
  exact List.sublist_append_left ..

/-- A slot that a queue holds is in use (R5). -/
theorem slot_of_place (store : StoreInv s) {P : Place} (hm : (n, P) ∈ s.places) :
    ∃ r, s.buffer.slots[n] = some r :=
  Option.isSome_iff_exists.1 (((sound_of_storeInv (records := False) store False.elim).inUse n).1
    (List.mem_map.2 ⟨_, hm, rfl⟩))

/-! ### The commands -/

theorem exec_examination (hold : s.pins.hold = none) :
    exec (.examination g) s = .next ((s.settle (.examination g)).examine g) :=
  whileRunning_of_no_hold (fun s => (s.settle (.examination g)).examine g) hold

theorem exec_pacerGapEnd (hold : s.pins.hold = none) :
    exec (.pacerGapEnd g) s = .next (s.endPacerGap g) :=
  whileRunning_of_no_hold (fun s => s.endPacerGap g) hold

theorem endPacerGap_of_gap {endsAt : Nat} (h : s.segs[g].pacer = .gap endsAt) :
    s.endPacerGap g = State.examine
      { s with
        pins.now := max s.pins.now endsAt
        segs := put s.segs g { s.segs[g] with pacer := .idle } } g := by
  unfold State.endPacerGap
  rw [show (s.seg g).pacer = .gap endsAt from h]
  rfl

/-- An examination that finds nothing to release. -/
theorem examine_of_none (h : s.releasable g = none) : s.examine g = s :=
  releaseWhile_of_none _ h

/-- An examination of a paced segment makes one release. -/
theorem examine_paced (idle : s.segs[g].pacer = .idle) (room : s.segs[g].sendQueue.length < 16)
    (gap : s.segs[g].pacingGapMs ≠ 0) (found : s.segs[g].deferralQueue.find? s.eligible = some n) :
    s.examine g = s.release g n := by
  rw [State.examine, Config.sendQueueLimit,
    releaseWhile_of_some 15 ((releasable_eq idle room).trans found)]
  refine releaseWhile_of_none 15
    (releasable_none (.inl ⟨s.pins.now + s.segs[g].pacingGapMs * 288000, ?_⟩))
  rw [release_eq, put_same, State.releasedFrom, if_neg gap]

/-- The eligible slot nearest the front (R54). -/
theorem find_eligible {before after : List SlotNo} (hq : s.segs[g].deferralQueue = before ++ n :: after)
    (hb : ∀ m ∈ before, ¬ eligibleSlot s m) (hn : eligibleSlot s n) :
    s.segs[g].deferralQueue.find? s.eligible = some n := by
  rw [List.find?_eq_some_iff_append]
  refine ⟨(eligible_iff n).2 hn, before, after, hq, fun m hm => ?_⟩
  rw [Bool.not_eq_true', Bool.eq_false_iff]
  exact fun h => hb m hm ((eligible_iff m).1 h)

end Sys2Proof.Machine

namespace Sys2Proof.Proofs

open Sys2Proof.Machine Sys2Proof.Safety

/-- Settles O32: an examination of a paced segment is one release, or none. -/
theorem pacedReleases : Obligations.PacedReleases := by
  constructor
  · rintro g s t hold rfl
    refine ⟨fun none => ?_, ?_⟩
    · rw [exec_examination hold, examine_of_none (s := s.settle (.examination g)) (releasable_none none)]
      rfl
    · intro before after higher lower n r idle room gap hq hb hn hr splits
      have out : n ∉ before := fun h => hb n h hn
      rw [exec_examination hold,
        examine_paced (s := s.settle (.examination g)) idle room gap (find_eligible hq hb hn), release_eq]
      have chain : (s.settle (.examination g)).releasedFrom g n = { s.segs[g] with
          deferralQueue := before ++ after
          sendQueue := higher ++ n :: lower
          pacer := .gap (s.pins.now + s.segs[g].pacingGapMs * 288000) } := by
        have joined : s.insertFresh s.segs[g].sendQueue n (s.priorityOf n) = higher ++ n :: lower := by
          rw [priorityOf_of_slot hr]
          exact insertFresh_of_splits n splits
        have left : s.segs[g].deferralQueue.erase n = before ++ after := by
          rw [hq, List.erase_append_right _ out, List.erase_cons_head]
        rw [← joined, ← left]
        exact congrArg (fun p => { (s.settle (.examination g)).releasedFrom g n with pacer := p })
          (if_neg gap)
      rw [chain, show (s.settle (.examination g)).buffer.slots[n] = some r from hr]
      rfl
  · rintro g s t endsAt hold gap rfl
    rw [exec_pacerGapEnd hold, endPacerGap_of_gap gap]
    refine ⟨fun none => ?_, ?_⟩
    · refine congrArg Host.Outcome.next (examine_of_none (releasable_none (.inr ?_)))
      rw [put_same]
      exact none
    · rw [exec_examination (s := { s with
        pins.now := max s.pins.now endsAt
        segs := put s.segs g { s.segs[g] with pacer := .idle }
        occasions := .examination g :: s.occasions }) hold]
      simp only [State.settle, List.erase_cons_head]

/-- Settles O33: the releases of an examination follow the queued slots level by level. -/
theorem unpacedExaminationFillsQueue : Obligations.UnpacedExaminationFillsQueue := by
  rintro g s eligible released hold store chain idle gap heligible rfl
  have test : eligible = s.eligible := funext fun n => by
    rw [Bool.eq_iff_iff, heligible, eligible_iff]
  subst test
  have sorted : s.Sorted s.segs[g].sendQueue := by
    refine chain.order.imp_of_mem fun {a b} ha hb h => ?_
    obtain ⟨x, hx⟩ := slot_of_place store (mem_places_queued.2 ha)
    obtain ⟨y, hy⟩ := slot_of_place store (mem_places_queued.2 hb)
    rw [priorityOf_of_slot hx, priorityOf_of_slot hy]
    exact h x y hx hy
  have once : s.segs[g].deferralQueue.Nodup :=
    (chainSlots_nodup store).sublist (deferralQueue_sublist _)
  obtain ⟨occ, queue, follows, e⟩ := releaseWhile_fillsQueue (s := s.settle (.examination g)) 16
    idle gap once sorted (Nat.le_add_right ..)
  refine ⟨occ, queue, fun p level hlevel => ?_, ?_, follows.length, ?_⟩
  · refine follows.level p level fun m hm => ?_
    obtain ⟨r, hr, rfl⟩ := (hlevel m).1 hm
    exact priorityOf_of_slot hr
  · refine follows.sorted.imp fun {a b} h x y hx hy => ?_
    have : s.priorityOf b ≤ s.priorityOf a := h
    rwa [priorityOf_of_slot hx, priorityOf_of_slot hy] at this
  · rw [exec_examination hold]
    exact congrArg Host.Outcome.next e

end Sys2Proof.Proofs
end

