-- ==== Sys2Proof/Proofs/GateCheck.lean ====
section
/-! SUPPORT. The gate check of a walk (R64, R76, R77): what it hands back, and how the walk goes on. -/

namespace Sys2Proof.Machine

open Sys2Proof.Safety

variable {s t : State} {g : Seg} {n : SlotNo} {r : Slot}

/-! ### The intake order -/

/-- A number is not older than one that is older than it (R9). -/
theorem older_eq_false {a b : Intake} (h1 : 1 ≤ (b - a).toNat) (h2 : (b - a).toNat < 2 ^ 31) :
    Intake.older b a = false := by
  unfold Intake.older
  rw [Bool.and_eq_false_iff]
  refine .inr (decide_eq_false ?_)
  bv_omega

/-- A slot is inserted behind the older and before the younger (R64). -/
theorem insertByIntake_eq {older younger : List SlotNo} {intake : Intake}
    (before : ∀ m ∈ older, ∃ x, s.buffer.slots[m] = some x ∧ 1 ≤ (intake - x.intake).toNat ∧
      (intake - x.intake).toNat < 2 ^ 31)
    (behind : ∀ m ∈ younger, ∃ x, s.buffer.slots[m] = some x ∧ 1 ≤ (x.intake - intake).toNat ∧
      (x.intake - intake).toNat < 2 ^ 31) :
    s.insertByIntake (older ++ younger) n intake = older ++ n :: younger := by
  have h1 : ∀ m ∈ older, s.slotOlder m intake = true := by
    intro m hm
    obtain ⟨x, hx, low, high⟩ := before m hm
    rw [State.slotOlder, show s.slot m = some x from hx]
    simp only [Intake.older, Bool.and_eq_true, decide_eq_true_eq]
    omega
  have h2 : ∀ m ∈ younger, s.slotOlder m intake = false := by
    intro m hm
    obtain ⟨x, hx, low, high⟩ := behind m hm
    rw [State.slotOlder, show s.slot m = some x from hx]
    exact older_eq_false low high
  unfold State.insertByIntake
  rw [List.takeWhile_append_of_pos h1, List.dropWhile_append_of_pos h1]
  cases younger with
  | nil => simp
  | cons m rest => simp [h2 m (by simp)]

/-! ### What is handed back -/

theorem handBack_expired (due : r.holdDeadline ≤ s.clock.uptime) :
    s.handBack g n r = { s with
      segs := put s.segs g { s.segs[g] with sendQueue := s.segs[g].sendQueue.erase n }
      buffer.slots := put s.buffer.slots n (s.buffer.slots[n].map (finished .expired none))
      reports.backlog := s.reports.backlog ++ [n]
      counters := bump s.counters 5 1
      occasions := s.occasions ++ [.examination g, .formation] } := by
  rw [State.handBack, if_pos (by simpa [Slot.deadlineReached] using due)]
  exact endQueued_eq .expired

theorem handBack_deferred (ahead : s.clock.uptime < r.holdDeadline) :
    s.handBack g n r = { s with
      segs := put s.segs g { s.segs[g] with
        sendQueue := s.segs[g].sendQueue.erase n
        deferralQueue := s.insertByIntake s.segs[g].deferralQueue n r.intake }
      buffer.slots := put s.buffer.slots n (s.buffer.slots[n].map fun x =>
        { x with deferral := some { reason := .window, since := s.clock.uptime } })
      counters := bump s.counters Counter.redeferrals 1
      occasions := s.occasions ++ [.examination g, .examination g] } := by
  rw [State.handBack, if_neg (by simpa [Slot.deadlineReached] using ahead)]
  dsimp only
  rw [count_eq, leaveSendQueue_eq, setSeg_eq]
  simp only [State.seg, put_same, put_put, State.modifySlot, State.setSlot, State.owe,
    List.append_assoc, List.cons_append, List.nil_append]
  rfl

/-! ### The walk -/

theorem exec_startWalk (hold : s.pins.hold = none) :
    exec (.startWalk g) s = .next ((s.settle (.startWalk g)).walk g) :=
  whileRunning_of_no_hold (fun s => (s.settle (.startWalk g)).walk g) hold

/-- A walk begins at the first entry that the outstanding limit does not hold back (R75, R76). -/
theorem walk_passesOver {before rest : List SlotNo} (active : s.segs[g].state = .active)
    (idle : s.segs[g].transceiver = .idle) (queue : s.segs[g].sendQueue = before ++ rest)
    (held : ∀ m ∈ before, heldBack s g m) : s.walk g = State.walkFrom g rest s := by
  have go : (s.seg g).state.isActive = true ∧ (s.seg g).transceiver.isIdle = true := by
    rw [State.seg, active, idle]
    exact ⟨rfl, rfl⟩
  rw [State.walk, if_pos go, ← walkFrom_heldBack g before rest held, ← queue]
  rfl

theorem walkFrom_handsBack (rest : List SlotNo) (hr : s.buffer.slots[n] = some r)
    (may : r.answerExpected = true → s.segs[g].outstanding.length < 4) (shut : ¬ isOpen s r.cls) :
    State.walkFrom g (n :: rest) s = State.walkFrom g rest (s.handBack g n r) := by
  have start : s.mayStart g r = true := by
    unfold State.mayStart
    cases h : r.answerExpected with
    | false => rfl
    | true => exact decide_eq_true (may h)
  rw [State.walkFrom]
  simp only [show s.slot n = some r from hr, start, if_true, mt (classOpen_iff r.cls).1 shut]
  rfl

/-- What the outstanding limit holds back, it still does once a slot that may start is handed back. -/
theorem heldBack_handedBack {x : Option Slot} {m : SlotNo} (hr : s.buffer.slots[n] = some r)
    (may : r.answerExpected = true → s.segs[g].outstanding.length < 4) (held : heldBack s g m)
    (slots : t.buffer.slots = put s.buffer.slots n x)
    (outstanding : t.segs[g].outstanding = s.segs[g].outstanding) : heldBack t g m := by
  obtain ⟨y, hy, expected, full⟩ := held
  have ne : m ≠ n := by
    rintro rfl
    obtain rfl := Option.some.inj (hr.symm.trans hy)
    exact absurd (may expected) (Nat.not_lt.2 full)
  exact ⟨y, by rw [slots, put_other _ _ _ _ ne, hy], expected, outstanding ▸ full⟩

/-- The state u is the walk's once the entry n has been handed back: the others stand as they did. -/
structure HandedBack (s : State) (g : Seg) (before after : List SlotNo) (n : SlotNo) (u : State) :
    Prop where
  pins : u.pins = s.pins
  slots : ∃ x, u.buffer.slots = put s.buffer.slots n x
  outstanding : u.segs[g].outstanding = s.segs[g].outstanding
  state : u.segs[g].state = s.segs[g].state
  transceiver : u.segs[g].transceiver = s.segs[g].transceiver
  queue : u.segs[g].sendQueue = before ++ after

theorem HandedBack.of_chain {before after : List SlotNo} {x : Segment} {y : Option Slot} {u : State}
    (pins : u.pins = s.pins) (slots : u.buffer.slots = put s.buffer.slots n y) (chain : u.segs[g] = x)
    (outstanding : x.outstanding = s.segs[g].outstanding) (state : x.state = s.segs[g].state)
    (transceiver : x.transceiver = s.segs[g].transceiver) (queue : x.sendQueue = before ++ after) :
    HandedBack s g before after n u := by
  subst chain
  exact ⟨pins, ⟨y, slots⟩, outstanding, state, transceiver, queue⟩

end Sys2Proof.Machine

namespace Sys2Proof.Proofs

open Sys2Proof.Machine Sys2Proof.Safety

/-- Settles O36: the walk of the state handed back passes over the same entries and goes on. -/
theorem gateCheckHandsBack : Obligations.GateCheckHandsBack := by
  rintro g s t hold rfl active idle
  refine ⟨fun held => ?_, ?_⟩
  · rw [exec_startWalk hold, walk_passesOver (s := s.settle (.startWalk g)) (rest := []) active idle
      (List.append_nil _).symm held]
    rfl
  · intro before after n r u queue held out hr may shut hu
    obtain ⟨v, hv⟩ : ∃ v, v = s.settle (.startWalk g) := ⟨_, rfl⟩
    have left : v.segs[g].sendQueue.erase n = before ++ after := by
      rw [hv, show (s.settle (.startWalk g)).segs = s.segs from rfl, queue,
        List.erase_append_right _ out, List.erase_cons_head]
    have slot : v.buffer.slots[n] = some r := hv ▸ hr
    have back : v.handBack g n r = u ∧ HandedBack s g before after n u := by
      obtain ⟨due, hu⟩ | ⟨ahead, older, younger, hq, hold, hyoung, hu⟩ := hu
      · rw [handBack_expired (hv ▸ due), left, slot]
        subst hv hu
        exact ⟨rfl, .of_chain rfl rfl (put_same ..) rfl rfl rfl rfl⟩
      · have place : v.insertByIntake v.segs[g].deferralQueue n r.intake = older ++ n :: younger := by
          rw [hv, show (s.settle (.startWalk g)).segs = s.segs from rfl, hq]
          exact insertByIntake_eq hold hyoung
        rw [handBack_deferred (hv ▸ ahead), left, slot, place]
        subst hv hu
        exact ⟨rfl, .of_chain rfl rfl (put_same ..) rfl rfl rfl rfl⟩
    obtain ⟨e, pins, ⟨x, slots⟩, outstanding, state, transceiver, queue'⟩ := back
    have still : ∀ m, heldBack s g m → heldBack u g m := fun m hm =>
      heldBack_handedBack hr may hm slots outstanding
    have goesOn : exec (.startWalk g) s = .next (State.walkFrom g after u) := by
      rw [exec_startWalk hold, ← hv,
        walk_passesOver (s := v) (by rw [hv]; exact active) (by rw [hv]; exact idle)
        (by rw [hv]; exact queue) (by rw [hv]; exact held),
        walkFrom_handsBack after slot (by rw [hv]; exact may) (by rw [hv]; exact shut), e]
    refine ⟨fun behind => ?_, ?_⟩
    · have := walkFrom_heldBack g after [] fun m hm => still m (behind m hm)
      rw [List.append_nil] at this
      rw [goesOn, this]
      rfl
    · have settled : State.settle { u with occasions := .startWalk g :: u.occasions } (.startWalk g) =
          u := by
        rw [State.settle, List.erase_cons_head]
      rw [goesOn, exec_startWalk (s := { u with occasions := .startWalk g :: u.occasions })
        ((congrArg Pins.hold pins).trans hold), settled,
        walk_passesOver (state.trans active) (transceiver.trans idle) queue'
          fun m hm => still m (held m hm)]

end Sys2Proof.Proofs
end

