-- ==== Sys2Proof/Proofs/ReceptionEnds.lean ====
section
/-! SUPPORT. The end of a reception: when it is (R100), and the rows of R111. -/

namespace Sys2Proof.Machine

open Sys2Proof.Safety

variable {s t : State} {g : Seg} {n : SlotNo} {r : Slot} {p : Profile}

/-! ### The conditions of a reception as read -/

theorem pulses_cons (x : LineSpan) (line : List LineSpan) :
    p.pulses (x :: line) = joinPulse { reading := p.reads x.wire, micros := x.micros } (p.pulses line) :=
  rfl

theorem pulses_ne_nil (x : LineSpan) (line : List LineSpan) : p.pulses (x :: line) ≠ [] :=
  joinPulse_ne_nil _ _

theorem pulses_concat_ne_nil (before : List LineSpan) (x : LineSpan) :
    p.pulses (before ++ [x]) ≠ [] := by
  cases before with
  | nil => exact pulses_ne_nil x []
  | cons y rest => exact pulses_ne_nil y _

theorem joinPulse_cons (x y : Pulse) (rest : List Pulse) :
    joinPulse x (y :: rest) = if x.reading = y.reading then
      { y with micros := x.micros + y.micros } :: rest else x :: y :: rest := rfl

theorem mem_joinPulse {x z : Pulse} {rest : List Pulse} (h : z ∈ joinPulse x rest) :
    z.reading = x.reading ∨ ∃ y ∈ rest, z.reading = y.reading := by
  cases rest with
  | nil => exact .inl (congrArg _ (List.mem_singleton.1 h))
  | cons y rest =>
    rw [joinPulse_cons] at h
    split at h
    · obtain rfl | h := List.mem_cons.1 h
      · exact .inr ⟨y, by simp, rfl⟩
      · exact .inr ⟨z, by simp [h], rfl⟩
    · obtain rfl | h := List.mem_cons.1 h
      · exact .inl rfl
      · exact .inr ⟨z, h, rfl⟩

/-- Each pulse has the reading of a condition it comes from. -/
theorem reading_of_mem_pulses {line : List LineSpan} {z : Pulse} (h : z ∈ p.pulses line) :
    ∃ y ∈ line, z.reading = p.reads y.wire := by
  induction line generalizing z with
  | nil => cases h
  | cons x rest ih =>
    obtain e | ⟨y, hy, e⟩ := mem_joinPulse (pulses_cons x rest ▸ h)
    · exact ⟨x, by simp, e⟩
    · obtain ⟨w, hw, e'⟩ := ih hy
      exact ⟨w, by simp [hw], e.trans e'⟩

theorem joinPulse_append_of_ne_nil (x : Pulse) {rest : List Pulse} (more : List Pulse)
    (h : rest ≠ []) : joinPulse x (rest ++ more) = joinPulse x rest ++ more := by
  cases rest with
  | nil => exact absurd rfl h
  | cons y rest =>
    rw [List.cons_append, joinPulse_cons, joinPulse_cons]
    split <;> rfl

theorem joinPulse_of_ne {x : Pulse} {rest : List Pulse} (h : ∀ y ∈ rest, x.reading ≠ y.reading) :
    joinPulse x rest = x :: rest := by
  cases rest with
  | nil => rfl
  | cons y rest => exact if_neg (h y (by simp))

/-- A condition read otherwise than those behind it ends a pulse. -/
theorem pulses_split (before after : List LineSpan) (x : LineSpan)
    (other : ∀ y ∈ after, p.reads x.wire ≠ p.reads y.wire) :
    p.pulses (before ++ x :: after) = p.pulses (before ++ [x]) ++ p.pulses after := by
  induction before with
  | nil =>
    refine joinPulse_of_ne fun y hy => ?_
    obtain ⟨w, hw, e⟩ := reading_of_mem_pulses hy
    exact e ▸ other w hw
  | cons y rest ih =>
    rw [List.cons_append, pulses_cons, ih, joinPulse_append_of_ne_nil _ _ (pulses_concat_ne_nil rest x)]
    rfl

/-- The last pulse has the reading of the last condition. -/
theorem reading_getLast_pulses (before : List LineSpan) (x : LineSpan) {z : Pulse}
    (h : (p.pulses (before ++ [x])).getLast? = some z) : z.reading = p.reads x.wire := by
  induction before generalizing z with
  | nil =>
    obtain rfl := Option.some.inj h
    rfl
  | cons y rest ih =>
    rw [List.cons_append, pulses_cons] at h
    cases hp : p.pulses (rest ++ [x]) with
    | nil => exact absurd hp (pulses_concat_ne_nil rest x)
    | cons w more =>
      rw [hp] at ih h
      rw [joinPulse_cons] at h
      split at h
      · cases more with
        | nil =>
          obtain rfl := Option.some.inj h
          exact ih (z := w) rfl
        | cons v more => exact ih h
      · exact ih h

/-- There is one pulse exactly when all conditions are read as one. -/
theorem pulses_length_le_one (before : List LineSpan) (x : LineSpan) :
    (p.pulses (before ++ [x])).length ≤ 1 ↔ ∀ y ∈ before, p.reads y.wire = p.reads x.wire := by
  induction before with
  | nil => simp [Profile.pulses, joinPulse]
  | cons y rest ih =>
    rw [List.cons_append, pulses_cons, List.forall_mem_cons, ← ih]
    have last := fun z => reading_getLast_pulses (p := p) rest x (z := z)
    cases hp : p.pulses (rest ++ [x]) with
    | nil => exact absurd hp (pulses_concat_ne_nil rest x)
    | cons w more =>
      rw [hp] at last
      cases more with
      | nil =>
        have : w.reading = p.reads x.wire := last w rfl
        rw [← this]
        by_cases h : p.reads y.wire = w.reading <;> simp [joinPulse, h]
      | cons v more =>
        by_cases h : p.reads y.wire = w.reading <;> simp [joinPulse, h]

/-! ### The end of a reception (R100) -/

theorem dropIdle_of_idle {l : List Pulse} (h : ∀ z ∈ l, p.readsIdle z.reading = true) :
    p.dropIdle l = [] := by
  induction l with
  | nil => rfl
  | cons z rest ih =>
    rw [Profile.dropIdle, ih fun w hw => h w (by simp [hw])]
    exact if_pos (h z (by simp))

theorem dropIdle_append {l m : List Pulse} (h : p.dropIdle m = []) :
    p.dropIdle (l ++ m) = p.dropIdle l := by
  induction l with
  | nil => exact h
  | cons z rest ih => rw [List.cons_append, Profile.dropIdle, ih, Profile.dropIdle]

theorem dropIdle_of_active_last {l : List Pulse}
    (h : ∀ z, l.getLast? = some z → p.readsIdle z.reading = false) : p.dropIdle l = l := by
  induction l with
  | nil => rfl
  | cons z rest ih =>
    rw [Profile.dropIdle]
    cases rest with
    | nil => simp [Profile.dropIdle, h z rfl]
    | cons w more => rw [ih h]

/-- Outside SHIFT the activity on a line is a mark (R90). -/
theorem reads_mark_of_activity {w : Wire} (ne : p.mode ≠ .shift) (h : p.isActivity w = true) :
    p.reads w = .mark := by
  unfold Profile.isActivity Profile.readsIdle at h
  cases hm : p.mode <;> cases hr : p.reads w <;> simp_all

theorem receptionTime_of_pulses (line : List LineSpan) :
    p.receptionTime line =
      (((p.dropIdle (p.pulses line)).map Pulse.micros).sum * 4 +
        5 * (if p.mode = .shift then 1
          else if (p.dropIdle (p.pulses line)).length ≤ 1 then p.leaderSpace else p.bitSpace) *
        p.unitTime) * 72 := by
  unfold Profile.receptionTime
  cases p.mode <;> rfl

theorem receptionTime_eq (before after : List LineSpan) (x : LineSpan)
    (active : p.isActivity x.wire = true) (idle : ∀ y ∈ after, p.isActivity y.wire = false) :
    p.receptionTime (before ++ x :: after) =
      ((before.map LineSpan.micros).sum + x.micros) * 288 +
        (if p.mode = .shift then 1
          else if ∀ y ∈ before, p.reads y.wire = .mark then p.leaderSpace
          else p.bitSpace) * p.unitTime * 360 := by
  have other : ∀ y ∈ after, p.reads x.wire ≠ p.reads y.wire := fun y hy e => by
    have := idle y hy
    rw [Profile.isActivity, ← e, ← Profile.isActivity, active] at this
    cases this
  have tail : p.dropIdle (p.pulses after) = [] := dropIdle_of_idle fun z hz => by
    obtain ⟨y, hy, e⟩ := reading_of_mem_pulses hz
    simpa [Profile.isActivity, e] using idle y hy
  have kept : p.dropIdle (p.pulses (before ++ x :: after)) = p.pulses (before ++ [x]) := by
    rw [pulses_split before after x other, dropIdle_append tail]
    refine dropIdle_of_active_last fun z hz => ?_
    rw [reading_getLast_pulses before x hz]
    simpa [Profile.isActivity] using active
  have sum : ((p.pulses (before ++ [x])).map Pulse.micros).sum =
      (before.map LineSpan.micros).sum + x.micros := by
    rw [sum_pulses]
    simp
  rw [receptionTime_of_pulses, kept, sum, if_congr (pulses_length_le_one before x) rfl rfl]
  by_cases shift : p.mode = .shift
  · rw [if_pos shift, if_pos shift]
    omega
  · rw [if_neg shift, if_neg shift, reads_mark_of_activity shift active]
    generalize (if ∀ y ∈ before, p.reads y.wire = .mark then p.leaderSpace else p.bitSpace) = space
    rw [Nat.mul_assoc 5]
    omega

/-! ### Slots that end with an answer -/

theorem endDeferred_slot (o : ReportOutcome) (answer : Option AnswerPart)
    (hr : s.buffer.slots[n] = some r) :
    s.endDeferred g o answer n = { s with
      segs := put s.segs g { s.segs[g] with deferralQueue := s.segs[g].deferralQueue.erase n }
      buffer.slots := put s.buffer.slots n (some (finished o answer (leftDeferred s.clock.uptime r)))
      reports.backlog := s.reports.backlog ++ [n]
      counters := bump s.counters o.counter 1
      occasions := s.occasions ++ [.formation] } := by
  rw [State.endDeferred, report_eq, leaveDeferralQueue_eq]
  simp only [put_same, put_put, hr, Option.map_some, leaveDeferred_eq]

theorem endQueued_slot (o : ReportOutcome) (answer : Option AnswerPart)
    (hr : s.buffer.slots[n] = some r) :
    s.endQueued g o answer n = { s with
      segs := put s.segs g { s.segs[g] with sendQueue := s.segs[g].sendQueue.erase n }
      buffer.slots := put s.buffer.slots n (some (finished o answer r))
      reports.backlog := s.reports.backlog ++ [n]
      counters := bump s.counters o.counter 1
      occasions := s.occasions ++ [.examination g] ++ [.formation] } := by
  rw [State.endQueued, report_eq, leaveSendQueue_eq]
  simp only [hr, Option.map_some]

/-! ### The rows of R111 -/

theorem find_outstanding {a : LineAnswer} {older newer : List Outstanding} {e : Outstanding}
    (list : s.segs[g].outstanding = older ++ e :: newer) (others : ∀ y ∈ older, y.tag ≠ a.tag)
    (tag : e.tag = a.tag) :
    s.segs[g].outstanding.find? (fun y => y.tag == a.tag) = some e := by
  rw [List.find?_eq_some_iff_append]
  exact ⟨by simpa using tag, older, newer, list, fun y hy => by simpa using others y hy⟩

theorem find_outstanding_none {a : LineAnswer} (absent : ∀ y ∈ s.segs[g].outstanding, y.tag ≠ a.tag) :
    s.segs[g].outstanding.find? (fun y => y.tag == a.tag) = none :=
  List.find?_eq_none.2 fun y hy => by simpa using absent y hy

/-- An answer whose tag is outstanding for another device. -/
theorem resolve_otherDevice {a : LineAnswer} {e : Outstanding}
    (found : s.segs[g].outstanding.find? (fun y => y.tag == a.tag) = some e)
    (device : e.device ≠ a.device) : s.resolve g a = s.count (Counter.unknownAnswers g) := by
  rw [State.resolve, show (s.seg g).outstanding.find? _ = some e from found]
  exact if_neg device

/-- An answer whose tag is outstanding for its device. -/
theorem resolve_answered {a : LineAnswer} {e : Outstanding}
    (found : s.segs[g].outstanding.find? (fun y => y.tag == a.tag) = some e)
    (device : e.device = a.device) :
    s.resolve g a = (s.retire g e .answered).report e.slot .answered (some a.part) := by
  rw [State.resolve, show (s.seg g).outstanding.find? _ = some e from found]
  exact if_pos device

/-- An answer in no entry of the list or the ring. -/
theorem resolve_unknown {a : LineAnswer} (list : ∀ y ∈ s.segs[g].outstanding, y.tag ≠ a.tag)
    (ring : ∀ y ∈ s.segs[g].ring, ¬ (y.tag = a.tag ∧ y.device = a.device)) :
    s.resolve g a = s.count (Counter.unknownAnswers g) := by
  have absent : s.segs[g].ring.find? (fun x => x.tag == a.tag && x.device == a.device) = none :=
    List.find?_eq_none.2 fun y hy => by simpa using ring y hy
  simp only [State.resolve, State.seg, find_outstanding_none list, absent]

/-- An answer that matches a ring entry ANSWERED. -/
theorem resolve_duplicate {a : LineAnswer} {e : Retired}
    (list : ∀ y ∈ s.segs[g].outstanding, y.tag ≠ a.tag)
    (found : s.segs[g].ring.find? (fun x => x.tag == a.tag && x.device == a.device) = some e)
    (reason : e.reason = .answered) : s.resolve g a = s.count (Counter.duplicateAnswers g) := by
  simp only [State.resolve, State.seg, find_outstanding_none list, found, reason]

/-- An answer that matches a ring entry TIMED_OUT. -/
theorem resolve_late {a : LineAnswer} {e : Retired}
    (list : ∀ y ∈ s.segs[g].outstanding, y.tag ≠ a.tag)
    (found : s.segs[g].ring.find? (fun x => x.tag == a.tag && x.device == a.device) = some e)
    (reason : e.reason = .timedOut) : s.resolve g a = s.lateAnswer g e a.part := by
  simp only [State.resolve, State.seg, find_outstanding_none list, found, reason]

theorem find_ring {a : LineAnswer} {older newer : List Retired} {e : Retired}
    (ring : s.segs[g].ring = older ++ e :: newer)
    (others : ∀ y ∈ older ++ newer, ¬ (y.tag = a.tag ∧ y.device = a.device)) (tag : e.tag = a.tag)
    (device : e.device = a.device) :
    s.segs[g].ring.find? (fun x => x.tag == a.tag && x.device == a.device) = some e := by
  rw [List.find?_eq_some_iff_append]
  refine ⟨by simp [tag, device], older, newer, ring, fun y hy => ?_⟩
  rw [Bool.not_eq_true', Bool.eq_false_iff]
  exact fun h => others y (List.mem_append_left _ hy) (by simpa using h)

/-- The entry that an answer matches is the only one of the ring that becomes ANSWERED. -/
theorem map_ring {a : LineAnswer} {older newer : List Retired} {e : Retired}
    (others : ∀ y ∈ older ++ newer, ¬ (y.tag = a.tag ∧ y.device = a.device)) (tag : e.tag = a.tag)
    (device : e.device = a.device) :
    (older ++ e :: newer).map (fun y =>
      if y.tag = e.tag ∧ y.device = e.device then { y with reason := .answered } else y) =
      older ++ { e with reason := .answered } :: newer := by
  rw [← tag, ← device] at others
  have same : ∀ l : List Retired, (∀ y ∈ l, y ∈ older ++ newer) → l.map (fun y =>
      if y.tag = e.tag ∧ y.device = e.device then { y with reason := .answered } else y) = l :=
    fun l h => (List.map_congr_left fun y hy => if_neg (others y (h y hy))).trans (List.map_id l)
  rw [List.map_append, List.map_cons, same older (by simp +contextual), same newer (by simp +contextual),
    if_pos ⟨rfl, rfl⟩]

/-- A slot that no longer waits fails the intake check (R11). -/
theorem intakeCheck_none {intake : Intake}
    (gone : ∀ r, s.buffer.slots[n] = some r → r.intake = intake →
      n ∉ s.segs[r.segment].deferralQueue ∧ n ∉ s.segs[r.segment].sendQueue) :
    s.intakeCheck n intake = none := by
  unfold State.intakeCheck
  cases hr : s.slot n with
  | none => rfl
  | some r =>
    by_cases same : r.intake = intake
    · obtain ⟨h1, h2⟩ := gone r hr same
      exact (if_pos same).trans ((if_neg h1).trans (if_neg h2))
    · exact if_neg same

theorem intakeCheck_deferred (hr : s.buffer.slots[n] = some r)
    (hn : n ∈ s.segs[r.segment].deferralQueue) :
    s.intakeCheck n r.intake = some (.deferred, r.segment) := by
  unfold State.intakeCheck
  rw [show s.slot n = some r from hr]
  exact (if_pos rfl).trans (if_pos hn)

theorem intakeCheck_queued (hr : s.buffer.slots[n] = some r)
    (out : n ∉ s.segs[r.segment].deferralQueue) (hn : n ∈ s.segs[r.segment].sendQueue) :
    s.intakeCheck n r.intake = some (.queued, r.segment) := by
  unfold State.intakeCheck
  rw [show s.slot n = some r from hr]
  exact (if_pos rfl).trans ((if_neg out).trans (if_pos hn))

/-- The chain of a segment once the ring entries that match an entry have become ANSWERED. -/
def Segment.answeredIn (x : Segment) (e : Retired) : Segment :=
  { x with ring := x.ring.map fun y =>
      if y.tag = e.tag ∧ y.device = e.device then { y with reason := .answered } else y }

/-- A late answer for a slot that no longer waits. -/
theorem lateAnswer_gone {e : Retired} {part : AnswerPart}
    (gone : ∀ r, s.buffer.slots[e.slot] = some r → r.intake = e.intake →
      e.slot ∉ s.segs[r.segment].deferralQueue ∧ e.slot ∉ s.segs[r.segment].sendQueue) :
    s.lateAnswer g e part = s.count (Counter.lateAnswers g) := by
  rw [State.lateAnswer, intakeCheck_none gone]

/-- A late answer for a slot that waits DEFERRED in the same segment. -/
theorem lateAnswer_deferred {e : Retired} {part : AnswerPart}
    (hr : s.buffer.slots[e.slot] = some r) (same : r.intake = e.intake)
    (hn : e.slot ∈ s.segs[r.segment].deferralQueue) :
    s.lateAnswer r.segment e part = { s with
      segs := put s.segs r.segment { s.segs[r.segment].answeredIn e with
        deferralQueue := s.segs[r.segment].deferralQueue.erase e.slot }
      buffer.slots := put s.buffer.slots e.slot
        (some (finished .answeredLate (some part) (leftDeferred s.clock.uptime r)))
      reports.backlog := s.reports.backlog ++ [e.slot]
      counters := bump s.counters ReportOutcome.answeredLate.counter 1
      occasions := s.occasions ++ [.formation] } := by
  rw [State.lateAnswer, ← same, intakeCheck_deferred hr hn]
  refine (endDeferred_slot (s := s.setSeg r.segment (s.segs[r.segment].answeredIn e)) _ _ hr).trans ?_
  simp only [setSeg_eq, put_same, put_put]
  rfl

/-- A late answer for a slot that waits QUEUED in the same segment. -/
theorem lateAnswer_queued {e : Retired} {part : AnswerPart}
    (hr : s.buffer.slots[e.slot] = some r) (same : r.intake = e.intake)
    (out : e.slot ∉ s.segs[r.segment].deferralQueue) (hn : e.slot ∈ s.segs[r.segment].sendQueue) :
    s.lateAnswer r.segment e part = { s with
      segs := put s.segs r.segment { s.segs[r.segment].answeredIn e with
        sendQueue := s.segs[r.segment].sendQueue.erase e.slot }
      buffer.slots := put s.buffer.slots e.slot (some (finished .answeredLate (some part) r))
      reports.backlog := s.reports.backlog ++ [e.slot]
      counters := bump s.counters ReportOutcome.answeredLate.counter 1
      occasions := s.occasions ++ [.examination r.segment] ++ [.formation] } := by
  rw [State.lateAnswer, ← same, intakeCheck_queued hr out hn]
  refine (endQueued_slot (s := s.setSeg r.segment (s.segs[r.segment].answeredIn e)) _ _ hr).trans ?_
  simp only [setSeg_eq, put_same, put_put]
  rfl

/-! ### The command -/

theorem exec_receptionEnd {line : List LineSpan} (hold : s.pins.hold = none) :
    exec (.receptionEnd g line) s = .next (s.endReception g line) :=
  whileRunning_of_no_hold (fun s => s.endReception g line) hold

/-- The state once a reception has ended and its quiet gap begins (R100). -/
def State.receptionOver (s : State) (g : Seg) (line : List LineSpan) (rx : Reception) : State :=
  (s.reach (rx.since + s.segs[g].profile.receptionTime line)).enterQuiet g

theorem receptionOver_queues (line : List LineSpan) (rx : Reception) (h : Seg) :
    (s.receptionOver g line rx).segs[h].deferralQueue = s.segs[h].deferralQueue ∧
      (s.receptionOver g line rx).segs[h].sendQueue = s.segs[h].sendQueue := by
  rw [State.receptionOver, enterQuiet_eq]
  simp only [put_apply]
  split
  · next e => exact e ▸ ⟨rfl, rfl⟩
  · exact ⟨rfl, rfl⟩

theorem endReception_bad {line : List LineSpan} {rx : Reception}
    (receiving : s.segs[g].transceiver = .receiving rx)
    (bad : rx.bad = true ∨ s.segs[g].profile.receive line = none) :
    s.endReception g line = (s.receptionOver g line rx).count (Counter.badLineFrames g) := by
  unfold State.endReception
  rw [show (s.seg g).transceiver = .receiving rx from receiving]
  obtain bad | unread := bad
  · simp only [bad]
    rfl
  · simp only [State.seg, unread]
    cases rx.bad <;> rfl

theorem endReception_good {line : List LineSpan} {rx : Reception} {a : LineAnswer}
    (receiving : s.segs[g].transceiver = .receiving rx) (good : rx.bad = false)
    (answer : s.segs[g].profile.receive line = some a) :
    s.endReception g line = (s.receptionOver g line rx).resolve g a := by
  unfold State.endReception
  rw [show (s.seg g).transceiver = .receiving rx from receiving]
  simp only [good, State.seg, answer]
  rfl

end Sys2Proof.Machine

namespace Sys2Proof.Proofs

open Sys2Proof.Machine Sys2Proof.Safety

/-- Settles O42: a bad frame is counted, and each row of R111 is one branch of the resolution. -/
theorem receptionEnds : Obligations.ReceptionEnds := by
  refine ⟨fun p before after x active idle => receptionTime_eq before after x active idle, ?_⟩
  intro g line s t rx hold receiving ht
  have ht : t = s.receptionOver g line rx := ht _ rfl
  have chain : t.segs[g] = { s.segs[g] with
      transceiver := .quiet (t.pins.now + s.segs[g].profile.quietGap * 288000) } := by
    rw [ht]
    exact put_same ..
  have list : t.segs[g].outstanding = s.segs[g].outstanding := by rw [chain]
  have ring : t.segs[g].ring = s.segs[g].ring := by rw [chain]
  refine ⟨fun bad => ?_, fun a good answer => ?_⟩
  · rw [exec_receptionEnd hold, endReception_bad receiving bad, ← ht, count_eq, ht]
    rfl
  have result : exec (.receptionEnd g line) s = .next (t.resolve g a) := by
    rw [exec_receptionEnd hold, endReception_good receiving good answer, ht]
  rw [result, ← list, ← ring]
  refine ⟨fun older newer e he others tag => ⟨fun device => ?_, ?_⟩, fun absent => ⟨?_, ?_⟩⟩
  · rw [resolve_otherDevice (find_outstanding he others tag) device, count_eq, ht]
    rfl
  · intro r device hr eight
    have slot : t.buffer.slots[e.slot] = some r := by rw [ht]; exact hr
    have out : e ∉ older := fun h => others e h tag
    have left : t.segs[g].outstanding.erase e = older ++ newer := by
      rw [he, List.erase_append_right _ out, List.erase_cons_head]
    have intake : t.intakeOf e.slot = r.intake := by
      rw [State.intakeOf, show t.slot e.slot = some r from slot]
    rw [resolve_answered (find_outstanding he others tag) device, retire_eq, report_eq,
      pushRing_eq _ _ eight, left, intake]
    simp only [slot, Option.map_some, List.append_assoc, List.cons_append, List.nil_append]
    subst ht
    rfl
  · intro none
    rw [resolve_unknown absent none, count_eq, ht]
    rfl
  · intro older newer e he others tag device
    have found := find_ring he others tag device
    refine ⟨fun reason => ?_, fun reason => ?_⟩
    · rw [resolve_duplicate absent found reason, count_eq, ht]
      rfl
    · rw [resolve_late absent found reason]
      have slots : t.buffer.slots = s.buffer.slots := by rw [ht]; rfl
      have queues := receptionOver_queues (s := s) (g := g) line rx
      rw [← ht] at queues
      refine ⟨fun gone => ?_, ?_⟩
      · rw [lateAnswer_gone, count_eq, ht]
        · rfl
        · intro r hr same
          rw [(queues _).1, (queues _).2]
          exact gone r (slots ▸ hr) same
      · rintro r x hr same rfl rfl
        have hr' : t.buffer.slots[e.slot] = some r := slots ▸ hr
        have answered : t.segs[r.segment].answeredIn e = { t.segs[r.segment] with
            ring := older ++ { e with reason := .answered } :: newer } := by
          rw [Segment.answeredIn, he, map_ring others tag device]
        refine ⟨fun deferred => ?_, fun out queued => ?_⟩
        · rw [lateAnswer_deferred hr' same ((queues _).1 ▸ deferred), answered,
            (queues _).1, ht]
          exact ⟨_, rfl⟩
        · rw [lateAnswer_queued hr' same ((queues _).1 ▸ out) ((queues _).2 ▸ queued), answered,
            (queues _).2, ht]
          exact ⟨_, rfl⟩

end Sys2Proof.Proofs
end

