-- ==== Sys2Proof/Proofs/Placement.lean ====
section
/-! SUPPORT. The admission of a COMMAND that passes the checks: the slot it takes (R7, R8, R24 to R26) and
its placement (R28 to R30). -/

namespace Sys2Proof.Machine

open Sys2Proof.Safety

variable {s u : State} {g : Seg} {n : SlotNo} {r : Slot} {c : CommandTelegram} {p : ClassPolicy}

/-! ### The checks -/

/-- The route of an address is that of the first defined entry that contains it (R20). -/
theorem routeOf_of_routesTo {a : Addr} (h : routesTo s a g) : s.bank.active.routeOf a = some g := by
  obtain ⟨i, q, hi, ⟨first, last⟩, hg, others⟩ := h
  have bound : i.val < s.bank.active.routes.toList.length := by simp
  have split : s.bank.active.routes.toList = s.bank.active.routes.toList.take i.val ++
      some q :: s.bank.active.routes.toList.drop (i.val + 1) := by
    have : s.bank.active.routes.toList[i.val] = some q := by simpa using hi
    rw [← this, List.cons_getElem_drop_succ, List.take_append_drop]
  unfold Tables.routeOf
  rw [List.findSome?_eq_some_iff]
  refine ⟨_, _, _, split, ?_, fun e he => ?_⟩
  · exact (if_pos ⟨BitVec.le_def.2 first, BitVec.le_def.2 last⟩).trans (congrArg some hg)
  · obtain ⟨j, hj, rfl⟩ := List.getElem_of_mem he
    have lt : j < i.val := by
      rw [List.length_take] at hj
      omega
    cases hr : (s.bank.active.routes.toList.take i.val)[j] with
    | none => rfl
    | some x =>
      have := others ⟨j, by omega⟩ x lt (by simpa using hr)
      exact if_neg fun h => this ⟨BitVec.le_def.1 h.1, BitVec.le_def.1 h.2⟩

/-- A COMMAND that passes checks 1 to 4 of R17 seeks a slot. -/
theorem exec_admission (routed : Routed s c g p) (may : mayWaitOrGo s c g p) :
    exec (.admission c) s = .next (s.frameTaken.admitRouted c p g) := by
  obtain ⟨hold, payload, source, pair, route, policy⟩ := routed
  have pairHeld : s.frameTaken.pairHeld c.source c.seq = false :=
    (pairHeld_iff (s := s.frameTaken) c.source c.seq).2 pair
  have routeOf : s.frameTaken.bank.active.routeOf c.destination = some g :=
    routeOf_of_routesTo (s := s.frameTaken) route
  have livePolicy : s.frameTaken.livePolicy c.cls = some p := policy
  have isOpen : p.holdLimit = 0 → s.frameTaken.classOpen c.cls = true := fun h =>
    (classOpen_iff (s := s.frameTaken) c.cls).2 (may h).1
  have room : p.holdLimit = 0 → (s.frameTaken.seg g).sendQueue.length < Config.sendQueueLimit :=
    fun h => (may h).2
  have screened : s.frameTaken.admitScreened c = s.frameTaken.admitRouted c p g := by
    unfold State.admitScreened
    rw [pairHeld, if_neg Bool.false_ne_true]
    simp only [routeOf, livePolicy]
    rw [if_neg fun h => h.2 (isOpen h.1), if_neg fun h => h.2 (room h.1)]
  have taken : exec (.admission c) s = .next (if c.payload.length ≤ Config.maxPayload then
      s.frameTaken.takeCommand c else s.frameTaken.count Counter.frameError) :=
    whileRunning_of_no_hold (fun s => if c.payload.length ≤ Config.maxPayload then
      s.frameTaken.takeCommand c else s.frameTaken.count Counter.frameError) hold
  have source' : ¬ (c.source = 0 ∨ c.source = s.frameTaken.ownAddress) := not_or.2 source
  rw [taken, if_pos (show c.payload.length ≤ Config.maxPayload from payload), State.takeCommand,
    if_neg source', screened]

/-! ### A newcomer in its slot -/

/-- The state u is that of s, but that a slot holds a newcomer's record, and what a queue holds. -/
structure Holds (s u : State) (n : SlotNo) (r : Slot) : Prop where
  slots : u.buffer.slots = put s.buffer.slots n (some r)
  bank : u.bank = s.bank
  windowOpen : u.windowOpen = s.windowOpen
  clock : u.clock = s.clock

theorem Holds.isOpen (h : Holds s u n r) (k : ClassNo) : isOpen u k ↔ isOpen s k := by
  simp only [Safety.isOpen, h.bank, h.windowOpen, h.clock]

theorem Holds.slot_other (h : Holds s u n r) {m : SlotNo} (ne : m ≠ n) :
    u.buffer.slots[m] = s.buffer.slots[m] := by
  rw [h.slots, put_other _ _ _ _ ne]

theorem Holds.eligible (h : Holds s u n r) {m : SlotNo} (ne : m ≠ n) :
    eligibleSlot u m ↔ eligibleSlot s m := by
  simp only [eligibleSlot, h.slot_other ne, h.isOpen]

theorem Holds.splitsAt (h : Holds s u n r) {queue higher lower : List SlotNo} {k : Fin 4}
    (out : n ∉ queue) (splits : splitsAt s queue higher lower k) : splitsAt u queue higher lower k := by
  obtain ⟨rfl, above, below⟩ := splits
  refine ⟨rfl, fun m hm => ?_, fun m hm => ?_⟩
  · rw [h.slot_other fun e => out (e ▸ List.mem_append_left _ hm)]
    exact above m hm
  · rw [h.slot_other fun e => out (e ▸ List.mem_append_right _ hm)]
    exact below m hm

theorem Holds.interimReport (h : Holds s u n r) (x : Slot) (reason : DeferralReason) :
    interimReport u x reason = interimReport s x reason := by
  simp only [Safety.interimReport, slotReport, State.nextOpening, State.livePolicy, h.bank, h.clock]

/-! ### Placement (R28, R29) -/

theorem place_queued {holdLimit : Nat} {higher lower : List SlotNo} (hr : u.buffer.slots[n] = some r)
    (opened : isOpen u r.cls) (room : u.segs[g].sendQueue.length < 16)
    (go : holdLimit = 0 ∨ ∀ m ∈ u.segs[g].deferralQueue, ¬ eligibleSlot u m)
    (splits : splitsAt u u.segs[g].sendQueue higher lower r.priority) :
    u.place g n r holdLimit = { queuedBetween u g n higher lower with
      occasions := u.occasions ++ [.startWalk g] } := by
  have go' : holdLimit = 0 ∨ u.oldestEligible g = none := go.imp_right fun none =>
    List.find?_eq_none.2 fun m hm he => none m hm ((eligible_iff m).1 he)
  have room' : (u.seg g).sendQueue.length < Config.sendQueueLimit := room
  rw [State.place, if_neg (not_not_intro ((classOpen_iff _).2 opened)), if_neg (not_not_intro room'),
    if_pos go', joinFresh_eq, priorityOf_of_slot hr, insertFresh_of_splits n splits]
  rfl

theorem place_deferred {holdLimit : Nat} {reason : DeferralReason} (limit : holdLimit ≠ 0)
    (why : reasonFor u g r.cls reason)
    (order : reason = .order → ∃ m ∈ u.segs[g].deferralQueue, eligibleSlot u m) :
    u.place g n r holdLimit = u.deferNew g n r reason := by
  unfold State.place
  obtain ⟨shut, rfl⟩ | ⟨opened, full, rfl⟩ | ⟨opened, room, rfl⟩ := why
  · rw [if_pos (mt (classOpen_iff _).1 shut)]
  · rw [if_neg (not_not_intro ((classOpen_iff _).2 opened)), if_pos (show
      ¬ (u.seg g).sendQueue.length < Config.sendQueueLimit from Nat.not_lt.2 full)]
  · obtain ⟨m, hm, he⟩ := order rfl
    have waits : ¬ (holdLimit = 0 ∨ u.oldestEligible g = none) := by
      rintro (h | h)
      · exact limit h
      · exact List.find?_eq_none.1 h m hm ((eligible_iff m).2 he)
    have room' : (u.seg g).sendQueue.length < Config.sendQueueLimit := room
    rw [if_neg (not_not_intro ((classOpen_iff _).2 opened)), if_neg (not_not_intro room'), if_neg waits]

/-- What is owed has no part in a deferral at admission. -/
theorem deferredAtBack_occasions (x : Slot) (interim : Report) (owed occ : List Occasion) :
    { deferredAtBack { u with occasions := owed } g n x interim with occasions := occ } =
      { deferredAtBack u g n x interim with occasions := occ } := by
  by_cases notify : x.notifyOnDefer = true
  · by_cases room : u.reports.reportQueue.length < 16
    · simp only [deferredAtBack, if_pos notify, if_pos room]
    · simp only [deferredAtBack, if_pos notify, if_neg room]
  · simp only [deferredAtBack, if_neg notify]

theorem deferNew_eq (reason : DeferralReason) (hr : u.buffer.slots[n] = some r) {x : Slot}
    (hx : x = { r with deferral := some { reason := reason, since := u.clock.uptime } }) :
    ∃ occ, u.deferNew g n r reason =
      { deferredAtBack { u with buffer.slots := put u.buffer.slots n (some x) } g n r
          (interimReport u r reason) with occasions := occ } := by
  subst hx
  have interim : ∀ w : State, w.clock = u.clock → w.bank = u.bank →
      w.interimReport r reason = interimReport u r reason := by
    intro w clock bank
    cases reason <;>
      simp only [State.interimReport, interimReport, State.reportOf, slotReport, State.nextOpening,
        State.livePolicy, clock, bank, reduceCtorEq, if_true, if_false]
  obtain ⟨w, hw⟩ : ∃ w, w = (u.deferAtBack g n reason).count Counter.deferrals := ⟨_, rfl⟩
  rw [State.deferNew, ← hw, State.interim]
  rw [deferAtBack_eq, count_eq, hr] at hw
  have clock : w.clock = u.clock := by rw [hw]
  have bank : w.bank = u.bank := by rw [hw]
  have queue : w.reports.reportQueue = u.reports.reportQueue := by rw [hw]
  by_cases notify : r.notifyOnDefer = true
  · by_cases room : u.reports.reportQueue.length < 16
    · refine ⟨w.occasions ++ takeOwed w, ?_⟩
      rw [if_pos notify, if_pos (reportRoom_iff.2 (queue ▸ room)), pushReport_eq, interim w clock bank]
      subst hw
      simp only [deferredAtBack, if_pos notify, if_pos room]
      rfl
    · refine ⟨w.occasions, ?_⟩
      rw [if_pos notify, if_neg (mt reportRoom_iff.1 (queue ▸ room)), count_eq]
      subst hw
      simp only [deferredAtBack, if_pos notify, if_neg room]
      rfl
  · refine ⟨w.occasions, ?_⟩
    rw [if_neg notify]
    subst hw
    simp only [deferredAtBack, if_neg notify]
    rfl

/-! ### Allocation (R7, R13, R24) -/

theorem freeList_of_lowestFree (h : lowestFree s n) : ∃ rest, s.freeList = n :: rest := by
  obtain ⟨free, lower⟩ := h
  have mem : n ∈ s.freeList := (mem_freeList n).2 free
  have order : s.freeList.Pairwise (· < ·) := (List.pairwise_lt_finRange 256).filter _
  cases e : s.freeList with
  | nil => rw [e] at mem; cases mem
  | cons m rest =>
    rw [e] at mem order
    obtain rfl | hn := List.mem_cons.1 mem
    · exact ⟨rest, rfl⟩
    · have used := lower m ((List.pairwise_cons.1 order).1 n hn)
      rw [(mem_freeList m).1 (by rw [e]; exact List.mem_cons_self ..)] at used
      cases used

theorem allocate_checkHigh (record : Intake → Slot) (free : s.buffer.slots[n] = none) :
    ∃ occ, (s.frameTaken.allocate n record).checkHigh =
      { allocated s n (record (s.buffer.intakeCounter + 1)) with occasions := occ } := by
  obtain ⟨w, hw⟩ : ∃ w, w = s.frameTaken.allocate n record := ⟨_, rfl⟩
  have count : inUseCount w = inUseCount s + 1 := by
    have := inUseCount_put (s := s) (t := w) (n := n) (by rw [hw]; rfl)
    simpa [free] using this
  obtain ⟨occ, e⟩ := checkHigh_eq (s := w)
  refine ⟨occ, hw ▸ e.trans ?_⟩
  have flag : w.buffer.storeHigh = s.buffer.storeHigh := by rw [hw]; rfl
  rw [count, flag, allocated]
  by_cases high : s.buffer.storeHigh = false ∧ 224 ≤ inUseCount s + 1
  · rw [if_pos high, if_pos high, hw]
    rfl
  · rw [if_neg high, if_neg high, hw]
    rfl

/-- The record of an allocated slot alone. -/
theorem allocated_put (x y : Slot) :
    allocated s n y = { allocated s n x with
      buffer.slots := put (allocated s n x).buffer.slots n (some y) } := by
  unfold allocated
  dsimp only
  by_cases high : s.buffer.storeHigh = false ∧ 224 ≤ inUseCount s + 1
  · rw [if_pos high, if_pos high]
    by_cases room : s.reports.noticeQueue.length < 4
    · simp only [noticed, if_pos room, put_put]
    · simp only [noticed, if_neg room, put_put]
  · simp only [if_neg high, put_put]

theorem holds_allocated (x : Slot) : Holds s (allocated s n x) n x := by
  unfold allocated
  dsimp only
  by_cases high : s.buffer.storeHigh = false ∧ 224 ≤ inUseCount s + 1
  · rw [if_pos high]
    by_cases room : s.reports.noticeQueue.length < 4
    · simp only [noticed, if_pos room]
      exact ⟨rfl, rfl, rfl, rfl⟩
    · simp only [noticed, if_neg room]
      exact ⟨rfl, rfl, rfl, rfl⟩
  · rw [if_neg high]
    exact ⟨rfl, rfl, rfl, rfl⟩

theorem segs_allocated (x : Slot) : (allocated s n x).segs = s.segs := by
  unfold allocated noticed
  dsimp only
  split_ifs <;> rfl

/-! ### Displacement (R8, R25, R26) -/

@[simp] theorem leftDeferred_answer (t : Nat) (x : Slot) : (leftDeferred t x).answer = x.answer := by
  cases h : x.deferral <;> simp [leftDeferred, h]

theorem chooseVictim_of_first {l : List (Seg × SlotNo × Slot)} {v : Seg × SlotNo × Slot} (hv : v ∈ l)
    (first : ∀ y ∈ l, y = v ∨
      (v.2.2.givenUpBefore y.2.2 = true ∧ y.2.2.givenUpBefore v.2.2 = false)) :
    chooseVictim l = some v := by
  induction l with
  | nil => cases hv
  | cons x rest ih =>
    have behind := fun y hy => first y (List.mem_cons_of_mem x hy)
    rw [chooseVictim]
    by_cases later : v ∈ rest
    · rw [ih later behind]
      obtain rfl | ⟨before, -⟩ := first x (by simp)
      · exact ite_self _
      · exact if_pos before
    · obtain rfl : v = x := by simpa [later] using hv
      cases hc : chooseVictim rest with
      | none => rfl
      | some y =>
        have hy := chooseVictim_mem hc
        obtain rfl | ⟨-, after⟩ := behind y hy
        · exact absurd hy later
        · exact if_neg (by simp [after])

/-- The victim of R25 is the candidate that the search gives up. -/
theorem chooseVictim_of_isVictim {k : Fin 4} {h : Seg} {v : SlotNo} {x : Slot} (store : StoreInv s)
    (victim : isVictim s k h v x) : chooseVictim (s.candidates k) = some (h, v, x) := by
  obtain ⟨hv, hx, low, others⟩ := victim
  refine chooseVictim_of_first (mem_candidates.2 ⟨hv, hx, low⟩) fun y hy => ?_
  obtain ⟨i, m, y⟩ := y
  obtain ⟨hm, hy, below⟩ := mem_candidates.1 hy
  dsimp only at hm hy below ⊢
  by_cases same : m = v
  · subst same
    have place := (sound_of_storeInv (records := False) store False.elim).place_unique
      (mem_places_deferred.2 hm) (mem_places_deferred.2 hv)
    obtain rfl := Place.deferred.inj place
    obtain rfl := Option.some.inj (hy.symm.trans hx)
    exact .inl rfl
  · refine .inr ?_
    unfold Slot.givenUpBefore
    obtain lower | ⟨equal, young, near⟩ := others i m y hm hy below same
    · have : ¬ y.priority < x.priority := not_lt.2 lower.le
      simp [lower, this, lower.ne']
    · have older : Intake.older y.intake x.intake = true := by
        simp only [Intake.older, Bool.and_eq_true, decide_eq_true_eq]
        omega
      simp [equal, older, older_eq_false young near]

/-- A victim is displaced and its slot allocated, in a store that is sound (R8, R26). -/
theorem displace_allocate {h : Seg} {v : SlotNo} {x : Slot} (record : Intake → Slot)
    (store : StoreInv s) (records : RecordsInv s) (hv : v ∈ s.segs[h].deferralQueue)
    (hx : s.buffer.slots[v] = some x) :
    ∃ occ, (s.frameTaken.displace h v x).allocate v record =
      { displaced s h v x (record (s.buffer.intakeCounter + 1)) with occasions := occ } := by
  have fits := fits_of_recordsInv store records (mem_places_deferred.2 hv) hx
  have outcome : x.outcome = none := by simpa [Place.isBacklog] using fits.outcome
  have answer : (leftDeferred s.clock.uptime x).answer = none := by
    rw [leftDeferred_answer, ← Option.not_isSome_iff_eq_none, fits.answer, outcome]
    simp
  have left : (s.segs[h].deferralQueue.erase v) = s.segs[h].deferralQueue.filter fun m => m ≠ v := by
    rw [((chainSlots_nodup store).sublist (deferralQueue_sublist _)).erase_eq_filter]
    refine List.filter_congr fun m _ => ?_
    by_cases e : m = v <;> simp [e]
  obtain ⟨w, hw⟩ : ∃ w, w = s.frameTaken.leaveDeferralQueue h v := ⟨_, rfl⟩
  have counters : w.counters = s.counters := by rw [hw]; rfl
  have intakes : w.buffer.intakeCounter = s.buffer.intakeCounter := by rw [hw]; rfl
  have slots : ∀ y, put w.buffer.slots v y = put s.buffer.slots v y := fun y => by
    rw [hw, leaveDeferralQueue_eq, put_put]
    rfl
  refine ⟨w.occasions ++ takeOwed w, ?_⟩
  rw [State.displace, ← hw, leaveDeferred_eq]
  dsimp only
  rw [reportOf_eq, show s.frameTaken.clock = s.clock from rfl, answer, pushReport_eq, count_eq,
    allocate_eq]
  dsimp only
  rw [slots, counters, intakes, displaced, ← left]
  subst hw
  rfl

theorem holds_displaced {h : Seg} {v : SlotNo} (x y : Slot) : Holds s (displaced s h v x y) v y :=
  ⟨rfl, rfl, rfl, rfl⟩

theorem displaced_put {h : Seg} {v : SlotNo} (x y z : Slot) :
    displaced s h v x z = { displaced s h v x y with
      buffer.slots := put (displaced s h v x y).buffer.slots v (some z) } := by
  simp only [displaced, put_put]

/-- A displacement takes the victim from its Deferral Queue, and nothing else from a queue. -/
theorem queues_displaced {h : Seg} {v : SlotNo} (store : StoreInv s)
    (hv : v ∈ s.segs[h].deferralQueue) (x y : Slot) :
    (displaced s h v x y).segs[g].sendQueue = s.segs[g].sendQueue ∧
      ∀ m, m ∈ (displaced s h v x y).segs[g].deferralQueue ↔
        m ∈ s.segs[g].deferralQueue ∧ m ≠ v := by
  simp only [displaced, put_apply]
  split
  · next e =>
    subst e
    exact ⟨rfl, fun m => by simp⟩
  · next ne =>
    refine ⟨rfl, fun m => ⟨fun hm => ⟨hm, ?_⟩, And.left⟩⟩
    rintro rfl
    exact ne (Place.deferred.inj ((sound_of_storeInv (records := False) store
      False.elim).place_unique (mem_places_deferred.2 hm) (mem_places_deferred.2 hv)))

/-! ### The newcomer placed -/

theorem newSlot_eq (deferral : Option Deferral) :
    { newSlot c p g s.clock.uptime (s.buffer.intakeCounter + 1) with deferral := deferral } =
      admitted s c p g deferral := rfl

/-- A newcomer that took slot n is placed in the state its allocation leaves. -/
def State.PlacedFrom (s : State) (c : CommandTelegram) (p : ClassPolicy) (g : Seg) (n : SlotNo)
    (base : State) : Prop :=
  ∃ occ, exec (.admission c) s = .next
    (State.place { base with occasions := occ } g n (admitted s c p g none) p.holdLimit)

theorem placedFrom_of_takeSlot {base : State} {occ : List Occasion} (routed : Routed s c g p)
    (may : mayWaitOrGo s c g p) (holds : Holds s base n (admitted s c p g none))
    (taken : s.frameTaken.takeSlot p.priority (newSlot c p g s.clock.uptime) =
      some (n, { base with occasions := occ })) : s.PlacedFrom c p g n base := by
  have slot : State.slot { base with occasions := occ } n = some (admitted s c p g none) := by
    rw [State.slot, holds.slots, put_same]
  refine ⟨occ, ?_⟩
  rw [exec_admission routed may, State.admitRouted,
    show s.frameTaken.clock.uptime = s.clock.uptime from rfl, taken]
  simp only [slot]

theorem placedFrom_allocated (routed : Routed s c g p) (may : mayWaitOrGo s c g p)
    (free : lowestFree s n) : s.PlacedFrom c p g n (allocated s n (admitted s c p g none)) := by
  obtain ⟨rest, list⟩ := freeList_of_lowestFree free
  obtain ⟨occ, e⟩ := allocate_checkHigh (newSlot c p g s.clock.uptime) free.1
  refine placedFrom_of_takeSlot (occ := occ) routed may (holds_allocated _) ?_
  rw [State.takeSlot, show s.frameTaken.freeList = n :: rest from list]
  exact congrArg (fun u => some (n, u)) e

theorem placedFrom_displaced {h : Seg} {v : SlotNo} {x : Slot} (store : StoreInv s)
    (records : RecordsInv s) (routed : Routed s c g p) (may : mayWaitOrGo s c g p)
    (full : ∀ m : SlotNo, s.buffer.slots[m].isSome = true)
    (room : s.reports.reportQueue.length < 16) (victim : isVictim s p.priority h v x) :
    s.PlacedFrom c p g v (displaced s h v x (admitted s c p g none)) := by
  obtain ⟨occ, e⟩ := displace_allocate (newSlot c p g s.clock.uptime) store records victim.1
    victim.2.1
  refine placedFrom_of_takeSlot (occ := occ) routed may (holds_displaced _ _) ?_
  rw [State.takeSlot, show s.frameTaken.freeList = [] from freeList_nil_iff.2 full,
    show s.frameTaken.candidates p.priority = s.candidates p.priority from rfl,
    chooseVictim_of_isVictim store victim]
  dsimp only
  rw [if_pos (reportRoom_iff.2 (show s.frameTaken.reports.reportQueue.length < 16 from room)), e]
  rfl

section placement

variable {base : State} (holds : Holds s base n (admitted s c p g none))
  (sendQueue : base.segs[g].sendQueue = s.segs[g].sendQueue)
  (gone : n ∉ base.segs[g].deferralQueue)

include holds sendQueue gone in
/-- R28: the class is open, there is room, and none waits before the newcomer. -/
theorem admission_queued {higher lower : List SlotNo} (out : n ∉ s.segs[g].sendQueue)
    (placed : s.PlacedFrom c p g n base) (opened : isOpen s c.cls)
    (room : s.segs[g].sendQueue.length < 16)
    (go : p.holdLimit = 0 ∨ ∀ m ∈ base.segs[g].deferralQueue, ¬ eligibleSlot s m)
    (splits : splitsAt s s.segs[g].sendQueue higher lower p.priority) :
    ∃ occ, exec (.admission c) s = .next
      { queuedBetween base g n higher lower with occasions := occ } := by
  obtain ⟨occ, e⟩ := placed
  refine ⟨occ ++ [.startWalk g], ?_⟩
  rw [e, place_queued (u := { base with occasions := occ }) (higher := higher) (lower := lower)]
  · rfl
  · exact (holds.slots ▸ put_same ..)
  · exact (holds.isOpen _).2 opened
  · exact sendQueue ▸ room
  · refine go.imp_right fun none m hm he => none m hm ((holds.eligible ?_).1 he)
    rintro rfl
    exact gone hm
  · have := holds.splitsAt out splits
    rwa [← sendQueue] at this

include holds sendQueue gone in
/-- R29, R30: the newcomer is deferred. -/
theorem admission_deferred {reason : DeferralReason} (placed : s.PlacedFrom c p g n base)
    (limit : p.holdLimit ≠ 0) (why : reasonFor s g c.cls reason)
    (order : reason = .order → ∃ m ∈ base.segs[g].deferralQueue, eligibleSlot s m) :
    ∃ occ, exec (.admission c) s = .next
      { deferredAtBack
          { base with
            buffer.slots := put base.buffer.slots n
              (some (admitted s c p g (some { reason := reason, since := s.clock.uptime }))) } g n
          (admitted s c p g none) (interimReport s (admitted s c p g none) reason) with
        occasions := occ } := by
  obtain ⟨owed, e⟩ := placed
  obtain ⟨u, hu⟩ : ∃ u, u = { base with occasions := owed } := ⟨_, rfl⟩
  have held : Holds s u n (admitted s c p g none) :=
    hu ▸ ⟨holds.slots, holds.bank, holds.windowOpen, holds.clock⟩
  have slot : u.buffer.slots[n] = some (admitted s c p g none) := by rw [held.slots, put_same]
  have why' : reasonFor u g (admitted s c p g none).cls reason := by
    have queue : u.segs[g].sendQueue = s.segs[g].sendQueue := by rw [hu]; exact sendQueue
    rw [reasonFor, queue, held.isOpen]
    exact why
  have order' : reason = .order → ∃ m ∈ u.segs[g].deferralQueue, eligibleSlot u m := fun h => by
    obtain ⟨m, hm, he⟩ := order h
    rw [hu]
    refine ⟨m, hm, ((hu ▸ held).eligible ?_).2 he⟩
    rintro rfl
    exact gone hm
  obtain ⟨occ, e'⟩ := deferNew_eq (g := g) reason slot
    (x := admitted s c p g (some { reason := reason, since := s.clock.uptime }))
    (by rw [held.clock]; rfl)
  refine ⟨occ, ?_⟩
  rw [e, ← hu, place_deferred limit why' order', e', held.interimReport, hu]
  exact congrArg Host.Outcome.next (deferredAtBack_occasions (u := { base with
    buffer.slots := put base.buffer.slots n
      (some (admitted s c p g (some { reason := reason, since := s.clock.uptime }))) })
    (g := g) (n := n) (admitted s c p g none) (interimReport s (admitted s c p g none) reason) owed occ)

end placement

end Sys2Proof.Machine

namespace Sys2Proof.Proofs

open Sys2Proof.Machine Sys2Proof.Safety

/-- Settles O26: the lowest FREE slot is allocated and the newcomer placed in what results. -/
theorem commandsArePlaced : Obligations.CommandsArePlaced := by
  intro t s g p n store routed may free
  have unheld : ∀ P, (n, P) ∉ s.places := fun P hP => by
    obtain ⟨r, hr⟩ := slot_of_place store hP
    rw [free.1] at hr
    cases hr
  have placed := placedFrom_allocated routed may free
  have holds := holds_allocated (s := s) (n := n) (admitted s t p g none)
  have chain : (allocated s n (admitted s t p g none)).segs[g] = s.segs[g] := by
    rw [segs_allocated]
  have gone : n ∉ s.segs[g].deferralQueue := fun h => unheld _ (mem_places_deferred.2 h)
  have out : n ∉ s.segs[g].sendQueue := fun h => unheld _ (mem_places_queued.2 h)
  refine ⟨fun opened room go higher lower splits => ?_, fun reason limit why order => ?_⟩
  · exact admission_queued holds (by rw [chain]) (by rw [chain]; exact gone) out placed opened room
      (by rw [chain]; exact go) splits
  · rw [allocated_put (admitted s t p g none)]
    exact admission_deferred holds (by rw [chain]) (by rw [chain]; exact gone) placed limit why
      (by rw [chain]; exact order)

/-- Settles O27: the victim is the one the search gives up, and the newcomer is placed in what the
displacement leaves. -/
theorem commandsDisplace : Obligations.CommandsDisplace := by
  intro t s g h p v x store records routed may full room victim
  have deferred := mem_places_deferred.2 victim.1
  have placed := placedFrom_displaced store records routed may full room victim
  have holds := holds_displaced (s := s) (h := h) (v := v) x (admitted s t p g none)
  obtain ⟨sendQueue, mem⟩ := queues_displaced (g := g) store victim.1 x (admitted s t p g none)
  have gone : v ∉ (displaced s h v x (admitted s t p g none)).segs[g].deferralQueue :=
    fun hv => ((mem v).1 hv).2 rfl
  have out : v ∉ s.segs[g].sendQueue := fun hv =>
    Place.noConfusion ((sound_of_storeInv (records := False) store False.elim).place_unique deferred
      (mem_places_queued.2 hv))
  refine ⟨fun opened space go higher lower splits => ?_, fun reason limit why order => ?_⟩
  · refine admission_queued holds sendQueue gone out placed opened space ?_ splits
    exact go.imp_right fun none m hm => none m ((mem m).1 hm).1 ((mem m).1 hm).2
  · rw [displaced_put x (admitted s t p g none)]
    refine admission_deferred holds sendQueue gone placed limit why fun e => ?_
    obtain ⟨m, hm, ne, eligible⟩ := order e
    exact ⟨m, (mem m).2 ⟨hm, ne⟩, eligible⟩

end Sys2Proof.Proofs
end

