-- ==== Sys2Proof/Proofs/FrameBytes.lean ====
section
/-! SUPPORT. The bytes of a trunk frame as they come in (R157), and what the tests of R158 make of the
frame of a telegram. -/

namespace Sys2Proof.Machine

open Sys2Proof.Safety

variable {s t : State}

/-! ### Commands in turn -/

theorem runAll_cons {c : Instr} {rest : List Instr} (h : exec c s = .next t) :
    runAll (c :: rest) s = runAll rest t := by
  rw [runAll, h]

theorem runAll_one {c : Instr} (h : exec c s = .next t) : runAll [c] s = some t :=
  runAll_cons h

theorem runAll_byte (hold : s.pins.hold = none) (b : Byte) (rest : List Byte) :
    runAll ((b :: rest).map .byteReceived) s = runAll (rest.map .byteReceived) (s.receiveByte b) :=
  runAll_cons (whileRunning_of_no_hold (fun s => s.receiveByte b) hold)

theorem runAll_nextByte (hold : s.pins.hold = none) (a : Assembler) (b : Byte) (rest : List Byte) :
    runAll ((b :: rest).map .byteReceived) (s.assemble a) =
      runAll (rest.map .byteReceived) ((s.assemble a).receiveByte b) :=
  runAll_byte (s := s.assemble a) hold b rest

/-! ### The assembler, state by state (R157) -/

theorem receiveByte_opening (hunt : s.port.assembler = .hunt) :
    s.receiveByte 0xA6 = s.assemble .length := by
  unfold State.receiveByte
  rw [hunt]
  exact if_pos rfl

theorem receiveByte_length {len : Byte} (low : 7 ≤ len.toNat) (high : len.toNat ≤ 71) :
    (s.assemble .length).receiveByte len = s.assemble (.body len []) :=
  if_pos ⟨low, high⟩

theorem receiveByte_body {len : Byte} {stored : List Byte} (b : Byte)
    (more : stored.length + 1 < len.toNat) :
    (s.assemble (.body len stored)).receiveByte b = s.assemble (.body len (stored ++ [b])) :=
  if_pos (show (stored ++ [b]).length < len.toNat by rwa [List.length_append])

theorem receiveByte_body_last {len : Byte} {stored : List Byte} (b : Byte)
    (last : len.toNat ≤ stored.length + 1) :
    (s.assemble (.body len stored)).receiveByte b = s.assemble (.crc len (stored ++ [b]) none) :=
  if_neg (show ¬ (stored ++ [b]).length < len.toNat by rwa [List.length_append, Nat.not_lt])

theorem receiveByte_crc_first (len b : Byte) (body : List Byte) :
    (s.assemble (.crc len body none)).receiveByte b = s.assemble (.crc len body (some b)) := rfl

/-- What the assembler held besides the frame has no part in its judgement. -/
theorem receiveByte_crc_last (len c b : Byte) (body : List Byte) :
    (s.assemble (.crc len body (some c))).receiveByte b = s.completeFrame len body [c, b] := rfl

/-- The bytes that fill a body up to its length are stored in the order they come. -/
theorem runAll_body (hold : s.pins.hold = none) {len b : Byte} {body : List Byte} (rest : List Byte) :
    ∀ stored, stored.length + (b :: body).length = len.toNat →
      runAll ((b :: body ++ rest).map .byteReceived) (s.assemble (.body len stored)) =
        runAll (rest.map .byteReceived) (s.assemble (.crc len (stored ++ b :: body) none)) := by
  induction body generalizing b with
  | nil =>
    intro stored full
    rw [List.cons_append, runAll_nextByte hold, receiveByte_body_last b full.ge, List.nil_append]
  | cons c body ih =>
    intro stored full
    have more : stored.length + 1 < len.toNat := by
      rw [← full, List.length_cons, List.length_cons]
      omega
    rw [List.cons_append, runAll_nextByte hold, receiveByte_body b more, ih (stored ++ [b]),
      List.append_assoc, List.singleton_append]
    rw [← full, List.length_append, List.length_cons (a := b)]
    exact Nat.add_right_comm ..

theorem toNat_byteOf {n : Nat} (h : n < 256) : (byteOf n).toNat = n :=
  BitVec.toNat_ofNat .. |>.trans (Nat.mod_eq_of_lt h)

/-- The bytes of a frame of any length that R157 admits complete it, whatever it carries. -/
theorem runAll_trunkFrame {body : List Byte} (hold : s.pins.hold = none)
    (hunt : s.port.assembler = .hunt) (low : 7 ≤ body.length) (high : body.length ≤ 71) :
    runAll ((trunkFrame body).map .byteReceived) s =
      some (s.completeFrame (byteOf body.length) body (crcBytes (byteOf body.length :: body))) := by
  have len : (byteOf body.length).toNat = body.length := toNat_byteOf (by omega)
  obtain ⟨c1, c0, crc⟩ : ∃ c1 c0, crcBytes (byteOf body.length :: body) = [c1, c0] := ⟨_, _, rfl⟩
  have filled : runAll ((body ++ [c1, c0]).map .byteReceived)
      (s.assemble (.body (byteOf body.length) [])) =
      runAll ([c1, c0].map .byteReceived) (s.assemble (.crc (byteOf body.length) body none)) := by
    obtain ⟨b, rest, rfl⟩ := List.exists_cons_of_length_pos (Nat.lt_of_lt_of_le (by decide) low)
    exact runAll_body hold _ [] ((Nat.zero_add _).trans len.symm)
  have frame : trunkFrame body =
      0xA6 :: byteOf body.length :: (body ++ crcBytes (byteOf body.length :: body)) := rfl
  rw [frame, crc, runAll_byte hold, receiveByte_opening hunt, runAll_nextByte hold,
    receiveByte_length (low.trans_eq len.symm) (len.trans_le high), filled,
    runAll_nextByte hold, receiveByte_crc_first, runAll_nextByte hold, receiveByte_crc_last]
  rfl

/-! ### The tests of R158 on a frame formed as section 11.2 says -/

theorem numberOf_twoBytes {n : Nat} (h : n < 65536) : numberOf (byteOf (n / 256)) (byteOf n) = n := by
  have high : (byteOf (n / 256)).toNat = n / 256 := toNat_byteOf (by omega)
  have low : (byteOf n).toNat = n % 256 := BitVec.toNat_ofNat ..
  rw [numberOf, high, low, Nat.div_add_mod]

theorem length_trunkBody (kind : Byte) (d a : Addr) (seq cls : Byte) (payload : List Byte) :
    (trunkBody kind d a seq cls payload).length = payload.length + 7 := by
  simp [trunkBody, twoBytes]

/-- The fields of a header and payload formed as R161 says are read back. -/
theorem readHeader_trunkBody (kind : Byte) (d a : Addr) (seq cls : Byte) (payload : List Byte) :
    readHeader (trunkBody kind d a seq cls payload) = some
      { kind := kind.toNat, destination := d.toNat, source := a.toNat, seq := seq, cls := cls,
        payload := payload } := by
  have number : ∀ x : Addr, numberOf (byteOf (x.toNat / 256)) (byteOf x.toNat) = x.toNat :=
    fun x => numberOf_twoBytes (by have := x.isLt; omega)
  have read : readHeader (trunkBody kind d a seq cls payload) = some
      { kind := kind.toNat, destination := numberOf (byteOf (d.toNat / 256)) (byteOf d.toNat),
        source := numberOf (byteOf (a.toNat / 256)) (byteOf a.toNat), seq := seq, cls := cls,
        payload := payload } := rfl
  rw [read, number, number]

/-- A frame with its own CRC and a kind that comes from the head-end meets tests 4 and 5 of R158. -/
theorem judgeFrame_trunkBody (own : Addr) {kind : Byte} (known : kind = 1 ∨ kind = 2) (len : Byte)
    (d a : Addr) (seq cls : Byte) (payload : List Byte) :
    judgeFrame own len (trunkBody kind d a seq cls payload)
        (crcBytes (len :: trunkBody kind d a seq cls payload)) =
      judgeFields own { kind := kind.toNat, destination := d.toNat, source := a.toNat, seq := seq,
                        cls := cls, payload := payload } := by
  have kinds : kind.toNat = 1 ∨ kind.toNat = 2 :=
    known.imp (congrArg BitVec.toNat) (congrArg BitVec.toNat)
  rw [judgeFrame, if_neg (not_not_intro rfl), readHeader_trunkBody]
  dsimp only
  rw [if_neg (not_not_intro ⟨d.isLt, a.isLt⟩), if_neg (not_not_intro kinds)]

/-- The fields of a COMMAND telegram of at most 48 payload bytes are that telegram. -/
theorem judgeFields_command (own : Addr) {c : CommandTelegram} (short : c.payload.length ≤ 48) :
    judgeFields own { kind := 1, destination := c.destination.toNat, source := c.source.toNat,
                      seq := c.seq, cls := byteOf c.cls.val, payload := c.payload } = .command c := by
  have cls : (byteOf c.cls.val).toNat = c.cls.val := toNat_byteOf (c.cls.isLt.trans (by decide))
  have fits : c.payload.length ≤ Config.maxPayload ∧ (byteOf c.cls.val).toNat < 16 :=
    ⟨short, cls.trans_lt c.cls.isLt⟩
  rw [judgeFields, if_pos rfl, dif_pos fits]
  simp only [BitVec.ofNat_toNat, BitVec.setWidth_eq, cls]

/-- A completed COMMAND frame hands its telegram to the Admission Unit. -/
theorem completeFrame_command {c : CommandTelegram} (short : c.payload.length ≤ 48) (len : Byte)
    {body : List Byte}
    (spells : body = trunkBody 1 c.destination c.source c.seq (byteOf c.cls.val) c.payload) :
    s.completeFrame len body (crcBytes (len :: body)) = s.frameTaken.takeCommand c := by
  subst spells
  have judged := (judgeFrame_trunkBody s.ownAddress (.inl rfl) len c.destination c.source c.seq
    (byteOf c.cls.val) c.payload).trans (judgeFields_command s.ownAddress short)
  rw [State.completeFrame, judged]

/-! ### A COMMAND telegram at the Trunk Port (R17) -/

theorem exec_admission_running (c : CommandTelegram) (hold : s.pins.hold = none) :
    exec (.admission c) s = .next (if c.payload.length ≤ 48 then s.frameTaken.takeCommand c
      else s.frameTaken.count Counter.frameError) :=
  whileRunning_of_no_hold (fun s => if c.payload.length ≤ 48 then s.frameTaken.takeCommand c
    else s.frameTaken.count Counter.frameError) hold

theorem exec_admission_short {c : CommandTelegram} (hold : s.pins.hold = none)
    (short : c.payload.length ≤ 48) :
    exec (.admission c) s = .next (s.frameTaken.takeCommand c) := by
  rw [exec_admission_running c hold, if_pos short]

theorem exec_admission_long {c : CommandTelegram} (hold : s.pins.hold = none)
    (long : 48 < c.payload.length) :
    exec (.admission c) s = .next (s.frameTaken.count Counter.frameError) := by
  rw [exec_admission_running c hold, if_neg (Nat.not_le.2 long)]

end Sys2Proof.Machine

namespace Sys2Proof.Proofs

open Sys2Proof.Machine Sys2Proof.Safety

/-- Settles O23: the frame's bytes complete it, its fields are read back as the telegram, and the
telegram is admitted in the action of the last byte. -/
theorem commandFramesDecode : Obligations.CommandFramesDecode := by
  intro t s short hold hunt
  have admission := runAll_one (exec_admission_short hold short)
  refine ⟨Option.isSome_iff_exists.2 ⟨_, admission⟩, ?_⟩
  have length := length_trunkBody 1 t.destination t.source t.seq (byteOf t.cls.val) t.payload
  rw [admission, runAll_trunkFrame hold hunt (by omega) (by omega),
    completeFrame_command short _ rfl]

end Sys2Proof.Proofs
end

