-- ==== Sys2Proof/Proofs/Refusals.lean ====
section
/-! SUPPORT. The checks of R17 in order, and the refusal at each (R18 to R23, R27, R31). -/

namespace Sys2Proof.Machine

open Sys2Proof.Safety

variable {s : State} {t : CommandTelegram} {g : Seg} {p : ClassPolicy}

/-! ### Refusals (R31) -/

theorem refuse_eq (o : ReportOutcome) (segment : Option Seg) :
    s.frameTaken.refuse t o segment = refusedState s t o segment o.counter := by
  by_cases room : s.reports.reportQueue.length < 16
  · rw [State.refuse, if_pos ((reportRoom_iff (s := s.frameTaken)).2 room), pushReport_eq,
      count_eq, refusedState, if_pos room]
    rfl
  · rw [State.refuse, if_neg (mt (reportRoom_iff (s := s.frameTaken)).1 room), count_eq,
      count_eq, refusedState, if_neg room]
    rfl

/-! ### The source (R18) -/

theorem takeCommand_of_badSource (source : ¬ goodSource s t.source) :
    s.takeCommand t = s.count Counter.badAddress :=
  if_pos (or_iff_not_and_not.2 source)

theorem takeCommand_of_goodSource (source : goodSource s t.source) :
    s.takeCommand t = s.admitScreened t :=
  if_neg (not_or.2 source)

/-! ### The checks in order (R19 to R23) -/

theorem admitScreened_of_pairHeld (held : ¬ pairFree s t.source t.seq) :
    s.admitScreened t = s.refuse t .refusedDuplicate none :=
  if_pos (Bool.of_not_eq_false (mt (pairHeld_iff _ _).1 held))

theorem admitScreened_of_unrouted (pair : pairFree s t.source t.seq)
    (out : unrouted s t.destination) : s.admitScreened t = s.refuse t .refusedNoRoute none := by
  rw [State.admitScreened, (pairHeld_iff _ _).2 pair, if_neg Bool.false_ne_true]
  simp only [(routeOf_none_iff _).2 out]

theorem admitScreened_of_undefined (pair : pairFree s t.source t.seq)
    (route : routesTo s t.destination g) (undefined : s.bank.active.classes[t.cls] = none) :
    s.admitScreened t = s.refuse t .refusedNoPolicy none := by
  have policy : s.livePolicy t.cls = none := undefined
  rw [State.admitScreened, (pairHeld_iff _ _).2 pair, if_neg Bool.false_ne_true]
  simp only [routeOf_of_routesTo route, policy]

/-- What checks 1 to 3 of R17 hand on to check 4. -/
theorem admitScreened_of_defined (pair : pairFree s t.source t.seq)
    (route : routesTo s t.destination g) (defined : s.bank.active.classes[t.cls] = some p) :
    s.admitScreened t =
      if p.holdLimit = 0 ∧ ¬ s.classOpen t.cls then s.refuse t .refusedClosed (some g)
      else if p.holdLimit = 0 ∧ ¬ (s.seg g).sendQueue.length < Config.sendQueueLimit then
        s.refuse t .refusedSegmentFull (some g)
      else s.admitRouted t p g := by
  have policy : s.livePolicy t.cls = some p := defined
  rw [State.admitScreened, (pairHeld_iff _ _).2 pair, if_neg Bool.false_ne_true]
  simp only [routeOf_of_routesTo route, policy]

theorem admitScreened_of_shut (pair : pairFree s t.source t.seq)
    (route : routesTo s t.destination g) (defined : s.bank.active.classes[t.cls] = some p)
    (limit : p.holdLimit = 0) (shut : ¬ isOpen s t.cls) :
    s.admitScreened t = s.refuse t .refusedClosed (some g) := by
  rw [admitScreened_of_defined pair route defined, if_pos ⟨limit, mt (classOpen_iff _).1 shut⟩]

theorem admitScreened_of_segmentFull (pair : pairFree s t.source t.seq)
    (route : routesTo s t.destination g) (defined : s.bank.active.classes[t.cls] = some p)
    (limit : p.holdLimit = 0) (opened : isOpen s t.cls) (full : 16 ≤ s.segs[g].sendQueue.length) :
    s.admitScreened t = s.refuse t .refusedSegmentFull (some g) := by
  rw [admitScreened_of_defined pair route defined,
    if_neg fun h => h.2 ((classOpen_iff _).2 opened), if_pos ⟨limit, Nat.not_lt.2 full⟩]

/-! ### A full store (R27) -/

/-- No deferred slot has a lower priority: there is no candidate for displacement (R25). -/
theorem candidates_nil {k : Fin 4}
    (spared : ∀ (h : Seg) (n : SlotNo) (x : Slot), n ∈ s.segs[h].deferralQueue →
      s.buffer.slots[n] = some x → k ≤ x.priority) : s.candidates k = [] :=
  List.eq_nil_iff_forall_not_mem.2 fun y hy => by
    obtain ⟨deferred, slot, low⟩ := mem_candidates.1 hy
    exact absurd (spared _ _ _ deferred slot) (not_le.2 low)

/-- A full store gives no slot without room for the victim's report or without a candidate. -/
theorem takeSlot_none {k : Fin 4} (record : Intake → Slot)
    (full : ∀ n : SlotNo, s.buffer.slots[n].isSome = true)
    (stuck : 16 ≤ s.reports.reportQueue.length ∨ s.candidates k = []) :
    s.takeSlot k record = none := by
  rw [State.takeSlot, freeList_nil_iff.2 full]
  dsimp only
  obtain noRoom | noCandidate := stuck
  · split
    · rfl
    · rw [if_neg (mt reportRoom_iff.1 (Nat.not_lt.2 noRoom))]
  · rw [noCandidate]
    rfl

theorem admitRouted_of_takeSlot_none
    (noSlot : s.takeSlot p.priority (newSlot t p g s.clock.uptime) = none) :
    s.admitRouted t p g = s.refuse t .refusedStoreFull (some g) := by
  rw [State.admitRouted, noSlot]

/-! ### The whole action -/

/-- A COMMAND that is refused by the checks of R17. -/
theorem exec_admission_refused {o : ReportOutcome} {segment : Option Seg}
    (hold : s.pins.hold = none) (short : t.payload.length ≤ 48) (source : goodSource s t.source)
    (refused : s.frameTaken.admitScreened t = s.frameTaken.refuse t o segment) :
    exec (.admission t) s = .next (refusedState s t o segment o.counter) := by
  rw [exec_admission_short hold short, takeCommand_of_goodSource (s := s.frameTaken) source, refused,
    refuse_eq]

end Sys2Proof.Machine

namespace Sys2Proof.Proofs

open Sys2Proof.Machine Sys2Proof.Safety

/-- Settles O25: each check of R17 that fails refuses, whatever the later ones would say. -/
theorem commandsAreRefused : Obligations.CommandsAreRefused := by
  intro t s hold
  refine ⟨fun long => ?_, fun short => ⟨fun bad => ?_, fun source => ⟨fun held => ?_,
    fun pair out => ?_, fun g pair route undefined => ?_⟩⟩, fun g p routed => ?_⟩
  · rw [exec_admission_long hold long, count_eq]
    rfl
  · rw [exec_admission_short hold short, takeCommand_of_badSource (s := s.frameTaken) bad, count_eq]
    rfl
  · exact exec_admission_refused hold short source
      (admitScreened_of_pairHeld (s := s.frameTaken) held)
  · exact exec_admission_refused hold short source
      (admitScreened_of_unrouted (s := s.frameTaken) pair out)
  · exact exec_admission_refused hold short source
      (admitScreened_of_undefined (s := s.frameTaken) pair route undefined)
  · have ⟨_, short, source, pair, route, defined⟩ := routed
    refine ⟨fun limit shut => ?_, fun limit opened full => ?_, fun may full stuck => ?_⟩
    · exact exec_admission_refused hold short source
        (admitScreened_of_shut (s := s.frameTaken) pair route defined limit shut)
    · exact exec_admission_refused hold short source
        (admitScreened_of_segmentFull (s := s.frameTaken) pair route defined limit opened full)
    · have noSlot := takeSlot_none (s := s.frameTaken) (newSlot t p g s.clock.uptime) full
        (stuck.imp_right candidates_nil)
      rw [exec_admission routed may, admitRouted_of_takeSlot_none noSlot, refuse_eq]
      rfl

end Sys2Proof.Proofs
end

