-- ==== Sys2Proof/Proofs/Calendar.lean ====
section
/-! SUPPORT. The calendar (R35 to R41): real dates in a row, the tick and the adjustment as additions of
seconds, and the commands of the Calendar Clock. -/

namespace Sys2Proof.Machine

open Sys2Proof.Safety

variable {d e : Date} {t : TimeOfDay} {c : Calendar} {s : State}

/-! ### Real dates and times -/

theorem Date.isReal_iff : d.isReal = true ↔
    d.year ≤ 99 ∧ 1 ≤ d.month ∧ d.month ≤ 12 ∧ 1 ≤ d.day ∧ d.day ≤ monthLength d.year d.month := by
  simp only [Date.isReal, Bool.and_eq_true, decide_eq_true_eq, and_assoc]

theorem TimeOfDay.isReal_iff : t.isReal = true ↔ t.hour ≤ 23 ∧ t.minute ≤ 59 ∧ t.second ≤ 59 := by
  simp only [TimeOfDay.isReal, Bool.and_eq_true, decide_eq_true_eq, and_assoc]

theorem Calendar.isReal_iff : c.isReal = true ↔ c.date.isReal = true ∧ c.time.isReal = true := by
  rw [Calendar.isReal, Bool.and_eq_true]

theorem monthLength_eq (year month : Nat) : monthLength year month = daysIn year month := by
  unfold monthLength daysIn isLeapYear
  split <;> simp_all

theorem one_le_monthLength (year month : Nat) : 1 ≤ monthLength year month := by
  rw [monthLength_eq, daysIn]
  split_ifs <;> omega

/-- The checks of R40 on six values are those of the record they name. -/
theorem isReal_iff_realDateTime {y mo d h mi sec : Nat} :
    Calendar.isReal { date := ⟨y, mo, d⟩, time := ⟨h, mi, sec⟩ } = true ↔
      realDateTime y mo d h mi sec := by
  rw [Calendar.isReal_iff, Date.isReal_iff, TimeOfDay.isReal_iff, monthLength_eq]
  simp only [realDateTime, and_assoc]

/-! ### Days -/

theorem daysBeforeMonth_succ {month : Nat} (year : Nat) (h : 1 ≤ month) :
    daysBeforeMonth year (month + 1) = daysBeforeMonth year month + monthLength year month := by
  obtain ⟨m, rfl⟩ := Nat.exists_eq_add_of_le' h
  rfl

theorem daysBeforeMonth_mono (year : Nat) : Monotone (daysBeforeMonth year) := by
  refine monotone_nat_of_le_succ fun m => ?_
  cases m with
  | zero => exact Nat.le_refl _
  | succ m => exact Nat.le_add_right _ _

theorem daysBeforeMonth_year (year : Nat) :
    daysBeforeMonth year 13 = if year % 4 = 0 then 366 else 365 := by
  have february : monthLength year 2 = if year % 4 = 0 then 29 else 28 := monthLength_eq year 2
  have days : daysBeforeMonth year 13 = 31 + monthLength year 2 + 306 := by
    simp only [daysBeforeMonth, monthLength]
  rw [days, february]
  split <;> rfl

/-- The days before a year, from 2000-01-01 on. -/
def yearStart (year : Nat) : Nat :=
  365 * year + (year + 3) / 4

theorem Date.dayNumber_eq (d : Date) :
    d.dayNumber = yearStart d.year + daysBeforeMonth d.year d.month + (d.day - 1) := rfl

theorem yearStart_succ (year : Nat) :
    yearStart (year + 1) = yearStart year + daysBeforeMonth year 13 := by
  rw [daysBeforeMonth_year]
  unfold yearStart
  split <;> omega

/-- A real date lies in its year. -/
theorem dayNumber_lt_yearStart (h : d.isReal = true) : d.dayNumber < yearStart (d.year + 1) := by
  obtain ⟨-, month1, month12, day1, day⟩ := Date.isReal_iff.1 h
  have inYear : daysBeforeMonth d.year (d.month + 1) ≤ daysBeforeMonth d.year 13 :=
    daysBeforeMonth_mono d.year (Nat.succ_le_succ month12)
  rw [daysBeforeMonth_succ _ month1] at inYear
  rw [yearStart_succ, Date.dayNumber_eq]
  omega

theorem dayNumber_lt (h : d.isReal = true) : d.dayNumber < 36525 := by
  have year := (Date.isReal_iff.1 h).1
  have inYear := dayNumber_lt_yearStart h
  unfold yearStart at inYear
  omega

/-! ### One date after another (R37) -/

/-- The second date follows the first: in its month, in its year, in the century, or around it. -/
inductive DayAfter : Date → Date → Prop
  | day {y m k : Nat} (k1 : 1 ≤ k) (inMonth : k < monthLength y m) : DayAfter ⟨y, m, k⟩ ⟨y, m, k + 1⟩
  | month {y m : Nat} (m1 : 1 ≤ m) (inYear : m < 12) :
    DayAfter ⟨y, m, monthLength y m⟩ ⟨y, m + 1, 1⟩
  | year {y : Nat} (inCentury : y < 99) : DayAfter ⟨y, 12, 31⟩ ⟨y + 1, 1, 1⟩
  | century : DayAfter ⟨99, 12, 31⟩ ⟨0, 1, 1⟩

theorem DayAfter.next_eq (h : DayAfter d e) : d.next = e := by
  cases h with
  | day k1 inMonth => exact if_pos inMonth
  | month m1 inYear => exact (if_neg (Nat.lt_irrefl _)).trans (if_pos inYear)
  | year inCentury =>
    exact ((if_neg (Nat.lt_irrefl 31)).trans (if_neg (Nat.lt_irrefl 12))).trans (if_pos inCentury)
  | century => rfl

theorem DayAfter.prev_eq (h : DayAfter d e) : e.prev = d := by
  cases h with
  | day k1 inMonth => exact if_pos (Nat.lt_succ_of_le k1)
  | month m1 inYear => exact (if_neg (Nat.lt_irrefl 1)).trans (if_pos (Nat.lt_succ_of_le m1))
  | year inCentury =>
    exact ((if_neg (Nat.lt_irrefl 1)).trans (if_neg (Nat.lt_irrefl 1))).trans
      (if_pos (Nat.succ_pos _))
  | century => rfl

theorem dayAfter_next (h : d.isReal = true) : DayAfter d d.next := by
  obtain ⟨year, month1, month12, day1, day⟩ := Date.isReal_iff.1 h
  suffices ∃ e, DayAfter d e by
    obtain ⟨e, he⟩ := this
    rwa [he.next_eq]
  obtain ⟨y, m, k⟩ := d
  obtain inMonth | rfl : k < monthLength y m ∨ k = monthLength y m := Nat.lt_or_eq_of_le day
  · exact ⟨_, .day day1 inMonth⟩
  · obtain inYear | rfl : m < 12 ∨ m = 12 := Nat.lt_or_eq_of_le month12
    · exact ⟨_, .month month1 inYear⟩
    · obtain inCentury | rfl : y < 99 ∨ y = 99 := Nat.lt_or_eq_of_le year
      · exact ⟨_, .year inCentury⟩
      · exact ⟨_, .century⟩

theorem dayAfter_prev (h : d.isReal = true) : DayAfter d.prev d := by
  obtain ⟨year, month1, month12, day1, day⟩ := Date.isReal_iff.1 h
  suffices ∃ e, DayAfter e d by
    obtain ⟨e, he⟩ := this
    rwa [he.prev_eq]
  obtain ⟨y, m, k⟩ := d
  obtain ⟨k, rfl⟩ := Nat.exists_eq_add_of_le' day1
  obtain rfl | inMonth := Nat.eq_zero_or_pos k
  · obtain ⟨m, rfl⟩ := Nat.exists_eq_add_of_le' month1
    obtain rfl | inYear := Nat.eq_zero_or_pos m
    · cases y with
      | zero => exact ⟨_, .century⟩
      | succ y => exact ⟨_, .year year⟩
    · exact ⟨_, .month inYear month12⟩
  · exact ⟨_, .day inMonth day⟩

theorem DayAfter.isReal_iff (h : DayAfter d e) : e.isReal = true ↔ d.isReal = true := by
  have december : ∀ y, monthLength y 12 = 31 := fun _ => rfl
  have january : ∀ y, monthLength y 1 = 31 := fun _ => rfl
  cases h with
  | day k1 inMonth =>
    simp only [Date.isReal_iff]
    omega
  | @month y m m1 inYear =>
    have := one_le_monthLength y m
    have := one_le_monthLength y (m + 1)
    simp only [Date.isReal_iff]
    omega
  | year inCentury =>
    simp only [Date.isReal_iff, december, january]
    omega
  | century => decide

/-- The date after is the next day of the century, or the century is over. -/
theorem DayAfter.cases_dayNumber (h : DayAfter d e) :
    e.dayNumber = d.dayNumber + 1 ∧ ¬ (d.year = 99 ∧ e.year = 0) ∨
      d = ⟨99, 12, 31⟩ ∧ e = ⟨0, 1, 1⟩ := by
  cases h with
  | day k1 inMonth =>
    refine .inl ⟨?_, fun ⟨last, first⟩ => absurd (last.symm.trans first) (by decide)⟩
    simp only [Date.dayNumber_eq]
    omega
  | @month y m m1 inYear =>
    have := one_le_monthLength y m
    refine .inl ⟨?_, fun ⟨last, first⟩ => absurd (last.symm.trans first) (by decide)⟩
    simp only [Date.dayNumber_eq, daysBeforeMonth_succ y m1]
    omega
  | @year y inCentury =>
    have wholeYear : daysBeforeMonth y 13 = daysBeforeMonth y 12 + 31 := rfl
    have january : daysBeforeMonth (y + 1) 1 = 0 := rfl
    refine .inl ⟨?_, fun ⟨_, first⟩ => Nat.succ_ne_zero y first⟩
    simp only [Date.dayNumber_eq, yearStart_succ, wholeYear, january]
    omega
  | century => exact .inr ⟨rfl, rfl⟩

theorem DayAfter.dayNumber_eq (h : DayAfter d e) (real : e.isReal = true) :
    e.dayNumber = (d.dayNumber + 1) % 36525 := by
  obtain ⟨number, -⟩ | ⟨rfl, rfl⟩ := h.cases_dayNumber
  · rw [number, Nat.mod_eq_of_lt (number ▸ dayNumber_lt real)]
  · rfl

/-- The century wraps at its last day alone (R41). -/
theorem DayAfter.wraps_iff (h : DayAfter d e) (real : e.isReal = true) :
    (d.year = 99 ∧ e.year = 0) ↔ d.dayNumber = 36524 := by
  obtain ⟨number, same⟩ | ⟨rfl, rfl⟩ := h.cases_dayNumber
  · have := dayNumber_lt real
    exact iff_of_false same (by omega)
  · exact iff_of_true ⟨rfl, rfl⟩ rfl

theorem isReal_next (h : d.isReal = true) : d.next.isReal = true :=
  (dayAfter_next h).isReal_iff.2 h

theorem isReal_prev (h : d.isReal = true) : d.prev.isReal = true :=
  (dayAfter_prev h).isReal_iff.1 h

/-! ### Seconds -/

theorem seconds_lt (h : t.isReal = true) : t.seconds < 86400 := by
  have := TimeOfDay.isReal_iff.1 h
  unfold TimeOfDay.seconds
  omega

theorem isReal_timeOfSeconds {n : Nat} (h : n < 86400) : (timeOfSeconds n).isReal = true := by
  rw [TimeOfDay.isReal_iff]
  dsimp only [timeOfSeconds]
  omega

theorem seconds_timeOfSeconds (n : Nat) : (timeOfSeconds n).seconds = n := by
  dsimp only [TimeOfDay.seconds, timeOfSeconds]
  omega

theorem absoluteSeconds_lt (h : c.isReal = true) : absoluteSeconds c < centurySeconds := by
  obtain ⟨date, time⟩ := Calendar.isReal_iff.1 h
  have := dayNumber_lt date
  have := seconds_lt time
  unfold absoluteSeconds centurySeconds
  omega

/-! ### The tick (R37) -/

/-- A tick stays on its date, a second on, or goes from the last second of a date to midnight. -/
theorem tick_cases (h : c.time.isReal = true) : c.tick.time.isReal = true ∧
    (c.tick.date = c.date ∧ c.tick.time.seconds = c.time.seconds + 1 ∨
      c.tick.date = c.date.next ∧ c.time.seconds = 86399 ∧ c.tick.time.seconds = 0) := by
  have time := TimeOfDay.isReal_iff.1 h
  simp only [Calendar.tick, TimeOfDay.isReal_iff, TimeOfDay.seconds]
  split
  · exact ⟨by dsimp only; omega, .inl ⟨rfl, by dsimp only; omega⟩⟩
  · split
    · exact ⟨by dsimp only; omega, .inl ⟨rfl, by dsimp only; omega⟩⟩
    · split
      · exact ⟨by dsimp only; omega, .inl ⟨rfl, by dsimp only; omega⟩⟩
      · exact ⟨by dsimp only; omega, .inr ⟨rfl, by omega, rfl⟩⟩

theorem isReal_tick (h : c.isReal = true) : c.tick.isReal = true := by
  obtain ⟨date, time⟩ := Calendar.isReal_iff.1 h
  obtain ⟨tickTime, ⟨e, -⟩ | ⟨e, -⟩⟩ := tick_cases time <;> rw [Calendar.isReal_iff, e]
  · exact ⟨date, tickTime⟩
  · exact ⟨isReal_next date, tickTime⟩

theorem absoluteSeconds_tick (h : c.isReal = true) :
    absoluteSeconds c.tick = (absoluteSeconds c + 1) % centurySeconds := by
  obtain ⟨date, time⟩ := Calendar.isReal_iff.1 h
  have later := (dayAfter_next date).dayNumber_eq (isReal_next date)
  have below := dayNumber_lt date
  obtain ⟨tickTime, ⟨e, sec⟩ | ⟨e, last, sec⟩⟩ := tick_cases time
  · have := seconds_lt tickTime
    rw [absoluteSeconds, absoluteSeconds, centurySeconds, e, sec]
    omega
  · rw [absoluteSeconds, absoluteSeconds, centurySeconds, e, sec, last]
    omega

/-! ### The adjustment (R41) -/

/-- What R41 says of a move by n seconds: the real record n seconds on around the century, and the
flags of the move. -/
structure Adjusts (c : Calendar) (n : Int) (moved : Calendar × AdjustFlags) : Prop where
  real : moved.1.isReal = true
  seconds : (absoluteSeconds moved.1 : Int) = ((absoluteSeconds c : Int) + n) % (centurySeconds : Int)
  dayCarry : moved.2.dayCarry = true ↔ 86400 ≤ (c.time.seconds : Int) + n
  dayBorrow : moved.2.dayBorrow = true ↔ (c.time.seconds : Int) + n < 0
  centuryWrap : moved.2.centuryWrap = true ↔ (absoluteSeconds c : Int) + n < 0 ∨
    (centurySeconds : Int) ≤ (absoluteSeconds c : Int) + n

/-- A real record on another date, with the seconds that are left of the move. -/
theorem isReal_moved {n : Nat} (date : d.isReal = true) (h : n < 86400) :
    Calendar.isReal { date := d, time := timeOfSeconds n } = true :=
  Calendar.isReal_iff.2 ⟨date, isReal_timeOfSeconds h⟩

theorem absoluteSeconds_moved (n : Nat) :
    absoluteSeconds { date := d, time := timeOfSeconds n } = 86400 * d.dayNumber + n := by
  rw [absoluteSeconds, seconds_timeOfSeconds]

theorem adjusts_adjust (h : c.isReal = true) {n : Int} (low : -86399 ≤ n) (high : n ≤ 86399) :
    Adjusts c n (c.adjust n) := by
  obtain ⟨date, time⟩ := Calendar.isReal_iff.1 h
  have inDay := seconds_lt time
  have below := dayNumber_lt date
  have after := (dayAfter_next date).dayNumber_eq (isReal_next date)
  have before := (dayAfter_prev date).dayNumber_eq date
  have beforeBelow := dayNumber_lt (isReal_prev date)
  have total : (absoluteSeconds c : Int) = 86400 * c.date.dayNumber + c.time.seconds := by
    rw [absoluteSeconds]
    omega
  have century : (centurySeconds : Int) = 3155760000 := rfl
  unfold Calendar.adjust
  dsimp only
  split_ifs with borrow stay
  · refine ⟨isReal_moved (isReal_prev date) (by omega), ?_, iff_of_false nofun (by omega),
      iff_of_true rfl borrow, ?_⟩
    · rw [absoluteSeconds_moved, total, century]
      omega
    · rw [Bool.and_eq_true, beq_iff_eq, beq_iff_eq, and_comm,
        (dayAfter_prev date).wraps_iff date, total, century]
      omega
  · refine ⟨isReal_moved date (by omega), ?_, iff_of_false nofun (by omega),
      iff_of_false nofun borrow, iff_of_false nofun (by rw [total, century]; omega)⟩
    rw [absoluteSeconds_moved, total, century]
    omega
  · refine ⟨isReal_moved (isReal_next date) (by omega), ?_, iff_of_true rfl (by omega),
      iff_of_false nofun borrow, ?_⟩
    · rw [absoluteSeconds_moved, total, century]
      omega
    · rw [Bool.and_eq_true, beq_iff_eq, beq_iff_eq,
        (dayAfter_next date).wraps_iff (isReal_next date), total, century]
      omega

/-- The flags byte of a move (R162). -/
theorem Adjusts.flagsByte {n : Int} {moved : Calendar × AdjustFlags} (h : Adjusts c n moved) :
    moved.2.byte = byteOf ((if 86400 ≤ (c.time.seconds : Int) + n then 1 else 0) +
      (if (c.time.seconds : Int) + n < 0 then 2 else 0) +
      (if (absoluteSeconds c : Int) + n < 0 ∨
          (centurySeconds : Int) ≤ (absoluteSeconds c : Int) + n then 4 else 0)) := by
  simp only [AdjustFlags.byte, h.dayCarry, h.dayBorrow, h.centuryWrap]

/-! ### The commands of the clock -/

theorem setClock_eq (c : Calendar) : s.setClock c = { s with
    clock.record := some c
    windowOpen := windowsAt s.bank.active (some c)
    occasions := s.occasions ++
      if opens s.windowOpen (windowsAt s.bank.active (some c)) then examinations else [] } := by
  rw [State.setClock, evaluateWindows_eq]

theorem setClock_frameTaken (c : Calendar) : s.frameTaken.setClock c = (s.setClock c).frameTaken := by
  rw [setClock_eq, setClock_eq]
  rfl

theorem exec_readClock {r : Request} (params : r.params = []) (hold : s.pins.hold = none) :
    exec (.readClock r) s = .next (s.frameTaken.takeRequest
      { code := 0x02, lengthOk := true, write := false, barred := false } r ownReadClock) := by
  have e := whileRunning_of_no_hold (fun s => s.frameTaken.takeReadClock r) hold
  rw [State.takeReadClock, params] at e
  exact e

theorem exec_setClock {r : Request} {y mo d h mi sec : Byte}
    (params : r.params = [y, mo, d, h, mi, sec]) (hold : s.pins.hold = none) :
    exec (.setClock r) s = .next (s.frameTaken.takeRequest
      { code := 0x03, lengthOk := true, write := true, barred := false } r
      (ownSetClock [y, mo, d, h, mi, sec])) := by
  have e := whileRunning_of_no_hold (fun s => s.frameTaken.takeSetClock r) hold
  rw [State.takeSetClock, params] at e
  exact e

theorem exec_adjustClock {r : Request} {b3 b2 b1 b0 : Byte} (params : r.params = [b3, b2, b1, b0])
    (hold : s.pins.hold = none) :
    exec (.adjustClock r) s = .next (s.frameTaken.takeRequest
      { code := 0x04, lengthOk := true, write := true, barred := false } r
      (ownAdjustClock [b3, b2, b1, b0])) := by
  have e := whileRunning_of_no_hold (fun s => s.frameTaken.takeAdjustClock r) hold
  rw [State.takeAdjustClock, params] at e
  exact e

theorem ownAdjustClock_of_outOfRange {b3 b2 b1 b0 : Byte}
    (h : signedOf b3 b2 b1 b0 < -86399 ∨ 86399 < signedOf b3 b2 b1 b0) :
    ownAdjustClock [b3, b2, b1, b0] s = .fail .badValue :=
  if_pos (by simp only [maxAdjust]; omega)

theorem ownAdjustClock_of_inRange {b3 b2 b1 b0 : Byte} (low : -86399 ≤ signedOf b3 b2 b1 b0)
    (high : signedOf b3 b2 b1 b0 ≤ 86399) : ownAdjustClock [b3, b2, b1, b0] s =
      match s.clock.record with
      | none => .fail .clockUnset
      | some c =>
        .done ((c.adjust (signedOf b3 b2 b1 b0)).1.bytes ++ [(c.adjust (signedOf b3 b2 b1 b0)).2.byte])
          (s.setClock (c.adjust (signedOf b3 b2 b1 b0)).1) id :=
  if_neg (not_not.2 ⟨low, high⟩)

theorem exec_secondEdge (hold : s.pins.hold = none) : exec .secondEdge s = .next s.edge :=
  whileRunning_of_no_hold _ hold

theorem owe_four (o p q r : Occasion) : (((s.owe o).owe p).owe q).owe r =
    { s with occasions := s.occasions ++ [o, p, q, r] } := by
  simp only [State.owe, List.append_assoc, List.cons_append, List.nil_append]

theorem edge_eq : s.edge = { s with
    pins.now := max s.pins.now s.clock.nextEdge
    clock := s.clock.tick
    windowOpen := windowsAt s.bank.active (s.clock.record.map Calendar.tick)
    occasions := s.occasions ++
      (if opens s.windowOpen (windowsAt s.bank.active (s.clock.record.map Calendar.tick)) then
        examinations else []) ++
      [.expiryCheck 0, .expiryCheck 1, .expiryCheck 2, .expiryCheck 3] } := by
  rw [State.edge, evaluateWindows_eq]
  exact owe_four _ _ _ _

end Sys2Proof.Machine

namespace Sys2Proof.Proofs

open Sys2Proof.Machine Sys2Proof.Safety

/-- Settles O29: a tick stays on its date or goes on to the next one, whose day number follows. -/
theorem tickIsOneSecond : Obligations.TickIsOneSecond := by
  intro c real
  obtain ⟨date, time⟩ := Calendar.isReal_iff.1 real
  refine ⟨isReal_tick real, absoluteSeconds_lt real, absoluteSeconds_tick real, ?_⟩
  obtain ⟨-, ⟨same, -⟩ | ⟨next, -⟩⟩ := tick_cases time
  · exact .inl same
  · rw [next]
    obtain ⟨number, -⟩ | ⟨last, first⟩ := (dayAfter_next date).cases_dayNumber
    · refine .inr (.inl ?_)
      rw [Date.weekday, Date.weekday, number]
      omega
    · rw [first, last]
      exact .inr (.inr ⟨rfl, rfl, rfl, rfl⟩)

/-- Settles O6: the record as it stands, if there is one. -/
theorem clockIsRead : Obligations.ClockIsRead := by
  intro r s accepts params
  rw [exec_readClock params accepts.running]
  refine ⟨fun c valid => congrArg _ (takeRequest_done (t := s) accepts _ ?_),
    fun unset => congrArg _ (takeRequest_fail accepts _ ?_)⟩
  · simp only [ownReadClock, State.frameTaken_clock, valid]
    rfl
  · simp only [ownReadClock, State.frameTaken_clock, unset]

/-- Settles O9: the tests of R40 on the six bytes, then the evaluation at the record they name. -/
theorem clockIsSet : Obligations.ClockIsSet := by
  intro r y mo d h mi sec s params accepts
  rw [exec_setClock params accepts.running]
  refine ⟨?_, fun bad => congrArg _ (takeRequest_fail accepts _ ?_)⟩
  · rintro ok c rfl
    rw [← setClock_eq]
    refine congrArg _ (takeRequest_done accepts _ ?_)
    rw [← setClock_frameTaken]
    exact if_pos (isReal_iff_realDateTime.2 ok)
  · exact if_neg (mt isReal_iff_realDateTime.1 bad)

/-- Settles O10: the tests of R41, then the evaluation at the record the move leads to. -/
theorem clockIsAdjusted : Obligations.ClockIsAdjusted := by
  rintro r b3 b2 b1 b0 s n params rfl accepts
  rw [exec_adjustClock params accepts.running]
  refine ⟨fun out => congrArg _ (takeRequest_fail accepts _ (ownAdjustClock_of_outOfRange out)),
    fun low high => ?_⟩
  have inRange := ownAdjustClock_of_inRange (s := s.frameTaken) low high
  refine ⟨fun unset => congrArg _ (takeRequest_fail accepts _ ?_), fun c valid real => ?_⟩
  · simp only [inRange, State.frameTaken_clock, unset]
  · have moved := adjusts_adjust real low high
    refine ⟨_, moved.real, moved.seconds, ?_⟩
    rw [← setClock_eq, ← moved.flagsByte]
    refine congrArg _ (takeRequest_done accepts _ ?_)
    simp only [inRange, State.frameTaken_clock, valid, setClock_frameTaken]
    rfl

/-- Settles O28: the second edge as one update. -/
theorem secondEdgeTicks : Obligations.SecondEdgeTicks := by
  intro s hold
  rw [exec_secondEdge hold, edge_eq]
  rfl

end Sys2Proof.Proofs
end

