-- ==== Sys2Proof/Proofs/Windows.lean ====
section
/-! SUPPORT. Windows as occurrences (R43, R44), and the search of the next opening (R50, R51). -/

namespace Sys2Proof.Machine

open Sys2Proof.Safety

variable {w : Window} {c : Calendar} {windows : List Window}

/-! ### Occurrences -/

/-- The length of an occurrence is the one time, up to a day, after which the end time comes round. -/
theorem length_eq_iff {n : Nat} (start : w.start.isReal = true) (stop : w.stop.isReal = true) :
    n = w.length ↔ 1 ≤ n ∧ n ≤ 86400 ∧ (w.start.seconds + n) % 86400 = w.stop.seconds := by
  have := seconds_lt start
  have := seconds_lt stop
  unfold Window.length daySeconds
  split_ifs <;> omega

theorem withinToday_iff : w.withinToday c = true ↔
    w.dayMask.getLsbD c.date.weekday = true ∧
      ∃ elapsed, c.time.seconds = w.start.seconds + elapsed ∧ elapsed < w.length := by
  simp only [Window.withinToday, Window.onWeekday, Bool.and_eq_true, decide_eq_true_eq]
  refine and_congr_right fun _ => ⟨fun h => ⟨c.time.seconds - w.start.seconds, by omega⟩, ?_⟩
  rintro ⟨elapsed, within⟩
  omega

theorem withinYesterday_iff (start : w.start.isReal = true) (stop : w.stop.isReal = true) :
    w.withinYesterday c = true ↔ w.dayMask.getLsbD c.date.prev.weekday = true ∧
      ∃ elapsed, 86400 + c.time.seconds = w.start.seconds + elapsed ∧ elapsed < w.length := by
  have := seconds_lt start
  have := seconds_lt stop
  have before : (w.stop.seconds ≤ w.start.seconds ∧ c.time.seconds < w.stop.seconds) ↔
      86400 + c.time.seconds < w.start.seconds + w.length := by
    unfold Window.length daySeconds
    split_ifs <;> omega
  simp only [Window.withinYesterday, Window.onWeekday, Bool.and_eq_true, decide_eq_true_eq, before]
  refine and_congr_right fun _ =>
    ⟨fun h => ⟨86400 + c.time.seconds - w.start.seconds, by omega⟩, ?_⟩
  rintro ⟨elapsed, within⟩
  omega

theorem windowStateAt_none {entry : Option Window} {record : Option Calendar}
    (h : entry = none ∨ record = none) : windowStateAt entry record = false := by
  obtain rfl | rfl := h
  · rfl
  · cases entry <;> rfl

/-! ### The next opening -/

theorem mem_offeredStarts {k : Nat} {start : TimeOfDay} : start ∈ offeredStarts windows c k ↔
    ∃ w ∈ windows, w.start = start ∧ w.dayMask.getLsbD (c.date.addDays k).weekday = true ∧
      (k = 0 → c.time.seconds < start.seconds) := by
  unfold offeredStarts Window.onWeekday
  simp only [List.mem_map, List.mem_filter, Bool.and_eq_true, Bool.or_eq_true, decide_eq_true_eq,
    Nat.pos_iff_ne_zero, ← imp_iff_not_or]
  constructor
  · rintro ⟨w, ⟨hw, mask, later⟩, rfl⟩
    exact ⟨w, hw, rfl, mask, later⟩
  · rintro ⟨w, hw, rfl, mask, later⟩
    exact ⟨w, ⟨hw, mask, later⟩, rfl⟩

theorem earliestTime_none_iff {l : List TimeOfDay} : earliestTime l = none ↔ l = [] := by
  cases l with
  | nil => exact iff_of_true rfl rfl
  | cons t rest =>
    refine iff_of_false (fun h => ?_) (List.cons_ne_nil _ _)
    rw [earliestTime] at h
    split at h
    · cases h
    · split at h <;> cases h

theorem earliestTime_some {l : List TimeOfDay} {t : TimeOfDay} (h : earliestTime l = some t) :
    t ∈ l ∧ ∀ u ∈ l, t.seconds ≤ u.seconds := by
  induction l generalizing t with
  | nil => cases h
  | cons a rest ih =>
    rw [earliestTime] at h
    split at h
    · next none =>
      obtain rfl := Option.some.inj h
      rw [earliestTime_none_iff.1 none]
      exact ⟨List.mem_singleton_self a, fun u hu => by rw [List.mem_singleton.1 hu]⟩
    · next b some =>
      obtain ⟨mem, least⟩ := ih some
      split at h <;> obtain rfl := Option.some.inj h
      · exact ⟨List.mem_cons_of_mem _ mem, List.forall_mem_cons.2 ⟨by omega, least⟩⟩
      · exact ⟨List.mem_cons_self .., List.forall_mem_cons.2
          ⟨Nat.le_refl _, fun u hu => by have := least u hu; omega⟩⟩

theorem searchOpening_unknown_iff {days : List Nat} :
    searchOpening windows c days = .unknown ↔ ∀ k ∈ days, offeredStarts windows c k = [] := by
  induction days with
  | nil => exact iff_of_true rfl nofun
  | cons k rest ih =>
    rw [searchOpening, List.forall_mem_cons, ← earliestTime_none_iff]
    split
    · next some => exact iff_of_false nofun fun h => by rw [h.1] at some; cases some
    · next none => rw [ih, and_iff_right none]

/-- The search ends on the first of the dates that offers a start, at the earliest one. -/
theorem searchOpening_on {days : List Nat} {k weekday : Nat} {time : TimeOfDay}
    (ordered : days.Pairwise (· < ·)) (h : searchOpening windows c days = .on k weekday time) :
    (k ∈ days ∧ time ∈ offeredStarts windows c k) ∧ weekday = (c.date.addDays k).weekday ∧
      ∀ k' ∈ days, ∀ start ∈ offeredStarts windows c k',
        k < k' ∨ k = k' ∧ time.seconds ≤ start.seconds := by
  induction days with
  | nil => cases h
  | cons j rest ih =>
    obtain ⟨later, ordered⟩ := List.pairwise_cons.1 ordered
    rw [searchOpening] at h
    split at h
    · next t some =>
      cases h
      obtain ⟨mem, least⟩ := earliestTime_some some
      exact ⟨⟨List.mem_cons_self .., mem⟩, rfl, List.forall_mem_cons.2
        ⟨fun u hu => .inr ⟨rfl, least u hu⟩, fun k' hk' _ _ => .inl (later k' hk')⟩⟩
    · next none =>
      obtain ⟨⟨hk, mem⟩, day, least⟩ := ih ordered h
      refine ⟨⟨List.mem_cons_of_mem _ hk, mem⟩, day, List.forall_mem_cons.2 ⟨fun u hu => ?_, least⟩⟩
      rw [earliestTime_none_iff.1 none] at hu
      cases hu

/-- The days R50 searches, counted from today. -/
theorem mem_searchedDays {k : Nat} : k ∈ [0, 1, 2, 3, 4, 5, 6, 7] ↔ k ≤ 7 := by
  simp only [List.mem_cons, List.not_mem_nil, or_false]
  omega

variable {s : State} {p : ClassPolicy}

/-- The starts offered on a searched day are those of R50. -/
theorem offered_iff {k : Nat} {start : TimeOfDay} : offered s p c k start ↔
    k ∈ [0, 1, 2, 3, 4, 5, 6, 7] ∧
      start ∈ offeredStarts (p.windows.filterMap fun i => s.bank.active.windows[i]) c k := by
  rw [offered, mem_searchedDays, mem_offeredStarts]
  refine and_congr_right fun _ => ?_
  simp only [List.mem_filterMap]
  constructor
  · rintro ⟨i, hi, w, defined, offers⟩
    exact ⟨w, ⟨i, hi, defined⟩, offers⟩
  · rintro ⟨w, ⟨i, hi, defined⟩, offers⟩
    exact ⟨i, hi, w, defined, offers⟩

theorem nextOpening_of_defined {cls : ClassNo} (valid : s.clock.record = some c)
    (defined : s.bank.active.classes[cls] = some p) :
    s.nextOpening cls = searchOpening (p.windows.filterMap fun i => s.bank.active.windows[i]) c
      [0, 1, 2, 3, 4, 5, 6, 7] := by
  simp only [State.nextOpening, State.livePolicy, valid, defined]

theorem nextOpening_unknown {cls : ClassNo}
    (h : s.clock.record = none ∨ s.bank.active.classes[cls] = none) :
    s.nextOpening cls = .unknown := by
  unfold State.nextOpening State.livePolicy
  obtain h | h := h <;> rw [h]
  cases s.clock.record <;> rfl

end Sys2Proof.Machine

namespace Sys2Proof.Proofs

open Sys2Proof.Machine Sys2Proof.Safety

/-- Settles O30: the tests of R44 are those of the occurrence that begins on the date, and of the one that
begins on the date before. -/
theorem windowsOpenInOccurrences : Obligations.WindowsOpenInOccurrences := by
  refine ⟨fun _ _ => windowStateAt_none, fun w c real start stop => ?_⟩
  have date := (Calendar.isReal_iff.1 real).1
  have isOpen : windowStateAt (some w) (some c) = true ↔
      w.withinToday c = true ∨ w.withinYesterday c = true := Bool.or_eq_true_iff
  rw [isOpen, withinToday_iff, withinYesterday_iff start stop]
  obtain ⟨l1, lDay, ends⟩ := (length_eq_iff start stop).1 rfl
  constructor
  · rintro (⟨mask, elapsed, at_, within⟩ | ⟨mask, elapsed, at_, within⟩)
    · exact ⟨0, _, elapsed, _, .inl ⟨rfl, rfl⟩, mask, l1, lDay, ends, by omega, within⟩
    · exact ⟨1, _, elapsed, _, .inr ⟨rfl, (dayAfter_prev date).next_eq, isReal_prev date⟩, mask, l1,
        lDay, ends, by omega, within⟩
  · rintro ⟨daysBack, length, elapsed, day, which, mask, l1, lDay, ends, at_, within⟩
    obtain rfl := (length_eq_iff start stop).2 ⟨l1, lDay, ends⟩
    obtain ⟨rfl, rfl⟩ | ⟨rfl, next, dayReal⟩ := which
    · exact .inl ⟨mask, elapsed, by omega, within⟩
    · rw [← next, (dayAfter_next dayReal).prev_eq]
      exact .inr ⟨mask, elapsed, at_, within⟩

/-- Settles O31: the search over the eight dates, first in order of the dates and then of the times. -/
theorem nextOpeningIsEarliest : Obligations.NextOpeningIsEarliest := by
  refine fun s cls => ⟨nextOpening_unknown, fun now p valid defined => ?_⟩
  rw [nextOpening_of_defined valid defined]
  refine ⟨?_, fun k weekday time on => ?_⟩
  · rw [searchOpening_unknown_iff]
    simp only [offered_iff, List.eq_nil_iff_forall_not_mem, not_exists, not_and]
    exact ⟨fun h k start hk => h k hk start, fun h k hk start => h k start hk⟩
  · obtain ⟨isOffered, day, least⟩ := searchOpening_on (by decide) on
    refine ⟨offered_iff.2 isOffered, day, fun k' start h => ?_⟩
    obtain ⟨hk', hstart⟩ := offered_iff.1 h
    exact least k' hk' start hstart

end Sys2Proof.Proofs
end

