-- ==== Sys2Proof/Proofs/BlockRules.lean ====
section
/-! SUPPORT. What a step can do to the blocks beside the store, said once: the traffic leaves the clock,
the windows, the active tables and the Management Agent as they are and keeps the bounds of the queues
and counts; every other change is one of those that `BlockRules` lists. -/

namespace Sys2Proof.Machine

open Sys2Proof.Safety

/-! ### Traffic -/

/-- A change of the kind the traffic makes: it leaves the clock, the window states, the active tables,
the latched straps and what the Management Agent holds as they are, puts nothing into the Response Queue,
and keeps the bounds of the queues, the rings, the streaks and the counters. -/
structure Traffic (s t : State) : Prop where
  clock : t.clock = s.clock
  windowOpen : t.windowOpen = s.windowOpen
  active : t.bank.active = s.bank.active
  latched : t.pins.latched = s.pins.latched
  managers : t.agent.managers = s.agent.managers
  noticeAddress : t.agent.noticeAddress = s.agent.noticeAddress
  commit : t.agent.commit = s.agent.commit
  responses : t.reports.responseQueue.length ≤ s.reports.responseQueue.length
  reports : s.reports.reportQueue.length ≤ 16 → t.reports.reportQueue.length ≤ 16
  notices : s.reports.noticeQueue.length ≤ 4 → t.reports.noticeQueue.length ≤ 4
  rings : (∀ g : Seg, s.segs[g].ring.length ≤ 8) → ∀ g : Seg, t.segs[g].ring.length ≤ 8
  streaks : (∀ g : Seg, s.segs[g].conflictStreak ≤ 8) → ∀ g : Seg, t.segs[g].conflictStreak ≤ 8
  counters : (∀ c : CounterId, s.counters[c] ≤ 4294967295) →
    ∀ c : CounterId, t.counters[c] ≤ 4294967295

/-- A ring holds at most eight entries after one has joined it (R105). -/
theorem length_pushRing_le (ring : List Retired) (x : Retired) : (pushRing ring x).length ≤ 8 := by
  rw [pushRing, List.length_drop, show Config.ringSize = 8 from rfl]
  omega

namespace Traffic

variable {s t u : State} {g : Seg} {n : SlotNo}

theorem refl (s : State) : Traffic s s :=
  ⟨rfl, rfl, rfl, rfl, rfl, rfl, rfl, Nat.le_refl _, id, id, id, id, id⟩

theorem trans (h : Traffic s t) (k : Traffic t u) : Traffic s u where
  clock := k.clock.trans h.clock
  windowOpen := k.windowOpen.trans h.windowOpen
  active := k.active.trans h.active
  latched := k.latched.trans h.latched
  managers := k.managers.trans h.managers
  noticeAddress := k.noticeAddress.trans h.noticeAddress
  commit := k.commit.trans h.commit
  responses := k.responses.trans h.responses
  reports := k.reports ∘ h.reports
  notices := k.notices ∘ h.notices
  rings := k.rings ∘ h.rings
  streaks := k.streaks ∘ h.streaks
  counters := k.counters ∘ h.counters

theorem foldl {α : Type} {f : State → α → State} (each : ∀ t a, Traffic t (f t a)) (l : List α)
    (t : State) : Traffic t (l.foldl f t) := by
  induction l generalizing t with
  | nil => exact refl t
  | cons a rest ih => exact (each t a).trans (ih _)

variable (h : Traffic s t)
include h

/-- The pins but for the latched straps, the Trunk Port, the buffer, the staging image, the Backlog, the
last commit, a pending restart, the occasions and the commands that wait are no concern of `Traffic`. -/
theorem still (e : u = { t with
    pins := { u.pins with latched := t.pins.latched }
    port := u.port
    buffer := u.buffer
    bank := { u.bank with active := t.bank.active }
    agent := { u.agent with
      managers := t.agent.managers, noticeAddress := t.agent.noticeAddress, commit := t.agent.commit }
    reports := { t.reports with backlog := u.reports.backlog }
    occasions := u.occasions
    pending := u.pending }) : Traffic s u := by
  refine h.trans ?_
  rw [e]
  exact ⟨rfl, rfl, rfl, rfl, rfl, rfl, rfl, Nat.le_refl _, id, id, id, id, id⟩

/-! ### The operations -/

theorem owe (o : Occasion) : Traffic s (t.owe o) := h.still rfl

theorem oweExaminations : Traffic s t.oweExaminations := (((h.owe _).owe _).owe _).owe _

theorem settle (o : Occasion) : Traffic s (t.settle o) := h.still rfl

theorem reach (instant : Nat) : Traffic s (t.reach instant) := h.still rfl

theorem frameTaken : Traffic s t.frameTaken := h.still rfl

theorem assemble (a : Assembler) : Traffic s (t.assemble a) := h.still rfl

theorem modifySlot (f : Slot → Slot) : Traffic s (t.modifySlot n f) := h.still rfl

theorem oweTake : Traffic s t.oweTake := by
  rw [oweTake_eq]
  exact h.still rfl

theorem setCounters {v : Vector Nat 56} (below : (∀ c : CounterId, t.counters[c] ≤ 4294967295) →
    ∀ c : CounterId, v[c] ≤ 4294967295) : Traffic s { t with counters := v } :=
  h.trans { refl t with counters := below }

theorem countBy (c : CounterId) (k : Nat) : Traffic s (t.countBy c k) := by
  refine h.setCounters fun below d => ?_
  rw [show (t.counters.set c.val _ c.isLt)[d] = _ from put_apply t.counters c d _]
  split
  · exact Nat.min_le_right ..
  · exact below d

theorem count (c : CounterId) : Traffic s (t.count c) := h.countBy c 1

theorem clearCounters (first count : Nat) : Traffic s (t.clearCounters first count) := by
  refine h.setCounters fun below d => ?_
  rw [Fin.getElem_fin, Vector.getElem_ofFn]
  split
  · exact Nat.zero_le _
  · exact below d

/-- A chain is replaced by one within the same bounds. -/
theorem setSeg {x : Segment} (ring : t.segs[g].ring.length ≤ 8 → x.ring.length ≤ 8)
    (streak : t.segs[g].conflictStreak ≤ 8 → x.conflictStreak ≤ 8) : Traffic s (t.setSeg g x) := by
  have e : ∀ k : Seg, (t.setSeg g x).segs[k] = if k = g then x else t.segs[k] :=
    fun k => put_apply t.segs g k x
  refine h.trans { refl t with rings := fun below k => ?_, streaks := fun below k => ?_ } <;>
    rw [e] <;> split
  · exact ring (below g)
  · exact below k
  · exact streak (below g)
  · exact below k

/-- A chain is replaced by one with the same ring and the same streak. -/
theorem setChain {deferralQueue sendQueue : List SlotNo} {pacer : Pacer} {pacingGapMs : Nat}
    {state : SegmentState} {tagCounter : Byte} {profile : Profile} {pendingProfile : Option Profile}
    {transceiver : Transceiver} {outstanding : List Outstanding} : Traffic s (t.setSeg g
      { deferralQueue, pacer, pacingGapMs, sendQueue, state, tagCounter, profile, pendingProfile,
        transceiver, outstanding, ring := t.segs[g].ring,
        conflictStreak := t.segs[g].conflictStreak }) :=
  h.setSeg id id

theorem queueNotice (kind : NoticeKind) : Traffic s (t.queueNotice kind) := by
  unfold State.queueNotice
  split
  · next room =>
    refine oweTake (h.trans { refl t with notices := fun _ => ?_ })
    rw [List.length_append]
    exact room
  · exact h.count _

theorem checkHigh : Traffic s t.checkHigh := by
  unfold State.checkHigh
  split
  · exact queueNotice (h.still rfl) _
  · exact h

theorem checkClear : Traffic s t.checkClear := by
  unfold State.checkClear
  split
  · exact queueNotice (h.still rfl) _
  · exact h

theorem pushReport (room : t.reportRoom = true) (x : Report) : Traffic s (t.pushReport x) := by
  refine oweTake (h.trans { refl t with reports := fun _ => ?_ })
  rw [List.length_append]
  exact reportRoom_iff.1 room

theorem leaveDeferralQueue : Traffic s (t.leaveDeferralQueue g n) :=
  h.setChain.modifySlot _

theorem leaveSendQueue : Traffic s (t.leaveSendQueue g n) := h.setChain.owe _

theorem joinFresh : Traffic s (t.joinFresh g n) := h.setChain.owe _

theorem joinReentry : Traffic s (t.joinReentry g n) := h.setChain.owe _

theorem deferAtBack (reason : DeferralReason) : Traffic s (t.deferAtBack g n reason) :=
  (h.setChain.modifySlot _).owe _

theorem report (o : ReportOutcome) (a : Option AnswerPart) : Traffic s (t.report n o a) :=
  (count (h.still rfl) _).owe _

theorem endDeferred (o : ReportOutcome) (a : Option AnswerPart) : Traffic s (t.endDeferred g o a n) :=
  h.leaveDeferralQueue.report o a

theorem endQueued (o : ReportOutcome) (a : Option AnswerPart) : Traffic s (t.endQueued g o a n) :=
  h.leaveSendQueue.report o a

theorem endAllDeferred (o : ReportOutcome) (test : Slot → Bool) :
    Traffic s (t.endAllDeferred g o test) :=
  h.trans (foldl (fun u _ => (refl u).endDeferred o none) _ t)

theorem endAllQueued (o : ReportOutcome) (test : Slot → Bool) :
    Traffic s (t.endAllQueued g o test) :=
  h.trans (foldl (fun u _ => (refl u).endQueued o none) _ t)

theorem withdraw : Traffic s (t.withdraw g) :=
  (h.endAllDeferred _ _).endAllQueued _ _

theorem withdrawAll :
    Traffic s ((((t.withdraw 0).withdraw 1).withdraw 2).withdraw 3) :=
  h.withdraw.withdraw.withdraw.withdraw

/-! ### The Release Unit and the Segment Scheduler -/

theorem release : Traffic s (t.release g n) := by
  have joined := (h.leaveDeferralQueue (g := g) (n := n)).joinFresh (g := g) (n := n)
  unfold State.release State.startPacer
  split
  · exact joined.count _
  · exact (joined.count _).setChain

theorem examine : Traffic s (t.examine g) := by
  unfold State.examine
  induction Config.sendQueueLimit generalizing t with
  | zero => exact h
  | succ fuel ih =>
    rw [State.releaseWhile]
    split
    · exact ih h.release
    · exact h

theorem endPacerGap : Traffic s (t.endPacerGap g) := by
  unfold State.endPacerGap
  split
  · exact (h.reach _).setChain.examine
  · exact h

theorem handBack (r : Slot) : Traffic s (t.handBack g n r) := by
  unfold State.handBack
  split
  · exact h.leaveSendQueue.report _ _
  · exact ((h.leaveSendQueue.setChain.modifySlot _).count _).owe _

theorem start (r : Slot) : Traffic s (t.start g n r) :=
  (h.leaveSendQueue.setChain.modifySlot _).count _

theorem walkFrom (l : List SlotNo) : Traffic s (State.walkFrom g l t) := by
  induction l generalizing t with
  | nil => exact h
  | cons n rest ih =>
    rw [State.walkFrom]
    split
    · exact ih h
    · split
      · split
        · exact h.start _
        · exact ih (h.handBack _)
      · exact ih h

theorem walk : Traffic s (t.walk g) := by
  unfold State.walk
  split
  · exact h.walkFrom _
  · exact h

theorem holdForFault (fault : LineFault) : Traffic s (t.holdForFault g fault) :=
  h.setChain.queueNotice _

theorem raiseStreak : Traffic s (t.raiseStreak g) := by
  have raised : Traffic s ((t.count (Counter.conflicts g)).setSeg g { t.seg g with
      conflictStreak := min ((t.seg g).conflictStreak + 1) Config.conflictLimit }) :=
    (h.count _).setSeg id fun _ => Nat.min_le_right _ _
  unfold State.raiseStreak
  dsimp only
  split
  · exact raised.holdForFault _
  · exact raised

/-! ### The segment line -/

theorem enterQuiet : Traffic s (t.enterQuiet g) := h.setChain

theorem retire (e : Outstanding) (reason : RetireReason) : Traffic s (t.retire g e reason) := by
  refine (h.setSeg ?_ ?_).owe _
  · exact fun _ => length_pushRing_le _ _
  · exact id

theorem retryDecision (o : ReportOutcome) : Traffic s (t.retryDecision g n o) := by
  unfold State.retryDecision
  split
  · exact h
  · split
    · split
      · exact (h.modifySlot _).joinReentry
      · exact h.report _ _
    · exact h.report _ _

theorem endTransmission : Traffic s (t.endTransmission g) := by
  unfold State.endTransmission
  split
  · next tx _ =>
    have ended : Traffic s (((t.reach (tx.startedAt + (t.seg g).profile.duration tx.telegram)).enterQuiet
        g).clearStreak g) := (h.reach _).enterQuiet.setSeg id fun _ => Nat.zero_le _
    unfold State.afterTransmission
    dsimp only
    split
    · exact ended
    · split
      · exact ended.setChain
      · exact ended.report _ _
  · exact h

theorem abort (k : Nat) (sensed : Wire) : Traffic s (t.abort g k sensed) := by
  unfold State.abort
  split
  · split
    · exact (h.reach _).enterQuiet.raiseStreak.retryDecision _
    · exact h
  · exact h

theorem timeOut (tag : Byte) : Traffic s (t.timeOut g tag) := by
  unfold State.timeOut
  split
  · exact h
  · exact (((h.reach _).retire _ _).count _).retryDecision _

theorem lateAnswer (x : Retired) (a : AnswerPart) : Traffic s (t.lateAnswer g x a) := by
  unfold State.lateAnswer
  split
  · exact h.count _
  · have marked : Traffic s (t.setSeg g { t.seg g with
        ring := (t.seg g).ring.map fun y =>
          if y.tag = x.tag ∧ y.device = x.device then { y with reason := .answered } else y }) :=
      h.setSeg (fun below => (List.length_map _).trans_le below) id
    dsimp only
    split
    · exact marked.endDeferred _ _
    · exact marked.endQueued _ _

theorem resolve (a : LineAnswer) : Traffic s (t.resolve g a) := by
  unfold State.resolve
  split
  · split
    · exact (h.retire _ _).report _ _
    · exact h.count _
  · split
    · split
      · exact h.count _
      · exact h.lateAnswer _ _
    · exact h.count _

theorem endReception (line : List LineSpan) : Traffic s (t.endReception g line) := by
  unfold State.endReception
  split
  · dsimp only
    split
    · exact (h.reach _).enterQuiet.resolve _
    · exact (h.reach _).enterQuiet.count _
  · exact h

theorem endQuietGap : Traffic s (t.endQuietGap g) := by
  unfold State.endQuietGap
  split
  · exact (h.reach _).setChain.walk
  · exact h

theorem beginReception (sensed : Wire) : Traffic s (t.beginReception g sensed) := by
  unfold State.beginReception
  split
  · dsimp only
    split
    · exact h.setChain
    · exact h.setChain
    · exact h
    · exact h
  · exact h

theorem stuckLine (line : List LineSpan) : Traffic s (t.stuckLine g line) := by
  unfold State.stuckLine
  split
  · dsimp only
    split
    · exact h
    · exact (h.reach _).setChain.holdForFault _
  · exact h

/-! ### Reports -/

theorem free : Traffic s (t.free n) := checkClear (h.still rfl)

theorem formReport : Traffic s t.formReport := by
  unfold State.formReport State.formOldest
  split
  · exact h
  · next n rest _ =>
    have taken : Traffic s { t with reports.backlog := rest } := h.still rfl
    split
    · next room =>
      dsimp only
      split
      · exact taken.owe _
      · split
        · exact taken.free.owe _
        · exact (taken.pushReport room _).free.owe _
    · exact h

/-- An entry leaves the front of one of the three queues for the transmitter. -/
theorem arbitrate : Traffic s t.arbitrate := by
  have shorter : ∀ {α : Type} {queue rest : List α} {a : α}, queue = a :: rest →
      rest.length ≤ queue.length := fun e => e ▸ Nat.le_succ _
  unfold State.arbitrate State.takeEntry
  split
  · split
    · next e => exact h.trans { refl t with responses := shorter e }
    · split
      · next e => exact h.trans { refl t with notices := fun below => (shorter e).trans below }
      · split
        · next e =>
          refine owe (h.trans ?_) _
          exact { refl t with reports := fun below => (shorter e).trans below }
        · exact h
  · exact h

/-! ### Admission -/

theorem refuse (c : CommandTelegram) (o : ReportOutcome) (x : Option Seg) :
    Traffic s (t.refuse c o x) := by
  unfold State.refuse
  split
  · next room => exact (h.count _).pushReport room _
  · exact (h.count _).count _

theorem takeSlot {p : Fin 4} {record : Intake → Slot} (taken : t.takeSlot p record = some (n, u)) :
    Traffic s u := by
  unfold State.takeSlot at taken
  split at taken
  · obtain ⟨rfl, rfl⟩ := Prod.mk.inj (Option.some.inj taken)
    exact checkHigh (h.still rfl)
  · split at taken
    · cases taken
    · next k m x _ =>
      split at taken
      · next room =>
        obtain ⟨rfl, rfl⟩ := Prod.mk.inj (Option.some.inj taken)
        have displaced : Traffic s (t.displace k m x) :=
          (h.leaveDeferralQueue.pushReport room _).count _
        exact displaced.still rfl
      · cases taken

theorem deferNew (r : Slot) (reason : DeferralReason) : Traffic s (t.deferNew g n r reason) := by
  have deferred := (h.deferAtBack (g := g) (n := n) reason).count Counter.deferrals
  unfold State.deferNew State.interim
  split
  · split
    · next room => exact deferred.pushReport room _
    · exact deferred.count _
  · exact deferred

theorem place (r : Slot) (holdLimit : Nat) : Traffic s (t.place g n r holdLimit) := by
  unfold State.place
  split
  · exact h.deferNew _ _
  · split
    · exact h.deferNew _ _
    · split
      · exact h.joinFresh
      · exact h.deferNew _ _

theorem admitRouted (c : CommandTelegram) (p : ClassPolicy) : Traffic s (t.admitRouted c p g) := by
  unfold State.admitRouted
  split
  · exact h.refuse _ _ _
  · next taken =>
    split
    · exact (h.takeSlot taken).place _ _
    · exact h.takeSlot taken

theorem takeCommand (c : CommandTelegram) : Traffic s (t.takeCommand c) := by
  unfold State.takeCommand State.admitScreened
  split
  · exact h.count _
  · split
    · exact h.refuse _ _ _
    · split
      · exact h.refuse _ _ _
      · split
        · exact h.refuse _ _ _
        · split
          · exact h.refuse _ _ _
          · split
            · exact h.refuse _ _ _
            · exact h.admitRouted _ _

/-! ### PURGE and FLUSH -/

theorem purgeSegment (test : Slot → Bool) (queued : Bool) :
    Traffic s (State.purgeSegment test queued t g) := by
  unfold State.purgeSegment
  dsimp only
  split
  · exact (h.endAllDeferred _ _).endAllQueued _ _
  · exact h.endAllDeferred _ _

theorem flush : Traffic s t.flush := by
  have chain : ∀ g : Seg, (Vector.ofFn fun g => (t.segs[g]).flush t.pins.now : Vector Segment 4)[g] =
      t.segs[g].flush t.pins.now := segs_ofFn _
  refine checkClear ((h.countBy Counter.flushed t.inUse).trans
    { refl (t.countBy Counter.flushed t.inUse) with
      rings := fun _ g => ?_, streaks := fun below g => ?_ })
  · rw [chain]
    exact Nat.zero_le _
  · rw [chain]
    exact below g

/-! ### The Trunk Port and the pins -/

theorem dropFrame : Traffic s t.dropFrame := (h.assemble _).count _

theorem breakFrame : Traffic s t.breakFrame := by
  unfold State.breakFrame
  split
  · exact h
  all_goals exact h.dropFrame

theorem fallSupply : Traffic s t.fallSupply := by
  unfold State.fallSupply
  split
  · exact h.still rfl
  · exact h

theorem riseSupply : Traffic s t.riseSupply := by
  unfold State.riseSupply
  split
  · exact h
  · exact h.still rfl

theorem lowerRstN : Traffic s t.lowerRstN := by
  unfold State.lowerRstN
  split <;> exact h.still rfl

end Traffic

/-! ### Requests whose effect is of that kind -/

/-- The effect of a request, and what follows its response, are traffic. -/
def Verdict.IsTraffic (s : State) : Verdict → Prop
  | .fail _ => True
  | .done _ after consequence => Traffic s after ∧ ∀ t, Traffic t (consequence t)
  | .started _ => False

section requests

variable {s t : State}

theorem isTraffic_doneWith (h : Traffic s t) : (doneWith t).IsTraffic s := ⟨h, Traffic.refl⟩

theorem isTraffic_read (result : List Byte) : (Verdict.done result s id).IsTraffic s :=
  ⟨Traffic.refl s, Traffic.refl⟩

theorem isTraffic_withSegment {b : Byte} {act : Seg → Verdict} (h : ∀ g, (act g).IsTraffic s) :
    (withSegment b act).IsTraffic s := by
  unfold withSegment
  split
  · exact h _
  · trivial

theorem isTraffic_readClock : (ownReadClock s).IsTraffic s := by
  unfold ownReadClock
  split
  · exact isTraffic_read _
  · trivial

theorem isTraffic_readEntry (params : List Byte) : (ownReadEntry params s).IsTraffic s := by
  unfold ownReadEntry
  split
  · split
    · trivial
    · split
      · trivial
      · split
        · trivial
        · exact isTraffic_read _
  · trivial

theorem isTraffic_writeEntry (params : List Byte) : (ownWriteEntry params s).IsTraffic s := by
  have written : ∀ staging, Traffic s { s with bank.staging := staging } :=
    fun _ => (Traffic.refl s).still rfl
  unfold ownWriteEntry
  split
  · split
    · trivial
    · split
      · trivial
      · split
        · exact isTraffic_doneWith (written _)
        · split
          · split
            · exact isTraffic_doneWith (written _)
            · trivial
          · trivial
  · trivial

theorem isTraffic_setProfile (params : List Byte) : (ownSetProfile params s).IsTraffic s := by
  unfold ownSetProfile
  split
  · refine isTraffic_withSegment fun g => ?_
    dsimp only
    split
    · exact isTraffic_doneWith (Traffic.refl s).setChain
    · trivial
  · trivial

theorem isTraffic_readProfile (params : List Byte) : (ownReadProfile params s).IsTraffic s := by
  unfold ownReadProfile
  split
  · exact isTraffic_withSegment fun g => isTraffic_read _
  · trivial

theorem isTraffic_setPacing (params : List Byte) : (ownSetPacing params s).IsTraffic s := by
  unfold ownSetPacing
  split
  · exact isTraffic_withSegment fun g =>
      ⟨(Traffic.refl s).setChain, fun t => (Traffic.refl t).examine⟩
  · trivial

theorem isTraffic_holdSegment (params : List Byte) : (ownHoldSegment params s).IsTraffic s := by
  unfold ownHoldSegment
  split
  · exact isTraffic_withSegment fun g => isTraffic_doneWith (Traffic.refl s).setChain
  · trivial

theorem isTraffic_resumeSegment (params : List Byte) : (ownResumeSegment params s).IsTraffic s := by
  unfold ownResumeSegment
  split
  · exact isTraffic_withSegment fun g =>
      ⟨(Traffic.refl s).setSeg id fun _ => Nat.zero_le _, fun t => (Traffic.refl t).walk⟩
  · trivial

theorem isTraffic_purge (params : List Byte) : (ownPurge params s).IsTraffic s := by
  unfold ownPurge
  split
  · split
    · split
      · exact ⟨Traffic.foldl (fun t g => (Traffic.refl t).purgeSegment _ _) _ s, Traffic.refl⟩
      · trivial
    · trivial
  · trivial

theorem isTraffic_readCounters (params : List Byte) : (ownReadCounters params s).IsTraffic s := by
  unfold ownReadCounters
  split
  · split
    · trivial
    · split
      · trivial
      · refine ⟨?_, Traffic.refl⟩
        split
        · exact (Traffic.refl s).clearCounters _ _
        · exact Traffic.refl s
  · trivial

theorem isTraffic_flush : (ownFlush s).IsTraffic s := ⟨(Traffic.refl s).flush, Traffic.refl⟩

end requests

/-! ### The rules -/

/-- The Response Queue, with the place held for a COMMIT, has room (R131). -/
def HasRoom (s : State) : Prop :=
  s.reports.responseQueue.length + heldPlace s < 4

theorem heldPlace_congr {s t : State} (h : t.agent.commit = s.agent.commit) :
    heldPlace t = heldPlace s := by
  rw [heldPlace, heldPlace, h]

theorem responseRoom_iff {s : State} : s.responseRoom = true ↔ HasRoom s := by
  rw [responseRoom_eq, decide_eq_true_eq, HasRoom]

theorem HasRoom.traffic {s t : State} (room : HasRoom s) (h : Traffic s t) : HasRoom t := by
  have held := heldPlace_congr h.commit
  have := h.responses
  unfold HasRoom at *
  omega

/-- The traffic keeps a predicate, and so does every change beside it, each where the part makes it. -/
structure BlockRules (Q : State → Prop) : Prop where
  traffic : ∀ {s t : State}, Q s → Traffic s t → Q t
  pushResponse : ∀ {s : State} (x : Response), Q s → HasRoom s → Q (s.pushResponse x)
  setClock : ∀ {s : State} {c : Calendar}, Q s → c.isReal = true → Q (s.setClock c)
  adjustClock : ∀ {s : State} {c : Calendar} {n : Int}, Q s → s.clock.record = some c →
    -86399 ≤ n → n ≤ 86399 → Q (s.setClock (c.adjust n).1)
  edge : ∀ {s : State}, Q s → Q s.edge
  beginCommit : ∀ {s : State} (endsAt : Nat) (source : Addr) (seq : Byte), Q s →
    s.agent.commit = .idle → HasRoom s →
    Q { s with agent.commit := .validating endsAt source seq }
  endCommit : ∀ {s : State}, Q s → Q s.endCommit
  setNoticeAddress : ∀ {s : State} {a : Addr}, Q s → a ≠ s.ownAddress →
    Q { s with agent.noticeAddress := a }
  setManagers : ∀ {s : State} {list : List Addr}, Q s → list.length ≤ 4 → list.Nodup →
    (∀ a ∈ list, goodSource s a) → Q { s with agent.managers := list }
  reset : ∀ (s : State) (cause : StartCause) (straps : StrapPins), Q (s.resetTakesEffect cause straps)

/-- What a verdict leaves has the property and room for the response. -/
def Verdict.Answerable (Q : State → Prop) : Verdict → Prop
  | .fail _ => True
  | .done _ after consequence => (Q after ∧ HasRoom after) ∧ ∀ t, Q t → Q (consequence t)
  | .started after => Q after

/-- Two bytes make an address. -/
theorem length_readAddrs {bytes : List Byte} {list : List Addr} (h : readAddrs bytes = some list) :
    bytes.length = 2 * list.length := by
  induction bytes using readAddrs.induct generalizing list with
  | case1 =>
    obtain rfl := Option.some.inj h
    rfl
  | case2 high low rest ih =>
    simp only [readAddrs, Option.bind_eq_bind, Option.bind_eq_some_iff, Option.pure_def,
      Option.some.injEq] at h
    obtain ⟨a, -, more, read, rfl⟩ := h
    simp only [List.length_cons, ih read]
    omega
  | case3 b => cases h

namespace BlockRules

variable {Q : State → Prop} (k : BlockRules Q) {s t : State}
include k

/-! ### Requests -/

theorem answerable_of_isTraffic {v : Verdict} (h : Q s) (room : HasRoom s) (own : v.IsTraffic s) :
    v.Answerable Q := by
  cases v with
  | fail status => trivial
  | done result after consequence =>
    exact ⟨⟨k.traffic h own.1, room.traffic own.1⟩, fun t ht => k.traffic ht (own.2 t)⟩
  | started after => exact own.elim

theorem respond (h : Q s) (room : HasRoom s) (code : Byte) (r : Request) (status : Status)
    (result : List Byte) : Q (s.respond code r status result) :=
  k.pushResponse _ h room

/-- Steps 1 to 8 of R130, given what the own part of the request leaves where it is reached. -/
theorem takeRequest (h : Q s) (c : RequestClass) (r : Request) {own : State → Verdict}
    (answers : HasRoom s → c.lengthOk = true → (c.barred = true → s.agent.commit = .idle) →
      (own s).Answerable Q) : Q (s.takeRequest c r own) := by
  unfold State.takeRequest State.carryOut
  split
  · exact k.traffic h ((Traffic.refl s).count _)
  · next room =>
    have room : HasRoom s := responseRoom_iff.1 (not_not.1 room)
    split
    · exact k.traffic h ((Traffic.refl s).count _)
    · split
      · exact k.respond h room _ _ _ _
      · split
        · exact k.respond h room _ _ _ _
        · next length =>
          split
          · have denied := (Traffic.refl s).count Counter.mgmtDenied
            exact k.respond (k.traffic h denied) (room.traffic denied) _ _ _ _
          · split
            · exact k.respond h room _ _ _ _
            · next free =>
              have own := answers room (not_not.1 length) fun barred => by
                simpa [barred, validating_iff] using free
              split
              · exact k.respond h room _ _ _ _
              · next e =>
                rw [e] at own
                exact own.2 _ (k.respond own.1.1 own.1.2 _ _ _ _)
              · next e =>
                rw [e] at own
                exact own

/-- A request whose effect is traffic. -/
theorem takeTraffic (h : Q s) (c : RequestClass) (r : Request) {own : State → Verdict}
    (effect : (own s).IsTraffic s) : Q (s.takeRequest c r own) :=
  k.takeRequest h c r fun room _ _ => k.answerable_of_isTraffic h room effect

omit k in
theorem answerable_clockSet {c : Calendar} (result : List Byte) (room : HasRoom s)
    (h : Q (s.setClock c)) : (Verdict.done result (s.setClock c) id).Answerable Q := by
  refine ⟨⟨h, ?_⟩, fun _ ht => ht⟩
  rw [setClock_eq]
  exact room

theorem answerable_setClock (h : Q s) (room : HasRoom s) (params : List Byte) :
    (ownSetClock params s).Answerable Q := by
  unfold ownSetClock
  split
  · split
    · next real => exact answerable_clockSet _ room (k.setClock h real)
    · trivial
  · trivial

theorem answerable_adjustClock (h : Q s) (room : HasRoom s) (params : List Byte) :
    (ownAdjustClock params s).Answerable Q := by
  unfold ownAdjustClock
  split
  · split
    · trivial
    · next range =>
      obtain ⟨low, high⟩ := not_not.1 range
      split
      · trivial
      · next c valid => exact answerable_clockSet _ room (k.adjustClock h valid low high)
  · trivial

theorem answerable_setNoticeAddress (h : Q s) (room : HasRoom s) (params : List Byte) :
    (ownSetNoticeAddress params s).Answerable Q := by
  unfold ownSetNoticeAddress
  split
  · split
    · trivial
    · split
      · trivial
      · next other => exact ⟨⟨k.setNoticeAddress h other, room⟩, fun _ ht => ht⟩
  · trivial

theorem answerable_setManagers (h : Q s) (room : HasRoom s) {params : List Byte}
    (length : setManagersLengthOk params = true) : (ownSetManagers params s).Answerable Q := by
  unfold ownSetManagers
  split
  · next count rest =>
    split
    · trivial
    · next few =>
      split
      · trivial
      · next list read =>
        split
        · trivial
        · next good =>
          simp only [not_or, not_not] at good
          obtain ⟨noZero, notOwn, distinct⟩ := good
          have four : list.length ≤ 4 := by
            have bytes := length_readAddrs read
            have counted : rest.length = 2 * count.toNat := beq_iff_eq.1 length
            have : Config.maxManagers = 4 := rfl
            omega
          have sources : ∀ a ∈ list, goodSource s a := fun a ha =>
            ⟨by rintro rfl; exact noZero ha, by rintro rfl; exact notOwn ha⟩
          exact ⟨⟨k.setManagers h four distinct sources, room⟩, fun _ ht => ht⟩
  · trivial

theorem takeCode (h : Q s) (code : Byte) (r : Request) : Q (s.takeCode code r) := by
  unfold State.takeCode
  split
  · exact k.takeTraffic h _ r (isTraffic_read _)
  · exact k.takeTraffic h _ r isTraffic_readClock
  · exact k.takeRequest h _ r fun room _ _ => k.answerable_setClock h room _
  · exact k.takeRequest h _ r fun room _ _ => k.answerable_adjustClock h room _
  · exact k.takeTraffic h _ r (isTraffic_readEntry _)
  · exact k.takeTraffic h _ r (isTraffic_writeEntry _)
  · exact k.takeTraffic h _ r (isTraffic_doneWith ((Traffic.refl s).still rfl))
  · exact k.takeTraffic h _ r (isTraffic_doneWith ((Traffic.refl s).still rfl))
  · exact k.takeRequest h _ r fun room _ idle => k.beginCommit _ _ _ h (idle rfl) room
  · exact k.takeTraffic h _ r (isTraffic_setProfile _)
  · exact k.takeTraffic h _ r (isTraffic_readProfile _)
  · exact k.takeTraffic h _ r (isTraffic_setPacing _)
  · exact k.takeTraffic h _ r (isTraffic_holdSegment _)
  · exact k.takeTraffic h _ r (isTraffic_resumeSegment _)
  · exact k.takeTraffic h _ r (isTraffic_purge _)
  · exact k.takeTraffic h _ r (isTraffic_read _)
  · exact k.takeTraffic h _ r (isTraffic_readCounters _)
  · exact k.takeRequest h _ r fun room _ _ => k.answerable_setNoticeAddress h room _
  · exact k.takeTraffic h _ r isTraffic_flush
  · exact k.takeTraffic h _ r (isTraffic_doneWith ((Traffic.refl s).still rfl))
  · exact k.takeRequest h _ r fun room length _ => k.answerable_setManagers h room length
  · exact k.takeTraffic h _ r trivial

theorem takePayload (h : Q s) (source : Addr) (seq : Byte) (payload : List Byte) :
    Q (s.takePayload source seq payload) := by
  unfold State.takePayload
  split
  · exact k.takeTraffic h _ _ trivial
  · exact k.takeCode h _ _

/-! ### The Trunk Port and the resets -/

theorem completeFrame (h : Q s) (len : Byte) (body crc : List Byte) :
    Q (s.completeFrame len body crc) := by
  have taken := (Traffic.refl s).frameTaken
  unfold State.completeFrame
  split
  · exact k.traffic h (taken.count _)
  · exact k.traffic h (taken.takeCommand _)
  · exact k.takePayload (k.traffic h taken) _ _ _

theorem receiveByte (h : Q s) (b : Byte) : Q (s.receiveByte b) := by
  have assembled : ∀ a, Q (s.assemble a) := fun a => k.traffic h ((Traffic.refl s).assemble a)
  unfold State.receiveByte
  split
  · split
    · exact assembled _
    · exact h
  · split
    · exact assembled _
    · exact k.traffic h (Traffic.refl s).dropFrame
  · split <;> exact assembled _
  · exact assembled _
  · exact k.completeFrame h _ _ _

theorem endTrunkTransmission (h : Q s) (straps : StrapPins) : Q (s.endTrunkTransmission straps) := by
  unfold State.endTrunkTransmission
  split
  · exact h
  · split
    · exact k.reset _ _ _
    · exact k.traffic h ((Traffic.refl s).still rfl)

theorem raiseRstN (h : Q s) (straps : StrapPins) : Q (s.raiseRstN straps) := by
  have raised : Q { s with pins.rstN := true, pins.straps := straps } :=
    k.traffic h ((Traffic.refl s).still rfl)
  unfold State.raiseRstN
  dsimp only
  split
  · exact raised
  · split
    · exact k.reset _ _ _
    · exact raised

theorem endPowerOnHold (h : Q s) (straps : StrapPins) : Q (s.endPowerOnHold straps) := by
  unfold State.endPowerOnHold
  split
  · exact h
  · split
    · exact h
    · dsimp only
      split
      · exact k.reset _ _ _
      · exact k.traffic h ((Traffic.refl s).still rfl)

/-! ### Every command -/

theorem exec (h : Q s) (i : Instr) (e : Machine.exec i s = .next t) : Q t := by
  have same := Traffic.refl s
  have request : ∀ code r, Q (s.frameTaken.takeCode code r) :=
    k.takeCode (k.traffic h same.frameTaken)
  have running : ∀ {effect : State → State}, Machine.whileRunning effect s = .next t →
      Q (effect s) → Q t := fun e after => StepRules.whileRunning e h after
  have traffic : ∀ {effect : State → State}, Machine.whileRunning effect s = .next t →
      Traffic s (effect s) → Q t := fun e after => running e (k.traffic h after)
  unfold Machine.exec at e
  cases i with
  | admission telegram =>
    refine traffic e ?_
    split
    · exact same.frameTaken.takeCommand _
    · exact same.frameTaken.count _
  | trunkFrameDiscarded frame => exact running e (k.completeFrame h _ _ _)
  | gapTimeout => exact traffic e same.breakFrame
  | byteFramingError => exact traffic e same.breakFrame
  | unknownRequest source seq payload =>
    exact running e (k.takePayload (k.traffic h same.frameTaken) _ _ _)
  | readStatus r => exact running e (request 1 r)
  | readClock r => exact running e (request 2 r)
  | setClock r => exact running e (request 3 r)
  | adjustClock r => exact running e (request 4 r)
  | readEntry r => exact running e (request 5 r)
  | writeEntry r => exact running e (request 6 r)
  | copyActive r => exact running e (request 7 r)
  | discardStaging r => exact running e (request 8 r)
  | commit r => exact running e (request 9 r)
  | commitEnd => exact running e (k.endCommit h)
  | setProfile r => exact running e (request 10 r)
  | readProfile r => exact running e (request 11 r)
  | setPacing r => exact running e (request 12 r)
  | holdSegment r => exact running e (request 13 r)
  | resumeSegment r => exact running e (request 14 r)
  | purge r => exact running e (request 15 r)
  | readQueue r => exact running e (request 16 r)
  | readCounters r => exact running e (request 17 r)
  | setNoticeAddress r => exact running e (request 18 r)
  | setManagers r => exact running e (request 21 r)
  | flush r => exact running e (request 19 r)
  | restart r => exact running e (request 20 r)
  | secondEdge => exact running e (k.edge h)
  | expiryCheck g => exact traffic e ((same.settle _).endAllDeferred _ _)
  | examination g => exact traffic e (same.settle _).examine
  | pacerGapEnd g => exact traffic e same.endPacerGap
  | startWalk g => exact traffic e (same.settle _).walk
  | conflictAbort g unit sensed => exact traffic e (same.abort _ _)
  | transmissionEnd g => exact traffic e same.endTransmission
  | quietGapEnd g => exact traffic e same.endQuietGap
  | lineActivity g sensed => exact traffic e (same.beginReception _)
  | stuckLine record => exact traffic e (same.stuckLine _)
  | receptionEnd g line => exact traffic e (same.endReception _)
  | answerTimerExpiry g tag => exact traffic e (same.timeOut _)
  | reportFormation => exact traffic e (same.settle _).formReport
  | arbiterTake => exact traffic e (same.settle _).arbitrate
  | trunkTransmissionEnd pins => exact running e (k.endTrunkTransmission h pins)
  | supplyFall => exact StepRules.next e (k.traffic h same.fallSupply)
  | powerOnHoldEnd pins => exact StepRules.next e (k.endPowerOnHold h pins)
  | rstNLow => exact StepRules.next e (k.traffic h same.lowerRstN)
  | rstNHigh pins => exact StepRules.next e (k.raiseRstN h pins)
  | byteReceived b => exact running e (k.receiveByte h b)
  | supplyRise => exact StepRules.next e (k.traffic h same.riseSupply)

/-- A predicate with these rules is kept by every step. -/
theorem step (h : Q s) (e : Machine.step s = .next t) : Q t := by
  unfold Machine.step at e
  split at e
  · exact StepRules.next e h
  · next c rest _ => exact k.exec (k.traffic h ((Traffic.refl s).still rfl)) c e

end BlockRules

end Sys2Proof.Machine
end

