-- ==== Sys2Proof/Proofs/BlocksKept.lean ====
section
/-! SUPPORT. The bounds of the queues and counts, the clock and the window states are kept by every
step. -/

namespace Sys2Proof.Machine

open Sys2Proof.Safety

variable {s t : State}

/-! ### The bounds -/

theorem Traffic.boundsInv (k : Traffic s t) (h : BoundsInv s) : BoundsInv t where
  reports := k.reports h.reports
  notices := k.notices h.notices
  responses := by
    rw [heldPlace_congr k.commit]
    exact (Nat.add_le_add_right k.responses _).trans h.responses
  rings := k.rings h.rings
  streaks := k.streaks h.streaks
  counters := k.counters h.counters
  uptime := by
    rw [k.clock]
    exact h.uptime
  managers := by
    obtain ⟨four, distinct, good⟩ := h.managers
    rw [k.managers]
    refine ⟨four, distinct, fun a ha => ?_⟩
    obtain ⟨notZero, other⟩ := good a ha
    exact ⟨notZero, k.latched ▸ other⟩
  noticeAddress := by
    rw [k.noticeAddress, k.latched]
    exact h.noticeAddress

theorem pushResponse_eq (x : Response) : s.pushResponse x = { s with
    reports.responseQueue := s.reports.responseQueue ++ [x]
    occasions := s.occasions ++ takeOwed s } := by
  rw [State.pushResponse, oweTake_eq]
  rfl

theorem boundsInv_pushResponse (x : Response) (h : BoundsInv s) (room : HasRoom s) :
    BoundsInv (s.pushResponse x) := by
  rw [pushResponse_eq]
  refine { h with responses := ?_ }
  rw [List.length_append, List.length_singleton, Nat.add_right_comm]
  exact room

theorem boundsInv_setWindows {windows : Vector Bool 32} {occasions : List Occasion} (h : BoundsInv s) :
    BoundsInv { s with windowOpen := windows, occasions := occasions } := { h with }

theorem boundsInv_evaluateWindows (h : BoundsInv s) : BoundsInv s.evaluateWindows := by
  rw [evaluateWindows_eq]
  exact boundsInv_setWindows h

theorem boundsInv_setClock (c : Calendar) (h : BoundsInv s) : BoundsInv (s.setClock c) :=
  boundsInv_evaluateWindows { h with }

theorem boundsInv_edge (h : BoundsInv s) : BoundsInv s.edge := by
  have evaluated : BoundsInv (State.evaluateWindows
      { s.reach s.clock.nextEdge with clock := s.clock.tick }) :=
    boundsInv_evaluateWindows { h with uptime := Nat.min_le_right _ _ }
  exact ((((Traffic.refl _).owe _).owe _).owe _).owe _ |>.boundsInv evaluated

theorem boundsInv_beginCommit {endsAt : Nat} {source : Addr} {seq : Byte} (h : BoundsInv s)
    (idle : s.agent.commit = .idle) (room : HasRoom s) :
    BoundsInv { s with agent.commit := .validating endsAt source seq } := by
  refine { h with responses := ?_ }
  rw [HasRoom, heldPlace, idle] at room
  exact room

/-- The place held for a COMMIT is the one its response takes (R131). -/
theorem hasRoom_of_validating {endsAt : Nat} {source : Addr} {seq : Byte} (h : BoundsInv s)
    (commit : s.agent.commit = .validating endsAt source seq)
    (queue : t.reports.responseQueue = s.reports.responseQueue) (idle : t.agent.commit = .idle) :
    HasRoom t := by
  have responses := h.responses
  rw [heldPlace, commit] at responses
  rw [HasRoom, heldPlace, idle, queue]
  exact Nat.lt_of_succ_le responses

theorem boundsInv_endCommit (h : BoundsInv s) : BoundsInv s.endCommit := by
  unfold State.endCommit
  split
  · exact h
  · next endsAt source seq commit =>
    have responses : s.reports.responseQueue.length ≤ 4 := Nat.le_of_add_right_le h.responses
    split
    · next f _ =>
      have room : HasRoom { s.reach endsAt with
          agent.commit := .idle, agent.lastCommit := .failed f } :=
        hasRoom_of_validating h commit rfl rfl
      exact boundsInv_pushResponse _ { h with responses } room
    · have swapped : BoundsInv ((s.reach endsAt).swapTables source seq) := by
        refine boundsInv_pushResponse _ { h with responses } ?_
        exact hasRoom_of_validating h commit rfl rfl
      have withdrawn := (Traffic.refl ((s.reach endsAt).swapTables source seq)).withdrawAll
      have evaluated := boundsInv_evaluateWindows (withdrawn.boundsInv swapped)
      exact (Traffic.refl _).oweExaminations.boundsInv evaluated

/-- The bounds have the rules of a step. -/
theorem boundsRules : BlockRules BoundsInv where
  traffic h k := k.boundsInv h
  pushResponse x h room := boundsInv_pushResponse x h room
  setClock h _ := boundsInv_setClock _ h
  adjustClock h _ _ _ := boundsInv_setClock _ h
  edge h := boundsInv_edge h
  beginCommit _ _ _ h idle room := boundsInv_beginCommit h idle room
  endCommit h := boundsInv_endCommit h
  setNoticeAddress h other := { h with noticeAddress := other }
  setManagers h four distinct good := { h with managers := ⟨four, distinct, good⟩ }
  reset _ cause straps := { boundsInv_afterReset (cause := cause) (straps := straps) with }

/-! ### The clock and the windows -/

theorem clockInv_of_same (h : ClockInv s) (record : t.clock.record = s.clock.record)
    (windowOpen : t.windowOpen = s.windowOpen) (active : t.bank.active = s.bank.active) :
    ClockInv t where
  real c hc := h.real c (record ▸ hc)
  windows := by
    rw [windowOpen, active, record]
    exact h.windows

theorem Traffic.clockInv (k : Traffic s t) (h : ClockInv s) : ClockInv t :=
  clockInv_of_same h (congrArg Clock.record k.clock) k.windowOpen k.active

/-- An evaluation brings the window states to a real record and the active image as they stand (R47). -/
theorem clockInv_evaluateWindows (real : ∀ c, s.clock.record = some c → c.isReal = true) :
    ClockInv s.evaluateWindows := by
  rw [evaluateWindows_eq]
  exact ⟨real, rfl⟩

theorem clockInv_setClock {c : Calendar} (real : c.isReal = true) : ClockInv (s.setClock c) :=
  clockInv_evaluateWindows fun _ e => Option.some.inj e ▸ real

theorem clockInv_edge (h : ClockInv s) : ClockInv s.edge := by
  have evaluated : ClockInv (State.evaluateWindows
      { s.reach s.clock.nextEdge with clock := s.clock.tick }) := by
    refine clockInv_evaluateWindows fun c e => ?_
    obtain ⟨before, valid, rfl⟩ := Option.map_eq_some_iff.1 e
    exact isReal_tick (h.real before valid)
  exact ((((Traffic.refl _).owe _).owe _).owe _).owe _ |>.clockInv evaluated

theorem clockInv_pushResponse (x : Response) (h : ClockInv s) : ClockInv (s.pushResponse x) := by
  rw [pushResponse_eq]
  exact { h with }

/-- A commit end that swaps the tables evaluates the windows against them (R151, R152). -/
theorem clockInv_endCommit (h : ClockInv s) : ClockInv s.endCommit := by
  unfold State.endCommit
  split
  · exact h
  · next endsAt source seq _ =>
    split
    · exact clockInv_pushResponse _ { h with }
    · have clock : ((s.reach endsAt).swapTables source seq).clock = s.clock := by
        rw [State.swapTables, pushResponse_eq]
        rfl
      have withdrawn := (Traffic.refl ((s.reach endsAt).swapTables source seq)).withdrawAll
      refine (Traffic.refl _).oweExaminations.clockInv (clockInv_evaluateWindows ?_)
      rw [withdrawn.clock, clock]
      exact h.real

/-- The clock and the window states have the rules of a step. -/
theorem clockRules : BlockRules ClockInv where
  traffic h k := k.clockInv h
  pushResponse x h _ := clockInv_pushResponse x h
  setClock _ real := clockInv_setClock real
  adjustClock h valid low high := clockInv_setClock (adjusts_adjust (h.real _ valid) low high).real
  edge h := clockInv_edge h
  beginCommit _ _ _ h _ _ := { h with }
  endCommit h := clockInv_endCommit h
  setNoticeAddress h _ := { h with }
  setManagers h _ _ _ := { h with }
  reset _ cause straps := { clockInv_afterReset (cause := cause) (straps := straps) with }

end Sys2Proof.Machine

namespace Sys2Proof.Proofs

open Sys2Proof.Machine Sys2Proof.Safety

/-- Settles O57, by the rules of a step: every queue is tested for room before an entry joins it, every
count stops at its top, and the agent takes only what it may hold. -/
theorem stepsKeepTheBounds : Obligations.StepsKeepTheBounds :=
  fun _ _ h e => boundsRules.step h e

/-- Settles O59, by the rules of a step: whatever changes the record or the active tables evaluates the
windows. -/
theorem stepsKeepClockAndWindows : Obligations.StepsKeepClockAndWindows :=
  fun _ _ h e => clockRules.step h e

end Sys2Proof.Proofs
end

