-- ==== Sys2Proof/Proofs/Pacing.lean ====
section
/-! SUPPORT. SET_PACING: the request of one segment, its response, and the examination it brings
(R56, R58). -/

namespace Sys2Proof.Machine

open Sys2Proof.Safety

variable {s t : State} {g : Seg}

/-! ### Requests that name a segment -/

theorem withSegment_of_val {b : Byte} (h : g.val = b.toNat) (act : Seg → Verdict) :
    withSegment b act = act g := by
  have read : readSeg b = some g := by
    rw [readSeg, dif_pos (h ▸ g.isLt)]
    exact congrArg some (Fin.ext h.symm)
  rw [withSegment, read]

theorem withSegment_of_high {b : Byte} (h : 4 ≤ b.toNat) (act : Seg → Verdict) :
    withSegment b act = .fail .badIndex := by
  rw [withSegment, readSeg, dif_neg (Nat.not_lt.2 h)]

/-- An accepted request whose own part ends OK: its consequence finds the response in its place. -/
theorem takeRequest_done_then {r : Request} {write barred : Bool} (h : Accepts s r write barred)
    (code : Byte) {own : State → Verdict} {result : List Byte} {consequence : State → State}
    (done : own s.frameTaken = .done result t.frameTaken consequence) :
    s.frameTaken.takeRequest { code := code, lengthOk := true, write := write, barred := barred } r
        own = consequence (answered t r code .ok result) := by
  rw [takeRequest_of_accepts h, done]
  exact congrArg consequence (respond_eq r code .ok result)

/-! ### SET_PACING -/

theorem exec_setPacing {r : Request} {b high low : Byte} (params : r.params = [b, high, low])
    (hold : s.pins.hold = none) :
    exec (.setPacing r) s = .next (s.frameTaken.takeRequest
      { code := 0x0C, lengthOk := true, write := true, barred := false } r
      (ownSetPacing [b, high, low])) := by
  have e := whileRunning_of_no_hold (fun s => s.frameTaken.takeSetPacing r) hold
  rw [State.takeSetPacing, params] at e
  exact e

/-- The own part of SET_PACING of a segment that exists (R56). -/
theorem ownSetPacing_done {b : Byte} (h : g.val = b.toNat) (high low : Byte) :
    ownSetPacing [b, high, low] s.frameTaken =
      .done [] { s with segs := put s.segs g { s.segs[g] with
          pacingGapMs := 256 * high.toNat + low.toNat } }.frameTaken fun t => t.examine g :=
  withSegment_of_val h _

/-- An EXAMINATION takes its own occasion from the front of those owed. -/
theorem exec_examination_owed (hold : s.pins.hold = none) :
    exec (.examination g) { s with occasions := .examination g :: s.occasions } =
      .next (s.examine g) := by
  rw [exec_examination (s := { s with occasions := .examination g :: s.occasions }) hold]
  simp only [State.settle, List.erase_cons_head]

end Sys2Proof.Machine

namespace Sys2Proof.Proofs

open Sys2Proof.Machine Sys2Proof.Safety

/-- Settles O14: the gap is written, and the examination that follows the response finds a running
pacer as it was. -/
theorem pacingIsSet : Obligations.PacingIsSet := by
  intro r b high low s params accepts
  rw [exec_setPacing params accepts.running]
  refine ⟨fun bad => ?_, ?_⟩
  · exact congrArg _ (takeRequest_fail accepts _ (withSegment_of_high bad _))
  · intro g named t ht
    have running : t.pins.hold = none := by
      rw [ht]
      exact accepts.running
    rw [takeRequest_done_then accepts _ (ownSetPacing_done named high low), ← ht]
    refine ⟨fun endsAt gap => ?_, (exec_examination_owed running).symm⟩
    have runs : t.segs[g].pacer = .gap endsAt := by
      rw [ht, answered, put_same]
      exact gap
    exact congrArg _ (examine_of_none (releasable_none (.inl ⟨endsAt, runs⟩)))

end Sys2Proof.Proofs
end

