-- ==== Sys2Proof/Proofs/Starts.lean ====
section
/-! SUPPORT. Starts: the next free line tag (R79), what a start writes (R78), and what a walk comes
through before it starts a slot (R75 to R77). -/

namespace Sys2Proof.Machine

open Sys2Proof.Safety

variable {s t : State} {g : Seg} {n : SlotNo} {r : Slot}

/-! ### The next free tag -/

/-- Of more values in turn than are taken, one is free. -/
theorem exists_free_tag {taken : List Byte} (few : taken.length < 256) (t : Byte) :
    ∃ k ≤ taken.length, t + BitVec.ofNat 8 k ∉ taken := by
  by_contra full
  push Not at full
  have distinct : ((List.range (taken.length + 1)).map fun k => t + BitVec.ofNat 8 k).Nodup := by
    refine List.Nodup.map_on (fun a ha b hb same => ?_) List.nodup_range
    rw [List.mem_range] at ha hb
    have same := congrArg BitVec.toNat (BitVec.add_right_inj _ |>.1 same)
    simp only [BitVec.toNat_ofNat] at same
    omega
  have taken := (List.subperm_of_subset distinct (l₂ := taken) fun x hx => by
    obtain ⟨k, hk, rfl⟩ := List.mem_map.1 hx
    exact full k (Nat.lt_succ_iff.1 (List.mem_range.1 hk))).length_le
  rw [List.length_map, List.length_range] at taken
  omega

/-- The next tag is the first free value after the counter (R79). -/
theorem nextTag_free (x : Segment) (few : (heldTags x).length < 256) :
    ∃ k ≤ (heldTags x).length, x.nextTag = x.tagCounter + 1 + BitVec.ofNat 8 k ∧
      x.nextTag ∉ heldTags x ∧ ∀ j < k, x.tagCounter + 1 + BitVec.ofNat 8 j ∈ heldTags x := by
  have free := exists_free_tag few (x.tagCounter + 1)
  obtain ⟨below, unused⟩ := Nat.find_spec free
  have taken : ∀ j < Nat.find free, x.tagCounter + 1 + BitVec.ofNat 8 j ∈ heldTags x := fun j hj =>
    not_not.1 fun h => Nat.find_min free hj ⟨(hj.le.trans below), h⟩
  have next : x.nextTag = x.tagCounter + 1 + BitVec.ofNat 8 (Nat.find free) :=
    nextFreeTag_eq _ 256 _ _ (below.trans_lt few) taken unused
  exact ⟨Nat.find free, below, next, next ▸ unused, taken⟩

theorem heldTags_length (x : Segment) :
    (heldTags x).length = x.outstanding.length + x.ring.length := by
  rw [heldTags, List.length_append, List.length_map, List.length_map]

/-! ### The start -/

theorem start_eq (hr : s.buffer.slots[n] = some r) :
    s.start g n r = { s with
      segs := put s.segs g { s.segs[g] with
        sendQueue := s.segs[g].sendQueue.erase n
        tagCounter := s.segs[g].nextTag
        profile := s.segs[g].adopted
        pendingProfile := none
        transceiver := .sending
          { slot := n, tag := s.segs[g].nextTag,
            telegram := commandTelegram r s.segs[g].nextTag, startedAt := s.pins.now } }
      buffer.slots := put s.buffer.slots n
        (some { r with attempts := r.attempts + 1, lineTag := some s.segs[g].nextTag })
      counters := bump s.counters (Counter.ofSegment g 0) 1
      occasions := s.occasions ++ [.examination g] } := by
  have slot : (s.leaveSendQueue g n).slot n = some r := hr
  simp only [State.start, count_eq, State.modifySlot, setSlot_eq, setSeg_eq, State.slot,
    Segment.startSending] at slot ⊢
  rw [slot, leaveSendQueue_eq]
  simp only [State.seg, put_same, put_put]
  rfl

theorem mayStart_iff : s.mayStart g r = true ↔
    (r.answerExpected = true → s.segs[g].outstanding.length < 4) := by
  have room : decide ((s.seg g).outstanding.length < Config.outstandingSize) = true ↔
      s.segs[g].outstanding.length < 4 := decide_eq_true_iff
  rw [State.mayStart, Bool.or_eq_true, Bool.not_eq_true', room]
  cases r.answerExpected <;> simp

theorem walkFrom_starts (rest : List SlotNo) (hr : s.buffer.slots[n] = some r)
    (may : r.answerExpected = true → s.segs[g].outstanding.length < 4) (opened : isOpen s r.cls) :
    State.walkFrom g (n :: rest) s = s.start g n r := by
  rw [State.walkFrom]
  simp only [show s.slot n = some r from hr, mayStart_iff.2 may, (classOpen_iff r.cls).2 opened,
    if_true]

/-! ### The walk -/

theorem isActive_iff {x : SegmentState} : x.isActive = true ↔ x = .active := by
  cases x <;> simp [SegmentState.isActive]

theorem isIdle_iff {x : Transceiver} : x.isIdle = true ↔ x = .idle := by
  cases x <;> simp [Transceiver.isIdle]

/-- The test of R75. -/
theorem walk_eq : s.walk g =
    if s.segs[g].state = .active ∧ s.segs[g].transceiver = .idle then
      State.walkFrom g s.segs[g].sendQueue s else s := by
  simp only [State.walk, isActive_iff, isIdle_iff]
  rfl

/-- No walk on a HELD segment, with a busy transceiver or with an empty queue (R75). -/
theorem walk_none (h : (∃ reason, s.segs[g].state = .held reason) ∨ s.segs[g].transceiver ≠ .idle ∨
    s.segs[g].sendQueue = []) : s.walk g = s := by
  rw [walk_eq]
  split
  · next go =>
    obtain ⟨reason, held⟩ | busy | empty := h
    · exact absurd (held.symm.trans go.1) nofun
    · exact absurd go.2 busy
    · rw [empty]
      rfl
  · rfl

/-- The state t is one that a walk of segment g on s comes through: of the chain only the two queues
have changed, and only slots whose class is shut (R76, R77). -/
structure Walked (s : State) (g : Seg) (t : State) : Prop where
  bank : t.bank = s.bank
  windowOpen : t.windowOpen = s.windowOpen
  clock : t.clock = s.clock
  chain : ∃ deferralQueue sendQueue, t.segs = put s.segs g { s.segs[g] with
    deferralQueue := deferralQueue, sendQueue := sendQueue }
  slots : ∀ (m : SlotNo) (x : Slot), t.buffer.slots[m] = some x → isOpen s x.cls →
    s.buffer.slots[m] = some x

theorem Walked.refl (s : State) (g : Seg) : Walked s g s :=
  ⟨rfl, rfl, rfl, ⟨_, _, (put_get s.segs g).symm⟩, fun _ _ h _ => h⟩

theorem Walked.isOpen (h : Walked s g t) (c : ClassNo) : isOpen t c ↔ isOpen s c := by
  simp only [Safety.isOpen, h.bank, h.windowOpen, h.clock]

theorem Walked.segment (h : Walked s g t) : ∃ deferralQueue sendQueue, t.segs[g] = { s.segs[g] with
    deferralQueue := deferralQueue, sendQueue := sendQueue } := by
  obtain ⟨dq, sq, chain⟩ := h.chain
  exact ⟨dq, sq, by rw [chain, put_same]⟩

theorem Walked.transceiver (h : Walked s g t) : t.segs[g].transceiver = s.segs[g].transceiver := by
  obtain ⟨dq, sq, e⟩ := h.segment
  rw [e]

theorem Walked.outstanding (h : Walked s g t) : t.segs[g].outstanding = s.segs[g].outstanding := by
  obtain ⟨dq, sq, e⟩ := h.segment
  rw [e]

theorem Walked.nextTag (h : Walked s g t) : t.segs[g].nextTag = s.segs[g].nextTag := by
  obtain ⟨dq, sq, e⟩ := h.segment
  rw [e]
  rfl

/-- A slot whose class is shut is handed back with its class unchanged. -/
theorem Walked.handBack (h : Walked s g t) (hr : t.buffer.slots[n] = some r)
    (shut : ¬ Safety.isOpen s r.cls) : Walked s g (t.handBack g n r) := by
  obtain ⟨bank, windowOpen, clock, ⟨dq, sq, chain⟩, slots⟩ := h
  have others : ∀ (y : Slot) (m : SlotNo) (x : Slot), (put t.buffer.slots n (some y))[m] = some x →
      y.cls = r.cls → Safety.isOpen s x.cls → s.buffer.slots[m] = some x := by
    intro y m x hx same opened
    rw [put_apply] at hx
    split at hx
    · obtain rfl := Option.some.inj hx
      exact absurd (same ▸ opened) shut
    · exact slots m x hx opened
  obtain ahead | due := Nat.lt_or_ge t.clock.uptime r.holdDeadline
  · rw [handBack_deferred ahead, hr, chain, put_same, put_put]
    exact ⟨bank, windowOpen, clock, ⟨_, _, rfl⟩, fun m x hx => others _ m x hx rfl⟩
  · rw [handBack_expired due, hr, chain, put_same, put_put]
    exact ⟨bank, windowOpen, clock, ⟨_, _, rfl⟩, fun m x hx => others _ m x hx rfl⟩

/-- The state t is u with a slot of the queue started that may start and whose class is open. -/
def State.StartsFrom (u : State) (g : Seg) (queue : List SlotNo) (t : State) : Prop :=
  ∃ n ∈ queue, ∃ r, u.buffer.slots[n] = some r ∧
    (r.answerExpected = true → u.segs[g].outstanding.length < 4) ∧ isOpen u r.cls ∧ t = u.start g n r

/-- Whatever a walk meets, it passes over and hands back, and then ends or starts a slot. -/
theorem walkFrom_cases (l : List SlotNo) (h : Walked s g t) :
    ∃ u, Walked s g u ∧ (State.walkFrom g l t = u ∨ u.StartsFrom g l (State.walkFrom g l t)) := by
  induction l generalizing t with
  | nil => exact ⟨t, h, .inl rfl⟩
  | cons n rest ih =>
    have later : ∀ {v}, Walked s g v → State.walkFrom g (n :: rest) t = State.walkFrom g rest v →
        ∃ u, Walked s g u ∧ (State.walkFrom g (n :: rest) t = u ∨
          u.StartsFrom g (n :: rest) (State.walkFrom g (n :: rest) t)) := by
      intro v hv e
      obtain ⟨u, hu, ended | ⟨m, hm, started⟩⟩ := ih hv
      · exact ⟨u, hu, .inl (e.trans ended)⟩
      · exact ⟨u, hu, .inr ⟨m, List.mem_cons_of_mem _ hm, e ▸ started⟩⟩
    cases hr : t.slot n with
    | none => exact later h (by rw [State.walkFrom, hr])
    | some r =>
      by_cases may : t.mayStart g r = true
      · by_cases opened : Safety.isOpen t r.cls
        · have may := mayStart_iff.1 may
          exact ⟨t, h, .inr ⟨n, List.mem_cons_self .., r, hr, may, opened,
            walkFrom_starts rest hr may opened⟩⟩
        · exact later (h.handBack hr (mt (h.isOpen _).2 opened))
            (walkFrom_handsBack rest hr (mayStart_iff.1 may) opened)
      · exact later h (by simp only [State.walkFrom, hr, may, if_false, Bool.false_eq_true])

/-- A walk starts a slot on an ACTIVE segment with an IDLE transceiver, or starts none. -/
theorem walk_cases (s : State) (g : Seg) : ∃ u, Walked s g u ∧ (s.walk g = u ∨
    (s.segs[g].state = .active ∧ s.segs[g].transceiver = .idle) ∧
      u.StartsFrom g s.segs[g].sendQueue (s.walk g)) := by
  rw [walk_eq]
  split
  · next go =>
    obtain ⟨u, walked, ended | started⟩ := walkFrom_cases s.segs[g].sendQueue (Walked.refl s g)
    · exact ⟨u, walked, .inl ended⟩
    · exact ⟨u, walked, .inr ⟨go, started⟩⟩
  · exact ⟨s, Walked.refl s g, .inl rfl⟩

/-- What a walk has started when it leaves a transceiver SENDING that was IDLE (R76 to R79). -/
theorem walk_sending {tx : Transmission} (idle : s.segs[g].transceiver = .idle)
    (sends : (s.walk g).segs[g].transceiver = .sending tx) :
    tx.slot ∈ s.segs[g].sendQueue ∧ s.segs[g].state = .active ∧ tx.tag = s.segs[g].nextTag ∧
      ∃ r, s.buffer.slots[tx.slot] = some r ∧ isOpen s r.cls ∧
        (r.answerExpected = true → s.segs[g].outstanding.length < 4) ∧
        (s.walk g).buffer.slots[tx.slot] =
          some { r with attempts := r.attempts + 1, lineTag := some tx.tag } := by
  obtain ⟨u, walked, ended | ⟨⟨active, -⟩, n, hn, r, hr, may, opened, started⟩⟩ := walk_cases s g
  · rw [ended, walked.transceiver, idle] at sends
    cases sends
  · have opened := (walked.isOpen _).1 opened
    rw [started, start_eq hr, put_same] at sends
    obtain rfl := Transceiver.sending.inj sends
    refine ⟨hn, active, walked.nextTag, r, walked.slots n r hr opened, opened, ?_, ?_⟩
    · rw [← walked.outstanding]
      exact may
    · rw [started, start_eq hr]
      exact put_same ..

end Sys2Proof.Machine

namespace Sys2Proof.Proofs

open Sys2Proof.Machine Sys2Proof.Safety

/-- Settles O35: the walk passes over what is held back and starts the first slot that is not. -/
theorem walkStarts : Obligations.WalkStarts := by
  rintro g s t hold rfl
  refine ⟨fun none => ?_, ?_⟩
  · rw [exec_startWalk hold]
    exact congrArg _ (walk_none (s := s.settle (.startWalk g)) none)
  · intro before after n r steps tag active idle queue hr out held may opened low htag taken free
    have next : s.segs[g].nextTag = tag := by
      rw [htag] at free ⊢
      exact nextFreeTag_eq _ 256 steps _ low taken free
    have left : s.segs[g].sendQueue.erase n = before ++ after := by
      rw [queue, List.erase_append_right _ out, List.erase_cons_head]
    rw [exec_startWalk hold,
      walk_passesOver (s := s.settle (.startWalk g)) active idle queue held,
      walkFrom_starts (s := s.settle (.startWalk g)) after hr may opened,
      start_eq (s := s.settle (.startWalk g)) hr]
    simp only [State.settle_segs, left, next, Segment.adopted]
    cases s.segs[g].pendingProfile <;> rfl

/-- Settles O37, by what a walk can do: the slot it starts still has the record it had, since only slots
with a shut class change before. -/
theorem onlyOpenClassesStart : Obligations.OnlyOpenClassesStart := by
  refine ⟨fun g s t tx chain bounds idle e sends => ?_, fun x four eight => ?_⟩
  · cases hold : s.pins.hold with
    | none =>
      rw [exec_startWalk hold] at e
      obtain rfl := Host.Outcome.next.inj e
      obtain ⟨queued, active, tag, started⟩ :=
        walk_sending (s := s.settle (.startWalk g)) idle sends
      have few : (heldTags s.segs[g]).length < 256 := by
        have := chain.outstanding
        have := bounds.rings g
        rw [heldTags_length]
        omega
      obtain ⟨-, -, -, unused, -⟩ := nextTag_free s.segs[g] few
      exact ⟨queued, active, fun held => unused (tag ▸ held), started⟩
    | some h =>
      have stays : exec (.startWalk g) s = .next s :=
        whileRunning_of_hold (fun s => (s.settle (.startWalk g)).walk g) (Option.isSome_of_mem hold)
      obtain rfl := Host.Outcome.next.inj (stays.symm.trans e)
      exact absurd (idle.symm.trans sends) nofun
  · have twelve : (heldTags x).length ≤ 12 := by
      rw [heldTags_length]
      omega
    obtain ⟨k, few, next⟩ := nextTag_free x (by omega)
    exact ⟨k, by omega, next⟩

end Sys2Proof.Proofs
end

