-- ==== Sys2Proof/Proofs/TagsKept.lean ====
section
/-! SUPPORT. The line tags of a segment are kept apart by every step (R79, R105): all but a start only
moves tags on or drops them, and a start takes a free one. -/

namespace Sys2Proof.Machine

open Sys2Proof.Safety

/-! ### The tags of a chain -/

/-- The tag of the telegram that a transceiver sends. -/
def Transceiver.sendingTag : Transceiver → List Byte
  | .sending tx => [tx.tag]
  | _ => []

/-- The tags of a chain: the one being sent, and those its list and ring hold. -/
def Segment.lineTags (x : Segment) : List Byte :=
  x.transceiver.sendingTag ++ heldTags x

/-- A change that leaves on every segment no line tag that was not there, and none more often. -/
def NoNewTag (s t : State) : Prop :=
  ∀ g : Seg, t.segs[g].lineTags.Subperm s.segs[g].lineTags

/-- A change that keeps the tags apart, given that they leave one free. -/
def KeepsTags (s t : State) : Prop :=
  (∀ g : Seg, s.segs[g].lineTags.Nodup ∧ s.segs[g].lineTags.length < 256) → TagsInv t

variable {s t u : State} {g : Seg} {n : SlotNo} {x y : Segment}

theorem tagsInv_iff : TagsInv s ↔ ∀ g : Seg, s.segs[g].lineTags.Nodup := by
  refine forall_congr' fun g => ?_
  rw [Segment.lineTags]
  cases s.segs[g].transceiver <;> simp [Transceiver.sendingTag, and_comm]

theorem lineTags_of_silent (silent : x.transceiver.sendingTag = []) : x.lineTags = heldTags x := by
  rw [Segment.lineTags, silent, List.nil_append]

/-- A chain that sends nothing and holds the tags another holds. -/
theorem lineTags_subperm_of_silent (silent : x.transceiver.sendingTag = [])
    (held : heldTags x = heldTags y) : x.lineTags.Subperm y.lineTags := by
  rw [lineTags_of_silent silent, held]
  exact (List.sublist_append_right ..).subperm

theorem nodup_of_subperm {l m : List Byte} (h : l.Subperm m) (distinct : m.Nodup) : l.Nodup := by
  obtain ⟨k, same, within⟩ := h
  exact same.nodup (distinct.sublist within)

/-- The tag sent becomes the newest of the list (R106). -/
theorem lineTags_awaiting {tx : Transmission} {e : Outstanding} (tag : e.tag = tx.tag)
    (sends : y.transceiver = .sending tx) (silent : x.transceiver.sendingTag = [])
    (held : heldTags x = heldTags y) :
    { x with outstanding := x.outstanding ++ [e] }.lineTags.Subperm y.lineTags := by
  have list : (heldTags { x with outstanding := x.outstanding ++ [e] }).Perm (e.tag :: heldTags x) := by
    rw [heldTags, List.map_append, List.append_assoc]
    exact List.perm_middle
  rw [tag, held] at list
  rw [Segment.lineTags, silent, List.nil_append, Segment.lineTags, sends]
  exact list.subperm

/-- A tag retired goes from the list into the ring (R105). -/
theorem heldTags_retire {e : Outstanding} (he : e ∈ x.outstanding) {z : Retired} (tag : z.tag = e.tag) :
    (heldTags { x with outstanding := x.outstanding.erase e, ring := pushRing x.ring z }).Subperm
      (heldTags x) := by
  have ring : ((pushRing x.ring z).map Retired.tag).Sublist (x.ring.map Retired.tag ++ [e.tag]) := by
    rw [← tag, ← List.map_singleton, ← List.map_append]
    exact (List.drop_sublist ..).map _
  have list : (x.outstanding.map Outstanding.tag).Perm
      (e.tag :: (x.outstanding.erase e).map Outstanding.tag) :=
    (List.perm_cons_erase he).map Outstanding.tag
  refine ((ring.append_left _).subperm).trans (List.Perm.subperm ?_)
  refine List.Perm.trans ?_ (list.symm.append_right _)
  rw [← List.append_assoc]
  exact List.perm_append_singleton ..

/-! ### Changes that bring no tag -/

namespace NoNewTag

theorem refl (s : State) : NoNewTag s s := fun _ => List.Subperm.refl _

theorem trans (h : NoNewTag s t) (k : NoNewTag t u) : NoNewTag s u := fun g => (k g).trans (h g)

theorem foldl {α : Type} {f : State → α → State} (each : ∀ t a, NoNewTag t (f t a)) (l : List α)
    (t : State) : NoNewTag t (l.foldl f t) := by
  induction l generalizing t with
  | nil => exact refl t
  | cons a rest ih => exact (each t a).trans (ih _)

theorem keepsTags (h : NoNewTag s t) : KeepsTags s t := fun apart =>
  tagsInv_iff.2 fun g => nodup_of_subperm (h g) (apart g).1

theorem andThen (h : NoNewTag s t) (k : KeepsTags t u) : KeepsTags s u := fun apart =>
  k fun g => ⟨nodup_of_subperm (h g) (apart g).1, (h g).length_le.trans_lt (apart g).2⟩

variable (h : NoNewTag s t)
include h

/-- A change that touches no chain. -/
theorem still (e : u.segs = t.segs) : NoNewTag s u := by
  intro g
  rw [e]
  exact h g

/-- A chain is replaced. -/
theorem chain (e : u.segs = put t.segs g x) (tags : x.lineTags.Subperm t.segs[g].lineTags) :
    NoNewTag s u := by
  refine h.trans fun k => ?_
  rw [e, put_apply]
  split
  · next same => exact same ▸ tags
  · exact List.Subperm.refl _

/-- A chain is replaced by one with the same tags. -/
theorem sameTags (e : u.segs = put t.segs g x) (tags : x.lineTags = t.segs[g].lineTags) :
    NoNewTag s u :=
  h.chain e (List.Perm.of_eq tags).subperm

theorem count (c : CounterId) : NoNewTag s (t.count c) := h.still rfl

theorem owe (o : Occasion) : NoNewTag s (t.owe o) := h.still rfl

theorem reach (instant : Nat) : NoNewTag s (t.reach instant) := h.still rfl

theorem settle (o : Occasion) : NoNewTag s (t.settle o) := h.still rfl

theorem frameTaken : NoNewTag s t.frameTaken := h.still rfl

theorem assemble (a : Assembler) : NoNewTag s (t.assemble a) := h.still rfl

theorem report (o : ReportOutcome) (a : Option AnswerPart) : NoNewTag s (t.report n o a) := h.still rfl

theorem pushReport (x : Report) : NoNewTag s (t.pushReport x) := h.still (State.pushReport_segs ..)

theorem pushResponse (x : Response) : NoNewTag s (t.pushResponse x) :=
  h.still (State.pushResponse_segs ..)

theorem evaluateWindows : NoNewTag s t.evaluateWindows := h.still (State.evaluateWindows_segs _)

theorem oweExaminations : NoNewTag s t.oweExaminations := h.still rfl

theorem setSeg (tags : x.lineTags = t.segs[g].lineTags) : NoNewTag s (t.setSeg g x) :=
  h.sameTags rfl tags

/-- A chain is replaced by one that sends nothing and holds the same tags. -/
theorem setSilent (silent : x.transceiver.sendingTag = []) (held : heldTags x = heldTags t.segs[g]) :
    NoNewTag s (t.setSeg g x) :=
  h.chain rfl (lineTags_subperm_of_silent silent held)

/-! ### The Release Unit and the Segment Scheduler -/

theorem endDeferred (o : ReportOutcome) (a : Option AnswerPart) :
    NoNewTag s (t.endDeferred g o a n) := h.sameTags rfl rfl

theorem endQueued (o : ReportOutcome) (a : Option AnswerPart) :
    NoNewTag s (t.endQueued g o a n) := h.sameTags rfl rfl

theorem endAllDeferred (o : ReportOutcome) (test : Slot → Bool) :
    NoNewTag s (t.endAllDeferred g o test) :=
  h.trans (foldl (fun u _ => (refl u).endDeferred o none) _ t)

theorem endAllQueued (o : ReportOutcome) (test : Slot → Bool) :
    NoNewTag s (t.endAllQueued g o test) :=
  h.trans (foldl (fun u _ => (refl u).endQueued o none) _ t)

theorem release : NoNewTag s (t.release g n) := by
  have left : NoNewTag s (t.leaveDeferralQueue g n) := h.sameTags rfl rfl
  have joined : NoNewTag s (((t.leaveDeferralQueue g n).joinFresh g n).count Counter.releases) :=
    left.sameTags (g := g) rfl rfl
  unfold State.release State.startPacer
  split
  · exact joined
  · exact joined.sameTags rfl rfl

theorem examine : NoNewTag s (t.examine g) := by
  unfold State.examine
  induction Config.sendQueueLimit generalizing t with
  | zero => exact h
  | succ fuel ih =>
    rw [State.releaseWhile]
    split
    · exact ih h.release
    · exact h

theorem endPacerGap : NoNewTag s (t.endPacerGap g) := by
  unfold State.endPacerGap
  split
  · next endsAt _ =>
    refine examine (setSeg (h.reach endsAt) ?_)
    rfl
  · exact h

theorem walked (k : Walked t g u) : NoNewTag s u := by
  obtain ⟨dq, sq, e⟩ := k.chain
  exact h.sameTags e rfl

theorem holdForFault (fault : LineFault) : NoNewTag s (t.holdForFault g fault) :=
  h.sameTags (State.queueNotice_segs ..) rfl

theorem raiseStreak : NoNewTag s (t.raiseStreak g) := by
  have raised : ∀ streak, NoNewTag s ((t.count (Counter.conflicts g)).setSeg g { t.seg g with
      conflictStreak := streak }) := fun _ => h.sameTags rfl rfl
  unfold State.raiseStreak
  dsimp only
  split
  · exact (raised _).holdForFault _
  · exact raised _

/-! ### The segment line -/

theorem enterQuiet : NoNewTag s (t.enterQuiet g) := h.setSilent rfl rfl

theorem retire {e : Outstanding} (he : e ∈ t.segs[g].outstanding) (reason : RetireReason) :
    NoNewTag s (t.retire g e reason) :=
  h.chain rfl ((List.subperm_append_left _).2 (heldTags_retire he rfl))

theorem retryDecision (o : ReportOutcome) : NoNewTag s (t.retryDecision g n o) := by
  unfold State.retryDecision
  split
  · exact h
  · split
    · split
      · exact h.sameTags rfl rfl
      · exact h.still rfl
    · exact h.still rfl

/-- The tag sent goes into the Outstanding List or is dropped (R106). -/
theorem afterTransmission {tx : Transmission} (sends : t.segs[g].transceiver = .sending tx)
    (e : u.segs = put t.segs g x) (silent : x.transceiver.sendingTag = [])
    (held : heldTags x = heldTags t.segs[g]) : NoNewTag s (u.afterTransmission g tx) := by
  have ended : NoNewTag s u := h.chain e (lineTags_subperm_of_silent silent held)
  unfold State.afterTransmission
  split
  · exact ended
  · next r _ =>
    split
    · refine h.chain (g := g) (x := { x with outstanding := x.outstanding ++
        [{ tag := tx.tag, device := r.device, slot := tx.slot,
           expiry := u.pins.now + r.answerTimeoutMs * Config.millisecond }] }) ?_ ?_
      · rw [setSeg_eq, State.seg, e, put_same, put_put]
      · exact lineTags_awaiting rfl sends silent held
    · exact ended.report _ _

theorem endTransmission : NoNewTag s (t.endTransmission g) := by
  unfold State.endTransmission
  split
  · next tx sends =>
    refine h.afterTransmission sends (x := { t.segs[g] with
      transceiver := .quiet (max t.pins.now (tx.startedAt + (t.seg g).profile.duration tx.telegram) +
        t.segs[g].profile.quietGap * 288000)
      conflictStreak := 0 }) ?_ rfl rfl
    simp only [State.clearStreak, enterQuiet_eq, setSeg_eq, State.seg, put_same, put_put]
    rfl
  · exact h

theorem abort (k : Nat) (sensed : Wire) : NoNewTag s (t.abort g k sensed) := by
  unfold State.abort
  split
  · split
    · exact (h.reach _).enterQuiet.raiseStreak.retryDecision _
    · exact h
  · exact h

theorem timeOut (tag : Byte) : NoNewTag s (t.timeOut g tag) := by
  unfold State.timeOut
  split
  · exact h
  · next e found =>
    exact (((h.reach e.expiry).retire (List.mem_of_find?_eq_some found) _).count _).retryDecision _

theorem lateAnswer (x : Retired) (a : AnswerPart) : NoNewTag s (t.lateAnswer g x a) := by
  unfold State.lateAnswer
  split
  · exact h.still rfl
  · have marked : NoNewTag s (t.setSeg g { t.seg g with
        ring := (t.seg g).ring.map fun y =>
          if y.tag = x.tag ∧ y.device = x.device then { y with reason := .answered } else y }) := by
      have tags : Retired.tag ∘ (fun y : Retired =>
          if y.tag = x.tag ∧ y.device = x.device then { y with reason := .answered } else y) =
          Retired.tag := by
        funext y
        dsimp only [Function.comp_apply]
        split <;> rfl
      refine h.setSeg ?_
      simp only [Segment.lineTags, heldTags, List.map_map, tags]
      rfl
    dsimp only
    split
    · exact marked.endDeferred _ _
    · exact marked.endQueued _ _

theorem resolve (a : LineAnswer) : NoNewTag s (t.resolve g a) := by
  unfold State.resolve
  split
  · next e found =>
    split
    · exact (h.retire (List.mem_of_find?_eq_some found) .answered).still rfl
    · exact h.still rfl
  · split
    · split
      · exact h.still rfl
      · exact h.lateAnswer _ _
    · exact h.still rfl

theorem endReception (line : List LineSpan) : NoNewTag s (t.endReception g line) := by
  unfold State.endReception
  split
  · dsimp only
    split
    · exact (h.reach _).enterQuiet.resolve _
    · exact (h.reach _).enterQuiet.count _
  · exact h

theorem beginReception (sensed : Wire) : NoNewTag s (t.beginReception g sensed) := by
  unfold State.beginReception
  split
  · dsimp only
    split
    · exact h.setSilent rfl rfl
    · exact h.setSilent rfl rfl
    · exact h
    · exact h
  · exact h

theorem stuckLine (line : List LineSpan) : NoNewTag s (t.stuckLine g line) := by
  unfold State.stuckLine
  split
  · dsimp only
    split
    · exact h
    · refine holdForFault (setSilent (h.reach _) ?_ ?_) _
      · rfl
      · rfl
  · exact h

/-! ### Reports and admission -/

theorem formReport : NoNewTag s t.formReport := by
  have formed : ∀ {n rest}, (t.formOldest n rest).segs = t.segs := by
    intro n rest
    unfold State.formOldest
    dsimp only
    split
    · rfl
    · split <;> simp
  unfold State.formReport
  split
  · exact h
  · split
    · exact h.still formed
    · exact h

theorem arbitrate : NoNewTag s t.arbitrate := by
  unfold State.arbitrate State.takeEntry
  split
  · split
    · exact h.still rfl
    · split
      · exact h.still rfl
      · split
        · exact h.still rfl
        · exact h
  · exact h

theorem refuse (c : CommandTelegram) (o : ReportOutcome) (x : Option Seg) :
    NoNewTag s (t.refuse c o x) := by
  unfold State.refuse
  split <;> exact h.still (by simp)

theorem takeSlot {p : Fin 4} {record : Intake → Slot} (taken : t.takeSlot p record = some (n, u)) :
    NoNewTag s u := by
  unfold State.takeSlot at taken
  split at taken
  · obtain ⟨rfl, rfl⟩ := Prod.mk.inj (Option.some.inj taken)
    exact h.still (by simp)
  · split at taken
    · cases taken
    · next k m x _ =>
      split at taken
      · obtain ⟨rfl, rfl⟩ := Prod.mk.inj (Option.some.inj taken)
        refine h.sameTags (g := k) (State.pushReport_segs ..) rfl
      · cases taken

theorem deferNew (r : Slot) (reason : DeferralReason) : NoNewTag s (t.deferNew g n r reason) := by
  have deferred : NoNewTag s ((t.deferAtBack g n reason).count Counter.deferrals) := h.sameTags rfl rfl
  unfold State.deferNew State.interim
  split
  · split
    · exact deferred.pushReport _
    · exact deferred.count _
  · exact deferred

theorem place (r : Slot) (holdLimit : Nat) : NoNewTag s (t.place g n r holdLimit) := by
  unfold State.place
  split
  · exact h.deferNew _ _
  · split
    · exact h.deferNew _ _
    · split
      · exact h.sameTags rfl rfl
      · exact h.deferNew _ _

theorem admitRouted (c : CommandTelegram) (p : ClassPolicy) : NoNewTag s (t.admitRouted c p g) := by
  unfold State.admitRouted
  split
  · exact h.refuse _ _ _
  · next taken =>
    split
    · exact (h.takeSlot taken).place _ _
    · exact h.takeSlot taken

theorem takeCommand (c : CommandTelegram) : NoNewTag s (t.takeCommand c) := by
  unfold State.takeCommand State.admitScreened
  split
  · exact h.still rfl
  · split
    · exact h.refuse _ _ _
    · split
      · exact h.refuse _ _ _
      · split
        · exact h.refuse _ _ _
        · split
          · exact h.refuse _ _ _
          · split
            · exact h.refuse _ _ _
            · exact h.admitRouted _ _

/-! ### PURGE, FLUSH, the commit end and the resets -/

theorem purgeSegment (test : Slot → Bool) (queued : Bool) :
    NoNewTag s (State.purgeSegment test queued t g) := by
  unfold State.purgeSegment
  dsimp only
  split
  · exact (h.endAllDeferred _ _).endAllQueued _ _
  · exact h.endAllDeferred _ _

/-- With the list and the ring empty and nothing sent there is no tag. -/
theorem flush : NoNewTag s t.flush := by
  refine h.trans fun g => ?_
  have none : ((t.segs[g]).flush t.pins.now).lineTags = [] := by
    rw [lineTags_of_silent] <;> unfold Segment.flush
    · rfl
    · dsimp only
      cases t.segs[g].transceiver <;> rfl
  have chain : t.flush.segs[g] = (t.segs[g]).flush t.pins.now := by
    rw [State.flush, State.checkClear_segs]
    exact segs_ofFn _ g
  rw [chain, none]
  exact List.nil_subperm

omit h in
theorem reset (s t : State) (cause : StartCause) (straps : StrapPins) :
    NoNewTag s (t.resetTakesEffect cause straps) := by
  intro g
  have cleared : (t.resetTakesEffect cause straps).segs[g] = Segment.atReset :=
    afterReset_seg (cause := cause) (straps := straps) g
  rw [cleared]
  exact List.nil_subperm

theorem withdraw : NoNewTag s (t.withdraw g) :=
  (h.endAllDeferred _ _).endAllQueued _ _

theorem endCommit : NoNewTag s t.endCommit := by
  unfold State.endCommit
  split
  · exact h
  · next endsAt source seq _ =>
    split
    · refine pushResponse (still h ?_) _
      rfl
    · have swapped : NoNewTag s ((t.reach endsAt).swapTables source seq) := by
        refine pushResponse (still h ?_) _
        rfl
      exact swapped.withdraw.withdraw.withdraw.withdraw.evaluateWindows.oweExaminations

theorem endTrunkTransmission (straps : StrapPins) : NoNewTag s (t.endTrunkTransmission straps) := by
  unfold State.endTrunkTransmission
  split
  · exact h
  · split
    · exact reset _ _ _ _
    · exact h.still rfl

theorem raiseRstN (straps : StrapPins) : NoNewTag s (t.raiseRstN straps) := by
  unfold State.raiseRstN
  dsimp only
  split
  · exact h.still rfl
  · split
    · exact reset _ _ _ _
    · exact h.still rfl

theorem clearCounters (first count : Nat) : NoNewTag s (t.clearCounters first count) := by
  unfold State.clearCounters
  exact h.still rfl

theorem edge : NoNewTag s t.edge := by
  have ticked : NoNewTag s { t.reach t.clock.nextEdge with clock := t.clock.tick } := h.still rfl
  exact ((((ticked.evaluateWindows.owe _).owe _).owe _).owe _)

theorem fallSupply : NoNewTag s t.fallSupply := by
  unfold State.fallSupply
  split
  · exact h.still rfl
  · exact h

theorem riseSupply : NoNewTag s t.riseSupply := by
  unfold State.riseSupply
  split
  · exact h
  · exact h.still rfl

theorem lowerRstN : NoNewTag s t.lowerRstN := by
  unfold State.lowerRstN
  split <;> exact h.still rfl

theorem endPowerOnHold (straps : StrapPins) : NoNewTag s (t.endPowerOnHold straps) := by
  unfold State.endPowerOnHold
  split
  · exact h
  · split
    · exact h
    · dsimp only
      split
      · exact reset _ _ _ _
      · exact h.still rfl

end NoNewTag

/-! ### The start walk -/

/-- A start takes a tag that stands in neither the list nor the ring (R79). -/
theorem keepsTags_start {r : Slot} (hr : s.buffer.slots[n] = some r)
    (idle : s.segs[g].transceiver = .idle) : KeepsTags s (s.start g n r) := by
  refine fun apart => tagsInv_iff.2 fun k => ?_
  rw [start_eq hr]
  dsimp only
  rw [put_apply]
  split
  · obtain ⟨distinct, few⟩ := apart g
    rw [lineTags_of_silent (by rw [idle]; rfl)] at distinct few
    obtain ⟨-, -, -, unused, -⟩ := nextTag_free s.segs[g] few
    exact List.nodup_cons.2 ⟨unused, distinct⟩
  · exact (apart k).1

theorem keepsTags_walk (s : State) (g : Seg) : KeepsTags s (s.walk g) := by
  obtain ⟨u, walked, ended | ⟨⟨-, idle⟩, n, -, r, hr, -, -, started⟩⟩ := walk_cases s g
  · exact ended ▸ ((NoNewTag.refl s).walked walked).keepsTags
  · rw [started]
    exact ((NoNewTag.refl s).walked walked).andThen
      (keepsTags_start hr (walked.transceiver.trans idle))

theorem keepsTags_endQuietGap : KeepsTags s (s.endQuietGap g) := by
  unfold State.endQuietGap
  split
  · refine NoNewTag.andThen (((NoNewTag.refl s).reach _).setSilent ?_ ?_) (keepsTags_walk _ g)
    · rfl
    · rfl
  · exact (NoNewTag.refl s).keepsTags

/-! ### Requests -/

/-- What a verdict leaves brings no tag, and what follows its response keeps them apart. -/
def Verdict.KeepsTags (s : State) : Verdict → Prop
  | .fail _ => True
  | .done _ after consequence =>
    NoNewTag s after ∧ ∀ t, NoNewTag s t → Machine.KeepsTags s (consequence t)
  | .started after => NoNewTag s after

theorem Verdict.Keeps.keepsTags {v : Verdict} (h : v.Keeps (NoNewTag s)) : v.KeepsTags s := by
  cases v with
  | fail status => trivial
  | done result after consequence => exact ⟨h.1, fun t ht => (h.2 t ht).keepsTags⟩
  | started after => exact h

section requests

open StepRules

variable (h : NoNewTag s t)
include h

theorem noNewTag_setClock (params : List Byte) : (ownSetClock params t).Keeps (NoNewTag s) := by
  unfold ownSetClock
  split
  · split
    · exact keeps_doneWith (NoNewTag.evaluateWindows (h.still rfl))
    · trivial
  · trivial

theorem noNewTag_adjustClock (params : List Byte) :
    (ownAdjustClock params t).Keeps (NoNewTag s) := by
  unfold ownAdjustClock
  split
  · split
    · trivial
    · split
      · trivial
      · exact ⟨NoNewTag.evaluateWindows (h.still rfl), fun _ hu => hu⟩
  · trivial

theorem noNewTag_writeEntry (params : List Byte) : (ownWriteEntry params t).Keeps (NoNewTag s) := by
  unfold ownWriteEntry
  split
  · split
    · trivial
    · split
      · trivial
      · split
        · exact keeps_doneWith (h.still rfl)
        · split
          · split
            · exact keeps_doneWith (h.still rfl)
            · trivial
          · trivial
  · trivial

theorem noNewTag_setProfile (params : List Byte) : (ownSetProfile params t).Keeps (NoNewTag s) := by
  unfold ownSetProfile
  split
  · refine keeps_withSegment fun g => ?_
    dsimp only
    split
    · exact keeps_doneWith (h.setSeg rfl)
    · trivial
  · trivial

theorem noNewTag_setPacing (params : List Byte) : (ownSetPacing params t).Keeps (NoNewTag s) := by
  unfold ownSetPacing
  split
  · exact keeps_withSegment fun g => ⟨h.setSeg rfl, fun _ hu => hu.examine⟩
  · trivial

theorem noNewTag_holdSegment (params : List Byte) :
    (ownHoldSegment params t).Keeps (NoNewTag s) := by
  unfold ownHoldSegment
  split
  · exact keeps_withSegment fun g => keeps_doneWith (h.setSeg rfl)
  · trivial

theorem noNewTag_purge (params : List Byte) : (ownPurge params t).Keeps (NoNewTag s) := by
  unfold ownPurge
  split
  · split
    · split
      · exact ⟨h.trans (NoNewTag.foldl (fun u _ => (NoNewTag.refl u).purgeSegment _ _) _ t),
          fun _ hu => hu⟩
      · trivial
    · trivial
  · trivial

theorem noNewTag_readCounters (params : List Byte) :
    (ownReadCounters params t).Keeps (NoNewTag s) := by
  unfold ownReadCounters
  split
  · split
    · trivial
    · split
      · trivial
      · refine ⟨?_, fun _ hu => hu⟩
        split
        · exact h.clearCounters _ _
        · exact h
  · trivial

theorem noNewTag_setNoticeAddress (params : List Byte) :
    (ownSetNoticeAddress params t).Keeps (NoNewTag s) := by
  unfold ownSetNoticeAddress
  split
  · split
    · trivial
    · split
      · trivial
      · exact keeps_doneWith (h.still rfl)
  · trivial

theorem noNewTag_setManagers (params : List Byte) :
    (ownSetManagers params t).Keeps (NoNewTag s) := by
  unfold ownSetManagers
  split
  · split
    · trivial
    · split
      · trivial
      · split
        · trivial
        · exact keeps_doneWith (h.still rfl)
  · trivial

/-- RESUME_SEGMENT is the one request that a start may follow (R82). -/
theorem keepsTags_resumeSegment (params : List Byte) : (ownResumeSegment params t).KeepsTags s := by
  unfold ownResumeSegment
  split
  · unfold withSegment
    split
    · exact ⟨h.setSeg rfl, fun u hu => hu.andThen (keepsTags_walk u _)⟩
    · trivial
  · trivial

theorem keepsTags_takeRequest (c : RequestClass) (r : Request) {own : State → Verdict}
    (keeps : (own t).KeepsTags s) : KeepsTags s (t.takeRequest c r own) := by
  have respond : ∀ {u : State} (code : Byte) (status : Status) (result : List Byte), NoNewTag s u →
      NoNewTag s (u.respond code r status result) := fun _ _ _ hu => hu.pushResponse _
  unfold State.takeRequest State.carryOut
  split
  · exact (h.count _).keepsTags
  · split
    · exact (h.count _).keepsTags
    · split
      · exact (respond _ _ _ h).keepsTags
      · split
        · exact (respond _ _ _ h).keepsTags
        · split
          · exact (respond _ _ _ (h.count _)).keepsTags
          · split
            · exact (respond _ _ _ h).keepsTags
            · split
              · exact (respond _ _ _ h).keepsTags
              · next e =>
                rw [e] at keeps
                exact keeps.2 _ (respond _ _ _ keeps.1)
              · next e =>
                rw [e] at keeps
                exact NoNewTag.keepsTags keeps

theorem keepsTags_takeCode (code : Byte) (r : Request) : KeepsTags s (t.takeCode code r) := by
  have take : ∀ c {own : State → Verdict}, (own t).Keeps (NoNewTag s) →
      KeepsTags s (t.takeRequest c r own) := fun c _ keeps =>
    keepsTags_takeRequest h c r keeps.keepsTags
  unfold State.takeCode
  split
  · exact take _ ⟨h, fun _ hu => hu⟩
  · exact take _ (keeps_readClock h)
  · exact take _ (noNewTag_setClock h _)
  · exact take _ (noNewTag_adjustClock h _)
  · exact take _ (keeps_readEntry h _)
  · exact take _ (noNewTag_writeEntry h _)
  · exact take _ (keeps_doneWith (h.still rfl))
  · exact take _ (keeps_doneWith (h.still rfl))
  · exact take _ (NoNewTag.still (u := { t with agent.commit := _ }) h rfl)
  · exact take _ (noNewTag_setProfile h _)
  · exact take _ (keeps_readProfile h _)
  · exact take _ (noNewTag_setPacing h _)
  · exact take _ (noNewTag_holdSegment h _)
  · exact keepsTags_takeRequest h _ r (keepsTags_resumeSegment h _)
  · exact take _ (noNewTag_purge h _)
  · exact take _ ⟨h, fun _ hu => hu⟩
  · exact take _ (noNewTag_readCounters h _)
  · exact take _ (noNewTag_setNoticeAddress h _)
  · exact take _ ⟨h.flush, fun _ hu => hu⟩
  · exact take _ (keeps_doneWith (h.still rfl))
  · exact take _ (noNewTag_setManagers h _)
  · exact take _ trivial

theorem keepsTags_takePayload (source : Addr) (seq : Byte) (payload : List Byte) :
    KeepsTags s (t.takePayload source seq payload) := by
  unfold State.takePayload
  split
  · exact keepsTags_takeRequest h _ _ trivial
  · exact keepsTags_takeCode h _ _

end requests

/-! ### Every command -/

theorem keepsTags_completeFrame (len : Byte) (body crc : List Byte) :
    KeepsTags s (s.completeFrame len body crc) := by
  have taken := (NoNewTag.refl s).frameTaken
  unfold State.completeFrame
  split
  · exact (taken.count _).keepsTags
  · exact (taken.takeCommand _).keepsTags
  · exact keepsTags_takePayload taken _ _ _

theorem NoNewTag.dropFrame (h : NoNewTag s t) : NoNewTag s t.dropFrame := (h.assemble _).count _

theorem keepsTags_receiveByte (b : Byte) : KeepsTags s (s.receiveByte b) := by
  have assembled : ∀ a, KeepsTags s (s.assemble a) := fun a => ((NoNewTag.refl s).assemble a).keepsTags
  have same := NoNewTag.refl s
  unfold State.receiveByte
  split
  · split
    · exact assembled _
    · exact same.keepsTags
  · split
    · exact assembled _
    · exact same.dropFrame.keepsTags
  · split <;> exact assembled _
  · exact assembled _
  · exact keepsTags_completeFrame _ _ _

theorem NoNewTag.breakFrame (h : NoNewTag s t) : NoNewTag s t.breakFrame := by
  unfold State.breakFrame
  split
  · exact h
  all_goals exact h.dropFrame

theorem keepsTags_exec (i : Instr) (e : exec i s = .next t) : KeepsTags s t := by
  have same := NoNewTag.refl s
  have running : ∀ {effect : State → State}, whileRunning effect s = .next t →
      KeepsTags s (effect s) → KeepsTags s t := fun e after =>
    StepRules.whileRunning (Q := KeepsTags s) e same.keepsTags after
  have noTag : ∀ {effect : State → State}, whileRunning effect s = .next t →
      NoNewTag s (effect s) → KeepsTags s t := fun e after => running e after.keepsTags
  have request : ∀ code r, KeepsTags s (s.frameTaken.takeCode code r) :=
    keepsTags_takeCode same.frameTaken
  have next : ∀ {u : State}, Host.Outcome.next (φ := Fault) (ρ := Refusal) u = .next t →
      NoNewTag s u → KeepsTags s t := fun e after => (StepRules.next e after).keepsTags
  unfold exec at e
  cases i with
  | admission telegram =>
    refine noTag e ?_
    split
    · exact same.frameTaken.takeCommand _
    · exact same.frameTaken.count _
  | trunkFrameDiscarded frame => exact running e (keepsTags_completeFrame _ _ _)
  | gapTimeout => exact noTag e same.breakFrame
  | byteFramingError => exact noTag e same.breakFrame
  | unknownRequest source seq payload =>
    exact running e (keepsTags_takePayload same.frameTaken _ _ _)
  | readStatus r => exact running e (request 1 r)
  | readClock r => exact running e (request 2 r)
  | setClock r => exact running e (request 3 r)
  | adjustClock r => exact running e (request 4 r)
  | readEntry r => exact running e (request 5 r)
  | writeEntry r => exact running e (request 6 r)
  | copyActive r => exact running e (request 7 r)
  | discardStaging r => exact running e (request 8 r)
  | commit r => exact running e (request 9 r)
  | commitEnd => exact noTag e same.endCommit
  | setProfile r => exact running e (request 10 r)
  | readProfile r => exact running e (request 11 r)
  | setPacing r => exact running e (request 12 r)
  | holdSegment r => exact running e (request 13 r)
  | resumeSegment r => exact running e (request 14 r)
  | purge r => exact running e (request 15 r)
  | readQueue r => exact running e (request 16 r)
  | readCounters r => exact running e (request 17 r)
  | setNoticeAddress r => exact running e (request 18 r)
  | setManagers r => exact running e (request 21 r)
  | flush r => exact running e (request 19 r)
  | restart r => exact running e (request 20 r)
  | secondEdge => exact noTag e same.edge
  | expiryCheck g => exact noTag e ((same.settle _).endAllDeferred _ _)
  | examination g => exact noTag e (same.settle _).examine
  | pacerGapEnd g => exact noTag e same.endPacerGap
  | startWalk g => exact running e ((same.settle _).andThen (keepsTags_walk _ g))
  | conflictAbort g unit sensed => exact noTag e (same.abort _ _)
  | transmissionEnd g => exact noTag e same.endTransmission
  | quietGapEnd g => exact running e keepsTags_endQuietGap
  | lineActivity g sensed => exact noTag e (same.beginReception _)
  | stuckLine record => exact noTag e (same.stuckLine _)
  | receptionEnd g line => exact noTag e (same.endReception _)
  | answerTimerExpiry g tag => exact noTag e (same.timeOut _)
  | reportFormation => exact noTag e (same.settle _).formReport
  | arbiterTake => exact noTag e (same.settle _).arbitrate
  | trunkTransmissionEnd pins => exact noTag e (same.endTrunkTransmission pins)
  | supplyFall => exact next e same.fallSupply
  | powerOnHoldEnd pins => exact next e (same.endPowerOnHold pins)
  | rstNLow => exact next e same.lowerRstN
  | rstNHigh pins => exact next e (same.raiseRstN pins)
  | byteReceived b => exact running e (keepsTags_receiveByte b)
  | supplyRise => exact next e same.riseSupply

theorem keepsTags_step (e : step s = .next t) : KeepsTags s t := by
  unfold step at e
  split at e
  · exact StepRules.next e (NoNewTag.refl s).keepsTags
  · next c rest _ =>
    exact ((NoNewTag.refl s).still (u := s.withPending rest) rfl).andThen (keepsTags_exec c e)

end Sys2Proof.Machine

namespace Sys2Proof.Proofs

open Sys2Proof.Machine Sys2Proof.Safety

/-- Settles O56: a step only moves tags on or drops them, but for a start, whose tag is free since list
and ring hold at most twelve. -/
theorem stepsKeepTheTags : Obligations.StepsKeepTheTags := by
  intro s t _ chains bounds tags e
  refine keepsTags_step e fun g => ⟨tagsInv_iff.1 tags g, ?_⟩
  have list := (chains g).outstanding
  have ring := bounds.rings g
  have sending : s.segs[g].transceiver.sendingTag.length ≤ 1 := by
    cases s.segs[g].transceiver <;> simp [Transceiver.sendingTag]
  rw [Segment.lineTags, List.length_append, heldTags_length]
  omega

end Sys2Proof.Proofs
end

