-- ==== Sys2Proof/Proofs/SegmentStates.lean ====
section
/-! SUPPORT. HOLD_SEGMENT and RESUME_SEGMENT: the state of one segment, the response, and the walk that
a resumption brings (R81, R82). -/

namespace Sys2Proof.Machine

open Sys2Proof.Safety

variable {s t : State} {g : Seg}

/-! ### HOLD_SEGMENT -/

theorem exec_holdSegment {r : Request} {b : Byte} (params : r.params = [b])
    (hold : s.pins.hold = none) :
    exec (.holdSegment r) s = .next (s.frameTaken.takeRequest
      { code := 0x0D, lengthOk := true, write := true, barred := false } r (ownHoldSegment [b])) := by
  have e := whileRunning_of_no_hold (fun s => s.frameTaken.takeHoldSegment r) hold
  rw [State.takeHoldSegment, params] at e
  exact e

/-- The own part of HOLD_SEGMENT of a segment that exists (R81). -/
theorem ownHoldSegment_done {b : Byte} (h : g.val = b.toNat) :
    ownHoldSegment [b] s.frameTaken =
      .done [] { s with segs := put s.segs g { s.segs[g] with state := .held .byRequest } }.frameTaken
        id :=
  withSegment_of_val h _

/-! ### RESUME_SEGMENT -/

theorem exec_resumeSegment {r : Request} {b : Byte} (params : r.params = [b])
    (hold : s.pins.hold = none) :
    exec (.resumeSegment r) s = .next (s.frameTaken.takeRequest
      { code := 0x0E, lengthOk := true, write := true, barred := false } r (ownResumeSegment [b])) := by
  have e := whileRunning_of_no_hold (fun s => s.frameTaken.takeResumeSegment r) hold
  rw [State.takeResumeSegment, params] at e
  exact e

/-- The own part of RESUME_SEGMENT of a segment that exists (R82). -/
theorem ownResumeSegment_done {b : Byte} (h : g.val = b.toNat) :
    ownResumeSegment [b] s.frameTaken =
      .done [] { s with segs := put s.segs g { s.segs[g] with
          state := .active, conflictStreak := 0 } }.frameTaken fun t => t.walk g :=
  withSegment_of_val h _

/-- A START_WALK takes its own occasion from the front of those owed. -/
theorem exec_startWalk_owed (hold : s.pins.hold = none) :
    exec (.startWalk g) { s with occasions := .startWalk g :: s.occasions } = .next (s.walk g) := by
  rw [exec_startWalk (s := { s with occasions := .startWalk g :: s.occasions }) hold]
  simp only [State.settle, List.erase_cons_head]

end Sys2Proof.Machine

namespace Sys2Proof.Proofs

open Sys2Proof.Machine Sys2Proof.Safety

/-- Settles O15: the own part of the request writes the segment state and nothing else. -/
theorem segmentIsHeld : Obligations.SegmentIsHeld := by
  intro r b s params accepts
  rw [exec_holdSegment params accepts.running]
  refine ⟨fun bad => ?_, fun g named => ?_⟩
  · exact congrArg _ (takeRequest_fail accepts _ (withSegment_of_high bad _))
  · exact congrArg _ (takeRequest_done accepts _ (ownHoldSegment_done named))

/-- Settles O16: the state and the streak are written, and the walk that follows the response is that of
a START_WALK. -/
theorem segmentIsResumed : Obligations.SegmentIsResumed := by
  intro r b s params accepts
  rw [exec_resumeSegment params accepts.running]
  refine ⟨fun bad => ?_, ?_⟩
  · exact congrArg _ (takeRequest_fail accepts _ (withSegment_of_high bad _))
  · intro g named t ht
    have running : t.pins.hold = none := by
      rw [ht]
      exact accepts.running
    have chain : t.segs[g] = { s.segs[g] with state := .active, conflictStreak := 0 } := by
      rw [ht, answered, put_same]
    rw [takeRequest_done_then accepts _ (ownResumeSegment_done named), ← ht]
    refine ⟨fun none => congrArg _ (walk_none ?_), (exec_startWalk_owed running).symm⟩
    rw [chain]
    exact .inr none.symm

end Sys2Proof.Proofs
end

