-- ==== Sys2Proof/Proofs/LineEvents.lean ====
section
/-! SUPPORT. The events of a segment line beside a reception's end: the retry decision (R109), the hold
for a line fault (R83, R84), the ends of a transmission and of a quiet gap, answer timers, and the
beginning of a reception. -/

namespace Sys2Proof.Machine

open Sys2Proof.Safety

variable {s t : State} {g : Seg} {n : SlotNo} {r : Slot} {p : Profile}

/-! ### The retry decision -/

theorem insertReentry_congr (same : t.priorityOf = s.priorityOf) :
    t.insertReentry = s.insertReentry := by
  funext queue n p
  simp only [State.insertReentry, same]

/-- A slot with an attempt left and a defined class goes to the front of its level (R74, R109). -/
theorem retryDecision_reenters {higher lower : List SlotNo} (failure : ReportOutcome)
    (hr : s.buffer.slots[n] = some r) (left : r.attempts < 1 + r.retryLimit.val)
    (defined : (s.bank.active.classes[r.cls]).isSome = true)
    (split : splitsAbove s s.segs[g].sendQueue higher lower r.priority) :
    s.retryDecision g n failure = { s with
      segs := put s.segs g { s.segs[g] with sendQueue := higher ++ n :: lower }
      buffer.slots := put s.buffer.slots n (some { r with lineTag := none })
      occasions := s.occasions ++ [.startWalk g] } := by
  have untagged : (s.modifySlot n fun x => { x with lineTag := none }) =
      { s with buffer.slots := put s.buffer.slots n (some { r with lineTag := none }) } := by
    rw [State.modifySlot, show s.slot n = some r from hr]
    rfl
  have same : State.priorityOf
      { s with buffer.slots := put s.buffer.slots n (some { r with lineTag := none }) } =
      s.priorityOf := by
    refine priorityOf_mapSlots (l := [n]) (f := fun x => { x with lineTag := none }) (fun _ => rfl) ?_
    rw [← put_map_eq_mapSlots, hr]
    rfl
  rw [State.retryDecision, show s.slot n = some r from hr]
  dsimp only
  rw [if_pos left, if_pos (show (s.livePolicy r.cls).isSome = true from defined), untagged,
    joinReentry_eq, insertReentry_congr same, same, priorityOf_of_slot hr]
  dsimp only
  rw [insertReentry_of_splits n split]

/-- A slot with an attempt left whose class has become undefined ends WITHDRAWN (R109). -/
theorem retryDecision_withdraws (failure : ReportOutcome) (hr : s.buffer.slots[n] = some r)
    (left : r.attempts < 1 + r.retryLimit.val) (undefined : s.bank.active.classes[r.cls] = none) :
    s.retryDecision g n failure = { s with
      buffer.slots := put s.buffer.slots n (some (finished .withdrawn none r))
      reports.backlog := s.reports.backlog ++ [n]
      counters := bump s.counters 8 1
      occasions := s.occasions ++ [.formation] } := by
  have gone : ¬ (s.livePolicy r.cls).isSome = true := by
    rw [State.livePolicy, undefined]
    exact nofun
  rw [State.retryDecision, show s.slot n = some r from hr]
  dsimp only
  rw [if_pos left, if_neg gone, report_eq, hr]
  rfl

/-- A slot with no attempt left ends with the failure (R109). -/
theorem retryDecision_fails (failure : ReportOutcome) (hr : s.buffer.slots[n] = some r)
    (spent : 1 + r.retryLimit.val ≤ r.attempts) :
    s.retryDecision g n failure = { s with
      buffer.slots := put s.buffer.slots n (some (finished failure none r))
      reports.backlog := s.reports.backlog ++ [n]
      counters := bump s.counters failure.counter 1
      occasions := s.occasions ++ [.formation] } := by
  rw [State.retryDecision, show s.slot n = some r from hr]
  dsimp only
  rw [if_neg (Nat.not_lt.2 spent), report_eq, hr]
  rfl

/-! ### Holds for a line fault -/

theorem noticed_bank (kind : NoticeKind) : (noticed s kind).bank = s.bank := by
  unfold noticed
  split <;> rfl

theorem noticed_segs (kind : NoticeKind) : (noticed s kind).segs = s.segs := by
  unfold noticed
  split <;> rfl

theorem noticed_backlog (kind : NoticeKind) :
    (noticed s kind).reports.backlog = s.reports.backlog := by
  unfold noticed
  split <;> rfl

theorem holdForFault_eq (fault : LineFault) : ∃ occ, s.holdForFault g fault =
    { noticed { s with segs := put s.segs g { s.segs[g] with state := .held .lineFault } }
      (.lineFault g fault) with occasions := occ } :=
  queueNotice_eq _

/-- The state once a conflict has been counted, and the segment held for the eighth in a row (R83). -/
def State.conflicted (s : State) (g : Seg) : State :=
  let x := { s.segs[g] with conflictStreak := min (s.segs[g].conflictStreak + 1) 8 }
  let t := { s with counters := bump s.counters (Counter.ofSegment g 1) 1 }
  if 7 ≤ s.segs[g].conflictStreak then
    noticed { t with segs := put s.segs g { x with state := .held .lineFault } }
      (.lineFault g .conflicts)
  else { t with segs := put s.segs g x }

theorem raiseStreak_eq (s : State) (g : Seg) :
    ∃ occ, s.raiseStreak g = { s.conflicted g with occasions := occ } := by
  have eighth : min ((s.seg g).conflictStreak + 1) Config.conflictLimit = Config.conflictLimit ↔
      7 ≤ s.segs[g].conflictStreak := by
    rw [min_eq_right_iff]
    exact Nat.succ_le_succ_iff
  unfold State.raiseStreak State.conflicted
  dsimp only
  simp only [eighth]
  split
  · obtain ⟨occ, e⟩ := holdForFault_eq
      (s := (s.count (Counter.conflicts g)).setSeg g { s.seg g with
        conflictStreak := min ((s.seg g).conflictStreak + 1) Config.conflictLimit }) (g := g) .conflicts
    refine ⟨occ, e.trans ?_⟩
    simp only [count_eq, setSeg_eq, put_same, put_put]
    rfl
  · exact ⟨s.occasions, by rw [count_eq]; rfl⟩

/-- What a conflict leaves as it was. -/
theorem conflicted_keeps (s : State) (g : Seg) :
    (s.conflicted g).buffer = s.buffer ∧ (s.conflicted g).bank = s.bank ∧
      (s.conflicted g).reports.backlog = s.reports.backlog ∧
      (s.conflicted g).segs[g].sendQueue = s.segs[g].sendQueue := by
  unfold State.conflicted
  dsimp only
  split
  · refine ⟨noticed_buffer _, noticed_bank _, noticed_backlog _, ?_⟩
    simp only [noticed_segs, put_same]
  · refine ⟨rfl, rfl, rfl, ?_⟩
    simp only [put_same]

theorem splitsAbove_congr {queue higher lower : List SlotNo} {q : Fin 4}
    (slots : t.buffer.slots = s.buffer.slots) (split : splitsAbove s queue higher lower q) :
    splitsAbove t queue higher lower q := by
  rw [splitsAbove, slots]
  exact split

/-! ### The end of a transmission -/

theorem exec_conflictAbort (hold : s.pins.hold = none) (k : Nat) (w : Wire) :
    exec (.conflictAbort g k w) s = .next (s.abort g k w) :=
  whileRunning_of_no_hold (fun s => s.abort g k w) hold

theorem exec_transmissionEnd (hold : s.pins.hold = none) :
    exec (.transmissionEnd g) s = .next (s.endTransmission g) :=
  whileRunning_of_no_hold (fun s => s.endTransmission g) hold

theorem abort_match {tx : Transmission} {k : Nat} {w : Wire}
    (sends : s.segs[g].transceiver = .sending tx)
    (fits : s.segs[g].profile.mismatch tx.telegram k w = false) : s.abort g k w = s := by
  rw [State.abort, show (s.seg g).transceiver = .sending tx from sends]
  exact if_neg (by rw [State.seg, fits]; exact nofun)

theorem abort_mismatch {tx : Transmission} {k : Nat} {w : Wire}
    (sends : s.segs[g].transceiver = .sending tx)
    (differs : s.segs[g].profile.mismatch tx.telegram k w = true) :
    s.abort g k w = (((s.reach (tx.startedAt + k * s.segs[g].profile.unitTime * 288)).enterQuiet
      g).raiseStreak g).retryDecision g tx.slot .lineFailed := by
  rw [State.abort, show (s.seg g).transceiver = .sending tx from sends]
  exact if_pos differs

/-- The units keyed for bits: a mark by its bit, and a space, each. -/
theorem unitsOf_bits (bits : List Bool) : unitsOf (bits.flatMap p.keyBit) =
    bits.length * p.bitSpace + bits.count true * p.oneMark + bits.count false * p.zeroMark := by
  induction bits with
  | nil => simp [unitsOf]
  | cons b rest ih =>
    have step : unitsOf ((b :: rest).flatMap p.keyBit) =
        (if b then p.oneMark else p.zeroMark) + p.bitSpace + unitsOf (rest.flatMap p.keyBit) := by
      simp [unitsOf, Profile.keyBit, Nat.add_assoc]
    rw [step, ih, List.length_cons]
    cases b <;> simp <;> ring

theorem telegramBits_length (bytes : List Byte) : (telegramBits bytes).length = 8 * bytes.length := by
  induction bytes with
  | nil => rfl
  | cons b rest ih =>
    rw [telegramBits, List.flatMap_cons, List.length_append, ← telegramBits, ih, bitsOf,
      List.length_map, List.length_range, List.length_cons]
    ring

theorem telegramBits_ones (bytes : List Byte) : (telegramBits bytes).count true =
    (bytes.map fun b => ((List.range 8).filter fun i => b.getLsbD i).length).sum := by
  induction bytes with
  | nil => rfl
  | cons b rest ih =>
    have ones : (bitsOf b).count true = ((List.range 8).filter fun i => b.getLsbD i).length := by
      rw [bitsOf, List.count, List.countP_map, List.countP_eq_length_filter]
      congr 2
      funext i
      simp
    rw [telegramBits, List.flatMap_cons, List.count_append, ← telegramBits, ih, ones, List.map_cons,
      List.sum_cons]

/-- The time a telegram takes by R93's formula. -/
theorem duration_eq (p : Profile) (bytes : List Byte) :
    p.duration bytes = telegramUnits p bytes * p.unitTime * 288 := by
  have all := List.count_true_add_count_false (l := telegramBits bytes)
  have units : unitsOf (p.key bytes) = telegramUnits p bytes := by
    have parts : unitsOf (p.key bytes) =
        p.leaderMark + p.leaderSpace + unitsOf ((telegramBits bytes).flatMap p.keyBit) + 1 := by
      simp [unitsOf, Profile.key, Nat.add_assoc]
    rw [telegramBits_length] at all
    rw [parts, unitsOf_bits, telegramBits_length, telegramUnits, ← telegramBits_ones, ← all]
    rw [Nat.add_sub_cancel_left]
    ring
  rw [Profile.duration, units]
  rfl

/-- The state once a transmission has ended without conflict: QUIET, with no streak (R83, R96, R97). -/
def State.transmitted (s : State) (g : Seg) (tx : Transmission) : State :=
  ((s.reach (tx.startedAt + s.segs[g].profile.duration tx.telegram)).enterQuiet g).clearStreak g

theorem endTransmission_eq {tx : Transmission} (sends : s.segs[g].transceiver = .sending tx) :
    s.endTransmission g = (s.transmitted g tx).afterTransmission g tx := by
  rw [State.endTransmission, show (s.seg g).transceiver = .sending tx from sends]
  rfl

theorem transmitted_eq (s : State) (g : Seg) (tx : Transmission) :
    s.transmitted g tx = { s.reach (tx.startedAt + telegramUnits s.segs[g].profile tx.telegram *
        s.segs[g].profile.unitTime * 288) with
      segs := put s.segs g { s.segs[g] with
        transceiver := .quiet (max s.pins.now (tx.startedAt +
          telegramUnits s.segs[g].profile tx.telegram * s.segs[g].profile.unitTime * 288) +
          s.segs[g].profile.quietGap * 288000)
        conflictStreak := 0 } } := by
  rw [State.transmitted, duration_eq, State.clearStreak, enterQuiet_eq, setSeg_eq]
  simp only [State.seg, put_same, put_put]
  rfl

theorem afterTransmission_awaits {tx : Transmission} (hr : s.buffer.slots[tx.slot] = some r)
    (expected : r.answerExpected = true) : s.afterTransmission g tx = { s with
      segs := put s.segs g { s.segs[g] with
        outstanding := s.segs[g].outstanding ++
          [{ tag := tx.tag, device := r.device, slot := tx.slot,
             expiry := s.pins.now + r.answerTimeoutMs * 288000 }] } } := by
  rw [State.afterTransmission, show s.slot tx.slot = some r from hr]
  exact if_pos expected

theorem afterTransmission_sent {tx : Transmission} (hr : s.buffer.slots[tx.slot] = some r)
    (unexpected : r.answerExpected = false) : s.afterTransmission g tx = { s with
      buffer.slots := put s.buffer.slots tx.slot (some (finished .sent none r))
      reports.backlog := s.reports.backlog ++ [tx.slot]
      counters := bump s.counters 2 1
      occasions := s.occasions ++ [.formation] } := by
  rw [State.afterTransmission, show s.slot tx.slot = some r from hr]
  dsimp only
  rw [if_neg (by rw [unexpected]; exact nofun), report_eq, hr]
  rfl

/-! ### Quiet gaps and answer timers -/

theorem exec_quietGapEnd (hold : s.pins.hold = none) :
    exec (.quietGapEnd g) s = .next (s.endQuietGap g) :=
  whileRunning_of_no_hold (fun s => s.endQuietGap g) hold

theorem endQuietGap_eq {endsAt : Nat} (quiet : s.segs[g].transceiver = .quiet endsAt) :
    s.endQuietGap g = State.walk { s with
      pins.now := max s.pins.now endsAt
      segs := put s.segs g { s.segs[g] with transceiver := .idle } } g := by
  rw [State.endQuietGap, show (s.seg g).transceiver = .quiet endsAt from quiet]
  rfl

theorem exec_answerTimerExpiry (hold : s.pins.hold = none) (tag : Byte) :
    exec (.answerTimerExpiry g tag) s = .next (s.timeOut g tag) :=
  whileRunning_of_no_hold (fun s => s.timeOut g tag) hold

/-- The state once an answer timer has run out, before the retry decision (R105, R108). -/
theorem timeOut_eq {older newer : List Outstanding} {e : Outstanding}
    (list : s.segs[g].outstanding = older ++ e :: newer) (others : ∀ y ∈ older, y.tag ≠ e.tag)
    (hr : s.buffer.slots[e.slot] = some r) (eight : s.segs[g].ring.length ≤ 8) :
    s.timeOut g e.tag = State.retryDecision { s with
      pins.now := max s.pins.now e.expiry
      segs := put s.segs g { s.segs[g] with
        outstanding := older ++ newer
        ring := (if s.segs[g].ring.length = 8 then s.segs[g].ring.drop 1 else s.segs[g].ring) ++
          [{ tag := e.tag, device := e.device, slot := e.slot, intake := r.intake,
             reason := .timedOut }] }
      counters := bump s.counters (Counter.ofSegment g 2) 1
      occasions := s.occasions ++ [.startWalk g] } g e.slot .noAnswer := by
  have found : (s.seg g).outstanding.find? (fun y => y.tag == e.tag) = some e := by
    rw [State.seg, list, List.find?_eq_some_iff_append]
    exact ⟨by simp, older, newer, rfl, fun y hy => by simpa using others y hy⟩
  have left : s.segs[g].outstanding.erase e = older ++ newer := by
    rw [list, List.erase_append_right _ fun h => others e h rfl, List.erase_cons_head]
  have intake : (s.reach e.expiry).intakeOf e.slot = r.intake := by
    rw [State.intakeOf, show (s.reach e.expiry).slot e.slot = some r from hr]
  rw [State.timeOut, found]
  dsimp only
  rw [count_eq, retire_eq, intake, State.reach_segs, left, pushRing_eq _ _ eight]
  rfl

/-! ### Line activity and stuck lines -/

theorem exec_lineActivity (hold : s.pins.hold = none) (w : Wire) :
    exec (.lineActivity g w) s = .next (s.beginReception g w) :=
  whileRunning_of_no_hold (fun s => s.beginReception g w) hold

theorem exec_stuckLine (hold : s.pins.hold = none) (line : List LineSpan) :
    exec (.stuckLine (LineRecord.mk g line)) s = .next (s.stuckLine g line) :=
  whileRunning_of_no_hold (fun s => s.stuckLine g line) hold

theorem beginReception_begins {w : Wire} (activity : s.segs[g].profile.isActivity w = true)
    (free : s.segs[g].transceiver = .idle ∨ ∃ endsAt, s.segs[g].transceiver = .quiet endsAt) :
    s.beginReception g w = { s with segs := put s.segs g { s.segs[g] with
      transceiver := .receiving
        { since := s.pins.now, bad := s.segs[g].profile.reads w == .space, stuck := none } } } := by
  rw [State.beginReception, if_pos (show (s.seg g).profile.isActivity w = true from activity)]
  obtain idle | ⟨endsAt, quiet⟩ := free
  · rw [show (s.seg g).transceiver = .idle from idle]
    rfl
  · rw [show (s.seg g).transceiver = .quiet endsAt from quiet]
    rfl

theorem beginReception_none {w : Wire} (h : s.segs[g].profile.isActivity w = false ∨
    (∃ tx, s.segs[g].transceiver = .sending tx) ∨ ∃ rx, s.segs[g].transceiver = .receiving rx) :
    s.beginReception g w = s := by
  unfold State.beginReception
  split
  · next activity =>
    obtain still | ⟨tx, sends⟩ | ⟨rx, receives⟩ := h
    · exact absurd (still.symm.trans activity) nofun
    · rw [show (s.seg g).transceiver = .sending tx from sends]
    · rw [show (s.seg g).transceiver = .receiving rx from receives]
  · rfl

theorem reported_iff {rx : Reception} {start : Nat} :
    rx.reported start = true ↔ ∃ b, rx.stuck = some b ∧ start ≤ b := by
  rw [Reception.reported]
  cases rx.stuck <;> simp

/-- A stuck line that has not been reported (R84, R99). -/
theorem stuckLine_reports {line : List LineSpan} {rx : Reception} {micros : Nat}
    (receives : s.segs[g].transceiver = .receiving rx)
    (stuck : s.segs[g].profile.stuckSince line = some micros)
    (unreported : ¬ rx.reported (rx.since + micros * 288) = true) :
    s.stuckLine g line = State.holdForFault { s with
      pins.now := max s.pins.now (rx.since + micros * 288 + 288000000)
      segs := put s.segs g { s.segs[g] with
        transceiver := .receiving
          { since := rx.since, bad := true, stuck := some (rx.since + micros * 288) } } } g
      .stuckLine := by
  rw [State.stuckLine, show (s.seg g).transceiver = .receiving rx from receives,
    show (s.seg g).profile.stuckSince line = some micros from stuck]
  exact if_neg unreported

theorem stuckLine_none {line : List LineSpan} {rx : Reception}
    (receives : s.segs[g].transceiver = .receiving rx)
    (h : ∀ micros, s.segs[g].profile.stuckSince line = some micros →
      rx.reported (rx.since + micros * 288) = true) : s.stuckLine g line = s := by
  rw [State.stuckLine, show (s.seg g).transceiver = .receiving rx from receives]
  cases stuck : s.segs[g].profile.stuckSince line with
  | none => rw [show (s.seg g).profile.stuckSince line = none from stuck]
  | some micros =>
    rw [show (s.seg g).profile.stuckSince line = some micros from stuck]
    exact if_pos (h micros stuck)

end Sys2Proof.Machine

namespace Sys2Proof.Proofs

open Sys2Proof.Machine Sys2Proof.Safety

/-- Settles O38: activity gives way to a reception, and the last condition of a record is a stuck line
exactly when R99 says. -/
theorem receptionBegins : Obligations.ReceptionBegins := by
  intro g s hold
  refine ⟨fun w free => ⟨fun activity => ?_, fun still => ?_⟩, fun w busy => ?_, ?_⟩
  · rw [exec_lineActivity hold, beginReception_begins activity free]
  · rw [exec_lineActivity hold, beginReception_none (.inl still)]
  · rw [exec_lineActivity hold, beginReception_none (.inr busy)]
  · intro rx before w micros start receives other hstart
    have since := stuckSince_append s.segs[g].profile before w micros other
    rw [exec_stuckLine hold]
    refine ⟨fun activity long new => ?_, fun none => ?_⟩
    · rw [if_pos ⟨activity, long⟩] at since
      have unreported : ¬ rx.reported start = true := by
        rintro reported
        obtain ⟨b, hb, late⟩ := reported_iff.1 reported
        exact Nat.not_lt.2 late (new b hb)
      subst hstart
      rw [stuckLine_reports receives since unreported]
      obtain ⟨occ, held⟩ := holdForFault_eq (g := g) .stuckLine
      rw [held]
      simp only [put_same, put_put]
      exact ⟨occ, rfl⟩
    · refine congrArg _ (stuckLine_none receives fun m stuck => ?_)
      rw [since] at stuck
      split at stuck
      · next long =>
        obtain rfl := Option.some.inj stuck
        obtain still | short | reported := none
        · exact absurd (still.symm.trans long.1) nofun
        · exact absurd long.2 (Nat.not_le.2 short)
        · exact hstart ▸ reported_iff.2 reported
      · cases stuck

/-- Settles O40: the conflict is counted, and the slot meets the retry decision. -/
theorem conflictAborts : Obligations.ConflictAborts := by
  rintro g k w s t u tx r hold sends hr - ht hu
  rw [exec_conflictAbort hold]
  refine ⟨fun fits => congrArg _ (abort_match sends fits), fun differs => ?_⟩
  rw [abort_mismatch sends differs]
  obtain ⟨q, hq⟩ : ∃ q, q = (s.reach (tx.startedAt + k * s.segs[g].profile.unitTime * 288)).enterQuiet
    g := ⟨_, rfl⟩
  have hu : u = q.conflicted g := by
    rw [hu _ rfl, ht, hq, enterQuiet_eq, State.conflicted]
    simp only [put_same, put_put]
    rfl
  obtain ⟨occ, raised⟩ := raiseStreak_eq q g
  obtain ⟨buffer, bank, backlog, queue⟩ := conflicted_keeps q g
  rw [← hu] at raised buffer bank backlog queue
  have slots : u.buffer.slots = s.buffer.slots := by
    rw [buffer, hq]
    rfl
  have bank : u.bank = s.bank := by
    rw [bank, hq]
    rfl
  have backlog : u.reports.backlog = s.reports.backlog := by
    rw [backlog, hq]
    rfl
  have queue : u.segs[g].sendQueue = s.segs[g].sendQueue := by
    rw [queue, hq, enterQuiet_eq, put_same]
    rfl
  have slot : ({ u with occasions := occ } : State).buffer.slots[tx.slot] = some r := by
    rw [← hr, ← slots]
  rw [← hq, raised]
  refine ⟨fun left => ⟨fun defined higher lower split => ?_, fun undefined => ?_⟩, fun spent => ?_⟩
  · have split : splitsAbove { u with occasions := occ } u.segs[g].sendQueue higher lower r.priority :=
      queue ▸ splitsAbove_congr slots split
    rw [retryDecision_reenters .lineFailed slot left (bank ▸ defined) split, ← slots]
    exact ⟨_, rfl⟩
  · rw [retryDecision_withdraws .lineFailed slot left (bank ▸ undefined), ← slots, ← backlog]
    exact ⟨_, rfl⟩
  · rw [retryDecision_fails .lineFailed slot spent, ← slots, ← backlog]
    exact ⟨_, rfl⟩

/-- Settles O41: the transmission lasts as R93 says, and the walk at the end of a quiet gap is that of a
START_WALK. -/
theorem transmissionsAndQuietGapsEnd : Obligations.TransmissionsAndQuietGapsEnd := by
  refine ⟨?_, ?_⟩
  · rintro g s t tx r x hold sends hr rfl rfl
    have slot : (s.transmitted g tx).buffer.slots[tx.slot] = some r := hr
    rw [exec_transmissionEnd hold, endTransmission_eq sends]
    refine ⟨fun expected => ?_, fun unexpected => ?_⟩
    · rw [afterTransmission_awaits slot expected, transmitted_eq]
      simp only [put_same, put_put]
      rfl
    · rw [afterTransmission_sent slot unexpected, transmitted_eq]
      rfl
  · intro g s t endsAt hold quiet ht
    have running : t.pins.hold = none := by
      rw [ht]
      exact hold
    rw [exec_quietGapEnd hold, endQuietGap_eq quiet, ← ht]
    refine ⟨fun none => congrArg _ (walk_none ?_), (exec_startWalk_owed running).symm⟩
    rw [ht, put_same]
    obtain held | empty := none
    · exact .inl held
    · exact .inr (.inr empty)

/-- Settles O43: the entry goes from the list into the ring, and the slot meets the retry decision. -/
theorem answerTimersRunOut : Obligations.AnswerTimersRunOut := by
  intro g s t older newer e r hold list others hr eight ht
  have slot : t.buffer.slots[e.slot] = some r := by
    rw [ht]
    exact hr
  have queue : t.segs[g].sendQueue = s.segs[g].sendQueue := by rw [ht, put_same]
  have slots : t.buffer.slots = s.buffer.slots := by rw [ht]
  rw [exec_answerTimerExpiry hold, timeOut_eq list others hr eight, ← ht]
  refine ⟨fun left => ⟨fun defined higher lower split => ?_, fun undefined => ?_⟩, fun spent => ?_⟩
  · have split : splitsAbove t t.segs[g].sendQueue higher lower r.priority :=
      queue ▸ splitsAbove_congr slots split
    have defined : (t.bank.active.classes[r.cls]).isSome = true := by
      rw [ht]
      exact defined
    rw [retryDecision_reenters .noAnswer slot left defined split, slots]
  · have undefined : t.bank.active.classes[r.cls] = none := by
      rw [ht]
      exact undefined
    rw [retryDecision_withdraws .noAnswer slot left undefined, slots, ht]
  · rw [retryDecision_fails .noAnswer slot spent, slots, ht]
    rfl

end Sys2Proof.Proofs
end

