-- ==== Sys2Proof/Proofs/Profiles.lean ====
section
/-! SUPPORT. SET_PROFILE and READ_PROFILE: the checks of a profile block, and the block given back
(R89, R91, R162). -/

namespace Sys2Proof.Machine

open Sys2Proof.Safety

variable {s t : State} {g : Seg} {mode u1 u0 lm ls zm om bs p1 p2 qg : Byte}

/-! ### Modes -/

theorem mode_code_cases (h : 1 ≤ mode.toNat ∧ mode.toNat ≤ 3) : mode = 1 ∨ mode = 2 ∨ mode = 3 := by
  obtain e | e | e : mode.toNat = 1 ∨ mode.toNat = 2 ∨ mode.toNat = 3 := by omega
  · exact .inl (BitVec.eq_of_toNat_eq e)
  · exact .inr (.inl (BitVec.eq_of_toNat_eq e))
  · exact .inr (.inr (BitVec.eq_of_toNat_eq e))

theorem readMode_of_code (h : 1 ≤ mode.toNat ∧ mode.toNat ≤ 3) : readMode mode = some (modeOf mode) := by
  obtain rfl | rfl | rfl := mode_code_cases h <;> rfl

theorem readMode_of_other (h : ¬ (1 ≤ mode.toNat ∧ mode.toNat ≤ 3)) : readMode mode = none := by
  have other : ∀ k : Byte, 1 ≤ k.toNat → k.toNat ≤ 3 → mode ≠ k := fun k low high e =>
    h (e ▸ ⟨low, high⟩)
  rw [readMode, if_neg (other 1 (by decide) (by decide)), if_neg (other 2 (by decide) (by decide)),
    if_neg (other 3 (by decide) (by decide))]

theorem code_modeOf (h : 1 ≤ mode.toNat ∧ mode.toNat ≤ 3) : (modeOf mode).code = mode := by
  obtain rfl | rfl | rfl := mode_code_cases h <;> rfl

/-! ### The checks of a profile block -/

/-- The checks of R89 and R91 field by field. -/
theorem isValid_iff (p : Profile) : p.isValid = true ↔
    (50 ≤ p.unitTime ∧ p.unitTime ≤ 5000) ∧ (2 ≤ p.leaderMark ∧ p.leaderMark ≤ 64) ∧
    (1 ≤ p.leaderSpace ∧ p.leaderSpace ≤ 32) ∧ (1 ≤ p.zeroMark ∧ p.zeroMark ≤ 8) ∧
    (2 ≤ p.oneMark ∧ p.oneMark ≤ 16) ∧ (1 ≤ p.bitSpace ∧ p.bitSpace ≤ 8) ∧
    (8 ≤ p.p1 ∧ p.p1 ≤ 255) ∧ (8 ≤ p.p2 ∧ p.p2 ≤ 255) ∧ (1 ≤ p.quietGap ∧ p.quietGap ≤ 255) ∧
    p.zeroMark < p.oneMark ∧ (p.mode = .carrier → 4 * p.p1 ≤ p.unitTime) ∧
    (p.mode = .shift → p.p1 ≠ p.p2 ∧ 4 * max p.p1 p.p2 ≤ p.unitTime) := by
  unfold Profile.isValid
  cases p.mode <;> simp [and_assoc]

theorem isValid_profileOf (h : 1 ≤ mode.toNat ∧ mode.toNat ≤ 3) :
    (profileOf mode u1 u0 lm ls zm om bs p1 p2 qg).isValid = true ↔
      profileOk mode u1 u0 lm ls zm om bs p1 p2 qg := by
  have carrier : modeOf mode = .carrier ↔ mode.toNat = 2 := by
    obtain rfl | rfl | rfl := mode_code_cases h <;> decide
  have shift : modeOf mode = .shift ↔ mode.toNat = 3 := by
    obtain rfl | rfl | rfl := mode_code_cases h <;> decide
  have top : ∀ b : Byte, b.toNat ≤ 255 := fun b => Nat.le_of_lt_succ b.isLt
  rw [isValid_iff]
  simp only [profileOf, profileOk, carrier, shift, top, h, and_true, true_and, ne_eq, BitVec.toNat_inj]

theorem readProfile_of_mode (h : 1 ≤ mode.toNat ∧ mode.toNat ≤ 3) :
    readProfile [mode, u1, u0, lm, ls, zm, om, bs, p1, p2, qg] =
      if (profileOf mode u1 u0 lm ls zm om bs p1 p2 qg).isValid = true then
        some (profileOf mode u1 u0 lm ls zm om bs p1 p2 qg) else none := by
  have read : readProfile [mode, u1, u0, lm, ls, zm, om, bs, p1, p2, qg] =
      (guard ((profileOf mode u1 u0 lm ls zm om bs p1 p2 qg).isValid = true) : Option Unit).bind
        fun _ => some (profileOf mode u1 u0 lm ls zm om bs p1 p2 qg) := by
    rw [readProfile, readMode_of_code h]
    rfl
  rw [read, guard]
  split <;> rfl

theorem readProfile_ok (h : profileOk mode u1 u0 lm ls zm om bs p1 p2 qg) :
    readProfile [mode, u1, u0, lm, ls, zm, om, bs, p1, p2, qg] =
      some (profileOf mode u1 u0 lm ls zm om bs p1 p2 qg) := by
  rw [readProfile_of_mode h.1, if_pos ((isValid_profileOf h.1).2 h)]

theorem readProfile_bad (h : ¬ profileOk mode u1 u0 lm ls zm om bs p1 p2 qg) :
    readProfile [mode, u1, u0, lm, ls, zm, om, bs, p1, p2, qg] = none := by
  by_cases known : 1 ≤ mode.toNat ∧ mode.toNat ≤ 3
  · rw [readProfile_of_mode known, if_neg fun valid => h ((isValid_profileOf known).1 valid)]
  · rw [readProfile, readMode_of_other known]
    rfl

/-! ### The block given back -/

theorem byteOf_toNat (b : Byte) : byteOf b.toNat = b :=
  BitVec.ofNat_toNat .. |>.trans (BitVec.setWidth_eq b)

theorem twoBytes_of_bytes (high low : Byte) :
    twoBytes (256 * high.toNat + low.toNat) = [high, low] := by
  have bound := low.isLt
  have first : (256 * high.toNat + low.toNat) / 256 = high.toNat := by omega
  have second : byteOf (256 * high.toNat + low.toNat) = low := by
    refine BitVec.eq_of_toNat_eq ((BitVec.toNat_ofNat ..).trans ?_)
    omega
  rw [twoBytes, first, byteOf_toNat, second]

/-- The bytes of a profile read are those it was read from. -/
theorem bytes_profileOf (h : 1 ≤ mode.toNat ∧ mode.toNat ≤ 3) :
    (profileOf mode u1 u0 lm ls zm om bs p1 p2 qg).bytes =
      [mode, u1, u0, lm, ls, zm, om, bs, p1, p2, qg] := by
  simp only [Profile.bytes, profileOf, code_modeOf h, twoBytes_of_bytes, byteOf_toNat]
  rfl

/-! ### SET_PROFILE -/

theorem exec_setProfile {r : Request} {b : Byte}
    (params : r.params = [b, mode, u1, u0, lm, ls, zm, om, bs, p1, p2, qg])
    (hold : s.pins.hold = none) :
    exec (.setProfile r) s = .next (s.frameTaken.takeRequest
      { code := 0x0A, lengthOk := true, write := true, barred := false } r
      (ownSetProfile [b, mode, u1, u0, lm, ls, zm, om, bs, p1, p2, qg])) := by
  have e := whileRunning_of_no_hold (fun s => s.frameTaken.takeSetProfile r) hold
  rw [State.takeSetProfile, params] at e
  exact e

/-- The own part of SET_PROFILE of a segment that exists, with a block that passes R91. -/
theorem ownSetProfile_done {b : Byte} {block : List Byte} {p : Profile} (named : g.val = b.toNat)
    (read : readProfile block = some p) :
    ownSetProfile (b :: block) s.frameTaken =
      .done [] { s with segs := put s.segs g { s.segs[g] with
          pendingProfile := some p } }.frameTaken id := by
  rw [ownSetProfile, withSegment_of_val named, read]
  rfl

theorem ownSetProfile_badValue {b : Byte} {block : List Byte} (named : g.val = b.toNat)
    (unread : readProfile block = none) :
    ownSetProfile (b :: block) t = .fail .badValue := by
  rw [ownSetProfile, withSegment_of_val named, unread]

/-! ### READ_PROFILE -/

theorem exec_readProfile {r : Request} {b : Byte} (params : r.params = [b])
    (hold : s.pins.hold = none) :
    exec (.readProfile r) s = .next (s.frameTaken.takeRequest
      { code := 0x0B, lengthOk := true, write := false, barred := false } r (ownReadProfile [b])) := by
  have e := whileRunning_of_no_hold (fun s => s.frameTaken.takeReadProfile r) hold
  rw [State.takeReadProfile, params] at e
  exact e

/-- The own part of READ_PROFILE of a segment that exists (R91, R162). -/
theorem ownReadProfile_done {b : Byte} (named : g.val = b.toNat) :
    ownReadProfile [b] s.frameTaken =
      .done (s.segs[g].profile.bytes ++
        match s.segs[g].pendingProfile with
        | some p => 1 :: p.bytes
        | none => List.replicate 12 0) s.frameTaken id := by
  rw [ownReadProfile, withSegment_of_val named]
  simp only [State.seg, State.frameTaken_segs, List.append_assoc]
  cases s.segs[g].pendingProfile <;> rfl

end Sys2Proof.Machine

namespace Sys2Proof.Proofs

open Sys2Proof.Machine Sys2Proof.Safety

/-- Settles O13: the block is read as a profile exactly when it passes the checks, and its bytes are
given back. -/
theorem profilesAreSetAndRead : Obligations.ProfilesAreSetAndRead := by
  refine ⟨?_, ?_⟩
  · intro r b mode u1 u0 lm ls zm om bs p1 p2 qg s params accepts
    rw [exec_setProfile params accepts.running]
    refine ⟨fun bad => ?_, fun g named => ⟨fun ok => ⟨?_, bytes_profileOf ok.1⟩, fun bad => ?_⟩⟩
    · exact congrArg _ (takeRequest_fail accepts _ (withSegment_of_high bad _))
    · exact congrArg _ (takeRequest_done accepts _ (ownSetProfile_done named (readProfile_ok ok)))
    · exact congrArg _ (takeRequest_fail accepts _ (ownSetProfile_badValue named (readProfile_bad bad)))
  · intro r b s params accepts
    rw [exec_readProfile params accepts.running]
    refine ⟨fun bad => ?_, fun g named => ?_⟩
    · exact congrArg _ (takeRequest_fail accepts _ (withSegment_of_high bad _))
    · exact congrArg _ (takeRequest_done accepts _ (ownReadProfile_done named))

end Sys2Proof.Proofs
end

