-- ==== Sys2Proof/Proofs/LineReadings.lean ====
section
/-! SUPPORT. What is driven and read in each mode (R90), which unit of a telegram is a mark's and which
a space's (R93), the samples (R95), and what stands on the line at an instant (R94). -/

namespace Sys2Proof.Machine

open Sys2Proof.Safety

variable {s : State} {g : Seg} {p : Profile} {bytes : List Byte} {k : Nat}

/-! ### Reading the wires (R90) -/

theorem withinPeriod_iff (ns period : Nat) :
    withinPeriod ns period = true ↔ 750 * period ≤ ns ∧ ns ≤ 1250 * period := by
  rw [withinPeriod, distance, decide_eq_true_eq]
  omega

theorem distance_cast (a b : Nat) : (distance a b : Int) = |(a : Int) - b| := by
  rw [distance]
  obtain h | h := le_total a b
  · rw [abs_of_nonpos (by omega)]
    omega
  · rw [abs_of_nonneg (by omega)]
    omega

/-- A carrier in SHIFT is a mark when it is near P1, and no nearer to P2 if near both (R90, note 3). -/
theorem readShiftCarrier_mark_iff (ns p1 p2 : Nat) : readShiftCarrier ns p1 p2 = .mark ↔
    withinPeriod ns p1 = true ∧ (withinPeriod ns p2 = true →
      distance ns (1000 * p1) < distance ns (1000 * p2) ∨
        distance ns (1000 * p1) = distance ns (1000 * p2) ∧ p1 < p2) := by
  rw [readShiftCarrier]
  by_cases near1 : withinPeriod ns p1 = true <;> by_cases near2 : withinPeriod ns p2 = true
  · rw [if_pos (by rw [near1, near2]; rfl)]
    obtain nearer | halfway | farther :=
      Nat.lt_trichotomy (distance ns (1000 * p1)) (distance ns (1000 * p2))
    · simp [near1, nearer]
    · by_cases shorter : p1 < p2 <;> simp [near1, near2, halfway, shorter]
    · simp [near2, farther, Nat.lt_asymm farther, farther.ne']
  · simp [near1, near2]
  · simp [near1, near2]
  · simp [near1, near2]

theorem readShiftCarrier_idle_iff (ns p1 p2 : Nat) : readShiftCarrier ns p1 p2 = .idle ↔
    ¬ withinPeriod ns p1 = true ∧ ¬ withinPeriod ns p2 = true := by
  rw [readShiftCarrier]
  by_cases near1 : withinPeriod ns p1 = true <;> by_cases near2 : withinPeriod ns p2 = true
  · rw [if_pos (by rw [near1, near2]; rfl)]
    refine iff_of_false ?_ fun far => far.1 near1
    split
    · exact nofun
    split
    · exact nofun
    split <;> exact nofun
  · simp [near1, near2]
  · simp [near1, near2]
  · simp [near1, near2]

/-- In SHIFT any reading but IDLE is line activity. -/
theorem isActivity_shift (shift : p.mode = .shift) (w : Wire) :
    p.isActivity w = true ↔ p.reads w ≠ .idle := by
  unfold Profile.isActivity Profile.readsIdle
  rw [shift]
  cases p.reads w <;> simp

/-- In BASEBAND and CARRIER only a mark is line activity. -/
theorem isActivity_unshifted (other : p.mode ≠ .shift) (w : Wire) :
    p.isActivity w = true ↔ p.reads w = .mark := by
  unfold Profile.isActivity Profile.readsIdle
  cases hm : p.mode with
  | baseband => cases p.reads w <;> simp
  | carrier => cases p.reads w <;> simp
  | shift => exact absurd hm other

theorem reads_carrier (carrier : p.mode = .carrier) (ns : Nat) :
    p.reads (.carrier ns) = if withinPeriod ns p.p1 = true then .mark else .space := by
  unfold Profile.reads
  rw [carrier]

theorem reads_shiftCarrier (shift : p.mode = .shift) (ns : Nat) :
    p.reads (.carrier ns) = readShiftCarrier ns p.p1 p.p2 := by
  unfold Profile.reads
  rw [shift]

/-- BASEBAND: a level is a mark, and nothing a space. -/
theorem baseband_rows (baseband : p.mode = .baseband) :
    p.drives true = .steady ∧ p.drives false = .undriven ∧
      p.reads .undriven = .space ∧ p.reads .steady = .mark ∧
      p.isActivity .steady = true ∧ p.isActivity .undriven = false := by
  simp [Profile.drives, Profile.reads, Profile.isActivity, Profile.readsIdle, baseband]

theorem carrier_rows (carrier : p.mode = .carrier) :
    p.drives true = .carrier (1000 * p.p1) ∧ p.drives false = .undriven ∧
      p.reads .undriven = .space ∧ p.isActivity .undriven = false := by
  simp [Profile.drives, Profile.reads, Profile.isActivity, Profile.readsIdle, carrier]

theorem shift_rows (shift : p.mode = .shift) :
    p.drives true = .carrier (1000 * p.p1) ∧ p.drives false = .carrier (1000 * p.p2) ∧
      p.reads .undriven = .idle ∧ p.isActivity .undriven = false := by
  simp [Profile.drives, Profile.reads, Profile.isActivity, Profile.readsIdle, shift]

/-- CARRIER: a carrier within 25 % of P1 is a mark, and any other a space. -/
theorem carrier_reading (carrier : p.mode = .carrier) (ns : Nat) :
    (750 * p.p1 ≤ ns ∧ ns ≤ 1250 * p.p1 →
      p.reads (.carrier ns) = .mark ∧ p.isActivity (.carrier ns) = true) ∧
    (ns < 750 * p.p1 ∨ 1250 * p.p1 < ns →
      p.reads (.carrier ns) = .space ∧ p.isActivity (.carrier ns) = false) := by
  have unshifted : p.mode ≠ .shift := by
    rw [carrier]
    exact nofun
  refine ⟨fun near => ?_, fun far => ?_⟩
  · have read : p.reads (.carrier ns) = .mark := by
      rw [reads_carrier carrier, if_pos ((withinPeriod_iff ns p.p1).2 near)]
    exact ⟨read, (isActivity_unshifted unshifted _).2 read⟩
  · have read : p.reads (.carrier ns) = .space := by
      refine (reads_carrier carrier ns).trans (if_neg fun near => ?_)
      have := (withinPeriod_iff ns p.p1).1 near
      omega
    refine ⟨read, Bool.eq_false_iff.2 fun active => ?_⟩
    exact absurd (read.symm.trans ((isActivity_unshifted unshifted _).1 active)) nofun

/-- SHIFT: a carrier within 25 % of P1 or P2 is the nearer, and the shorter when halfway. -/
theorem shift_reading (shift : p.mode = .shift) (ns : Nat) {near1 near2 : Prop}
    (h1 : near1 ↔ 750 * p.p1 ≤ ns ∧ ns ≤ 1250 * p.p1)
    (h2 : near2 ↔ 750 * p.p2 ≤ ns ∧ ns ≤ 1250 * p.p2) :
    (p.reads (.carrier ns) = .mark ↔
      near1 ∧ (near2 → |(ns : Int) - 1000 * p.p1| < |(ns : Int) - 1000 * p.p2| ∨
        |(ns : Int) - 1000 * p.p1| = |(ns : Int) - 1000 * p.p2| ∧ p.p1 < p.p2)) ∧
    (p.reads (.carrier ns) = .idle ↔ ¬ near1 ∧ ¬ near2) ∧
    (p.isActivity (.carrier ns) = true ↔ near1 ∨ near2) := by
  have far : ∀ period : Nat, |(ns : Int) - 1000 * period| = (distance ns (1000 * period) : Int) :=
    fun period => by
      rw [distance_cast]
      push_cast
      rfl
  have idle : p.reads (.carrier ns) = .idle ↔ ¬ near1 ∧ ¬ near2 := by
    rw [reads_shiftCarrier shift, readShiftCarrier_idle_iff, withinPeriod_iff, withinPeriod_iff, h1, h2]
  refine ⟨?_, idle, ?_⟩
  · rw [reads_shiftCarrier shift, readShiftCarrier_mark_iff, withinPeriod_iff, withinPeriod_iff, h1, h2,
      far, far, Int.ofNat_lt, Int.ofNat_inj]
  · rw [isActivity_shift shift, ne_eq, idle, ← not_or, not_not]

/-! ### The bits of a telegram -/

theorem bitAt_cons_low (b : Byte) (rest : List Byte) {i : Nat} (h : i < 8) :
    bitAt (b :: rest) i = b.getLsbD i := by
  rw [bitAt, Nat.div_eq_of_lt h, Nat.mod_eq_of_lt h]
  rfl

theorem bitAt_cons_high (b : Byte) (rest : List Byte) (i : Nat) :
    bitAt (b :: rest) (8 + i) = bitAt rest i := by
  rw [bitAt, Nat.add_comm, Nat.add_div_right i (by decide), Nat.add_mod_right]
  rfl

/-- The bits of a telegram one by one (R93). -/
theorem telegramBits_eq (bytes : List Byte) :
    telegramBits bytes = (List.range (8 * bytes.length)).map (bitAt bytes) := by
  induction bytes with
  | nil => rfl
  | cons b rest ih =>
    have first : bitsOf b = (List.range 8).map (bitAt (b :: rest)) :=
      List.map_congr_left fun i hi => (bitAt_cons_low b rest (List.mem_range.1 hi)).symm
    rw [telegramBits, List.flatMap_cons, ← telegramBits, ih, first, List.length_cons,
      Nat.mul_succ, Nat.add_comm, List.range_add, List.map_append, List.map_map]
    congr 2
    exact funext fun i => (bitAt_cons_high b rest i).symm

/-! ### The units of a telegram (R93) -/

theorem unitsOf_append (l m : List Keyed) : unitsOf (l ++ m) = unitsOf l + unitsOf m := by
  rw [unitsOf, List.map_append, List.sum_append]
  rfl

theorem unitsOf_cons (x : Keyed) (l : List Keyed) : unitsOf (x :: l) = x.units + unitsOf l := rfl

/-- What is keyed before the mark of the i-th bit. -/
def Profile.keyedBefore (p : Profile) (bytes : List Byte) (i : Nat) : List Keyed :=
  [{ mark := true, units := p.leaderMark }, { mark := false, units := p.leaderSpace }] ++
    ((telegramBits bytes).take i).flatMap p.keyBit

theorem unitsOf_keyBit (bit : Bool) : unitsOf (p.keyBit bit) = markUnits p bit + p.bitSpace := rfl

theorem unitsOf_flatMap_keyBit (bits : List Bool) :
    unitsOf (bits.flatMap p.keyBit) = (bits.map fun b => markUnits p b + p.bitSpace).sum := by
  induction bits with
  | nil => rfl
  | cons b rest ih =>
    rw [List.flatMap_cons, unitsOf_append, ih, unitsOf_keyBit, List.map_cons, List.sum_cons]

theorem unitsOf_keyedBefore {i : Nat} (h : i ≤ 8 * bytes.length) :
    unitsOf (p.keyedBefore bytes i) = unitsBefore p bytes i := by
  rw [Profile.keyedBefore, unitsOf_append, unitsOf_flatMap_keyBit, telegramBits_eq, ← List.map_take,
    List.take_range, Nat.min_eq_left h, List.map_map, unitsBefore]
  rfl

theorem key_eq_keyedBefore :
    p.key bytes = p.keyedBefore bytes (8 * bytes.length) ++ [{ mark := true, units := 1 }] := by
  rw [Profile.keyedBefore, List.take_of_length_le (telegramBits_length bytes).le]
  rfl

/-- The telegram around its i-th bit. -/
theorem key_split {i : Nat} (h : i < 8 * bytes.length) : ∃ after, p.key bytes =
    p.keyedBefore bytes i ++ { mark := true, units := markUnits p (bitAt bytes i) } ::
      { mark := false, units := p.bitSpace } :: after := by
  have bits : telegramBits bytes =
      (telegramBits bytes).take i ++ bitAt bytes i :: (telegramBits bytes).drop (i + 1) := by
    have inside : i < (telegramBits bytes).length := by
      rw [telegramBits_length]
      exact h
    have bit : (telegramBits bytes)[i] = bitAt bytes i := by
      simp only [telegramBits_eq, List.getElem_map, List.getElem_range]
    rw [← bit, ← List.drop_eq_getElem_cons inside, List.take_append_drop]
  refine ⟨((telegramBits bytes).drop (i + 1)).flatMap p.keyBit ++ [{ mark := true, units := 1 }], ?_⟩
  rw [Profile.key, Profile.keyedBefore, List.append_assoc, List.append_assoc]
  congr 1
  conv_lhs => rw [bits]
  rw [List.flatMap_append, List.flatMap_cons, List.append_assoc, List.append_assoc]
  rfl

theorem unitsBefore_succ (p : Profile) (bytes : List Byte) (i : Nat) :
    unitsBefore p bytes (i + 1) =
      unitsBefore p bytes i + markUnits p (bitAt bytes i) + p.bitSpace := by
  rw [unitsBefore, unitsBefore, List.range_succ, List.map_append, List.sum_append]
  simp only [List.map_singleton, List.sum_singleton, Nat.add_assoc]

/-- R93's formula is the sum of what is keyed. -/
theorem unitsOf_key (p : Profile) (bytes : List Byte) :
    unitsOf (p.key bytes) = telegramUnits p bytes := by
  have e : unitsOf (p.key bytes) * 1 * 288 = telegramUnits p bytes * 1 * 288 :=
    duration_eq { p with unitTime := 1 } bytes
  omega

theorem telegramUnits_eq (p : Profile) (bytes : List Byte) :
    telegramUnits p bytes = unitsBefore p bytes (8 * bytes.length) + 1 := by
  rw [← unitsOf_key, key_eq_keyedBefore, unitsOf_append, unitsOf_keyedBefore le_rfl]
  rfl

/-! ### What is driven in a unit -/

/-- A unit behind some stretches and inside the next is that stretch's. -/
theorem drivenAt_between (before after : List Keyed) (x : Keyed) (low : unitsOf before < k)
    (high : k ≤ unitsOf before + x.units) : drivenAt (before ++ x :: after) k = some x.mark := by
  induction before generalizing k with
  | nil =>
    have inside : k ≤ x.units := high.trans_eq (Nat.zero_add _)
    exact if_pos inside
  | cons y rest ih =>
    rw [unitsOf_cons] at low high
    rw [List.cons_append, drivenAt, if_neg (by omega)]
    exact ih (by omega) (by omega)

theorem drivenAt_beyond (l : List Keyed) (beyond : unitsOf l < k) : drivenAt l k = none := by
  induction l generalizing k with
  | nil => rfl
  | cons x rest ih =>
    rw [unitsOf_cons] at beyond
    rw [drivenAt, if_neg (by omega)]
    exact ih (by omega)

theorem drivenAt_markUnit (h : isMarkUnit p bytes k) : drivenAt (p.key bytes) k = some true := by
  obtain ⟨low, high⟩ | ⟨i, hi, low, high⟩ | rfl := h
  · exact drivenAt_between [] _ { mark := true, units := p.leaderMark } low
      (high.trans_eq (Nat.zero_add _).symm)
  · obtain ⟨after, split⟩ := key_split (p := p) hi
    rw [← unitsOf_keyedBefore hi.le] at low high
    rw [split]
    exact drivenAt_between _ _ _ low high
  · rw [key_eq_keyedBefore, telegramUnits_eq, ← unitsOf_keyedBefore le_rfl]
    exact drivenAt_between _ [] _ (Nat.lt_succ_self _) le_rfl

theorem drivenAt_spaceUnit (h : isSpaceUnit p bytes k) : drivenAt (p.key bytes) k = some false := by
  obtain ⟨low, high⟩ | ⟨i, hi, low, high⟩ := h
  · exact drivenAt_between [{ mark := true, units := p.leaderMark }] _
      { mark := false, units := p.leaderSpace } low high
  · obtain ⟨after, split⟩ := key_split (p := p) hi
    rw [← unitsOf_keyedBefore hi.le] at low high
    rw [split, List.append_cons]
    refine drivenAt_between _ after { mark := false, units := p.bitSpace } ?_ ?_
    · rw [unitsOf_append]
      exact low
    · rw [unitsOf_append]
      exact high

/-- A unit behind the leader and before the i-th bit is one of an earlier bit. -/
theorem exists_bit_of_unit {i : Nat} (low : p.leaderMark + p.leaderSpace < k)
    (high : k ≤ unitsBefore p bytes i) :
    ∃ j < i, unitsBefore p bytes j < k ∧ k ≤ unitsBefore p bytes (j + 1) := by
  induction i with
  | zero => exact absurd high (Nat.not_le.2 low)
  | succ i ih =>
    by_cases earlier : k ≤ unitsBefore p bytes i
    · obtain ⟨j, hj, within⟩ := ih earlier
      exact ⟨j, hj.trans (Nat.lt_succ_self i), within⟩
    · exact ⟨i, Nat.lt_succ_self i, Nat.not_le.1 earlier, high⟩

/-- Every unit of the telegram is one of a mark or one of a space. -/
theorem mark_or_space_unit (low : 1 ≤ k) (high : k ≤ telegramUnits p bytes) :
    isMarkUnit p bytes k ∨ isSpaceUnit p bytes k := by
  rw [telegramUnits_eq] at high
  by_cases leader : k ≤ p.leaderMark
  · exact .inl (.inl ⟨low, leader⟩)
  by_cases gap : k ≤ p.leaderMark + p.leaderSpace
  · exact .inr (.inl ⟨Nat.not_le.1 leader, gap⟩)
  by_cases bits : k ≤ unitsBefore p bytes (8 * bytes.length)
  · obtain ⟨i, hi, after, before⟩ := exists_bit_of_unit (Nat.not_le.1 gap) bits
    rw [unitsBefore_succ] at before
    by_cases mark : k ≤ unitsBefore p bytes i + markUnits p (bitAt bytes i)
    · exact .inl (.inr (.inl ⟨i, hi, after, mark⟩))
    · exact .inr (.inr ⟨i, hi, Nat.not_le.1 mark, before⟩)
  · exact .inl (.inr (.inr (by rw [telegramUnits_eq]; omega)))

theorem not_mark_and_space_unit : ¬ (isMarkUnit p bytes k ∧ isSpaceUnit p bytes k) := by
  rintro ⟨mark, space⟩
  exact absurd ((drivenAt_markUnit mark).symm.trans (drivenAt_spaceUnit space)) nofun

theorem one_le_of_markUnit (h : isMarkUnit p bytes k) : 1 ≤ k := by
  obtain ⟨low, -⟩ | ⟨i, -, low, -⟩ | rfl := h
  · exact low
  · exact Nat.one_le_of_lt low
  · rw [telegramUnits_eq]
    exact Nat.succ_pos _

theorem one_le_of_spaceUnit (h : isSpaceUnit p bytes k) : 1 ≤ k := by
  obtain ⟨low, -⟩ | ⟨i, -, low, -⟩ := h <;> exact Nat.one_le_of_lt low

/-! ### The samples (R95) -/

theorem mismatch_markUnit (h : isMarkUnit p bytes k) (w : Wire) :
    p.mismatch bytes k w = true ↔ p.reads w ≠ .mark := by
  obtain ⟨j, rfl⟩ := Nat.exists_eq_succ_of_ne_zero (Nat.one_le_iff_ne_zero.1 (one_le_of_markUnit h))
  unfold Profile.mismatch
  rw [drivenAt_markUnit h]
  exact bne_iff_ne

theorem mismatch_spaceUnit (h : isSpaceUnit p bytes k) (w : Wire) :
    p.mismatch bytes k w = true ↔ p.reads w ≠ .space := by
  obtain ⟨j, rfl⟩ := Nat.exists_eq_succ_of_ne_zero (Nat.one_le_iff_ne_zero.1 (one_le_of_spaceUnit h))
  unfold Profile.mismatch
  rw [drivenAt_spaceUnit h]
  exact bne_iff_ne

theorem mismatch_outside (h : k = 0 ∨ telegramUnits p bytes < k) (w : Wire) :
    p.mismatch bytes k w = false := by
  cases k with
  | zero => rfl
  | succ j =>
    obtain none | beyond := h
    · cases none
    · unfold Profile.mismatch
      rw [drivenAt_beyond _ (unitsOf_key p bytes ▸ beyond)]
      rfl

/-! ### What stands on the line (R90, R93, R94) -/

theorem unitAt_eq {tx : Transmission} {instant : Nat} (pos : 1 ≤ k)
    (low : tx.startedAt + (k - 1) * (p.unitTime * 288) ≤ instant)
    (high : instant < tx.startedAt + k * (p.unitTime * 288)) : p.unitAt tx instant = k := by
  have elapsed : (instant - tx.startedAt) / (p.unitTime * 288) = k - 1 := by
    refine Nat.div_eq_of_lt_le (Nat.le_sub_of_add_le' low) ?_
    rw [Nat.sub_add_cancel pos]
    exact Nat.sub_lt_left_of_lt_add (Nat.le_of_add_right_le low) high
  exact (congrArg (· + 1) elapsed).trans (Nat.sub_add_cancel pos)

/-- The line carries what the unit keyed then drives. -/
theorem lineOut_sending {tx : Transmission} {instant : Nat} (hold : s.pins.hold = none)
    (sends : s.segs[g].transceiver = .sending tx) (started : tx.startedAt ≤ instant) :
    s.lineOut g instant =
      ((drivenAt (s.segs[g].profile.key tx.telegram) (s.segs[g].profile.unitAt tx instant)).map
        s.segs[g].profile.drives).getD .undriven := by
  rw [State.lineOut, running_of_no_hold hold, show (s.seg g).transceiver = .sending tx from sends]
  refine (if_pos started).trans ?_
  unfold State.seg
  cases drivenAt (s.segs[g].profile.key tx.telegram) (s.segs[g].profile.unitAt tx instant) <;> rfl

theorem lineOut_silent {instant : Nat}
    (h : s.pins.hold.isSome = true ∨ (∀ tx, s.segs[g].transceiver ≠ .sending tx) ∨
      (∃ tx, s.segs[g].transceiver = .sending tx ∧ instant < tx.startedAt)) :
    s.lineOut g instant = .undriven := by
  rw [State.lineOut]
  split
  · next tx running sends =>
    have running : s.pins.hold.isNone = true := running
    have sends : s.segs[g].transceiver = .sending tx := sends
    obtain held | other | ⟨tx', sends', early⟩ := h
    · rw [Option.isNone_iff_eq_none.1 running] at held
      cases held
    · exact absurd sends (other tx)
    · obtain rfl : tx' = tx := Transceiver.sending.inj (sends'.symm.trans sends)
      exact if_neg (Nat.not_le.2 early)
  · rfl

end Sys2Proof.Machine

namespace Sys2Proof.Proofs

open Sys2Proof.Machine Sys2Proof.Safety

/-- Settles O39: each reading by its mode, and each unit by the stretch it is keyed in. -/
theorem lineIsReadAndSampled : Obligations.LineIsReadAndSampled := by
  refine ⟨fun p => ⟨baseband_rows, fun carrier => ?_, fun shift => ?_, reads_drives p⟩, ?_, ?_, ?_⟩
  · obtain ⟨mark, space, read, still⟩ := carrier_rows carrier
    exact ⟨mark, space, read, still, carrier_reading carrier⟩
  · obtain ⟨mark, space, read, still⟩ := shift_rows shift
    exact ⟨mark, space, read, still, fun _ ns _ _ => shift_reading shift ns⟩
  · intro p bytes k w
    exact ⟨fun low high => ⟨mark_or_space_unit low high, not_mark_and_space_unit⟩,
      fun mark => mismatch_markUnit mark w, fun space => mismatch_spaceUnit space w,
      fun outside => mismatch_outside outside w⟩
  · intro g s tx k instant hold sends pos low high
    rw [lineOut_sending hold sends (Nat.le_of_add_right_le low), unitAt_eq pos low high]
    refine ⟨fun mark => ?_, fun space => ?_, fun beyond => ?_⟩
    · rw [drivenAt_markUnit mark, Option.map_some, Option.getD_some]
    · rw [drivenAt_spaceUnit space, Option.map_some, Option.getD_some]
    · rw [drivenAt_beyond _ (unitsOf_key _ _ ▸ beyond), Option.map_none, Option.getD_none]
  · exact fun g s instant silent => lineOut_silent silent

end Sys2Proof.Proofs
end

