-- ==== Sys2Proof/Proofs/KeyedAnswers.lean ====
section
/-! SUPPORT. Receptions judged (R98, R101): the pulses of a line without its return to idle, the bits
and bytes they spell, the frames that are good, and an answer keyed and received (R93, R163). -/

namespace Sys2Proof.Machine

open Sys2Proof.Safety

variable {p : Profile}

/-! ### The pulses a reception is judged by -/

/-- The pulses of a line without the idle condition at its end. -/
def Profile.heard (p : Profile) (line : List LineSpan) : List Pulse :=
  p.dropIdle (p.pulses line)

/-- A condition as read. -/
def Profile.pulseOf (p : Profile) (x : LineSpan) : Pulse :=
  { reading := p.reads x.wire, micros := x.micros }

theorem receive_eq (p : Profile) (line : List LineSpan) :
    p.receive line = (p.judge (p.heard line)).bind fun bits => (assembleBytes bits).bind readAnswer := by
  unfold Profile.receive Profile.heard
  cases p.judge (p.dropIdle (p.pulses line)) with
  | none => rfl
  | some bits => cases h : assembleBytes bits <;> simp [h]

theorem receive_eq_some {line : List LineSpan} {a : LineAnswer} :
    p.receive line = some a ↔ ∃ bits, p.judge (p.heard line) = some bits ∧
      ∃ bytes, assembleBytes bits = some bytes ∧ readAnswer bytes = some a := by
  simp only [receive_eq, Option.bind_eq_some_iff]

theorem receive_none_of_judge {line : List LineSpan} (h : p.judge (p.heard line) = none) :
    p.receive line = none := by
  rw [receive_eq, h, Option.bind_none]

theorem dropIdle_cons (x : Pulse) (rest : List Pulse) :
    p.dropIdle (x :: rest) =
      if p.dropIdle rest = [] ∧ p.readsIdle x.reading = true then [] else x :: p.dropIdle rest := by
  rw [Profile.dropIdle]
  cases p.dropIdle rest <;> simp

theorem dropIdle_joinPulse (x : Pulse) (rest : List Pulse) :
    p.dropIdle (joinPulse x rest) =
      if p.dropIdle rest = [] ∧ p.readsIdle x.reading = true then []
      else joinPulse x (p.dropIdle rest) := by
  cases rest with
  | nil => exact dropIdle_cons x []
  | cons y rest =>
    by_cases ends : p.dropIdle rest = [] ∧ p.readsIdle y.reading = true
    · have gone : p.dropIdle (y :: rest) = [] := by rw [dropIdle_cons, if_pos ends]
      rw [joinPulse_cons, gone]
      split
      · next same => rw [dropIdle_cons, if_pos ends, if_pos ⟨rfl, same ▸ ends.2⟩]
      · rw [dropIdle_cons, gone]
        rfl
    · have kept : p.dropIdle (y :: rest) = y :: p.dropIdle rest := by rw [dropIdle_cons, if_neg ends]
      have busy : ¬ (y :: p.dropIdle rest = [] ∧ p.readsIdle x.reading = true) := fun none =>
        List.cons_ne_nil _ _ none.1
      rw [joinPulse_cons, kept, joinPulse_cons, if_neg busy]
      split
      · rw [dropIdle_cons, if_neg ends]
      · rw [dropIdle_cons, kept, if_neg busy]

theorem heard_cons (x : LineSpan) (line : List LineSpan) :
    p.heard (x :: line) =
      if p.heard line = [] ∧ p.isActivity x.wire = false then []
      else joinPulse (p.pulseOf x) (p.heard line) := by
  have still : p.isActivity x.wire = false ↔ p.readsIdle (p.pulseOf x).reading = true := by
    rw [Profile.isActivity, Bool.not_eq_false']
    rfl
  rw [if_congr (and_congr_right' still) rfl rfl]
  exact dropIdle_joinPulse (p.pulseOf x) (p.pulses line)

theorem heard_cons_active {x : LineSpan} (h : p.isActivity x.wire = true) (line : List LineSpan) :
    p.heard (x :: line) = joinPulse (p.pulseOf x) (p.heard line) := by
  rw [heard_cons, if_neg]
  rintro ⟨-, still⟩
  exact absurd (h.symm.trans still) nofun

theorem heard_cons_of_heard (x : LineSpan) {line : List LineSpan} (h : p.heard line ≠ []) :
    p.heard (x :: line) = joinPulse (p.pulseOf x) (p.heard line) := by
  rw [heard_cons, if_neg fun both => h both.1]

/-- The idle condition at the end is not heard. -/
theorem heard_concat_idle {x : LineSpan} (still : p.isActivity x.wire = false) (line : List LineSpan) :
    p.heard (line ++ [x]) = p.heard line := by
  induction line with
  | nil => exact (heard_cons x []).trans (if_pos ⟨rfl, still⟩)
  | cons y rest ih => rw [List.cons_append, heard_cons, ih, ← heard_cons]

theorem length_joinPulse_le (x : Pulse) (rest : List Pulse) :
    (joinPulse x rest).length ≤ rest.length + 1 := by
  cases rest with
  | nil => exact le_rfl
  | cons y rest =>
    rw [joinPulse_cons]
    split
    · exact Nat.le_succ _
    · exact le_rfl

theorem length_heard_le (line : List LineSpan) : (p.heard line).length ≤ line.length := by
  induction line with
  | nil => exact le_rfl
  | cons x rest ih =>
    rw [heard_cons]
    split
    · exact Nat.zero_le _
    · exact (length_joinPulse_le _ _).trans (Nat.succ_le_succ ih)

theorem reading_head_joinPulse {x z : Pulse} {rest more : List Pulse}
    (h : joinPulse x rest = z :: more) : z.reading = x.reading := by
  cases rest with
  | nil =>
    obtain ⟨rfl, -⟩ := List.cons.inj h
    rfl
  | cons y rest =>
    rw [joinPulse_cons] at h
    split at h
    · next same =>
      obtain ⟨rfl, -⟩ := List.cons.inj h
      exact same.symm
    · obtain ⟨rfl, -⟩ := List.cons.inj h
      rfl

theorem reading_head_heard {x : LineSpan} {line : List LineSpan} {z : Pulse} {more : List Pulse}
    (h : p.heard (x :: line) = z :: more) : z.reading = p.reads x.wire := by
  rw [heard_cons] at h
  split at h
  · cases h
  · exact reading_head_joinPulse h

theorem heard_ne_nil {line : List LineSpan} {y : LineSpan} (mem : y ∈ line)
    (active : p.isActivity y.wire = true) : p.heard line ≠ [] := by
  induction line with
  | nil => cases mem
  | cons x rest ih =>
    obtain rfl | mem := List.mem_cons.1 mem
    · rw [heard_cons_active active]
      exact joinPulse_ne_nil _ _
    · rw [heard_cons_of_heard x (ih mem)]
      exact joinPulse_ne_nil _ _

theorem exists_reading_joinPulse (x : Pulse) {rest : List Pulse} {r : Reading}
    (h : x.reading = r ∨ ∃ z ∈ rest, z.reading = r) : ∃ z ∈ joinPulse x rest, z.reading = r := by
  cases rest with
  | nil =>
    obtain rfl | ⟨z, none, -⟩ := h
    · exact ⟨x, List.mem_singleton_self x, rfl⟩
    · cases none
  | cons y rest =>
    rw [joinPulse_cons]
    split <;> simp_all

/-- A condition with activity behind it is heard. -/
theorem exists_heard (before : List LineSpan) {after : List LineSpan} (x : LineSpan) {y : LineSpan}
    (mem : y ∈ after) (active : p.isActivity y.wire = true) :
    ∃ z ∈ p.heard (before ++ x :: after), z.reading = p.reads x.wire := by
  induction before with
  | nil =>
    rw [List.nil_append, heard_cons_of_heard x (heard_ne_nil mem active)]
    exact exists_reading_joinPulse _ (.inl rfl)
  | cons w rest ih =>
    obtain ⟨z, hz, _⟩ := id ih
    rw [List.cons_append, heard_cons_of_heard w (List.ne_nil_of_mem hz)]
    exact exists_reading_joinPulse _ (.inr ih)

/-! ### Receptions that are bad whatever they spell -/

theorem judge_short {l : List Pulse} (h : l.length ≤ 2) : p.judge l = none := by
  match l, h with
  | [], _ => rfl
  | [_], _ => rfl
  | [_, _], _ => exact ite_self _

theorem judge_of_head {l : List Pulse} (h : ∀ z more, l = z :: more → z.reading ≠ .mark) :
    p.judge l = none := by
  match l with
  | [] => rfl
  | [_] => rfl
  | m :: _ :: _ => exact if_neg fun good => h m _ rfl good.1

theorem judgeBits_reading {l : List Pulse} {bits : List Bool} (h : p.judgeBits l = some bits) :
    ∀ z ∈ l, z.reading ≠ .idle := by
  fun_induction Profile.judgeBits p l generalizing bits with
  | case1 | case3 | case5 | case8 => cases h
  | case2 m trailer => simp [trailer.1]
  | case4 m s bit => simp [bit.1, bit.2.1]
  | case6 m s bit y rest b more _ judged ih =>
    simp only [List.forall_mem_cons (a := m), List.forall_mem_cons (a := s), bit.1, bit.2.1]
    exact ⟨nofun, nofun, ih judged⟩
  | case7 m s bit y rest bad =>
    split at h
    · next b more mark judged => exact (bad b more mark judged).elim
    · cases h

theorem judge_reading {l : List Pulse} {bits : List Bool} (h : p.judge l = some bits) :
    ∀ z ∈ l, z.reading ≠ .idle := by
  match l with
  | [] => cases h
  | [_] => cases h
  | m :: s :: rest =>
    rw [Profile.judge] at h
    split at h
    · next good =>
      obtain ⟨mark, -, space, -⟩ := good
      simp only [List.forall_mem_cons, mark, space]
      exact ⟨nofun, nofun, judgeBits_reading h⟩
    · cases h

/-! ### Bits and bytes -/

/-- The number that bits spell, least significant first. -/
theorem testBit_foldr (bits : List Bool) (i : Nat) :
    (bits.foldr (fun (b : Bool) n => (if b then 1 else 0) + 2 * n) 0).testBit i = bits.getD i false := by
  induction bits generalizing i with
  | nil => simp
  | cons b rest ih =>
    have bit : ∀ n, (if b then 1 else 0) + 2 * n = Nat.bit b n := fun n => by
      cases b <;> simp [Nat.bit, Nat.add_comm]
    rw [List.foldr_cons, bit]
    cases i with
    | zero => simp
    | succ i => rw [Nat.testBit_bit_succ, ih, List.getD_cons_succ]

theorem getLsbD_byteOfBits (bits : List Bool) {i : Nat} (h : i < 8) :
    (byteOfBits bits).getLsbD i = bits.getD i false := by
  rw [byteOfBits, byteOf, BitVec.getLsbD_ofNat, testBit_foldr]
  simp [h]

theorem getD_bitsOf (b : Byte) {i : Nat} (h : i < 8) : (bitsOf b).getD i false = b.getLsbD i := by
  simp [bitsOf, h]

theorem byteOfBits_bitsOf (b : Byte) : byteOfBits (bitsOf b) = b :=
  BitVec.eq_of_getLsbD_eq fun _ h => (getLsbD_byteOfBits _ h).trans (getD_bitsOf b h)

theorem bitsOf_byteOfBits {bits : List Bool} (eight : bits.length = 8) :
    bitsOf (byteOfBits bits) = bits := by
  refine List.ext_getElem (by simp [bitsOf, eight]) fun i hi hi' => ?_
  have get : ∀ l : List Bool, ∀ hl : i < l.length, l[i] = l.getD i false := fun l hl => by simp [hl]
  rw [get _ hi, get _ hi', getD_bitsOf _ (eight ▸ hi'), getLsbD_byteOfBits _ (eight ▸ hi')]

theorem telegramBits_cons (b : Byte) (rest : List Byte) :
    telegramBits (b :: rest) = bitsOf b ++ telegramBits rest := rfl

theorem assembleBytes_telegramBits (bytes : List Byte) :
    assembleBytes (telegramBits bytes) = some bytes := by
  induction bytes with
  | nil => rfl
  | cons b rest ih =>
    have head : assembleBytes (bitsOf b ++ telegramBits rest) =
        (assembleBytes (telegramBits rest)).map (byteOfBits (bitsOf b) :: ·) := by
      change assembleBytes (_ :: _ :: _ :: _ :: _ :: _ :: _ :: _ :: telegramBits rest) = _
      rw [assembleBytes]
      cases assembleBytes (telegramBits rest) <;> rfl
    rw [telegramBits_cons, head, ih, byteOfBits_bitsOf]
    rfl

/-- Bits are assembled into bytes exactly when they are the bits of those bytes (R101). -/
theorem assembleBytes_eq_some {bits : List Bool} {bytes : List Byte} :
    assembleBytes bits = some bytes ↔ bits = telegramBits bytes := by
  refine ⟨fun h => ?_, fun h => h ▸ assembleBytes_telegramBits bytes⟩
  fun_induction assembleBytes bits generalizing bytes with
  | case1 =>
    obtain rfl := Option.some.inj h
    rfl
  | case2 b0 b1 b2 b3 b4 b5 b6 b7 rest more hmore ih =>
    obtain rfl := Option.some.inj h
    rw [telegramBits_cons, bitsOf_byteOfBits rfl, ← ih hmore]
    rfl
  | case3 => cases h
  | case4 => cases h

/-! ### Pulses that are bits -/

/-- A mark and a space judged as a bit (R98). -/
def Profile.spells (p : Profile) (x : LineSpan × LineSpan) (bit : Bool) : Prop :=
  judgedAs p x.1.micros bit ∧ within p x.2.micros p.bitSpace

/-- The end of a frame: the trailer, and in SHIFT perhaps a space after it, judged as a bit space. -/
theorem judgeBits_end {trailer : LineSpan} {last : List LineSpan} {judged : List Bool}
    (mark : p.reads trailer.wire = .mark)
    (ending : last = [] ∨ ∃ x, last = [x] ∧ p.reads x.wire = .space) :
    p.judgeBits ((trailer :: last).map p.pulseOf) = some judged ↔
      within p trailer.micros 1 ∧ (∀ x ∈ last, within p x.micros p.bitSpace) ∧ judged = [] := by
  obtain rfl | ⟨x, rfl, space⟩ := ending
  · simp [Profile.judgeBits, Profile.pulseOf, mark, inTolerance_iff, @eq_comm _ [] judged]
  · simp [Profile.judgeBits, Profile.pulseOf, mark, space, inTolerance_iff]
    tauto

theorem judgeBits_bit {x : LineSpan × LineSpan} {rest : List Pulse} {judged : List Bool}
    (mark : p.reads x.1.wire = .mark) (space : p.reads x.2.wire = .space) (more : rest ≠ []) :
    p.judgeBits (p.pulseOf x.1 :: p.pulseOf x.2 :: rest) = some judged ↔
      ∃ b bits, judged = b :: bits ∧ p.spells x b ∧ p.judgeBits rest = some bits := by
  obtain ⟨z, tail, rfl⟩ := List.exists_cons_of_ne_nil more
  have step : p.judgeBits (p.pulseOf x.1 :: p.pulseOf x.2 :: z :: tail) =
      if p.inTolerance x.2.micros p.bitSpace = true then
        (p.judgeBit x.1.micros).bind fun b => (p.judgeBits (z :: tail)).map (b :: ·)
      else none := by
    rw [Profile.judgeBits]
    simp only [Profile.pulseOf, mark, space, true_and]
    cases p.judgeBit x.1.micros <;> cases p.judgeBits (z :: tail) <;> rfl
  simp only [step, Option.ite_none_right_eq_some, Option.bind_eq_some_iff, Option.map_eq_some_iff,
    judgeBit_iff, inTolerance_iff, Profile.spells]
  constructor
  · rintro ⟨short, b, bit, bits, judged, rfl⟩
    exact ⟨b, bits, rfl, ⟨bit, short⟩, judged⟩
  · rintro ⟨b, bits, rfl, ⟨bit, short⟩, judged⟩
    exact ⟨short, b, bit, bits, judged, rfl⟩

/-- Bits and the end of a frame judged: each mark and space spells its bit. -/
theorem judgeBits_eq_some {bits : List (LineSpan × LineSpan)} {trailer : LineSpan}
    {last : List LineSpan} {judged : List Bool}
    (alternate : ∀ x ∈ bits, p.reads x.1.wire = .mark ∧ p.reads x.2.wire = .space)
    (mark : p.reads trailer.wire = .mark)
    (ending : last = [] ∨ ∃ x, last = [x] ∧ p.reads x.wire = .space) :
    p.judgeBits ((bits.flatMap (fun x => [x.1, x.2]) ++ trailer :: last).map p.pulseOf) = some judged ↔
      within p trailer.micros 1 ∧ (∀ x ∈ last, within p x.micros p.bitSpace) ∧
        List.Forall₂ p.spells bits judged := by
  induction bits generalizing judged with
  | nil =>
    rw [List.forall₂_nil_left_iff]
    exact judgeBits_end mark ending
  | cons x rest ih =>
    obtain ⟨⟨hm, hs⟩, others⟩ := List.forall_mem_cons.1 alternate
    have split : ((x :: rest).flatMap (fun x => [x.1, x.2]) ++ trailer :: last).map p.pulseOf =
        p.pulseOf x.1 :: p.pulseOf x.2 ::
          (rest.flatMap (fun x => [x.1, x.2]) ++ trailer :: last).map p.pulseOf := rfl
    rw [split, judgeBits_bit hm hs (by simp), List.forall₂_cons_left_iff]
    simp only [ih others]
    constructor
    · rintro ⟨b, bits, rfl, spelt, short, space, all⟩
      exact ⟨short, space, b, bits, spelt, all, rfl⟩
    · rintro ⟨short, space, b, bits, spelt, all, rfl⟩
      exact ⟨b, bits, rfl, spelt, short, space, all⟩

/-! ### A reception of marks and spaces in turn -/

theorem isActivity_of_mark {w : Wire} (mark : p.reads w = .mark) : p.isActivity w = true := by
  by_cases shift : p.mode = .shift
  · rw [isActivity_shift shift, mark]
    exact nofun
  · exact (isActivity_unshifted shift w).2 mark

theorem heard_cons_of_head {x : LineSpan} {line more : List LineSpan} {y : LineSpan}
    (heard : p.heard line = (y :: more).map p.pulseOf) (other : p.reads x.wire ≠ p.reads y.wire) :
    p.heard (x :: line) = (x :: y :: more).map p.pulseOf := by
  rw [heard_cons_of_heard x (by rw [heard]; exact List.cons_ne_nil _ _), heard, List.map_cons,
    joinPulse_cons]
  exact if_neg other

theorem heard_mark_space {x y m : LineSpan} {line more : List LineSpan}
    (heard : p.heard line = (m :: more).map p.pulseOf) (next : p.reads m.wire = .mark)
    (mark : p.reads x.wire = .mark) (space : p.reads y.wire = .space) :
    p.heard (x :: y :: line) = (x :: y :: m :: more).map p.pulseOf := by
  refine heard_cons_of_head (heard_cons_of_head heard ?_) ?_
  · rw [space, next]
    exact nofun
  · rw [mark, space]
    exact nofun

theorem heard_end {trailer : LineSpan} {last : List LineSpan} (mark : p.reads trailer.wire = .mark)
    (ending : last = [] ∨ p.mode = .shift ∧ ∃ x, last = [x] ∧ p.reads x.wire = .space) :
    p.heard (trailer :: last) = (trailer :: last).map p.pulseOf := by
  obtain rfl | ⟨shift, x, rfl, space⟩ := ending
  · exact heard_cons_active (isActivity_of_mark mark) []
  · have active : p.isActivity x.wire = true := by
      rw [isActivity_shift shift, space]
      exact nofun
    refine heard_cons_of_head (heard_cons_active active []) ?_
    rw [mark, space]
    exact nofun

/-- Marks and spaces in turn are heard one by one. -/
theorem heard_bits {bits : List (LineSpan × LineSpan)} {trailer : LineSpan} {last : List LineSpan}
    (alternate : ∀ x ∈ bits, p.reads x.1.wire = .mark ∧ p.reads x.2.wire = .space)
    (mark : p.reads trailer.wire = .mark)
    (ending : last = [] ∨ p.mode = .shift ∧ ∃ x, last = [x] ∧ p.reads x.wire = .space) :
    ∃ m more, bits.flatMap (fun x => [x.1, x.2]) ++ trailer :: last = m :: more ∧
      p.reads m.wire = .mark ∧ p.heard (m :: more) = (m :: more).map p.pulseOf := by
  induction bits with
  | nil => exact ⟨trailer, last, rfl, mark, heard_end mark ending⟩
  | cons x rest ih =>
    obtain ⟨⟨hm, hs⟩, others⟩ := List.forall_mem_cons.1 alternate
    obtain ⟨m, more, e, next, heard⟩ := ih others
    refine ⟨x.1, x.2 :: m :: more, ?_, hm, heard_mark_space heard next hm hs⟩
    rw [← e]
    rfl

theorem judge_leader {leader gap : LineSpan} {rest : List Pulse} {judged : List Bool}
    (mark : p.reads leader.wire = .mark) (space : p.reads gap.wire = .space) :
    p.judge (p.pulseOf leader :: p.pulseOf gap :: rest) = some judged ↔
      within p leader.micros p.leaderMark ∧ within p gap.micros p.leaderSpace ∧
        p.judgeBits rest = some judged := by
  rw [Profile.judge, Option.ite_none_right_eq_some]
  simp only [Profile.pulseOf, mark, space, true_and, inTolerance_iff, and_assoc]

/-- The mark and space of each bit spell the bits of some bytes. -/
theorem spells_telegramBits {bits : List (LineSpan × LineSpan)} {bytes : List Byte} :
    List.Forall₂ p.spells bits (telegramBits bytes) ↔ bits.length = 8 * bytes.length ∧
      ∀ (i : Nat) (x : LineSpan × LineSpan), bits[i]? = some x → p.spells x (bitAt bytes i) := by
  rw [List.forall₂_iff_get, ← telegramBits_length]
  refine and_congr_right fun same => ?_
  have bit : ∀ i (h : i < (telegramBits bytes).length), (telegramBits bytes).get ⟨i, h⟩ = bitAt bytes i :=
    fun i h => by simp [telegramBits_eq]
  constructor
  · intro all i x hx
    obtain ⟨inside, rfl⟩ := List.getElem?_eq_some_iff.1 hx
    exact bit i _ ▸ all i inside (same ▸ inside)
  · intro all i inside _
    rw [bit]
    exact all i _ (List.getElem?_eq_getElem inside)

/-! ### Good frames (R101) -/

theorem goodFrame_of_short {bytes : List Byte} (h : bytes.length ≤ 6) : ¬ GoodFrame bytes := fun good => by
  have := good.length
  omega

/-- The checks of R101 on the bytes of a frame, and the answer handed over (R102). -/
theorem readAnswer_eq_some {bytes : List Byte} {a : LineAnswer} :
    readAnswer bytes = some a ↔ GoodFrame bytes ∧ a = answerOf bytes := by
  match bytes with
  | d1 :: d0 :: s1 :: s0 :: tag :: kindLen :: status :: more =>
    obtain ⟨bytes, hb⟩ : ∃ bytes, bytes = d1 :: d0 :: s1 :: s0 :: tag :: kindLen :: status :: more :=
      ⟨_, rfl⟩
    obtain ⟨len, hlen⟩ : ∃ len, len = kindLen.toNat % 64 := ⟨_, rfl⟩
    have answer : bytes.length = 8 + len →
        LineAnswer.mk (BitVec.ofNat 12 (numberOf s1 s0)) tag ⟨status, more.take (len - 1)⟩ =
          answerOf bytes := fun full => by
      rw [answerOf, full, show 8 + len - 9 = len - 1 by omega, hb]
      rfl
    have crc : bytes.length = 8 + len →
        ((status :: more).drop len = crcBytes (bytes.take (6 + len)) ↔
          bytes.drop (bytes.length - 2) =
            twoBytes (crc16 (bytes.take (bytes.length - 2))).toNat) := fun full => by
      have tail : bytes.drop (6 + len) = (status :: more).drop len := by
        rw [hb, Nat.add_comm]
        rfl
      rw [full, show 8 + len - 2 = 6 + len by omega, tail]
      rfl
    rw [← hb]
    have read : readAnswer bytes = some a ↔
        (bytes.length ≤ 56 ∧ kindLen.toNat / 64 = 2 ∧ 1 ≤ len ∧ len ≤ 48 ∧ bytes.length = 8 + len ∧
          d1 = 0 ∧ d0 = 0 ∧ s1.toNat < 16 ∧
          (status :: more).drop len = crcBytes (bytes.take (6 + len))) ∧
        LineAnswer.mk (BitVec.ofNat 12 (numberOf s1 s0)) tag ⟨status, more.take (len - 1)⟩ = a := by
      rw [hb, readAnswer, ← hlen, Option.ite_none_right_eq_some, Option.some.injEq]
    rw [read]
    constructor
    · rintro ⟨⟨most, kind, least, top, full, d1, d0, source, sum⟩, rfl⟩
      refine ⟨⟨by omega, ?_, ?_, ?_, ?_, (crc full).1 sum⟩, answer full⟩
      · exact hb ▸ kind
      · rw [hb]
        exact hlen ▸ ⟨least, top, hb ▸ full⟩
      · exact hb ▸ ⟨d1, d0⟩
      · exact hb ▸ source
    · rintro ⟨⟨⟨_, most⟩, kind, payload, destination, source, sum⟩, rfl⟩
      have field : ∀ i, bytes.getD i 0 =
          (d1 :: d0 :: s1 :: s0 :: tag :: kindLen :: status :: more).getD i 0 := fun i => by rw [hb]
      rw [field] at kind source
      rw [field] at payload
      rw [field, field] at destination
      obtain ⟨least, top, full⟩ : 1 ≤ len ∧ len ≤ 48 ∧ bytes.length = 8 + len := hlen ▸ payload
      exact ⟨⟨most, kind, least, top, full, destination.1, destination.2, source, (crc full).2 sum⟩,
        answer full⟩
  | [] | [_] | [_, _] | [_, _, _] | [_, _, _, _] | [_, _, _, _, _] | [_, _, _, _, _, _] =>
    exact ⟨nofun, fun h => absurd h.1 (goodFrame_of_short (by simp))⟩

/-- The frame that R163 gives for an answer. -/
theorem lineBytes_answer (device : Addr) (tag : Byte) (payload : List Byte) :
    lineBytes 0 device.toNat tag 2 payload =
      lineBody 0 device tag 2 payload ++ twoBytes (crc16 (lineBody 0 device tag 2 payload)).toNat := rfl

theorem lineBody_answer (device : Addr) (tag : Byte) (payload : List Byte) :
    lineBody 0 device tag 2 payload =
      0 :: 0 :: byteOf (device.toNat / 256) :: byteOf device.toNat :: tag ::
        byteOf (128 + payload.length) :: payload := rfl

theorem length_lineBody_answer (device : Addr) (tag : Byte) (payload : List Byte) :
    (lineBody 0 device tag 2 payload).length = payload.length + 6 := rfl

theorem length_lineBytes_answer (device : Addr) (tag : Byte) (payload : List Byte) :
    (lineBytes 0 device.toNat tag 2 payload).length = payload.length + 8 := by
  rw [lineBytes_answer, List.length_append, length_lineBody_answer]
  rfl

theorem goodFrame_lineBytes (device : Addr) (tag status : Byte) {data : List Byte}
    (h : data.length ≤ 47) : GoodFrame (lineBytes 0 device.toNat tag 2 (status :: data)) := by
  have all := length_lineBytes_answer device tag (status :: data)
  have body := length_lineBody_answer device tag (status :: data)
  have high : (byteOf (device.toNat / 256)).toNat = device.toNat / 256 :=
    toNat_byteOf (by have := device.isLt; omega)
  have kindLen : (byteOf (128 + (status :: data).length)).toNat = 128 + (data.length + 1) :=
    toNat_byteOf (by rw [List.length_cons]; omega)
  have sixth : (lineBytes 0 device.toNat tag 2 (status :: data)).getD 5 0 =
      byteOf (128 + (status :: data).length) := rfl
  have third : (lineBytes 0 device.toNat tag 2 (status :: data)).getD 2 0 =
      byteOf (device.toNat / 256) := rfl
  rw [List.length_cons] at all body
  have cut : (lineBytes 0 device.toNat tag 2 (status :: data)).length - 2 =
      (lineBody 0 device tag 2 (status :: data)).length := by omega
  refine ⟨by omega, ?_, ?_, ⟨rfl, rfl⟩, ?_, ?_⟩
  · rw [sixth, kindLen]
    omega
  · rw [sixth, kindLen]
    omega
  · rw [third, high]
    have := device.isLt
    omega
  · rw [cut, lineBytes_answer, List.drop_left, List.take_left]

theorem answerOf_lineBytes (device : Addr) (tag status : Byte) (data : List Byte) :
    answerOf (lineBytes 0 device.toNat tag 2 (status :: data)) =
      { device := device, tag := tag, part := { status := status, data := data } } := by
  have source : BitVec.ofNat 12 (256 * (byteOf (device.toNat / 256)).toNat +
      (byteOf device.toNat).toNat) = device := by
    rw [← numberOf, numberOf_twoBytes (by have := device.isLt; omega)]
    exact BitVec.ofNat_toNat .. |>.trans (BitVec.setWidth_eq device)
  have payload : ((lineBytes 0 device.toNat tag 2 (status :: data)).drop 7).take
      ((lineBytes 0 device.toNat tag 2 (status :: data)).length - 9) = data := by
    rw [length_lineBytes_answer, List.length_cons, show data.length + 1 + 8 - 9 = data.length by omega]
    exact List.take_left
  rw [answerOf, payload]
  exact congrArg (LineAnswer.mk · tag ⟨status, data⟩) source

/-! ### Receptions of leader, bits and trailer -/

/-- A reception of marks and spaces in turn is a good frame exactly when R98 and R101 say so. -/
theorem receive_eq_some_iff {leader gap trailer : LineSpan} {bits : List (LineSpan × LineSpan)}
    {last : List LineSpan} {a : LineAnswer} (opens : p.reads leader.wire = .mark)
    (space : p.reads gap.wire = .space)
    (alternate : ∀ x ∈ bits, p.reads x.1.wire = .mark ∧ p.reads x.2.wire = .space)
    (mark : p.reads trailer.wire = .mark)
    (ending : last = [] ∨ p.mode = .shift ∧ ∃ x, last = [x] ∧ p.reads x.wire = .space) :
    p.receive (leader :: gap :: bits.flatMap (fun x => [x.1, x.2]) ++ trailer :: last) = some a ↔
      within p leader.micros p.leaderMark ∧ within p gap.micros p.leaderSpace ∧
      within p trailer.micros 1 ∧ (∀ x ∈ last, within p x.micros p.bitSpace) ∧
      ∃ bytes : List Byte, bits.length = 8 * bytes.length ∧
        (∀ (i : Nat) (x : LineSpan × LineSpan), bits[i]? = some x → p.spells x (bitAt bytes i)) ∧
        GoodFrame bytes ∧ a = answerOf bytes := by
  have heard : p.heard (leader :: gap :: bits.flatMap (fun x => [x.1, x.2]) ++ trailer :: last) =
      p.pulseOf leader :: p.pulseOf gap ::
        (bits.flatMap (fun x => [x.1, x.2]) ++ trailer :: last).map p.pulseOf := by
    obtain ⟨m, more, e, next, heard⟩ := heard_bits alternate mark ending
    rw [List.cons_append, List.cons_append, e]
    exact heard_mark_space heard next opens space
  have judged : ∀ bytes, p.judge (p.heard
        (leader :: gap :: bits.flatMap (fun x => [x.1, x.2]) ++ trailer :: last)) =
        some (telegramBits bytes) ↔
      within p leader.micros p.leaderMark ∧ within p gap.micros p.leaderSpace ∧
      within p trailer.micros 1 ∧ (∀ x ∈ last, within p x.micros p.bitSpace) ∧
      bits.length = 8 * bytes.length ∧
        ∀ (i : Nat) (x : LineSpan × LineSpan), bits[i]? = some x → p.spells x (bitAt bytes i) := by
    intro bytes
    rw [heard, judge_leader opens space,
      judgeBits_eq_some alternate mark (ending.imp_right And.right), spells_telegramBits]
  rw [receive_eq_some]
  simp only [assembleBytes_eq_some, readAnswer_eq_some]
  constructor
  · rintro ⟨_, judge, bytes, rfl, good, rfl⟩
    obtain ⟨l1, l2, l3, l4, whole, spelt⟩ := (judged bytes).1 judge
    exact ⟨l1, l2, l3, l4, bytes, whole, spelt, good, rfl⟩
  · rintro ⟨l1, l2, l3, l4, bytes, whole, spelt, good, rfl⟩
    exact ⟨_, (judged bytes).2 ⟨l1, l2, l3, l4, whole, spelt⟩, bytes, rfl, good, rfl⟩

/-! ### An answer keyed -/

/-- A keyed stretch on the wires, at its nominal length (R90, R93). -/
def Profile.nominal (p : Profile) (x : Keyed) : LineSpan :=
  { wire := p.drives x.mark, micros := x.units * p.unitTime }

/-- The mark and the space of a bit on the wires. -/
def Profile.nominalBit (p : Profile) (bit : Bool) : LineSpan × LineSpan :=
  (p.nominal { mark := true, units := markUnits p bit },
    p.nominal { mark := false, units := p.bitSpace })

theorem map_nominal_key (p : Profile) (bytes : List Byte) :
    (p.key bytes).map p.nominal =
      p.nominal { mark := true, units := p.leaderMark } ::
        p.nominal { mark := false, units := p.leaderSpace } ::
        ((telegramBits bytes).map p.nominalBit).flatMap (fun x => [x.1, x.2]) ++
        p.nominal { mark := true, units := 1 } :: [] := by
  rw [Profile.key, List.map_append, List.map_append, List.map_flatMap, List.flatMap_map]
  rfl

theorem within_nominal (p : Profile) (n : Nat) : within p (n * p.unitTime) n := by
  rw [within, Nat.mul_assoc, Nat.mul_assoc]
  omega

theorem judgedAs_nominal (valid : p.isValid = true) (bit : Bool) :
    judgedAs p (markUnits p bit * p.unitTime) bit := by
  obtain ⟨⟨unit, -⟩, -, -, -, -, -, -, -, -, longer, -⟩ := (isValid_iff p).1 valid
  refine ⟨within_nominal p _, ?_⟩
  have scale := Nat.mul_lt_mul_of_pos_right longer (show 0 < p.unitTime by omega)
  rw [Nat.add_mul]
  cases bit
  · simp [markUnits]
    omega
  · simp [markUnits]
    omega

/-- An answer keyed at its nominal lengths is received (R93, R98). -/
theorem receive_keyed (valid : p.isValid = true) {bytes : List Byte} (good : GoodFrame bytes) :
    p.receive ((p.key bytes).map p.nominal) = some (answerOf bytes) := by
  obtain ⟨mark, space⟩ := reads_drives p valid
  rw [map_nominal_key, receive_eq_some_iff mark space ?_ mark (.inl rfl)]
  · refine ⟨within_nominal p _, within_nominal p _, within_nominal p _, nofun, bytes, ?_, ?_, good, rfl⟩
    · rw [List.length_map, telegramBits_length]
    · intro i x hx
      rw [telegramBits_eq, List.map_map, List.getElem?_map, Option.map_eq_some_iff] at hx
      obtain ⟨j, hj, rfl⟩ := hx
      obtain ⟨inside, hj⟩ := List.getElem?_eq_some_iff.1 hj
      obtain rfl : i = j := (List.getElem_range inside).symm.trans hj
      exact ⟨judgedAs_nominal valid _, within_nominal p _⟩
  · intro x hx
    obtain ⟨bit, -, rfl⟩ := List.mem_map.1 hx
    exact ⟨mark, space⟩

end Sys2Proof.Machine

namespace Sys2Proof.Proofs

open Sys2Proof.Machine Sys2Proof.Safety

/-- Settles O44: the pulses of a reception are its conditions one by one, and each check of R98 and R101
is one clause of the criterion. -/
theorem keyedAnswersAreReceived : Obligations.KeyedAnswersAreReceived := by
  refine ⟨?_, ?_, ?_, ?_, ?_⟩
  · intro p device tag status data valid short
    exact (receive_keyed valid (goodFrame_lineBytes device tag status short)).trans
      (congrArg some (answerOf_lineBytes device tag status data))
  · intro p leader gap trailer bits last a opens space alternate mark ending
    exact receive_eq_some_iff opens space alternate mark ending
  · intro p before after x y same
    rw [receive_eq, receive_eq, Profile.heard, Profile.heard, pulses_join p before after x y same]
  · intro p line x still
    rw [receive_eq, receive_eq, heard_concat_idle still]
  · intro p line bad
    refine receive_none_of_judge ?_
    obtain short | ⟨x, rest, rfl, other⟩ | ⟨shift, before, x, after, y, rfl, idle, mem, active⟩ := bad
    · exact judge_short ((length_heard_le line).trans short)
    · exact judge_of_head fun z more h => reading_head_heard h ▸ other
    · obtain ⟨z, heard, read⟩ := exists_heard before x mem ((isActivity_shift shift _).2 active)
      refine Option.eq_none_iff_forall_ne_some.2 fun bits judged => ?_
      exact judge_reading judged z heard (read.trans idle)

end Sys2Proof.Proofs
end

