-- ==== Sys2Proof/Proofs/TrunkSending.lean ====
section
/-! SUPPORT. The trunk's sending direction: what the arbiter takes and the frame it sends (R125,
R161), the bits that stand on TTX (R157, R159), and the end of a transmission (R126, R140). -/

namespace Sys2Proof.Machine

open Sys2Proof.Safety

variable {s : State}

/-! ### Frames and payloads formed (R159, R161) -/

theorem frame_response (own : Addr) (r : Response) :
    (Outgoing.response r).frame own = trunkFrame
      (trunkBody 4 r.destination own r.seq 0 (r.code :: statusCode r.status :: r.result)) := by
  rw [← statusCode_eq]
  rfl

theorem frame_notice (own : Addr) (n : Notice) :
    (Outgoing.notice n).frame own =
      trunkFrame (trunkBody 5 n.destination own 0 0 n.kind.payload) := rfl

theorem frame_report (own : Addr) (r : Report) :
    (Outgoing.report r).frame own =
      trunkFrame (trunkBody 3 r.destination own r.seq (byteOf r.cls.val) r.payload) := rfl

/-- Four flags weighted 1, 2, 4 and 8 are bits 0 to 3 of their byte. -/
theorem getLsbD_flags (b0 b1 b2 b3 : Bool) (i : Nat) :
    (byteOf ((if b0 then 1 else 0) + (if b1 then 2 else 0) + (if b2 then 4 else 0) +
      (if b3 then 8 else 0))).getLsbD i = true ↔
    i = 0 ∧ b0 = true ∨ i = 1 ∧ b1 = true ∨ i = 2 ∧ b2 = true ∨ i = 3 ∧ b3 = true := by
  obtain low | high := Nat.lt_or_ge i 8
  · obtain ⟨j, rfl⟩ : ∃ j : Fin 8, i = j := ⟨⟨i, low⟩, rfl⟩
    clear low
    decide +revert
  · rw [BitVec.getLsbD_of_ge _ _ high]
    constructor
    · exact nofun
    · omega

/-! ### The arbiter (R125) -/

theorem exec_arbiterTake (hold : s.pins.hold = none) :
    exec .arbiterTake s = .next (s.settle .take).arbitrate :=
  whileRunning_of_no_hold (fun s => (s.settle .take).arbitrate) hold

theorem arbitrate_idle (idle : s.port.transmitter = .idle) : s.arbitrate = s.takeEntry := by
  simp only [State.arbitrate, State.transmitterIdle, idle, if_true]

theorem arbitrate_busy (busy : s.port.transmitter ≠ .idle) : s.arbitrate = s := by
  cases h : s.port.transmitter with
  | idle => exact absurd h busy
  | sending => simp only [State.arbitrate, State.transmitterIdle, h, Bool.false_eq_true, if_false]

theorem send_eq (e : Outgoing) : s.send e = { s with
    port.transmitter := .sending e (e.frame (ownAddressOf s.pins.latched))
      (s.pins.now + (e.frame (ownAddressOf s.pins.latched)).length * 10 * trunkBitTime s) } := by
  rw [← bitTime_eq]
  rfl

theorem takeEntry_response {r : Response} {rest : List Response}
    (head : s.reports.responseQueue = r :: rest) :
    s.takeEntry = State.send { s with reports.responseQueue := rest } (.response r) := by
  rw [State.takeEntry, head]

theorem takeEntry_notice {n : Notice} {rest : List Notice}
    (noResponse : s.reports.responseQueue = []) (head : s.reports.noticeQueue = n :: rest) :
    s.takeEntry = State.send { s with reports.noticeQueue := rest } (.notice n) := by
  rw [State.takeEntry, noResponse, head]

theorem takeEntry_report {r : Report} {rest : List Report}
    (noResponse : s.reports.responseQueue = []) (noNotice : s.reports.noticeQueue = [])
    (head : s.reports.reportQueue = r :: rest) :
    s.takeEntry =
      (State.send { s with reports.reportQueue := rest } (.report r)).owe .formation := by
  rw [State.takeEntry, noResponse, noNotice, head]

theorem takeEntry_none (noResponse : s.reports.responseQueue = [])
    (noNotice : s.reports.noticeQueue = []) (noReport : s.reports.reportQueue = []) :
    s.takeEntry = s := by
  rw [State.takeEntry, noResponse, noNotice, noReport]

/-! ### What stands on TTX (R157, R159) -/

/-- The ten bit-times of a byte (R157). -/
theorem byteBits_get (b : Byte) {k : Nat} (h : k < 10) :
    (byteBits b)[k]? = some
      (if k = 0 then .start else if k = 9 then .stop else .data (b.getLsbD (k - 1))) := by
  cases k with
  | zero => rfl
  | succ k =>
    obtain data | rfl : k < 8 ∨ k = 8 := by omega
    · have notLast : k ≠ 8 := by omega
      simp [byteBits, bitsOf, List.getElem?_append_left, data, notLast]
    · rfl

theorem ttxOut_held (instant : Nat) (hold : s.pins.hold.isSome = true) :
    s.ttxOut instant = .stop := by
  have held : s.running = false := by
    rw [State.running, ← Option.not_isSome, hold]
    rfl
  rw [State.ttxOut, held]

/-- TTX over a transmission, counted in bit-times from its beginning. -/
theorem ttxOut_sending {e : Outgoing} {frame : List Byte} {began endsAt : Nat} (instant : Nat)
    (hold : s.pins.hold = none) (sending : s.port.transmitter = .sending e frame endsAt)
    (ends : endsAt = began + frame.length * 10 * trunkBitTime s) :
    s.ttxOut instant = if began ≤ instant ∧ instant < endsAt then
      (frameBits frame).getD ((instant - began) / trunkBitTime s) .stop else .stop := by
  have time : s.frameTime frame = frame.length * 10 * trunkBitTime s := by
    rw [State.frameTime, bitTime_eq]
  have since : instant + s.frameTime frame - endsAt = instant - began := by omega
  have inside : endsAt ≤ instant + s.frameTime frame ↔ began ≤ instant := by omega
  simp only [State.ttxOut, running_of_no_hold hold, sending, since, inside, bitTime_eq]

/-- In each bit-time of a transmission TTX carries that bit of that byte (R157, R159). -/
theorem ttxOut_in_frame {e : Outgoing} {frame : List Byte} {began endsAt instant i k : Nat}
    {b : Byte} (hold : s.pins.hold = none)
    (sending : s.port.transmitter = .sending e frame endsAt)
    (ends : endsAt = began + frame.length * 10 * trunkBitTime s) (byte : frame[i]? = some b)
    (bit : k < 10) (least : began + (10 * i + k) * trunkBitTime s ≤ instant)
    (most : instant < began + (10 * i + k + 1) * trunkBitTime s) :
    s.ttxOut instant =
      if k = 0 then .start else if k = 9 then .stop else .data (b.getLsbD (k - 1)) := by
  obtain ⟨inFrame, -⟩ := List.getElem?_eq_some_iff.1 byte
  have lastBit : (10 * i + k + 1) * trunkBitTime s ≤ frame.length * 10 * trunkBitTime s :=
    Nat.mul_le_mul_right _ (by omega)
  have place : (instant - began) / trunkBitTime s = 10 * i + k :=
    Nat.div_eq_of_lt_le (by omega) (by omega)
  rw [ttxOut_sending instant hold sending ends, if_pos (by omega), place,
    List.getD_eq_getElem?_getD, frameBits_get frame i k b byte bit, byteBits_get b bit,
    Option.getD_some]

theorem ttxOut_outside {e : Outgoing} {frame : List Byte} {began endsAt instant : Nat}
    (hold : s.pins.hold = none) (sending : s.port.transmitter = .sending e frame endsAt)
    (ends : endsAt = began + frame.length * 10 * trunkBitTime s)
    (outside : instant < began ∨ endsAt ≤ instant) : s.ttxOut instant = .stop := by
  rw [ttxOut_sending instant hold sending ends, if_neg (by omega)]

/-! ### The end of a transmission (R126, R140) -/

theorem exec_trunkTransmissionEnd (straps : StrapPins) (hold : s.pins.hold = none) :
    exec (.trunkTransmissionEnd straps) s = .next (s.endTrunkTransmission straps) :=
  whileRunning_of_no_hold (fun s => s.endTrunkTransmission straps) hold

theorem isRestartResponse_iff (e : Outgoing) :
    e.isRestartResponse = true ↔ ∃ r, e = .response r ∧ r.code = 0x14 ∧ r.status = .ok := by
  cases e <;> simp [Outgoing.isRestartResponse, restartCode]

theorem endTrunkTransmission_plain {e : Outgoing} {frame : List Byte} {endsAt : Nat}
    (straps : StrapPins) (sending : s.port.transmitter = .sending e frame endsAt)
    (plain : ¬ e.isRestartResponse = true) :
    s.endTrunkTransmission straps = { s with
      pins.now := max s.pins.now endsAt
      pins.straps := straps
      port.transmitter := .idle
      occasions := s.occasions ++ [.take] } := by
  simp only [State.endTrunkTransmission, sending, if_neg plain]
  rfl

theorem endTrunkTransmission_restart {e : Outgoing} {frame : List Byte} {endsAt : Nat}
    (straps : StrapPins) (sending : s.port.transmitter = .sending e frame endsAt)
    (restart : e.isRestartResponse = true) :
    s.endTrunkTransmission straps = s.resetTakesEffect .restart straps := by
  simp only [State.endTrunkTransmission, sending, if_pos restart]

end Sys2Proof.Machine

namespace Sys2Proof.Proofs

open Sys2Proof.Machine Sys2Proof.Safety

/-- Settles O46: one rule of the arbiter's take for each queue, then the payloads part by part. -/
theorem arbiterTakesInOrder : Obligations.ArbiterTakesInOrder := by
  refine ⟨?_, ?_, ?_, ?_, ?_⟩
  · rintro s t own ends hold rfl rfl times
    rw [exec_arbiterTake hold]
    refine ⟨fun busy => congrArg _ (arbitrate_busy busy), fun idle => ?_⟩
    rw [arbitrate_idle (s := s.settle .take) idle]
    refine ⟨?_, fun noResponse => ⟨?_, fun noNotice => ⟨?_, fun noReport => ?_⟩⟩⟩
    · rintro r rest head frame rfl
      rw [takeEntry_response (s := s.settle .take) head, send_eq, frame_response, times]
      rfl
    · rintro n rest head frame rfl
      rw [takeEntry_notice (s := s.settle .take) noResponse head, send_eq, frame_notice, times]
      rfl
    · rintro r rest head frame rfl
      rw [takeEntry_report (s := s.settle .take) noResponse noNotice head, send_eq,
        frame_report, times]
      rfl
    · exact congrArg _ (takeEntry_none noResponse noNotice noReport)
  · intro r
    refine ⟨r.presence, getLsbD_flags _ _ _ _, ?_⟩
    rw [Report.payload, outcomeCode_eq]
    refine congrArg₂ (· ++ ·) (congrArg₂ (· ++ ·) (congrArg₂ (· ++ ·)
      (congrArg (· ++ twoBytes _ ++ fourBytes _) ?segment) ?intake) ?opening) ?answer
    case segment => cases r.segment <;> rfl
    case intake => cases r.intake <;> rfl
    case opening =>
      match r.nextOpening with
      | none => rfl
      | some .unknown => rfl
      | some (.on _ _ _) => rfl
    case answer => cases r.answer <;> rfl
  · exact fun own => ⟨rfl, rfl, rfl⟩
  · exact fun inUse => ⟨rfl, rfl⟩
  · exact fun g => ⟨rfl, rfl⟩

/-- Settles O47: the bit-times of a frame one by one, and the two ends of a transmission. -/
theorem trunkTransmissionsEnd : Obligations.TrunkTransmissionsEnd := by
  refine ⟨?_, ?_, ?_⟩
  · intro s e frame began endsAt instant hold sending ends
    exact ⟨fun _ _ _ byte bit => ttxOut_in_frame hold sending ends byte bit,
      ttxOut_outside hold sending ends⟩
  · rintro s instant (hold | idle)
    · exact ttxOut_held instant hold
    · exact ttxOut_idle instant idle
  · intro pins s e frame endsAt hold sending
    rw [exec_trunkTransmissionEnd pins hold]
    refine ⟨fun plain => ?_, fun r response code status => ?_⟩
    · refine congrArg _ (endTrunkTransmission_plain pins sending ?_)
      rw [isRestartResponse_iff]
      rintro ⟨r, response, restart⟩
      exact plain r response restart
    · have restart := (isRestartResponse_iff e).2 ⟨r, response, code, status⟩
      rw [endTrunkTransmission_restart pins sending restart]
      rfl

end Sys2Proof.Proofs
end

