-- ==== Sys2Proof/Proofs/RequestPath.lean ====
section
/-! SUPPORT. The path of a request: the request that a command is (R162), steps 1 to 6 of R130 in order,
and the bytes of a MGMT_REQUEST frame. -/

namespace Sys2Proof.Machine

open Sys2Proof.Safety

variable {s : State} {c : Instr} {code : Byte} {r : Request} {lengthOk write barred : Bool}

/-! ### The request that a command is (R162) -/

theorem exec_of_requestOf (named : requestOf c = some (code, r, lengthOk, write, barred)) :
    exec c = whileRunning fun s => s.frameTaken.takeCode code r := by
  unfold requestOf at named
  split at named
  case h_22 => cases named
  all_goals
    cases named
    rfl

/-- With no reset hold, a request's command is the Management Agent's taking of the request by its
code. -/
theorem exec_eq_takeCode (named : requestOf c = some (code, r, lengthOk, write, barred))
    (hold : s.pins.hold = none) : exec c s = .next (s.frameTaken.takeCode code r) := by
  rw [exec_of_requestOf named]
  exact whileRunning_of_no_hold _ hold

theorem readCountersWrites_eq {params : List Byte} (length : (params.length == 2) = true) :
    readCountersWrites params = (params.getD 1 0 != 0) := by
  obtain ⟨group, clear, rfl⟩ := List.length_eq_two.1 (beq_iff_eq.1 length)
  rfl

/-- The class of a request as the Management Agent has it. Whether a READ_COUNTERS of another length is a
write has no part in its path. -/
theorem takeCode_eq_takeRequest (named : requestOf c = some (code, r, lengthOk, write, barred)) :
    ∃ (writes : Bool) (own : State → Verdict), (lengthOk = true → writes = write) ∧
      ∀ s : State, s.takeCode code r = s.takeRequest
        { code := code, lengthOk := lengthOk, write := writes, barred := barred } r own := by
  unfold requestOf at named
  split at named
  case h_22 => cases named
  case h_17 =>
    cases named
    exact ⟨_, _, readCountersWrites_eq, fun _ => rfl⟩
  all_goals
    cases named
    exact ⟨_, _, fun _ => rfl, fun _ => rfl⟩

/-- A code that R162 does not list. -/
theorem takeCode_unknown (other : code.toNat = 0 ∨ 0x15 < code.toNat) :
    s.takeCode code r = s.takeUnknown code r := by
  unfold State.takeCode
  split
  case h_22 => rfl
  all_goals omega

/-! ### Steps 1 to 6 (R130 to R133) -/

section tests

variable {k : RequestClass} {own : State → Verdict}

theorem takeRequest_full (full : 4 ≤ s.reports.responseQueue.length + heldPlace s) :
    s.frameTaken.takeRequest k r own = { s with
      port.assembler := .hunt, counters := bump s.counters Counter.mgmtOverrun 1 } := by
  have noRoom : ¬ s.frameTaken.responseRoom = true := by
    rw [responseRoom_eq, decide_eq_true_eq]
    exact Nat.not_lt.2 full
  rw [State.takeRequest, if_pos noRoom, count_eq]
  rfl

variable (room : s.reports.responseQueue.length + heldPlace s < 4)
include room

theorem takeRequest_of_room : s.frameTaken.takeRequest k r own =
    if r.source = 0 ∨ r.source = s.ownAddress then s.frameTaken.count Counter.badAddress
    else if s.agent.restartPending then answered s r k.code .busy []
    else if ¬ k.lengthOk then answered s r k.code .badRequest []
    else s.frameTaken.carryOut k r own := by
  have hasRoom : ¬ ¬ s.frameTaken.responseRoom = true := by
    rw [not_not, responseRoom_eq, decide_eq_true_eq]
    exact room
  rw [State.takeRequest, if_neg hasRoom, respond_eq, respond_eq]
  rfl

theorem takeRequest_badSource (source : ¬ goodSource s r.source) :
    s.frameTaken.takeRequest k r own = { s with
      port.assembler := .hunt, counters := bump s.counters Counter.badAddress 1 } :=
  calc s.frameTaken.takeRequest k r own
    _ = s.frameTaken.count Counter.badAddress :=
      (takeRequest_of_room room).trans (if_pos (or_iff_not_and_not.2 source))
    _ = _ := count_eq _

variable (source : goodSource s r.source)
include source

theorem takeRequest_of_goodSource : s.frameTaken.takeRequest k r own =
    if s.agent.restartPending then answered s r k.code .busy []
    else if ¬ k.lengthOk then answered s r k.code .badRequest []
    else s.frameTaken.carryOut k r own :=
  (takeRequest_of_room room).trans (if_neg (not_or.2 source))

theorem takeRequest_restarting (restart : s.agent.restartPending = true) :
    s.frameTaken.takeRequest k r own = answered s r k.code .busy [] := by
  rw [takeRequest_of_goodSource room source, if_pos restart]

variable (going : s.agent.restartPending = false)
include going

theorem takeRequest_badLength (length : k.lengthOk = false) :
    s.frameTaken.takeRequest k r own = answered s r k.code .badRequest [] := by
  rw [takeRequest_of_goodSource room source, if_neg (Bool.eq_false_iff.1 going),
    if_pos (Bool.eq_false_iff.1 length)]

theorem takeRequest_carriedOut (length : k.lengthOk = true) :
    s.frameTaken.takeRequest k r own = s.frameTaken.carryOut k r own := by
  rw [takeRequest_of_goodSource room source, if_neg (Bool.eq_false_iff.1 going),
    if_neg (not_not.2 length)]

end tests

theorem carryOut_denied {k : RequestClass} {own : State → Verdict} (writes : k.write = true)
    (managed : s.agent.managers ≠ []) (stranger : r.source ∉ s.agent.managers) :
    s.frameTaken.carryOut k r own =
      answered { s with counters := bump s.counters Counter.mgmtDenied 1 } r k.code .denied [] := by
  have denied : ¬ s.frameTaken.mayWrite r.source = true := by
    rw [mayWrite_iff, not_or]
    exact ⟨managed, stranger⟩
  rw [State.carryOut, if_pos ⟨writes, denied⟩, count_eq, ← respond_eq]
  rfl

theorem carryOut_barred {k : RequestClass} {own : State → Verdict}
    (allowed : k.write = true → s.agent.managers = [] ∨ r.source ∈ s.agent.managers)
    (bars : k.barred = true) (commit : s.agent.commit ≠ .idle) :
    s.frameTaken.carryOut k r own = answered s r k.code .busy [] := by
  have notDenied : ¬ (k.write = true ∧ ¬ s.frameTaken.mayWrite r.source = true) := fun denied =>
    denied.2 ((mayWrite_iff _).2 (allowed denied.1))
  rw [State.carryOut, if_neg notDenied, if_pos ⟨bars, validating_iff.2 commit⟩, respond_eq]

/-! ### A request that no code names -/

/-- An UNKNOWN_REQUEST goes the path of a request with its code, whatever follows the code. -/
theorem exec_unknownRequest {source : Addr} {seq : Byte} {payload : List Byte}
    (hold : s.pins.hold = none)
    (unknown : payload = [] ∧ code = 0 ∨
      (∃ params, payload = code :: params) ∧ (code.toNat = 0 ∨ 0x15 < code.toNat)) :
    exec (.unknownRequest source seq payload) s = .next (s.frameTaken.takeUnknown code
      { source := source, seq := seq, params := payload.tail }) := by
  have path := whileRunning_of_no_hold (fun s => s.frameTaken.takePayload source seq payload) hold
  obtain ⟨rfl, rfl⟩ | ⟨⟨params, rfl⟩, other⟩ := unknown
  · exact path
  · exact path.trans (congrArg _ (takeCode_unknown other))

/-! ### The frame of a request (R158, R161) -/

/-- A completed MGMT_REQUEST frame to the own address hands its request to the Management Agent. -/
theorem completeFrame_request (len cls : Byte) :
    s.completeFrame len (trunkBody 2 s.ownAddress r.source r.seq cls (code :: r.params))
        (crcBytes (len :: trunkBody 2 s.ownAddress r.source r.seq cls (code :: r.params))) =
      s.frameTaken.takeCode code r := by
  have judged : judgeFields s.ownAddress
      { kind := 2, destination := s.ownAddress.toNat, source := r.source.toNat, seq := r.seq,
        cls := cls, payload := code :: r.params } =
      .request r.source r.seq (code :: r.params) := by
    rw [judgeFields, if_neg (show ¬ 2 = 1 by decide), if_pos rfl, BitVec.ofNat_toNat, BitVec.setWidth_eq]
  have frame := (judgeFrame_trunkBody s.ownAddress (.inr rfl) len s.ownAddress r.source r.seq cls
    (code :: r.params)).trans judged
  rw [State.completeFrame, frame]
  rfl

end Sys2Proof.Machine

namespace Sys2Proof.Proofs

open Sys2Proof.Machine Sys2Proof.Safety

/-- Settles O4: each request goes the one path of R130, and each test of it that fails ends it. -/
theorem requestsTurnedAway : Obligations.RequestsTurnedAway := by
  refine ⟨?_, ?_⟩
  · intro c code r lengthOk write barred s named hold
    obtain ⟨writes, own, sameWrite, path⟩ := takeCode_eq_takeRequest named
    rw [exec_eq_takeCode named hold, path]
    refine ⟨fun full => congrArg _ (takeRequest_full full), fun room =>
      ⟨fun bad => congrArg _ (takeRequest_badSource room bad), fun good =>
        ⟨fun restart => congrArg _ (takeRequest_restarting room good restart), fun going =>
          ⟨fun length => congrArg _ (takeRequest_badLength room good going length), fun length => ?_⟩⟩⟩⟩
    obtain rfl := sameWrite length
    rw [takeRequest_carriedOut room good going length]
    exact ⟨fun isWrite managed stranger => congrArg _ (carryOut_denied isWrite managed stranger),
      fun allowed bars commit => congrArg _ (carryOut_barred allowed bars commit)⟩
  · rintro source seq payload code r s hold rfl unknown
    rw [exec_unknownRequest hold unknown]
    exact ⟨fun full => congrArg _ (takeRequest_full full), fun room =>
      ⟨fun bad => congrArg _ (takeRequest_badSource room bad), fun good =>
        ⟨fun restart => congrArg _ (takeRequest_restarting room good restart), fun going =>
          congrArg _ (takeRequest_badLength room good going rfl)⟩⟩⟩

/-- Settles O24: the frame's bytes complete it, and its fields are read back as the request, which is
taken by its code in the action of the last byte. -/
theorem requestFramesDecode : Obligations.RequestFramesDecode := by
  intro c code r lengthOk write barred cls s named short hold hunt
  have request := runAll_one (exec_eq_takeCode named hold)
  refine ⟨Option.isSome_iff_exists.2 ⟨_, request⟩, ?_⟩
  have length := length_trunkBody 2 (ownAddressOf s.pins.latched) r.source r.seq cls (code :: r.params)
  rw [List.length_cons] at length
  rw [request, ← completeFrame_request]
  exact runAll_trunkFrame hold hunt (by omega) (by omega)

end Sys2Proof.Proofs
end

