-- ==== Sys2Proof/Proofs/AgentRequests.lean ====
section
/-! SUPPORT. The Management Agent's own requests: READ_STATUS, READ_QUEUE, READ_COUNTERS, SET_MANAGERS,
SET_NOTICE_ADDRESS and RESTART (R134 to R142), and the start and the failure of a COMMIT (R148, R150). -/

namespace Sys2Proof.Machine

open Sys2Proof.Safety

variable {s t : State} {r : Request} {write barred : Bool}

/-! ### Accepted requests at the command -/

/-- An accepted request whose own part ends OK with no consequence. -/
theorem exec_done {c : Instr} {code : Byte} {own : State → Verdict} {result : List Byte}
    (accepts : Accepts s r write barred)
    (path : exec c = whileRunning fun s => s.frameTaken.takeRequest
      { code := code, lengthOk := true, write := write, barred := barred } r own)
    (done : own s.frameTaken = .done result t.frameTaken id) :
    exec c s = .next (answered t r code .ok result) := by
  rw [path, whileRunning_of_no_hold _ accepts.running]
  exact congrArg _ (takeRequest_done accepts code done)

/-- An accepted request that its own checks turn away. -/
theorem exec_fail {c : Instr} {code : Byte} {own : State → Verdict} {status : Status}
    (accepts : Accepts s r write barred)
    (path : exec c = whileRunning fun s => s.frameTaken.takeRequest
      { code := code, lengthOk := true, write := write, barred := barred } r own)
    (fail : own s.frameTaken = .fail status) :
    exec c s = .next (answered s r code status []) := by
  rw [path, whileRunning_of_no_hold _ accepts.running]
  exact congrArg _ (takeRequest_fail accepts code fail)

/-- An accepted request whose own part starts a COMMIT: no response is placed (R131). -/
theorem exec_started {c : Instr} {code : Byte} {own : State → Verdict}
    (accepts : Accepts s r write barred)
    (path : exec c = whileRunning fun s => s.frameTaken.takeRequest
      { code := code, lengthOk := true, write := write, barred := barred } r own)
    (started : own s.frameTaken = .started t) : exec c s = .next t := by
  rw [path, whileRunning_of_no_hold _ accepts.running, takeRequest_of_accepts accepts, started]

theorem next_answered_congr {code : Byte} {status : Status} {result bytes : List Byte}
    (h : result = bytes) : Host.Outcome.next (φ := Fault) (ρ := Refusal)
      (answered s r code status result) = .next (answered s r code status bytes) :=
  congrArg _ (congrArg _ h)

/-! ### READ_STATUS -/

/-- The own address is the base with the strap levels added (R156). -/
theorem toNat_ownAddress : s.ownAddress.toNat = 4080 + s.pins.latched.adr.toNat := by
  have low : s.pins.latched.adr.toNat < 16 := s.pins.latched.adr.isLt
  exact (BitVec.toNat_ofNat ..).trans (Nat.mod_eq_of_lt (by rw [Config.ownAddressBase]; omega))

theorem failure_bytes (f : CommitFailure) :
    f.bytes = [tableCode f.table, byteOf f.index, reasonCode f.reason] := by
  rw [CommitFailure.bytes, tableCode_eq, reasonCode_eq]

theorem yesNo_isSome {α : Type} [DecidableEq α] (x : Option α) :
    yesNo x.isSome = if x = none then 0 else 1 := by
  cases x <;> rfl

/-! ### READ_QUEUE -/

theorem toNat_intakeOf_none {n : SlotNo} (free : s.buffer.slots[n] = none) :
    (s.intakeOf n).toNat = 0 := by
  rw [State.intakeOf, State.slot, free]
  rfl

theorem intakeOf_some {n : SlotNo} {x : Slot} (used : s.buffer.slots[n] = some x) :
    s.intakeOf n = x.intake := by
  rw [State.intakeOf, State.slot, used]

/-- The 14 bytes of READ_QUEUE for a segment, with the oldest deferred slot if there is one (R137,
R162). -/
theorem queueBytes_eq (g : Seg) : s.queueBytes g = queueReport s s.segs[g] := by
  simp only [State.queueBytes, State.seg, queueReport]
  cases s.segs[g].deferralQueue with
  | nil =>
    simp only [List.head?_nil, Option.map_none, Option.getD_none]
    rfl
  | cons n rest =>
    simp only [List.head?_cons, Option.map_some, Option.getD_some]
    cases slot : s.buffer.slots[n] with
    | none =>
      rw [toNat_intakeOf_none slot]
      rfl
    | some x =>
      rw [intakeOf_some slot]
      rfl

/-- The four reports of READ_QUEUE, segment by segment. -/
theorem ownReadQueue_eq : ownReadQueue s.frameTaken =
    .done (queueReport s s.segs[0] ++ queueReport s s.segs[1] ++ queueReport s s.segs[2] ++
      queueReport s s.segs[3]) s.frameTaken id := by
  rw [ownReadQueue, queueBytes_eq, queueBytes_eq, queueBytes_eq, queueBytes_eq]
  rfl

/-! ### READ_COUNTERS -/

theorem counterGroup_some {group : Byte} (h : group.toNat ≤ 6) :
    counterGroup group = some (groupFirst group.toNat, groupSize group.toNat) := by
  interval_cases number : group.toNat
  all_goals
    rw [counterGroup, number]
    rfl

theorem counterGroup_none {group : Byte} (h : 6 < group.toNat) : counterGroup group = none := by
  unfold counterGroup
  split
  case h_8 => rfl
  all_goals omega

theorem readYesNo_none {b : Byte} (h : ¬ yesNoOk b) : readYesNo b = none := by
  rw [readYesNo, if_neg fun one => h (.inr one), if_neg fun zero => h (.inl zero)]

theorem readYesNo_some {b : Byte} (h : yesNoOk b) : readYesNo b = some (decide (b = 1)) := by
  obtain rfl | rfl := h <;> rfl

theorem ownReadCounters_badIndex {group clear : Byte} (bad : 6 < group.toNat) :
    ownReadCounters [group, clear] t = .fail .badIndex := by
  rw [ownReadCounters, counterGroup_none bad]

theorem ownReadCounters_badValue {group clear : Byte} (known : group.toNat ≤ 6)
    (bad : ¬ yesNoOk clear) : ownReadCounters [group, clear] t = .fail .badValue := by
  rw [ownReadCounters, counterGroup_some known]
  simp only [readYesNo_none bad]

/-- The own part of READ_COUNTERS of a group that exists: the counters of other groups, and with clear no
those of every group, stay as they are (R142). -/
theorem ownReadCounters_done {group clear : Byte} (known : group.toNat ≤ 6) (ok : yesNoOk clear) :
    ownReadCounters [group, clear] s.frameTaken = .done
      (((s.counters.toList.drop (groupFirst group.toNat)).take
        (groupSize group.toNat)).flatMap fourBytes)
      { s with counters := Vector.ofFn fun i =>
          if clear = 1 ∧ groupFirst group.toNat ≤ i.val ∧
            i.val < groupFirst group.toNat + groupSize group.toNat then 0 else s.counters[i]
        }.frameTaken id := by
  rw [ownReadCounters, counterGroup_some known]
  simp only [readYesNo_some ok]
  by_cases yes : clear = 1
  · simp only [yes, decide_true, if_true, true_and]
    rfl
  · have kept : (Vector.ofFn fun i : CounterId => s.counters[i]) = s.counters :=
      Vector.ext fun i hi => by rw [Vector.getElem_ofFn]; rfl
    simp only [yes, decide_false, if_false, false_and, kept, Bool.false_eq_true]
    rfl

/-! ### SET_MANAGERS -/

theorem exec_setManagers {count : Byte} {rest : List Byte} (params : r.params = count :: rest)
    (length : rest.length = 2 * count.toNat) :
    exec (.setManagers r) = whileRunning fun s => s.frameTaken.takeRequest
      { code := 0x15, lengthOk := true, write := true, barred := false } r
      (ownSetManagers (count :: rest)) := by
  have path : exec (.setManagers r) = whileRunning fun s => s.frameTaken.takeSetManagers r := rfl
  have ok : setManagersLengthOk (count :: rest) = true := beq_iff_eq.2 length
  simp only [State.takeSetManagers, params, ok] at path
  exact path

/-- An address is read from two bytes exactly when they carry it. -/
theorem readAddr_eq_some_iff {high low : Byte} {a : Addr} :
    readAddr high low = some a ↔ a.toNat = 256 * high.toNat + low.toNat := by
  unfold readAddr numberOf
  constructor
  · intro h
    split at h
    · next small =>
      obtain rfl := Option.some.inj h
      exact (BitVec.toNat_ofNat ..).trans (Nat.mod_eq_of_lt (by omega))
    · cases h
  · intro h
    rw [← h, if_pos (by have := a.isLt; omega), BitVec.ofNat_toNat, BitVec.setWidth_eq]

theorem readAddr_eq_none {high low : Byte} (h : 4095 < 256 * high.toNat + low.toNat) :
    readAddr high low = none :=
  if_neg (Nat.not_le.2 h)

/-- Addresses are read from a block exactly when it spells them, two bytes each. -/
theorem readAddrs_eq_some_iff {bytes : List Byte} {list : List Addr} :
    readAddrs bytes = some list ↔ list.flatMap (fun a => twoBytes a.toNat) = bytes := by
  constructor
  · intro h
    induction bytes using readAddrs.induct generalizing list with
    | case1 =>
      obtain rfl := Option.some.inj h
      rfl
    | case2 high low rest ih =>
      simp only [readAddrs, Option.bind_eq_bind, Option.bind_eq_some_iff, Option.pure_def,
        Option.some.injEq] at h
      obtain ⟨a, first, more, read, rfl⟩ := h
      rw [List.flatMap_cons, ih read, readAddr_eq_some_iff.1 first, twoBytes_of_bytes]
      rfl
    | case3 b => cases h
  · rintro rfl
    induction list with
    | nil => rfl
    | cons a rest ih =>
      have first : readAddr (byteOf (a.toNat / 256)) (byteOf a.toNat) = some a :=
        readAddr_eq_some_iff.2 (numberOf_twoBytes (by have := a.isLt; omega)).symm
      have read : readAddrs ((a :: rest).flatMap fun a => twoBytes a.toNat) =
          (readAddr (byteOf (a.toNat / 256)) (byteOf a.toNat)).bind fun a =>
            (readAddrs (rest.flatMap fun a => twoBytes a.toNat)).bind fun more => some (a :: more) :=
        rfl
      rw [read, first, ih]
      rfl

/-- A list that passes the checks of R134 replaces the managers. -/
theorem ownSetManagers_done {count : Byte} {rest : List Byte} {list : List Addr}
    (read : readAddrs rest = some list) (few : count.toNat ≤ 4) (sources : ∀ a ∈ list, goodSource s a)
    (distinct : list.Nodup) :
    ownSetManagers (count :: rest) s.frameTaken =
      .done [] { s with agent.managers := list }.frameTaken id := by
  have passes : ¬ (0 ∈ list ∨ s.frameTaken.ownAddress ∈ list ∨ ¬ list.Nodup) := by
    rintro (zero | own | repeated)
    · exact (sources _ zero).1 rfl
    · exact (sources _ own).2 rfl
    · exact repeated distinct
  have fits : ¬ Config.maxManagers < count.toNat := Nat.not_lt.2 few
  rw [ownSetManagers, if_neg fits, read]
  exact if_neg passes

theorem ownSetManagers_tooMany {count : Byte} (rest : List Byte) (many : 4 < count.toNat) :
    ownSetManagers (count :: rest) t = .fail .badValue :=
  if_pos many

/-- A block that spells no list that passes the checks of R134 is turned away, whatever its count. -/
theorem ownSetManagers_badValue {count : Byte} {rest : List Byte}
    (bad : ∀ list, readAddrs rest = some list → ¬ ((∀ a ∈ list, goodSource s a) ∧ list.Nodup)) :
    ownSetManagers (count :: rest) s.frameTaken = .fail .badValue := by
  rw [ownSetManagers]
  split
  · rfl
  · cases read : readAddrs rest with
    | none => rfl
    | some list =>
      refine if_pos (by_contra fun passes => bad list read ?_)
      rw [not_or, not_or, not_not] at passes
      obtain ⟨noZero, notOwn, distinct⟩ := passes
      exact ⟨fun a mem => ⟨fun zero => noZero (zero.subst mem), fun own => notOwn (own.subst mem)⟩,
        distinct⟩

/-! ### SET_NOTICE_ADDRESS -/

theorem ownSetNoticeAddress_done {high low : Byte} {a : Addr}
    (carried : a.toNat = 256 * high.toNat + low.toNat) (other : a ≠ s.ownAddress) :
    ownSetNoticeAddress [high, low] s.frameTaken =
      .done [] { s with agent.noticeAddress := a }.frameTaken id := by
  rw [ownSetNoticeAddress, readAddr_eq_some_iff.2 carried]
  exact if_neg other

theorem ownSetNoticeAddress_badValue {high low : Byte}
    (bad : 4095 < 256 * high.toNat + low.toNat ∨
      256 * high.toNat + low.toNat = s.ownAddress.toNat) :
    ownSetNoticeAddress [high, low] s.frameTaken = .fail .badValue := by
  obtain above | own := bad
  · rw [ownSetNoticeAddress, readAddr_eq_none above]
  · rw [ownSetNoticeAddress, readAddr_eq_some_iff.2 own.symm]
    exact if_pos rfl

/-! ### COMMIT -/

/-- The time of a validation (R148). -/
theorem validationTime_eq (tables : Tables) : tables.validationTime = 4 * 288000 +
    ((tables.routes.toList.filter Option.isSome).length +
      (tables.classes.toList.filter Option.isSome).length +
      (tables.windows.toList.filter Option.isSome).length) * 36000 := by
  rw [Tables.validationTime, Tables.definedEntries, List.countP_eq_length_filter,
    List.countP_eq_length_filter, List.countP_eq_length_filter]
  rfl

/-- The own part of COMMIT (R148). -/
theorem ownCommit_eq : ownCommit r s.frameTaken = .started { s with
    port.assembler := .hunt
    agent.commit := .validating (s.pins.now + 4 * 288000 +
      ((s.bank.staging.routes.toList.filter Option.isSome).length +
        (s.bank.staging.classes.toList.filter Option.isSome).length +
        (s.bank.staging.windows.toList.filter Option.isSome).length) * 36000) r.source r.seq } := by
  rw [ownCommit, State.frameTaken_bank, validationTime_eq, ← Nat.add_assoc]
  rfl

theorem endCommit_of_failure {endsAt : Nat} {source : Addr} {seq : Byte} {f : CommitFailure}
    (commit : s.agent.commit = .validating endsAt source seq)
    (failure : s.bank.staging.validate = some f) :
    s.endCommit = (s.reach endsAt).commitFailed source seq f := by
  unfold State.endCommit
  rw [commit]
  simp only [failure]

/-- A failed validation leaves its mark in the agent and a response (R150). -/
theorem commitFailed_eq (source : Addr) (seq : Byte) (f : CommitFailure) :
    s.commitFailed source seq f = { s with
      agent.commit := .idle
      agent.lastCommit := .failed f
      reports.responseQueue := s.reports.responseQueue ++
        [{ destination := source, seq := seq, code := 0x09, status := .commitFailed,
           result := [tableCode f.table, byteOf f.index, reasonCode f.reason] }]
      occasions := s.occasions ++ takeOwed s } := by
  rw [State.commitFailed, State.pushResponse, oweTake_eq, failure_bytes]
  rfl

end Sys2Proof.Machine

namespace Sys2Proof.Proofs

open Sys2Proof.Machine Sys2Proof.Safety

/-- Settles O7: the group first, then the clear byte, then the counters in their places. -/
theorem countersAreRead : Obligations.CountersAreRead := by
  rintro ⟨source, seq, params⟩ group clear s rfl accepts
  exact ⟨fun bad => exec_fail accepts rfl (ownReadCounters_badIndex bad), fun known =>
    ⟨fun bad => exec_fail accepts rfl (ownReadCounters_badValue known bad),
      fun ok => exec_done accepts rfl (ownReadCounters_done known ok)⟩⟩

/-- Settles O17: the block is read as the one list it spells, and the two bytes as the one address they
carry. -/
theorem managersAndNoticeAddressAreSet : Obligations.ManagersAndNoticeAddressAreSet := by
  refine ⟨?_, ?_⟩
  · intro r count rest s params length accepts
    have path := exec_setManagers params length
    refine ⟨fun list spells few sources distinct => exec_done accepts path ?_,
      fun bad => exec_fail accepts path ?_⟩
    · have read := readAddrs_eq_some_iff.2 spells
      have bytes := length_readAddrs read
      exact ownSetManagers_done read (by omega) sources distinct
    · obtain many | unfit := bad
      · exact ownSetManagers_tooMany rest many
      · exact ownSetManagers_badValue fun list read => unfit list (readAddrs_eq_some_iff.1 read)
  · rintro ⟨source, seq, params⟩ high low s rfl accepts
    exact ⟨fun a carried other => exec_done accepts rfl (ownSetNoticeAddress_done carried other),
      fun bad => exec_fail accepts rfl (ownSetNoticeAddress_badValue bad)⟩

/-- Settles O48: a COMMIT's own part starts the validation, and the end of one that fails is one
update. -/
theorem commitsStartAndFail : Obligations.CommitsStartAndFail := by
  refine ⟨?_, ?_⟩
  · rintro ⟨source, seq, params⟩ s t accepts rfl rfl
    exact ⟨exec_started accepts rfl ownCommit_eq, rfl⟩
  · intro s endsAt source seq f hold commit failure
    rw [exec_commitEnd hold, endCommit_of_failure commit failure, commitFailed_eq]
    rfl

/-- Settles O5: each answer's bytes are the values as they stand, field by field. -/
theorem statusAndQueueAreRead : Obligations.StatusAndQueueAreRead := by
  rintro ⟨source, seq, params⟩ s accepts rfl
  have part : twoBytes Config.partCode ++ [byteOf Config.revision] = [0x3C, 0x64, 0x02] := by decide
  refine ⟨(exec_done (t := s) (result := s.statusBytes) accepts rfl rfl).trans (next_answered_congr ?_),
    exec_done accepts rfl ownReadQueue_eq⟩
  rw [State.statusBytes, part, toNat_ownAddress, inUse_eq, yesNo_isSome]
  cases s.agent.lastCommit with
  | none => rfl
  | ok => rfl
  | failed f =>
    have bytes : (CommitResult.failed f).bytes = 2 :: f.bytes := rfl
    rw [bytes, failure_bytes]
    rfl

/-- Settles O18: the own part of the request sets restart pending and nothing else. -/
theorem restartIsAccepted : Obligations.RestartIsAccepted := by
  rintro ⟨source, seq, params⟩ s accepts rfl
  exact exec_done accepts rfl rfl

end Sys2Proof.Proofs
end

