-- ==== Sys2Proof/Proofs/Validation.lean ====
section
/-! SUPPORT. The validation of an image as the search of the earliest failure of a check of R149, and the
active image, which nothing but a commit end that found none changes (R149 to R151). -/

namespace Sys2Proof.Machine

open Sys2Proof.Safety

variable {s t : State} {tables : Tables}

/-! ### Entries -/

theorem join_eq_some_iff {α : Type} {k : Nat} {v : Vector (Option α) k} {i : Nat} {a : α} :
    v[i]?.join = some a ↔ ∃ j : Fin k, j.val = i ∧ v[j] = some a := by
  constructor
  · intro h
    by_cases hi : i < k
    · exact ⟨⟨i, hi⟩, rfl, (getElem?_join v hi).symm.trans h⟩
    · rw [Vector.getElem?_eq_none (Nat.not_lt.1 hi)] at h
      cases h
  · rintro ⟨j, rfl, h⟩
    exact (getElem?_join v j.isLt).trans h

/-! ### The failures of the checks of R149 -/

/-- Check 1 fails on a window. -/
def WindowFails (w : Window) (reason : CommitReason) : Prop :=
  reason = .emptyDayMask ∧ w.dayMask = 0

/-- Check 2 or 3 fails on a class. -/
def ClassFails (tables : Tables) (p : ClassPolicy) (reason : CommitReason) : Prop :=
  reason = .duplicateWindow ∧ ¬ p.windows.Nodup ∨
    reason = .undefinedWindow ∧ ∃ w ∈ p.windows, tables.windows[w] = none

/-- Both addresses of a route are those of field devices (check 4). -/
def DeviceRange (r : Route) : Prop :=
  1 ≤ r.first.toNat ∧ r.first.toNat ≤ 4079 ∧ 1 ≤ r.last.toNat ∧ r.last.toNat ≤ 4079

/-- A route shares an address with a route of lower index (check 6). -/
def OverlapsLower (tables : Tables) (i : Nat) (r : Route) : Prop :=
  ∃ (j : RouteNo) (q : Route), j.val < i ∧ tables.routes[j] = some q ∧
    r.first.toNat ≤ q.last.toNat ∧ q.first.toNat ≤ r.last.toNat

/-- Check 4, 5 or 6 fails on a route. -/
def RouteFails (tables : Tables) (i : Nat) (r : Route) (reason : CommitReason) : Prop :=
  reason = .addressOutOfRange ∧ ¬ DeviceRange r ∨
    reason = .rangeReversed ∧ r.last.toNat < r.first.toNat ∨
    reason = .rangeOverlap ∧ OverlapsLower tables i r

/-- A check of R149 fails on a defined entry. -/
def FailsCheck (tables : Tables) (f : CommitFailure) : Prop :=
  match f.table with
  | .window => ∃ w, tables.windows[f.index]?.join = some w ∧ WindowFails w f.reason
  | .cls => ∃ p, tables.classes[f.index]?.join = some p ∧ ClassFails tables p f.reason
  | .route => ∃ r, tables.routes[f.index]?.join = some r ∧ RouteFails tables f.index r f.reason

theorem failsCheck_window_iff {index : Nat} {reason : CommitReason} :
    FailsCheck tables { table := .window, index := index, reason := reason } ↔
      reason = .emptyDayMask ∧
        ∃ (i : WindowNo) (w : Window), i.val = index ∧ tables.windows[i] = some w ∧ w.dayMask = 0 := by
  simp only [FailsCheck, join_eq_some_iff]
  exact ⟨fun ⟨w, ⟨i, at_, entry⟩, named, empty⟩ => ⟨named, i, w, at_, entry, empty⟩,
    fun ⟨named, i, w, at_, entry, empty⟩ => ⟨w, ⟨i, at_, entry⟩, named, empty⟩⟩

theorem failsCheck_class_iff {index : Nat} {reason : CommitReason} :
    FailsCheck tables { table := .cls, index := index, reason := reason } ↔
      ∃ (i : ClassNo) (p : ClassPolicy), i.val = index ∧ tables.classes[i] = some p ∧
        ClassFails tables p reason := by
  simp only [FailsCheck, join_eq_some_iff]
  exact ⟨fun ⟨p, ⟨i, at_, entry⟩, fails⟩ => ⟨i, p, at_, entry, fails⟩,
    fun ⟨i, p, at_, entry, fails⟩ => ⟨p, ⟨i, at_, entry⟩, fails⟩⟩

theorem failsCheck_route_iff {index : Nat} {reason : CommitReason} :
    FailsCheck tables { table := .route, index := index, reason := reason } ↔
      ∃ (i : RouteNo) (r : Route), i.val = index ∧ tables.routes[i] = some r ∧
        RouteFails tables i r reason := by
  simp only [FailsCheck, join_eq_some_iff]
  constructor
  · rintro ⟨r, ⟨i, rfl, entry⟩, fails⟩
    exact ⟨i, r, rfl, entry, fails⟩
  · rintro ⟨i, r, rfl, entry, fails⟩
    exact ⟨r, ⟨i, rfl, entry⟩, fails⟩

/-- A check of R149 fails on the entry of a table at an index. -/
def FailsAt (tables : Tables) (table : TableName) (i : Nat) (f : CommitFailure) : Prop :=
  (f.table = table ∧ f.index = i) ∧ FailsCheck tables f

theorem index_lt_of_failsCheck {f : CommitFailure} (h : FailsCheck tables f) :
    f.index < f.table.entries := by
  obtain ⟨table, index, reason⟩ := f
  cases table <;>
  · obtain ⟨x, entry, -⟩ := h
    obtain ⟨j, rfl, -⟩ := join_eq_some_iff.1 entry
    exact j.isLt

/-! ### The order of the checks -/

/-- The place of a table in the order of R149. -/
def tablePlace : TableName → Nat
  | .window => 0
  | .cls => 1
  | .route => 2

/-- The number of the check that gives a reason (R149). -/
def checkNumber : CommitReason → Nat
  | .emptyDayMask => 1
  | .duplicateWindow => 2
  | .undefinedWindow => 3
  | .addressOutOfRange => 4
  | .rangeReversed => 5
  | .rangeOverlap => 6

/-- The place of a failure in the order of R149: table, then index, then check. -/
def failureRank (f : CommitFailure) : Nat :=
  (tablePlace f.table * 64 + f.index) * 8 + checkNumber f.reason

theorem checkNumber_lt (reason : CommitReason) : checkNumber reason < 8 := by
  cases reason <;> decide

theorem checkNumber_injective {a b : CommitReason} (h : checkNumber a = checkNumber b) : a = b := by
  revert h
  cases a <;> cases b <;> decide

theorem tablePlace_injective {a b : TableName} (h : tablePlace a = tablePlace b) : a = b := by
  revert h
  cases a <;> cases b <;> decide

theorem index_lt_64 {f : CommitFailure} (h : FailsCheck tables f) : f.index < 64 := by
  have entries : ∀ table : TableName, table.entries ≤ 64 := by
    intro table
    cases table <;> decide
  exact Nat.lt_of_lt_of_le (index_lt_of_failsCheck h) (entries _)

theorem failureRank_le_of_table {f g : CommitFailure} (h : FailsCheck tables f)
    (before : tablePlace f.table < tablePlace g.table) : failureRank f ≤ failureRank g := by
  have := index_lt_64 h
  have := checkNumber_lt f.reason
  unfold failureRank
  omega

theorem failureRank_le_of_index {f g : CommitFailure} (same : f.table = g.table)
    (before : f.index < g.index) : failureRank f ≤ failureRank g := by
  have := checkNumber_lt f.reason
  unfold failureRank
  rw [same]
  omega

theorem failureRank_le_of_check {table : TableName} {i : Nat} {a b : CommitReason}
    (before : checkNumber a ≤ checkNumber b) :
    failureRank { table := table, index := i, reason := a } ≤
      failureRank { table := table, index := i, reason := b } :=
  Nat.add_le_add_left before _

theorem failureRank_injective {f g : CommitFailure} (hf : FailsCheck tables f)
    (hg : FailsCheck tables g) (h : failureRank f = failureRank g) : f = g := by
  have hf := index_lt_64 hf
  have hg := index_lt_64 hg
  have hf' := checkNumber_lt f.reason
  have hg' := checkNumber_lt g.reason
  obtain ⟨table, index, reason⟩ := f
  obtain ⟨table', index', reason'⟩ := g
  simp only [failureRank] at *
  obtain rfl := tablePlace_injective (a := table) (b := table') (by omega)
  obtain rfl := checkNumber_injective (a := reason) (b := reason') (by omega)
  obtain rfl : index = index' := by omega
  rfl

/-! ### The earliest failure -/

/-- What a search finds among the failures of a kind: the earliest of them, or that there is none. -/
def Earliest (P : CommitFailure → Prop) : Option CommitFailure → Prop
  | none => ∀ f, ¬ P f
  | some f => P f ∧ ∀ g, P g → failureRank f ≤ failureRank g

section search

variable {P Q : CommitFailure → Prop} {a b : Option CommitFailure}

theorem Earliest.congr (h : Earliest P a) (same : ∀ f, Q f ↔ P f) : Earliest Q a := by
  obtain rfl : Q = P := funext fun f => propext (same f)
  exact h

/-- A search goes on to later failures when it has found no earlier one. -/
theorem Earliest.or (ha : Earliest P a) (hb : Earliest Q b)
    (ordered : ∀ f g, P f → Q g → failureRank f ≤ failureRank g) :
    Earliest (fun f => P f ∨ Q f) (a.or b) := by
  cases a with
  | some f => exact ⟨.inl ha.1, fun g hg => hg.elim (ha.2 g) (ordered f g ha.1)⟩
  | none =>
    refine hb.congr fun f => ?_
    exact or_iff_right (ha f)

/-- One check: its failure comes before those of the checks after it. -/
theorem Earliest.check {c : Prop} [Decidable c] {f : CommitFailure} (rest : Earliest Q b)
    (ordered : ∀ g, Q g → failureRank f ≤ failureRank g) :
    Earliest (fun g => g = f ∧ c ∨ Q g) (if c then some f else b) := by
  by_cases hc : c
  · rw [if_pos hc]
    refine ⟨.inl ⟨rfl, hc⟩, ?_⟩
    rintro g (⟨rfl, -⟩ | later)
    · exact Nat.le_refl _
    · exact ordered g later
  · rw [if_neg hc]
    exact rest.congr fun g => or_iff_right fun h => hc h.2

theorem firstFailure_cons (check : Nat → Option CommitFailure) (i : Nat) (rest : List Nat) :
    firstFailure check (i :: rest) = (check i).or (firstFailure check rest) := by
  rw [firstFailure]
  cases check i <;> rfl

/-- A check of entries in increasing order of their index finds the earliest failure. -/
theorem earliest_firstFailure {table : TableName} {check : Nat → Option CommitFailure} {l : List Nat}
    (each : ∀ i ∈ l, Earliest (FailsAt tables table i) (check i)) (increasing : l.Pairwise (· < ·)) :
    Earliest (fun f => ∃ i ∈ l, FailsAt tables table i f) (firstFailure check l) := by
  induction l with
  | nil => exact fun f ⟨i, hi, _⟩ => absurd hi List.not_mem_nil
  | cons i rest ih =>
    obtain ⟨below, increasing⟩ := List.pairwise_cons.1 increasing
    rw [firstFailure_cons]
    refine ((each i (List.mem_cons_self ..)).or
      (ih (fun j hj => each j (List.mem_cons_of_mem _ hj)) increasing) ?_).congr fun f => ?_
    · rintro f g ⟨⟨rfl, rfl⟩, -⟩ ⟨j, hj, ⟨same, rfl⟩, -⟩
      exact failureRank_le_of_index same.symm (below _ hj)
    · simp only [List.mem_cons, exists_eq_or_imp]

end search

/-! ### The checks of an entry -/

theorem checkClass_eq {i : Nat} {p : ClassPolicy} (entry : tables.classes[i]?.join = some p) :
    tables.checkClass i =
      if ¬ p.windows.Nodup then some { table := .cls, index := i, reason := .duplicateWindow }
      else if ∃ w ∈ p.windows, tables.windows[w] = none then
        some { table := .cls, index := i, reason := .undefinedWindow }
      else none := by
  have defined : (p.windows.all fun w => tables.windows[w].isSome) = true ↔
      ¬ ∃ w ∈ p.windows, tables.windows[w] = none := by
    simp only [List.all_eq_true, not_exists, not_and, ← ne_eq, Option.isSome_iff_ne_none]
  unfold Tables.checkClass
  simp only [entry, defined, ite_not]

theorem overlapsLower_iff {i : Nat} {r : Route} :
    tables.overlapsLower i r = true ↔ OverlapsLower tables i r := by
  unfold Tables.overlapsLower OverlapsLower
  rw [List.any_eq_true]
  constructor
  · rintro ⟨entry, mem, overlaps⟩
    obtain ⟨j, hj, rfl⟩ := List.getElem_of_mem mem
    obtain ⟨q, hq, shared⟩ := (Option.any_eq_true ..).1 overlaps
    obtain ⟨below, bound⟩ : j < i ∧ j < 64 := by simpa using hj
    simp only [Route.overlaps, Bool.and_eq_true, decide_eq_true_eq, BitVec.le_def] at shared
    exact ⟨⟨j, bound⟩, q, below, by simpa using hq, shared.symm⟩
  · rintro ⟨j, q, below, hq, shared⟩
    refine ⟨some q, ?_, ?_⟩
    · rw [List.mem_take_iff_getElem]
      exact ⟨j.val, by simpa using below, by simpa using hq⟩
    · simpa only [Option.any_some, Route.overlaps, Bool.and_eq_true, decide_eq_true_eq,
        BitVec.le_def] using shared.symm

theorem checkRoute_eq {i : Nat} {r : Route} (entry : tables.routes[i]?.join = some r)
    [Decidable (DeviceRange r)] [Decidable (OverlapsLower tables i r)] :
    tables.checkRoute i =
      if ¬ DeviceRange r then some { table := .route, index := i, reason := .addressOutOfRange }
      else if r.last.toNat < r.first.toNat then
        some { table := .route, index := i, reason := .rangeReversed }
      else if OverlapsLower tables i r then
        some { table := .route, index := i, reason := .rangeOverlap }
      else none := by
  have devices : isDeviceAddress r.first = true ∧ isDeviceAddress r.last = true ↔ DeviceRange r := by
    simp only [isDeviceAddress, Bool.and_eq_true, decide_eq_true_eq, DeviceRange, and_assoc]
  unfold Tables.checkRoute
  simp only [entry, devices, overlapsLower_iff, BitVec.le_def, Nat.not_le]

section entries

variable {i : Nat} {f : CommitFailure}

theorem failsAt_window {w : Window} (entry : tables.windows[i]?.join = some w) :
    FailsAt tables .window i f ↔ (f.table = .window ∧ f.index = i) ∧ WindowFails w f.reason := by
  refine and_congr_right ?_
  rintro ⟨table, rfl⟩
  simp only [FailsCheck, table, entry, Option.some.injEq, exists_eq_left']

theorem failsAt_class {p : ClassPolicy} (entry : tables.classes[i]?.join = some p) :
    FailsAt tables .cls i f ↔ (f.table = .cls ∧ f.index = i) ∧ ClassFails tables p f.reason := by
  refine and_congr_right ?_
  rintro ⟨table, rfl⟩
  simp only [FailsCheck, table, entry, Option.some.injEq, exists_eq_left']

theorem failsAt_route {r : Route} (entry : tables.routes[i]?.join = some r) :
    FailsAt tables .route i f ↔ (f.table = .route ∧ f.index = i) ∧ RouteFails tables i r f.reason := by
  refine and_congr_right ?_
  rintro ⟨table, rfl⟩
  simp only [FailsCheck, table, entry, Option.some.injEq, exists_eq_left']

end entries

theorem earliest_none : Earliest (fun _ => False) none :=
  fun _ h => h

theorem earliest_checkWindow (i : Nat) :
    Earliest (FailsAt tables .window i) (tables.checkWindow i) := by
  unfold Tables.checkWindow
  cases entry : tables.windows[i]?.join with
  | none =>
    rintro ⟨table, index, reason⟩ ⟨⟨rfl, rfl⟩, w, hw, -⟩
    cases entry.symm.trans hw
  | some w =>
    refine (earliest_none.check nofun).congr fun f => ?_
    obtain ⟨table, index, reason⟩ := f
    simp only [failsAt_window entry, WindowFails, CommitFailure.mk.injEq, and_assoc, or_false]

theorem earliest_checkClass (i : Nat) :
    Earliest (FailsAt tables .cls i) (tables.checkClass i) := by
  cases entry : tables.classes[i]?.join with
  | none =>
    unfold Tables.checkClass
    rw [entry]
    rintro ⟨table, index, reason⟩ ⟨⟨rfl, rfl⟩, p, hp, -⟩
    cases entry.symm.trans hp
  | some p =>
    rw [checkClass_eq entry]
    refine ((earliest_none.check nofun).check ?_).congr fun f => ?_
    · rintro f (⟨rfl, -⟩ | h)
      · exact failureRank_le_of_check (by decide)
      · exact h.elim
    · obtain ⟨table, index, reason⟩ := f
      simp only [failsAt_class entry, ClassFails, CommitFailure.mk.injEq, and_assoc, and_or_left,
        or_false]

theorem earliest_checkRoute (i : Nat) :
    Earliest (FailsAt tables .route i) (tables.checkRoute i) := by
  cases entry : tables.routes[i]?.join with
  | none =>
    unfold Tables.checkRoute
    rw [entry]
    rintro ⟨table, index, reason⟩ ⟨⟨rfl, rfl⟩, r, hr, -⟩
    cases entry.symm.trans hr
  | some r =>
    classical
    rw [checkRoute_eq entry]
    refine (((earliest_none.check nofun).check ?_).check ?_).congr fun f => ?_
    · rintro f (⟨rfl, -⟩ | h)
      · exact failureRank_le_of_check (by decide)
      · exact h.elim
    · rintro f (⟨rfl, -⟩ | ⟨rfl, -⟩ | h)
      · exact failureRank_le_of_check (by decide)
      · exact failureRank_le_of_check (by decide)
      · exact h.elim
    · obtain ⟨table, index, reason⟩ := f
      simp only [failsAt_route entry, RouteFails, CommitFailure.mk.injEq, and_assoc, and_or_left,
        or_false]

/-! ### The validation -/

theorem validate_eq : tables.validate = (firstFailure tables.checkWindow (List.range 32)).or
    ((firstFailure tables.checkClass (List.range 16)).or
      (firstFailure tables.checkRoute (List.range 64))) := by
  unfold Tables.validate
  cases firstFailure tables.checkWindow (List.range 32) <;>
    cases firstFailure tables.checkClass (List.range 16) <;> rfl

/-- A failure stands at its own table and index. -/
theorem failsAt_of_failsCheck {table : TableName} {f : CommitFailure} (h : FailsCheck tables f)
    (named : f.table = table) : ∃ i ∈ List.range table.entries, FailsAt tables table i f :=
  ⟨f.index, List.mem_range.2 (named ▸ index_lt_of_failsCheck h), ⟨named, rfl⟩, h⟩

/-- A validation finds the earliest failure of a check of R149. -/
theorem earliest_validate : Earliest (FailsCheck tables) tables.validate := by
  have table : ∀ {name : TableName} {check : Nat → Option CommitFailure},
      (∀ i, Earliest (FailsAt tables name i) (check i)) →
      Earliest (fun f => FailsCheck tables f ∧ f.table = name)
        (firstFailure check (List.range name.entries)) := fun each =>
    (earliest_firstFailure (fun i _ => each i) List.pairwise_lt_range).congr fun f =>
      ⟨fun h => failsAt_of_failsCheck h.1 h.2, fun ⟨_, _, ⟨named, _⟩, h⟩ => ⟨h, named⟩⟩
  rw [validate_eq]
  refine ((table earliest_checkWindow).or ((table earliest_checkClass).or
    (table earliest_checkRoute) ?_) ?_).congr fun f => ?_
  · rintro f g ⟨h, hf⟩ ⟨-, hg⟩
    exact failureRank_le_of_table h (by rw [hf, hg]; decide)
  · rintro f g ⟨h, hf⟩ (⟨-, hg⟩ | ⟨-, hg⟩) <;>
      exact failureRank_le_of_table h (by rw [hf, hg]; decide)
  · have names : f.table = .window ∨ f.table = .cls ∨ f.table = .route := by
      cases f.table <;> decide
    rw [← and_or_left, ← and_or_left, and_iff_left names]

theorem validate_eq_some_iff {f : CommitFailure} : tables.validate = some f ↔
    FailsCheck tables f ∧ ∀ g, FailsCheck tables g → failureRank f ≤ failureRank g := by
  have earliest := earliest_validate (tables := tables)
  constructor
  · intro found
    rwa [found] at earliest
  · rintro ⟨fails, least⟩
    cases found : tables.validate with
    | none =>
      rw [found] at earliest
      exact absurd fails (earliest f)
    | some g =>
      rw [found] at earliest
      obtain ⟨fails', least'⟩ := earliest
      exact congrArg some (failureRank_injective fails' fails
        (Nat.le_antisymm (least' f fails) (least g fails')))

/-- An image with no failing check is consistent. -/
theorem consistent_of_no_failure (h : ∀ f, ¬ FailsCheck tables f) : Consistent tables where
  masks i w entry empty :=
    h ⟨.window, i.val, .emptyDayMask⟩ ⟨w, join_eq_some_iff.2 ⟨i, rfl, entry⟩, rfl, empty⟩
  sets i p entry := by
    have passes : ∀ reason, ¬ ClassFails tables p reason := fun reason fails =>
      h ⟨.cls, i.val, reason⟩ ⟨p, join_eq_some_iff.2 ⟨i, rfl, entry⟩, fails⟩
    refine ⟨not_not.1 fun repeated => passes _ (.inl ⟨rfl, repeated⟩), fun w named => ?_⟩
    exact Option.isSome_iff_ne_none.2 fun undefined => passes _ (.inr ⟨rfl, w, named, undefined⟩)
  ranges i r entry := by
    have passes : ∀ reason, ¬ RouteFails tables i.val r reason := fun reason fails =>
      h ⟨.route, i.val, reason⟩ ⟨r, join_eq_some_iff.2 ⟨i, rfl, entry⟩, fails⟩
    obtain ⟨low, -, -, high⟩ := not_not.1 fun out => passes _ (.inl ⟨rfl, out⟩)
    exact ⟨low, Nat.not_lt.1 fun reversed => passes _ (.inr (.inl ⟨rfl, reversed⟩)), high⟩
  apart i j r q before hr hq := by
    refine by_contra fun shared => h ⟨.route, j.val, .rangeOverlap⟩
      ⟨q, join_eq_some_iff.2 ⟨j, rfl, hq⟩, .inr (.inr ⟨rfl, i, r, before, hr, ?_⟩)⟩
    omega

theorem validate_eq_none_iff : tables.validate = none ↔ Consistent tables := by
  refine ⟨fun passed => consistent_of_no_failure ?_, validate_of_consistent⟩
  have earliest := earliest_validate (tables := tables)
  rwa [passed] at earliest

/-! ### The active image -/

theorem swapTables_active (source : Addr) (seq : Byte) :
    (s.swapTables source seq).bank.active = s.bank.staging := by
  rw [State.swapTables, State.pushResponse_bank]

theorem withdraw_active (g : Seg) : (s.withdraw g).bank.active = s.bank.active :=
  (Traffic.refl s).withdraw.active

theorem commitTraffic_active : s.commitTraffic.bank.active = s.bank.active := by
  rw [State.commitTraffic, State.oweExaminations_bank, State.evaluateWindows_bank, withdraw_active,
    withdraw_active, withdraw_active, withdraw_active]

/-- A commit end leaves the active image, or makes it a staging image that has passed its validation
(R150, R151). -/
theorem consistent_endCommit (h : Consistent s.bank.active) : Consistent s.endCommit.bank.active := by
  unfold State.endCommit
  split
  · exact h
  · next endsAt source seq _ =>
    split
    · rw [State.commitFailed, State.pushResponse_bank]
      exact h
    · next passed =>
      rw [commitTraffic_active, swapTables_active]
      exact validate_eq_none_iff.1 passed

/-- The consistency of the active image has the rules of a step. -/
theorem activeTablesRules : BlockRules fun s => Consistent s.bank.active where
  traffic h k := by
    rw [k.active]
    exact h
  pushResponse x h _ := by
    rw [State.pushResponse_bank]
    exact h
  setClock h _ := by
    rw [setClock_eq]
    exact h
  adjustClock h _ _ _ := by
    rw [setClock_eq]
    exact h
  edge h := by
    rw [edge_eq]
    exact h
  beginCommit _ _ _ h _ _ := h
  endCommit h := consistent_endCommit h
  setNoticeAddress h _ := h
  setManagers h _ _ _ := h
  reset _ _ _ := consistent_empty

end Sys2Proof.Machine

namespace Sys2Proof.Proofs

open Sys2Proof.Machine Sys2Proof.Safety

/-- Settles O49: a validation finds the earliest failure, and no two failures have one place in the
order. -/
theorem validationFindsTheFirstFailure : Obligations.ValidationFindsTheFirstFailure := by
  intro tables fails rank hfails hrank
  obtain rfl : rank = failureRank := by
    funext f
    rw [hrank]
    obtain ⟨table, index, reason⟩ := f
    cases table <;> cases reason <;> rfl
  obtain rfl : fails = FailsCheck tables := by
    funext f
    obtain ⟨table, index, reason⟩ := f
    refine propext ((hfails ..).trans ?_)
    cases table with
    | window => simp only [failsCheck_window_iff, reduceCtorEq, false_and, true_and, or_false]
    | cls => simp only [failsCheck_class_iff, ClassFails, reduceCtorEq, false_and, true_and, false_or,
        or_false]
    | route => simp only [failsCheck_route_iff, RouteFails, DeviceRange, OverlapsLower, Fin.lt_def,
        reduceCtorEq, false_and, true_and, false_or]
  exact ⟨validate_eq_none_iff, fun f => validate_eq_some_iff⟩

/-- Settles O60, by the rules of a step: the active image changes at a commit end and at a reset
alone. -/
theorem stepsKeepTheActiveTables : Obligations.StepsKeepTheActiveTables :=
  fun _ _ h e => activeTablesRules.step h e

end Sys2Proof.Proofs
end

