-- ==== Sys2Proof/Proofs/Entries.lean ====
section
/-! SUPPORT. The requests on the two images: an entry read in its format (R145), an entry written under
the checks of R146, and the staging image copied from the active one (R147). -/

namespace Sys2Proof.Machine

open Sys2Proof.Safety

variable {s t : State} {r : Request}

/-! ### Tables and banks by their codes -/

theorem readTable_eq_some_iff {table : Byte} {name : TableName} :
    readTable table = some name ↔ table = tableCode name := by
  constructor
  · intro h
    unfold readTable at h
    split_ifs at h with route cls window
    all_goals cases h
    · exact route
    · exact cls
    · exact window
  · rintro rfl
    cases name <;> rfl

/-- A code that names no table names one with no entries (R144, R161). -/
theorem tableSize_eq (table : Byte) : tableSize table = (readTable table).elim 0 TableName.entries := by
  unfold tableSize readTable
  split_ifs <;> rfl

theorem readTable_of_lt {table index : Byte} (h : index.toNat < tableSize table) :
    ∃ name : TableName, readTable table = some name ∧ index.toNat < name.entries := by
  rw [tableSize_eq] at h
  cases read : readTable table with
  | none =>
    rw [read] at h
    exact absurd h (Nat.not_lt_zero _)
  | some name =>
    rw [read] at h
    exact ⟨name, rfl, h⟩

theorem bankOf_other {bank : Byte} (h1 : bank ≠ 1) (h2 : bank ≠ 2) : s.bankOf bank = none := by
  rw [State.bankOf, if_neg h1, if_neg h2]

theorem bankOf_some {bank : Byte} {image : Tables}
    (h : bank = 1 ∧ image = s.bank.active ∨ bank = 2 ∧ image = s.bank.staging) :
    s.bankOf bank = some image := by
  obtain ⟨rfl, rfl⟩ | ⟨rfl, rfl⟩ := h <;> rfl

/-! ### Requests turned away before their own part -/

/-- A parameter block of another length than R162 requires (step 4 of R130). -/
theorem exec_badLength {c : Instr} {code : Byte} {write barred writes bars : Bool}
    (accepts : Accepts s r write barred) (named : requestOf c = some (code, r, false, writes, bars)) :
    exec c s = .next (answered s r code .badRequest []) := by
  obtain ⟨_, _, -, path⟩ := takeCode_eq_takeRequest named
  rw [exec_eq_takeCode named accepts.running, path]
  exact congrArg _ (takeRequest_badLength accepts.room accepts.source accepts.noRestart rfl)

/-- A barred request that meets a COMMIT in progress (step 6 of R130). -/
theorem exec_busy {c : Instr} {code : Byte} {write : Bool} (accepts : Accepts s r write false)
    (named : requestOf c = some (code, r, true, write, true)) (commit : s.agent.commit ≠ .idle) :
    exec c s = .next (answered s r code .busy []) := by
  obtain ⟨writes, own, same, path⟩ := takeCode_eq_takeRequest named
  obtain rfl := same rfl
  rw [exec_eq_takeCode named accepts.running, path,
    takeRequest_carriedOut accepts.room accepts.source accepts.noRestart rfl]
  exact congrArg _ (carryOut_barred accepts.allowed rfl commit)

/-! ### READ_ENTRY -/

theorem ownReadEntry_badIndex {bank table index : Byte} (bad : tableSize table ≤ index.toNat) :
    ownReadEntry [bank, table, index] t = .fail .badIndex := by
  rw [tableSize_eq] at bad
  rw [ownReadEntry]
  cases read : readTable table with
  | none => rfl
  | some name =>
    rw [read] at bad
    exact if_pos (Nat.not_lt.2 bad)

theorem ownReadEntry_badValue {bank table index : Byte} (known : index.toNat < tableSize table)
    (h1 : bank ≠ 1) (h2 : bank ≠ 2) : ownReadEntry [bank, table, index] t = .fail .badValue := by
  obtain ⟨name, read, small⟩ := readTable_of_lt known
  rw [ownReadEntry, read]
  simp only [small, not_true_eq_false, if_false, bankOf_other h1 h2]

/-- The bytes of an entry with the byte that says whether it is defined (R145, R162). -/
def Tables.entryReport (tables : Tables) (table : TableName) (index : Nat) : List Byte :=
  match tables.entryBytes table index with
  | none => [0]
  | some bytes => 1 :: bytes

theorem ownReadEntry_done {bank table index : Byte} {name : TableName} {image : Tables}
    (read : readTable table = some name) (known : index.toNat < name.entries)
    (named : s.bankOf bank = some image) :
    ownReadEntry [bank, table, index] s.frameTaken =
      .done ([bank, table, index] ++ twoBytes s.bank.generation.toNat ++
        image.entryReport name index.toNat) s.frameTaken id := by
  have named : s.frameTaken.bankOf bank = some image := named
  rw [ownReadEntry, read]
  simp only [known, not_true_eq_false, if_false, named, Tables.entryReport]
  cases image.entryBytes name index.toNat <;> simp [yesNo]

/-! ### Entries read from their formats (R146, R162) -/

/-- A number read as an element of a range is that number. -/
theorem finOf_eq_some_iff {n k : Nat} {i : Fin n} :
    (if h : k < n then some (⟨k, h⟩ : Fin n) else none) = some i ↔ i.val = k := by
  constructor
  · intro h
    split at h
    · obtain rfl := Option.some.inj h
      rfl
    · cases h
  · rintro rfl
    exact dif_pos i.isLt

theorem readSeg_eq_some_iff {b : Byte} {g : Seg} : readSeg b = some g ↔ g.val = b.toNat :=
  finOf_eq_some_iff

theorem readWindowNo_eq_some_iff {b : Byte} {i : WindowNo} :
    readWindowNo b = some i ↔ i.val = b.toNat :=
  finOf_eq_some_iff

theorem readPriority_eq_some_iff {b : Byte} {p : Fin 4} : readPriority b = some p ↔ p.val = b.toNat :=
  finOf_eq_some_iff

theorem readRetryLimit_eq_some_iff {b : Byte} {k : Fin 8} :
    readRetryLimit b = some k ↔ k.val = b.toNat :=
  finOf_eq_some_iff

theorem readYesNo_eq_some_iff {b : Byte} {x : Bool} :
    readYesNo b = some x ↔ yesNoOk b ∧ x = (b == 1) := by
  by_cases ok : yesNoOk b
  · rw [readYesNo_some ok, Option.some.injEq, eq_comm]
    exact (and_iff_right ok).symm
  · rw [readYesNo_none ok]
    exact iff_of_false nofun fun h => ok h.1

theorem readTime_eq_some_iff {h m sec : Byte} {time : TimeOfDay} : readTime h m sec = some time ↔
    timeOk h m sec ∧ time = { hour := h.toNat, minute := m.toNat, second := sec.toNat } := by
  simp only [readTime, Option.ite_none_right_eq_some, TimeOfDay.isReal_iff, Option.some.injEq,
    @eq_comm _ _ time]

theorem readWindowSet_eq_some_iff {bytes : List Byte} {list : List WindowNo} :
    readWindowSet bytes = some list ↔ list.map Fin.val = bytes.map BitVec.toNat := by
  induction bytes generalizing list with
  | nil =>
    rw [readWindowSet, Option.some.injEq, List.map_nil, List.map_eq_nil_iff, eq_comm]
  | cons b rest ih =>
    simp only [readWindowSet, Option.bind_eq_bind, Option.bind_eq_some_iff, Option.pure_def,
      Option.some.injEq, readWindowNo_eq_some_iff, ih, List.map_cons, List.map_eq_cons_iff]
    constructor
    · rintro ⟨i, first, more, read, rfl⟩
      exact ⟨i, more, rfl, first, read⟩
    · rintro ⟨i, more, rfl, first, read⟩
      exact ⟨i, first, more, read, rfl⟩

theorem readRoute_eq_some_iff {f1 f0 l1 l0 g : Byte} {x : Route} :
    readRoute [f1, f0, l1, l0, g] = some x ↔
      x.first.toNat = 256 * f1.toNat + f0.toNat ∧ x.last.toNat = 256 * l1.toNat + l0.toNat ∧
        x.segment.val = g.toNat := by
  obtain ⟨first, last, segment⟩ := x
  simp only [readRoute, Option.bind_eq_bind, Option.bind_eq_some_iff, Option.pure_def,
    Option.some.injEq, readAddr_eq_some_iff, readSeg_eq_some_iff, Route.mk.injEq]
  constructor
  · rintro ⟨_, hf, _, hl, _, hs, rfl, rfl, rfl⟩
    exact ⟨hf, hl, hs⟩
  · rintro ⟨hf, hl, hs⟩
    exact ⟨_, hf, _, hl, _, hs, rfl, rfl, rfl⟩

/-- A high byte below 16 leaves a number of 12 bits (R162). -/
theorem toNat_addr {high : Byte} (low : Byte) (h : high.toNat < 16) :
    (BitVec.ofNat 12 (256 * high.toNat + low.toNat)).toNat = 256 * high.toNat + low.toNat := by
  have := low.isLt
  exact (BitVec.toNat_ofNat ..).trans (Nat.mod_eq_of_lt (by omega))

theorem readRoute_ne_some {f1 f0 l1 l0 g : Byte} {x : Route}
    (bad : 16 ≤ f1.toNat ∨ 16 ≤ l1.toNat ∨ 4 ≤ g.toNat) : readRoute [f1, f0, l1, l0, g] ≠ some x := by
  rw [ne_eq, readRoute_eq_some_iff]
  have := x.first.isLt
  have := x.last.isLt
  have := x.segment.isLt
  omega

theorem readWindow_eq_some_iff {mask h0 m0 s0 h1 m1 s1 : Byte} {x : Window} :
    readWindow [mask, h0, m0, s0, h1, m1, s1] = some x ↔
      (mask.toNat < 128 ∧ timeOk h0 m0 s0 ∧ timeOk h1 m1 s1) ∧
        x = { dayMask := BitVec.ofNat 7 mask.toNat,
              start := { hour := h0.toNat, minute := m0.toNat, second := s0.toNat },
              stop := { hour := h1.toNat, minute := m1.toNat, second := s1.toNat } } := by
  simp only [readWindow, Option.bind_eq_bind, Option.bind_eq_some_iff, Option.pure_def,
    Option.some.injEq, readTime_eq_some_iff, Option.guard_eq_some', BitVec.ofNat_toNat]
  constructor
  · rintro ⟨_, low, _, ⟨start, rfl⟩, _, ⟨stop, rfl⟩, rfl⟩
    exact ⟨⟨low, start, stop⟩, rfl⟩
  · rintro ⟨⟨low, start, stop⟩, rfl⟩
    exact ⟨(), low, _, ⟨start, rfl⟩, _, ⟨stop, rfl⟩, rfl⟩

section cls

variable {count i0 i1 i2 i3 h1 h0 prio expect retry timeout notify : Byte}

theorem readClass_eq_some_iff {p : ClassPolicy} :
    readClass [count, i0, i1, i2, i3, h1, h0, prio, expect, retry, timeout, notify] = some p ↔
      (count.toNat ≤ 4 ∧ yesNoOk expect ∧ yesNoOk notify ∧ 1 ≤ timeout.toNat) ∧
      p.windows.map Fin.val = ([i0, i1, i2, i3].take count.toNat).map BitVec.toNat ∧
      p.priority.val = prio.toNat ∧ p.retryLimit.val = retry.toNat ∧
      p = { windows := p.windows, holdLimit := 256 * h1.toNat + h0.toNat, priority := p.priority,
            answerExpected := expect == 1, retryLimit := p.retryLimit,
            answerTimeout := timeout.toNat, notifyOnDefer := notify == 1 } := by
  simp only [readClass, Option.bind_eq_bind, Option.bind_eq_some_iff, Option.pure_def,
    Option.some.injEq, readWindowSet_eq_some_iff, readPriority_eq_some_iff, readYesNo_eq_some_iff,
    readRetryLimit_eq_some_iff, Option.guard_eq_some', numberOf]
  constructor
  · rintro ⟨_, few, _, set, _, level, _, ⟨yes, rfl⟩, _, limit, _, long, _, ⟨yes', rfl⟩, rfl⟩
    exact ⟨⟨few, yes, yes', long⟩, set, level, limit, rfl⟩
  · rintro ⟨⟨few, yes, yes', long⟩, set, level, limit, same⟩
    exact ⟨(), few, _, set, _, level, _, ⟨yes, rfl⟩, _, limit, (), long, _, ⟨yes', rfl⟩, same.symm⟩

theorem readClass_ne_some {p : ClassPolicy}
    (bad : 4 < count.toNat ∨ (∃ i ∈ [i0, i1, i2, i3].take count.toNat, 32 ≤ i.toNat) ∨
      4 ≤ prio.toNat ∨ 8 ≤ retry.toNat ∨ ¬ yesNoOk expect ∨ ¬ yesNoOk notify ∨ timeout.toNat = 0) :
    readClass [count, i0, i1, i2, i3, h1, h0, prio, expect, retry, timeout, notify] ≠ some p := by
  intro read
  obtain ⟨⟨few, yes, yes', long⟩, set, level, limit, -⟩ := readClass_eq_some_iff.1 read
  have := p.priority.isLt
  have := p.retryLimit.isLt
  obtain many | ⟨i, named, high⟩ | high | high | no | no | zero := bad
  · omega
  · have mem := set ▸ List.mem_map_of_mem named
    obtain ⟨w, -, same⟩ := List.mem_map.1 mem
    have := w.isLt
    omega
  · omega
  · omega
  · exact no yes
  · exact no yes'
  · omega

end cls

/-! ### WRITE_ENTRY -/

theorem exec_writeEntry (length : writeEntryLengthOk r.params = true) :
    exec (.writeEntry r) = whileRunning fun s => s.frameTaken.takeRequest
      { code := 0x06, lengthOk := true, write := true, barred := true } r
      (ownWriteEntry r.params) := by
  have path : exec (.writeEntry r) = whileRunning fun s => s.frameTaken.takeWriteEntry r := rfl
  simp only [State.takeWriteEntry, length] at path
  exact path

section define

variable {tables : Tables} {i : Nat} {format : List Byte}

theorem define_route {x : Route} (read : readRoute format = some x) :
    tables.define .route i format =
      some { tables with routes := tables.routes.setIfInBounds i (some x) } := by
  rw [Tables.define, read]
  rfl

theorem define_class {x : ClassPolicy} (read : readClass format = some x) :
    tables.define .cls i format =
      some { tables with classes := tables.classes.setIfInBounds i (some x) } := by
  rw [Tables.define, read]
  rfl

theorem define_window {x : Window} (read : readWindow format = some x) :
    tables.define .window i format =
      some { tables with windows := tables.windows.setIfInBounds i (some x) } := by
  rw [Tables.define, read]
  rfl

end define

section write

variable {table index action : Byte} {format : List Byte}

theorem ownWriteEntry_badIndex (bad : tableSize table ≤ index.toNat) :
    ownWriteEntry (table :: index :: action :: format) t = .fail .badIndex := by
  rw [tableSize_eq] at bad
  rw [ownWriteEntry]
  cases read : readTable table with
  | none => rfl
  | some name =>
    rw [read] at bad
    exact if_pos (Nat.not_lt.2 bad)

/-- What WRITE_ENTRY does to an entry that its table has, by the action (R146). -/
theorem ownWriteEntry_of_lt {name : TableName} (read : readTable table = some name)
    (known : index.toNat < name.entries) :
    ownWriteEntry (table :: index :: action :: format) t =
      if action = 2 then doneWith { t with bank.staging := t.bank.staging.undefine name index.toNat }
      else if action = 1 then
        (t.bank.staging.define name index.toNat format).elim (.fail .badValue) fun staging =>
          doneWith { t with bank.staging := staging }
      else .fail .badValue := by
  rw [ownWriteEntry, read]
  simp only [known, not_true_eq_false, if_false]
  cases t.bank.staging.define name index.toNat format <;> rfl

theorem ownWriteEntry_undefined {name : TableName} (read : readTable table = some name)
    (known : index.toNat < name.entries) :
    ownWriteEntry (table :: index :: 2 :: format) s.frameTaken =
      .done [] { s with bank.staging := s.bank.staging.undefine name index.toNat }.frameTaken id :=
  (ownWriteEntry_of_lt read known).trans (if_pos rfl)

theorem ownWriteEntry_badAction {name : TableName} (read : readTable table = some name)
    (known : index.toNat < name.entries) (h1 : action ≠ 1) (h2 : action ≠ 2) :
    ownWriteEntry (table :: index :: action :: format) t = .fail .badValue := by
  rw [ownWriteEntry_of_lt read known, if_neg h2, if_neg h1]

theorem ownWriteEntry_define {name : TableName} (read : readTable table = some name)
    (known : index.toNat < name.entries) :
    ownWriteEntry (table :: index :: 1 :: format) t =
      (t.bank.staging.define name index.toNat format).elim (.fail .badValue) fun staging =>
        doneWith { t with bank.staging := staging } :=
  (ownWriteEntry_of_lt read known).trans ((if_neg (by decide)).trans (if_pos rfl))

theorem ownWriteEntry_done {name : TableName} {staging : Tables} (read : readTable table = some name)
    (known : index.toNat < name.entries)
    (defined : s.bank.staging.define name index.toNat format = some staging) :
    ownWriteEntry (table :: index :: 1 :: format) s.frameTaken =
      .done [] { s with bank.staging := staging }.frameTaken id := by
  rw [ownWriteEntry_define read known, State.frameTaken_bank, defined]
  rfl

theorem ownWriteEntry_badValue {name : TableName} {α : Type} {entry : Option α} {written : α → Tables}
    (read : readTable table = some name) (known : index.toNat < name.entries)
    (define : t.bank.staging.define name index.toNat format = entry.map written)
    (unread : ∀ x, entry ≠ some x) :
    ownWriteEntry (table :: index :: 1 :: format) t = .fail .badValue := by
  rw [ownWriteEntry_define read known, define, Option.eq_none_iff_forall_ne_some.2 unread]
  rfl

end write

end Sys2Proof.Machine

namespace Sys2Proof.Proofs

open Sys2Proof.Machine Sys2Proof.Safety

/-- Settles O12: the two requests have one own part, and are turned away as any request is. -/
theorem stagingIsCopied : Obligations.StagingIsCopied := by
  rintro ⟨source, seq, params⟩ s
  refine ⟨?_, ?_, ?_⟩
  · rintro accepts rfl
    exact ⟨exec_done accepts rfl rfl, exec_done accepts rfl rfl⟩
  · intro accepts given
    obtain ⟨b, rest, rfl⟩ := List.exists_cons_of_ne_nil given
    exact ⟨exec_badLength accepts rfl, exec_badLength accepts rfl⟩
  · rintro accepts rfl commit
    exact ⟨exec_busy accepts rfl commit, exec_busy accepts rfl commit⟩

/-- Settles O8: the tests of R145 in order, then the entry in the format of its table. -/
theorem entryIsRead : Obligations.EntryIsRead := by
  rintro ⟨source, seq, params⟩ bank table index s rfl accepts
  refine ⟨fun bad => exec_fail accepts rfl (ownReadEntry_badIndex bad), fun known =>
    ⟨fun h1 h2 => exec_fail accepts rfl (ownReadEntry_badValue known h1 h2), fun image named => ?_⟩⟩
  obtain ⟨name, read, small⟩ := readTable_of_lt known
  refine (exec_done accepts rfl (ownReadEntry_done read small (bankOf_some named))).trans
    (next_answered_congr (congrArg _ ?_))
  obtain rfl := readTable_eq_some_iff.1 read
  unfold Tables.entryReport Tables.entryBytes
  cases name with
  | route => cases image.routes[index.toNat]?.join <;> rfl
  | cls => cases image.classes[index.toNat]?.join <;> rfl
  | window => cases image.windows[index.toNat]?.join <;> rfl

/-- Settles O11: the format of an entry is read as the one entry it spells, if its fields are in
range. -/
theorem entriesAreWritten : Obligations.EntriesAreWritten := by
  refine ⟨?_, ?_⟩
  · rintro ⟨source, seq, params⟩ table index action format s rfl accepts length
    have path := exec_writeEntry length
    refine ⟨fun bad => exec_fail accepts path (ownWriteEntry_badIndex bad), fun known =>
      ⟨fun h1 h2 => ?_, ?_, ?_, ?_⟩⟩
    · obtain ⟨name, read, small⟩ := readTable_of_lt known
      exact exec_fail accepts path (ownWriteEntry_badAction read small h1 h2)
    · rintro rfl
      obtain ⟨name, read, small⟩ := readTable_of_lt known
      refine (exec_done accepts path (ownWriteEntry_undefined read small)).trans ?_
      obtain rfl := readTable_eq_some_iff.1 read
      cases name <;> rfl
    · rintro rfl rfl f1 f0 l1 l0 g rfl
      refine ⟨fun hf hl segment hs => ?_, fun bad => ?_⟩
      · refine exec_done accepts path (ownWriteEntry_done rfl known (define_route ?_))
        exact readRoute_eq_some_iff.2 ⟨toNat_addr f0 hf, toNat_addr l0 hl, hs⟩
      · exact exec_fail accepts path (ownWriteEntry_badValue rfl known rfl fun _ =>
          readRoute_ne_some bad)
    · rintro rfl rfl mask h0 m0 s0 h1 m1 s1 rfl
      refine ⟨fun low start stop => ?_, fun bad => ?_⟩
      · refine exec_done accepts path (ownWriteEntry_done rfl known (define_window ?_))
        exact readWindow_eq_some_iff.2 ⟨⟨low, start, stop⟩, rfl⟩
      · exact exec_fail accepts path (ownWriteEntry_badValue rfl known rfl fun _ read =>
          bad (readWindow_eq_some_iff.1 read).1)
  · rintro ⟨source, seq, params⟩ index count i0 i1 i2 i3 h1 h0 prio expect retry timeout notify s rfl
      accepts known
    refine ⟨fun windows priority retryLimit few set level limit yes yes' long => ?_, fun bad => ?_⟩
    · refine exec_done accepts rfl (ownWriteEntry_done rfl known (define_class ?_))
      exact readClass_eq_some_iff.2 ⟨⟨few, yes, yes', long⟩, set, level, limit, rfl⟩
    · exact exec_fail accepts rfl (ownWriteEntry_badValue rfl known rfl fun _ =>
        readClass_ne_some bad)

end Sys2Proof.Proofs
end

