-- ==== Sys2Proof/Proofs/TrunkReceiving.lean ====
section
/-! SUPPORT. The receive side of the Trunk Port: the CRC bit by bit (R160), a byte and a break at each
state of the assembler (R157), and the tests of R158 in order. -/

namespace Sys2Proof.Machine

open Sys2Proof.Safety

variable {s t : State}

/-! ### The CRC as a shift register (R160) -/

/-- The register with bytes still to come laid over its top takes in the topmost of their bits, and
the others move up. -/
theorem crcShift_xor (c w : BitVec 16) : crcShift (c ^^^ w) = crcFed c w.msb ^^^ w <<< 1 := by
  unfold crcShift crcFed
  rw [BitVec.msb_xor, BitVec.shiftLeft_xor_distrib]
  cases c.msb <;> cases w.msb <;> simp [BitVec.xor_assoc, BitVec.xor_comm (w <<< 1)]

theorem msb_shiftLeft_of_lt (w : BitVec 16) {n : Nat} (h : n < 16) :
    (w <<< n).msb = w.getLsbD (15 - n) := by
  rw [BitVec.msb_shiftLeft, BitVec.getMsbD_eq_getLsbD, decide_eq_true h, Bool.true_and]

/-- Shifting bits in from the top of the register is feeding them in turn. -/
theorem foldl_crcShift (c w : BitVec 16) {n : Nat} (h : n ≤ 16) :
    (List.range n).foldl (fun x _ => crcShift x) (c ^^^ w) =
      ((List.range n).map fun i => w.getLsbD (15 - i)).foldl crcFed c ^^^ w <<< n := by
  induction n with
  | zero => simp
  | succ n ih =>
    simp only [List.range_succ, List.foldl_append, List.map_append, ih (by omega), List.map_cons,
      List.map_nil, List.foldl_cons, List.foldl_nil, crcShift_xor, msb_shiftLeft_of_lt w h,
      BitVec.shiftLeft_add]

/-- A byte laid over the top of the register has its most significant bit topmost. -/
theorem getLsbD_overTop (b : Byte) {i : Nat} (h : i < 8) :
    (b.setWidth 16 <<< 8).getLsbD (15 - i) = b.getLsbD (7 - i) := by
  have place : 15 - i - 8 = 7 - i := by omega
  have inside : 15 - i < 16 := by omega
  have above : ¬ 15 - i < 8 := by omega
  have within : 7 - i < 16 := by omega
  simp only [BitVec.getLsbD_shiftLeft, BitVec.getLsbD_setWidth, inside, above, place, within,
    decide_true, decide_false, Bool.not_false, Bool.true_and]

theorem crcByte_eq_foldl (c : BitVec 16) (b : Byte) :
    crcByte c b = ((List.range 8).map fun i => b.getLsbD (7 - i)).foldl crcFed c := by
  have bits : ((List.range 8).map fun i => (b.setWidth 16 <<< 8).getLsbD (15 - i)) =
      (List.range 8).map fun i => b.getLsbD (7 - i) :=
    List.map_congr_left fun i hi => getLsbD_overTop b (List.mem_range.1 hi)
  have gone : (b.setWidth 16 <<< 8) <<< 8 = 0#16 := by
    rw [← BitVec.shiftLeft_add]
    exact BitVec.shiftLeft_eq_zero (by decide)
  rw [crcByte, foldl_crcShift _ _ (by decide), bits, gone, BitVec.xor_zero]

theorem crc16_append (bytes : List Byte) (b : Byte) :
    crc16 (bytes ++ [b]) = crcByte (crc16 bytes) b :=
  List.foldl_append ..

/-! ### The assembler at each of its states (R157) -/

theorem dropFrame_eq : s.dropFrame = { s with
    port.assembler := .hunt, counters := bump s.counters Counter.frameError 1 } :=
  count_eq _

theorem receiveByte_hunt (hunt : s.port.assembler = .hunt) (b : Byte) :
    s.receiveByte b = if b = 0xA6 then s.assemble .length else s := by
  rw [State.receiveByte, hunt]
  rfl

theorem receiveByte_badLength {len : Byte} (bad : len.toNat < 7 ∨ 71 < len.toNat) :
    (s.assemble .length).receiveByte len = s.dropFrame :=
  if_neg (show ¬ (7 ≤ len.toNat ∧ len.toNat ≤ 71) by omega)

theorem assemble_of_assembler {a : Assembler} (here : s.port.assembler = a) : s.assemble a = s := by
  subst here
  rfl

theorem exec_byteReceived (hold : s.pins.hold = none) (b : Byte) :
    exec (.byteReceived b) s = .next (s.receiveByte b) :=
  whileRunning_of_no_hold (fun s => s.receiveByte b) hold

/-- BYTE_RECEIVED does in a state of the assembler what the rule of that state says. -/
theorem exec_byteReceived_of_assembler {a : Assembler} {b : Byte} (hold : s.pins.hold = none)
    (here : s.port.assembler = a) (rule : (s.assemble a).receiveByte b = t) :
    exec (.byteReceived b) s = .next t := by
  rw [exec_byteReceived hold, ← rule, assemble_of_assembler here]

theorem breakFrame_hunt (hunt : s.port.assembler = .hunt) : s.breakFrame = s := by
  rw [State.breakFrame, hunt]

theorem breakFrame_outside (outside : s.port.assembler ≠ .hunt) : s.breakFrame = s.dropFrame := by
  unfold State.breakFrame
  split
  · next hunt => exact absurd hunt outside
  all_goals rfl

theorem exec_break {c : Instr} (hold : s.pins.hold = none)
    (breaks : c = .byteFramingError ∨ c = .gapTimeout) : exec c s = .next s.breakFrame := by
  obtain rfl | rfl := breaks
  · exact whileRunning_of_no_hold State.breakFrame hold
  · exact whileRunning_of_no_hold State.breakFrame hold

/-! ### The tests of R158 in order -/

section tests

variable {own : Addr} {len : Byte} {body crc : List Byte} {f : FrameFields}

theorem judgeFrame_badCrc (wrong : crcBytes (len :: body) ≠ crc) :
    judgeFrame own len body crc = .discard Counter.checkError :=
  if_pos wrong

theorem judgeFrame_of_header (right : crcBytes (len :: body) = crc) (read : readHeader body = some f) :
    judgeFrame own len body crc =
      if ¬ (f.destination < 4096 ∧ f.source < 4096) then .discard Counter.frameError
      else if ¬ (f.kind = 1 ∨ f.kind = 2) then .discard Counter.badKind
      else judgeFields own f := by
  rw [judgeFrame, if_neg (not_not_intro right), read]

theorem judgeFrame_badAddress (right : crcBytes (len :: body) = crc)
    (read : readHeader body = some f) (bad : ¬ (f.destination < 4096 ∧ f.source < 4096)) :
    judgeFrame own len body crc = .discard Counter.frameError := by
  rw [judgeFrame_of_header right read, if_pos bad]

theorem judgeFrame_badKind (right : crcBytes (len :: body) = crc) (read : readHeader body = some f)
    (addresses : f.destination < 4096 ∧ f.source < 4096) (bad : ¬ (f.kind = 1 ∨ f.kind = 2)) :
    judgeFrame own len body crc = .discard Counter.badKind := by
  rw [judgeFrame_of_header right read, if_neg (not_not_intro addresses), if_pos bad]

theorem judgeFrame_known (right : crcBytes (len :: body) = crc) (read : readHeader body = some f)
    (addresses : f.destination < 4096 ∧ f.source < 4096) (known : f.kind = 1 ∨ f.kind = 2) :
    judgeFrame own len body crc = judgeFields own f := by
  rw [judgeFrame_of_header right read, if_neg (not_not_intro addresses),
    if_neg (not_not_intro known)]

theorem judgeFields_badCommand (command : f.kind = 1)
    (bad : 48 < f.payload.length ∨ 16 ≤ f.cls.toNat) :
    judgeFields own f = .discard Counter.frameError := by
  have fails : ¬ (f.payload.length ≤ Config.maxPayload ∧ f.cls.toNat < 16) := by
    rw [Config.maxPayload]
    omega
  rw [judgeFields, if_pos command, dif_neg fails]

theorem judgeFields_otherAddress (request : f.kind = 2) (other : f.destination ≠ own.toNat) :
    judgeFields own f = .discard Counter.badAddress := by
  rw [judgeFields, if_neg (by omega), if_neg other]

end tests

/-- A number of two bytes is an address when the high byte leaves 12 bits. -/
theorem numberOf_lt_4096_iff (high low : Byte) : numberOf high low < 4096 ↔ high.toNat < 16 := by
  have := low.isLt
  rw [numberOf]
  omega

/-! ### A completed frame -/

theorem completeFrame_discarded {len : Byte} {body crc : List Byte} {counter : CounterId}
    (judged : judgeFrame s.ownAddress len body crc = .discard counter) :
    s.completeFrame len body crc = { s with
      port.assembler := .hunt, counters := bump s.counters counter 1 } := by
  rw [State.completeFrame, judged]
  exact count_eq _

theorem exec_trunkFrameDiscarded (hold : s.pins.hold = none) (frame : List Byte) :
    exec (.trunkFrameDiscarded frame) s = .next (s.completeFrame (frame.headD 0)
      ((frame.drop 1).take (frame.length - 3)) (frame.drop (frame.length - 2))) :=
  whileRunning_of_no_hold (fun s => s.completeFrame (frame.headD 0)
    ((frame.drop 1).take (frame.length - 3)) (frame.drop (frame.length - 2))) hold

/-- A frame given whole is taken apart into its length byte, its body and its CRC. -/
theorem exec_trunkFrameDiscarded_whole (hold : s.pins.hold = none) (len c1 c0 : Byte)
    (body : List Byte) :
    exec (.trunkFrameDiscarded (len :: body ++ [c1, c0])) s =
      .next (s.completeFrame len body [c1, c0]) := by
  have size : (len :: body ++ [c1, c0]).length = (len :: body).length + 2 := List.length_append ..
  have inner : (len :: body ++ [c1, c0]).length - 3 = body.length := by
    rw [size, List.length_cons]
    omega
  have outer : (len :: body ++ [c1, c0]).length - 2 = (len :: body).length := by
    rw [size, Nat.add_sub_cancel]
  have bodyPart : ((len :: body ++ [c1, c0]).drop 1).take body.length = body := List.take_left
  rw [exec_trunkFrameDiscarded hold, inner, outer, bodyPart, List.drop_left]
  rfl

end Sys2Proof.Machine

namespace Sys2Proof.Proofs

open Sys2Proof.Machine Sys2Proof.Safety

/-- Settles O21: each entry of the table of R157 is one rule of the assembler. -/
theorem assemblerFollowsItsTable : Obligations.AssemblerFollowsItsTable := by
  intro s hold
  refine ⟨fun b => ⟨fun hunt => ?_, fun length => ⟨fun low high => ?_, fun bad => ?_⟩,
    fun len stored filling => ⟨fun more => ?_, fun last => ?_⟩, fun len body first => ?_⟩,
    fun c breaks => ⟨fun hunt => ?_, fun outside => ?_⟩⟩
  · rw [exec_byteReceived hold, receiveByte_hunt hunt]
    rfl
  · exact exec_byteReceived_of_assembler hold length (receiveByte_length low high)
  · exact exec_byteReceived_of_assembler hold length ((receiveByte_badLength bad).trans dropFrame_eq)
  · exact exec_byteReceived_of_assembler hold filling (receiveByte_body b more)
  · exact exec_byteReceived_of_assembler hold filling (receiveByte_body_last b last)
  · exact exec_byteReceived_of_assembler hold first (receiveByte_crc_first len b body)
  · rw [exec_break hold breaks, breakFrame_hunt hunt]
  · rw [exec_break hold breaks, breakFrame_outside outside, dropFrame_eq]

/-- Settles O22: the first test of R158 that fails decides the verdict, and both ways of completing the
frame act on that verdict. -/
theorem badFramesAreDiscarded : Obligations.BadFramesAreDiscarded := by
  refine ⟨⟨rfl, fun bytes b => (crc16_append bytes b).trans (crcByte_eq_foldl _ b)⟩, ?_⟩
  rintro s len kind d1 d0 s1 s0 seq cls c1 c0 payload body frame counter hold header - rfl fails
  have read : readHeader body = some
      { kind := kind.toNat, destination := numberOf d1 d0, source := numberOf s1 s0, seq := seq,
        cls := cls, payload := payload } := by
    rw [header]
    rfl
  have addresses : numberOf d1 d0 < 4096 ∧ numberOf s1 s0 < 4096 ↔ d1.toNat < 16 ∧ s1.toNat < 16 :=
    and_congr (numberOf_lt_4096_iff d1 d0) (numberOf_lt_4096_iff s1 s0)
  have judged : judgeFrame s.ownAddress len body [c1, c0] = .discard counter := by
    obtain ⟨wrong, rfl⟩ | ⟨right, ⟨range, rfl⟩ | ⟨dest, source, later⟩⟩ := fails
    · exact judgeFrame_badCrc wrong
    · exact judgeFrame_badAddress right read (mt addresses.1 (by omega))
    · have inRange := addresses.2 ⟨dest, source⟩
      obtain ⟨no1, no2, rfl⟩ | ⟨rfl, bad, rfl⟩ | ⟨rfl, other, rfl⟩ := later
      · refine judgeFrame_badKind right read inRange ?_
        rintro (is1 | is2)
        · exact no1 (BitVec.eq_of_toNat_eq is1)
        · exact no2 (BitVec.eq_of_toNat_eq is2)
      · exact (judgeFrame_known right read inRange (.inl rfl)).trans (judgeFields_badCommand rfl bad)
      · exact (judgeFrame_known right read inRange (.inr rfl)).trans
          (judgeFields_otherAddress rfl other)
  refine ⟨?_, fun last => ?_⟩
  · rw [exec_trunkFrameDiscarded_whole hold, completeFrame_discarded judged]
  · exact exec_byteReceived_of_assembler hold last
      ((receiveByte_crc_last len c1 c0 body).trans (completeFrame_discarded judged))

end Sys2Proof.Proofs
end

