-- ==== Sys2Proof/Proofs/Supply.lean ====
section
/-! SUPPORT. The supply, RST_N and the reset holds (R164): how a hold begins, what it keeps out, and the
reset at its end. -/

namespace Sys2Proof.Machine

open Sys2Proof.Safety

variable {s : State} {h : ResetHold} {straps : StrapPins}

/-- All commands but the happenings of the supply and of RST_N act only while no hold is
on. -/
theorem exec_eq_whileRunning {c : Instr} (fall : c ≠ .supplyFall) (rise : c ≠ .supplyRise)
    (low : c ≠ .rstNLow) (due : ∀ pins, c ≠ .powerOnHoldEnd pins)
    (high : ∀ pins, c ≠ .rstNHigh pins) : ∃ effect, exec c = whileRunning effect := by
  cases c with
  | supplyFall => exact absurd rfl fall
  | supplyRise => exact absurd rfl rise
  | rstNLow => exact absurd rfl low
  | powerOnHoldEnd pins => exact absurd rfl (due pins)
  | rstNHigh pins => exact absurd rfl (high pins)
  | _ => exact ⟨_, rfl⟩

/-! ### A hold begins -/

theorem fallSupply_up (up : s.pins.supplyUp = true) :
    s.fallSupply = { s.beginHold { cause := .powerOn, dueAt := none, settled := false } with
      pins.supplyUp := false } :=
  if_pos up

theorem riseSupply_down (down : s.pins.supplyUp = false) :
    s.riseSupply = { s.beginHold
        { cause := .powerOn, dueAt := some (s.pins.now + 20 * 288000), settled := false } with
      pins.supplyUp := true } :=
  if_neg (Bool.eq_false_iff.1 down)

theorem lowerRstN_running (hold : s.pins.hold = none) :
    s.lowerRstN = { s.beginHold { cause := .resetLine, dueAt := none, settled := false } with
      pins.rstN := false } :=
  if_pos (running_of_no_hold hold)

theorem lowerRstN_held (hold : s.pins.hold.isSome = true) :
    s.lowerRstN = { s with pins.rstN := false } :=
  if_neg (by simpa [State.running] using Option.isSome_iff_ne_none.1 hold)

/-! ### A hold ends -/

/-- The state a reset leads to: outside it stand the supply, RST_N and the waiting commands. -/
theorem resetTakesEffect_eq (cause : StartCause) :
    s.resetTakesEffect cause straps = { State.afterReset cause straps with
      pins.straps := straps, pins.latched := straps, pins.supplyUp := s.pins.supplyUp,
      pins.rstN := s.pins.rstN, pins.hold := none, pins.now := 0, pending := s.pending } := rfl

theorem raiseRstN_no_hold (hold : s.pins.hold = none) :
    s.raiseRstN straps = { s with pins.rstN := true, pins.straps := straps } := by
  simp only [State.raiseRstN, hold]

theorem raiseRstN_ends (hold : s.pins.hold = some h) (ends : h.endsWithRstN = true) :
    s.raiseRstN straps =
      { s with pins.rstN := true, pins.straps := straps }.resetTakesEffect h.cause straps := by
  simp only [State.raiseRstN, hold, ends, if_true]

theorem raiseRstN_goes_on (hold : s.pins.hold = some h) (stays : h.endsWithRstN = false) :
    s.raiseRstN straps = { s with pins.rstN := true, pins.straps := straps } := by
  simp only [State.raiseRstN, hold, stays, Bool.false_eq_true, if_false]

theorem endsWithRstN_powerOn (cause : h.cause = .powerOn) : h.endsWithRstN = h.settled := by
  rw [ResetHold.endsWithRstN, cause]

theorem endsWithRstN_resetLine (cause : h.cause = .resetLine) : h.endsWithRstN = true := by
  rw [ResetHold.endsWithRstN, cause]

theorem endPowerOnHold_high {due : Nat} (hold : s.pins.hold = some h) (running : h.dueAt = some due)
    (high : s.pins.rstN = true) :
    s.endPowerOnHold straps =
      { s.reach due with pins.straps := straps }.resetTakesEffect h.cause straps := by
  simp only [State.endPowerOnHold, hold, running, if_pos high]

theorem endPowerOnHold_low {due : Nat} (hold : s.pins.hold = some h) (running : h.dueAt = some due)
    (low : s.pins.rstN = false) :
    s.endPowerOnHold straps = { s with
      pins.now := max s.pins.now due
      pins.straps := straps
      pins.hold := some { h with dueAt := none, settled := true } } := by
  simp only [State.endPowerOnHold, hold, running, if_neg (Bool.eq_false_iff.1 low)]
  rfl

end Sys2Proof.Machine

namespace Sys2Proof.Proofs

open Sys2Proof.Machine Sys2Proof.Safety

/-- Settles O3: each clause is the rule of one command in one state of the hold, and every reset is the
one of `resetTakesEffect_eq`. -/
theorem supplyAndResetLine : Obligations.SupplyAndResetLine := by
  refine ⟨fun c s hold fall rise low due high => ?_, ?_⟩
  · obtain ⟨effect, path⟩ := exec_eq_whileRunning fall rise low due high
    rw [path, whileRunning_of_hold effect hold]
  rintro s t pins rfl
  refine ⟨fun up => congrArg _ (fallSupply_up up), fun down => congrArg _ (riseSupply_down down),
    fun due hold => ⟨fun high => ?_, fun low => congrArg _ (endPowerOnHold_low hold rfl low)⟩,
    fun none => congrArg _ (lowerRstN_running none), fun held => congrArg _ (lowerRstN_held held),
    fun h hold => ⟨fun cause settled => ?_, fun cause unsettled => ?_, fun cause => ?_⟩,
    fun none => congrArg _ (raiseRstN_no_hold none)⟩
  · refine congrArg _ ((endPowerOnHold_high hold rfl high).trans ((resetTakesEffect_eq _).trans ?_))
    simp only [State.reach, high]
  · have ends := (endsWithRstN_powerOn cause).trans settled
    refine congrArg _ ((raiseRstN_ends hold ends).trans ?_)
    rw [cause]
    exact resetTakesEffect_eq _
  · have stays := (endsWithRstN_powerOn cause).trans unsettled
    exact congrArg _ (raiseRstN_goes_on hold stays)
  · refine congrArg _ ((raiseRstN_ends hold (endsWithRstN_resetLine cause)).trans ?_)
    rw [cause]
    exact resetTakesEffect_eq _

end Sys2Proof.Proofs
end

