-- ==== Sys2Proof/Proofs/CommandQueue.lean ====
section
/-! SUPPORT. A step takes the front command, and no command touches the queue of those that wait: each
operation of the blocks leaves the queue as it is, and every command is answered. -/

namespace Sys2Proof.Machine

open Sys2Proof.Safety

/-! ### One command taken -/

theorem step_of_cons {c : Instr} {rest : List Instr} {s : State} (front : s.pending = c :: rest) :
    step s = exec c (s.withPending rest) := by
  rw [step, front]

theorem step_of_nil {s : State} (idle : s.pending = []) : step s = .next s := by
  rw [step, idle]

variable (s : State) (g : Seg) (n : SlotNo)

/-! ### The queue through the operations of the blocks -/

theorem foldl_pending {α : Type} {f : State → α → State}
    (each : ∀ (t : State) (a : α), (f t a).pending = t.pending) (l : List α) :
    (l.foldl f s).pending = s.pending := by
  induction l generalizing s with
  | nil => rfl
  | cons a rest ih => exact (ih (f s a)).trans (each s a)

@[simp] theorem State.endAllDeferred_pending (o : ReportOutcome) (test : Slot → Bool) :
    (s.endAllDeferred g o test).pending = s.pending :=
  foldl_pending s (fun t n => t.endDeferred_pending g o none n) _

@[simp] theorem State.endAllQueued_pending (o : ReportOutcome) (test : Slot → Bool) :
    (s.endAllQueued g o test).pending = s.pending :=
  foldl_pending s (fun t n => t.endQueued_pending g o none n) _

@[simp] theorem State.withdraw_pending : (s.withdraw g).pending = s.pending := by
  simp [State.withdraw]

/-! #### The Release Unit and the Segment Scheduler -/

@[simp] theorem State.release_pending : (s.release g n).pending = s.pending := by
  simp [State.release]

@[simp] theorem State.examine_pending : (s.examine g).pending = s.pending := by
  unfold State.examine
  induction Config.sendQueueLimit generalizing s with
  | zero => rfl
  | succ fuel ih =>
    rw [State.releaseWhile]
    split
    · rw [ih, State.release_pending]
    · rfl

@[simp] theorem State.endPacerGap_pending : (s.endPacerGap g).pending = s.pending := by
  unfold State.endPacerGap
  split
  · simp
  · rfl

@[simp] theorem State.expire_pending : (s.expire g).pending = s.pending :=
  s.endAllDeferred_pending g _ _

@[simp] theorem State.handBack_pending (r : Slot) : (s.handBack g n r).pending = s.pending := by
  unfold State.handBack
  split <;> simp

@[simp] theorem State.start_pending (r : Slot) : (s.start g n r).pending = s.pending := by
  simp [State.start]

theorem walkFrom_pending (l : List SlotNo) : (State.walkFrom g l s).pending = s.pending := by
  induction l generalizing s with
  | nil => rfl
  | cons n rest ih =>
    rw [State.walkFrom]
    split
    · exact ih s
    · split
      · split
        · exact s.start_pending g n _
        · rw [ih, State.handBack_pending]
      · exact ih s

@[simp] theorem State.walk_pending : (s.walk g).pending = s.pending := by
  unfold State.walk
  split
  · exact walkFrom_pending s g _
  · rfl

@[simp] theorem State.raiseStreak_pending : (s.raiseStreak g).pending = s.pending := by
  dsimp only [State.raiseStreak]
  split <;> simp

/-! #### The Answer Tracker and the segment line -/

@[simp] theorem State.retryDecision_pending (failure : ReportOutcome) :
    (s.retryDecision g n failure).pending = s.pending := by
  unfold State.retryDecision
  split
  · rfl
  · split
    · split <;> simp
    · simp

@[simp] theorem State.afterTransmission_pending (tx : Transmission) :
    (s.afterTransmission g tx).pending = s.pending := by
  unfold State.afterTransmission
  split
  · rfl
  · split <;> simp

@[simp] theorem State.endTransmission_pending : (s.endTransmission g).pending = s.pending := by
  unfold State.endTransmission
  split
  · simp
  · rfl

@[simp] theorem State.abort_pending (k : Nat) (sensed : Wire) :
    (s.abort g k sensed).pending = s.pending := by
  unfold State.abort
  split
  · split
    · simp
    · rfl
  · rfl

@[simp] theorem State.timeOut_pending (tag : Byte) : (s.timeOut g tag).pending = s.pending := by
  unfold State.timeOut
  split
  · rfl
  · simp

@[simp] theorem State.lateAnswer_pending (x : Retired) (a : AnswerPart) :
    (s.lateAnswer g x a).pending = s.pending := by
  unfold State.lateAnswer
  split
  · simp
  · dsimp only
    split <;> simp

@[simp] theorem State.resolve_pending (a : LineAnswer) : (s.resolve g a).pending = s.pending := by
  unfold State.resolve
  split
  · split <;> simp
  · split
    · split <;> simp
    · simp

@[simp] theorem State.beginReception_pending (sensed : Wire) :
    (s.beginReception g sensed).pending = s.pending := by
  unfold State.beginReception
  split
  · dsimp only
    split <;> rfl
  · rfl

@[simp] theorem State.stuckLine_pending (line : List LineSpan) :
    (s.stuckLine g line).pending = s.pending := by
  unfold State.stuckLine
  split
  · dsimp only
    split <;> simp
  · rfl

@[simp] theorem State.endReception_pending (line : List LineSpan) :
    (s.endReception g line).pending = s.pending := by
  unfold State.endReception
  split
  · dsimp only
    split <;> simp
  · rfl

@[simp] theorem State.endQuietGap_pending : (s.endQuietGap g).pending = s.pending := by
  unfold State.endQuietGap
  split
  · simp
  · rfl

/-! #### Reports, the trunk transmitter and the resets -/

@[simp] theorem State.formReport_pending : s.formReport.pending = s.pending := by
  unfold State.formReport
  split
  · rfl
  · unfold State.formOldest
    split
    · dsimp only
      split
      · rfl
      · split <;> simp
    · rfl

@[simp] theorem State.arbitrate_pending : s.arbitrate.pending = s.pending := by
  unfold State.arbitrate State.takeEntry
  split
  · split
    · rfl
    · split
      · rfl
      · split <;> rfl
  · rfl

@[simp] theorem State.resetTakesEffect_pending (cause : StartCause) (straps : StrapPins) :
    (s.resetTakesEffect cause straps).pending = s.pending := rfl

@[simp] theorem State.endTrunkTransmission_pending (straps : StrapPins) :
    (s.endTrunkTransmission straps).pending = s.pending := by
  unfold State.endTrunkTransmission
  split
  · rfl
  · split <;> rfl

@[simp] theorem State.edge_pending : s.edge.pending = s.pending := by
  simp [State.edge]

@[simp] theorem State.fallSupply_pending : s.fallSupply.pending = s.pending := by
  unfold State.fallSupply
  split <;> rfl

@[simp] theorem State.riseSupply_pending : s.riseSupply.pending = s.pending := by
  unfold State.riseSupply
  split <;> rfl

@[simp] theorem State.lowerRstN_pending : s.lowerRstN.pending = s.pending := by
  unfold State.lowerRstN
  split <;> rfl

@[simp] theorem State.raiseRstN_pending (straps : StrapPins) :
    (s.raiseRstN straps).pending = s.pending := by
  unfold State.raiseRstN
  dsimp only
  split
  · rfl
  · split <;> rfl

@[simp] theorem State.endPowerOnHold_pending (straps : StrapPins) :
    (s.endPowerOnHold straps).pending = s.pending := by
  unfold State.endPowerOnHold
  split
  · rfl
  · split
    · rfl
    · dsimp only
      split <;> rfl

/-! #### Admission -/

@[simp] theorem State.refuse_pending (u : CommandTelegram) (o : ReportOutcome) (x : Option Seg) :
    (s.refuse u o x).pending = s.pending := by
  unfold State.refuse
  split <;> simp

@[simp] theorem State.deferNew_pending (r : Slot) (reason : DeferralReason) :
    (s.deferNew g n r reason).pending = s.pending := by
  unfold State.deferNew State.interim
  split
  · split <;> simp
  · simp

@[simp] theorem State.place_pending (r : Slot) (holdLimit : Nat) :
    (s.place g n r holdLimit).pending = s.pending := by
  unfold State.place
  split
  · simp
  · split
    · simp
    · split <;> simp

theorem pending_of_takeSlot {s t : State} {n : SlotNo} {p : Fin 4} {record : Intake → Slot}
    (taken : s.takeSlot p record = some (n, t)) : t.pending = s.pending := by
  unfold State.takeSlot at taken
  split at taken
  · cases taken
    simp
  · split at taken
    · cases taken
    · split at taken
      · cases taken
        simp [State.displace]
      · cases taken

@[simp] theorem State.admitRouted_pending (u : CommandTelegram) (p : ClassPolicy) :
    (s.admitRouted u p g).pending = s.pending := by
  unfold State.admitRouted
  split
  · simp
  · next taken =>
    split
    · rw [State.place_pending, pending_of_takeSlot taken]
    · exact pending_of_takeSlot taken

@[simp] theorem State.takeCommand_pending (u : CommandTelegram) :
    (s.takeCommand u).pending = s.pending := by
  unfold State.takeCommand State.admitScreened
  split
  · rfl
  · split
    · exact s.refuse_pending ..
    · split
      · exact s.refuse_pending ..
      · split
        · exact s.refuse_pending ..
        · split
          · exact s.refuse_pending ..
          · split
            · exact s.refuse_pending ..
            · exact s.admitRouted_pending ..

/-! #### The commit end -/

@[simp] theorem State.commitTraffic_pending : s.commitTraffic.pending = s.pending := by
  simp [State.commitTraffic]

@[simp] theorem State.endCommit_pending : s.endCommit.pending = s.pending := by
  unfold State.endCommit
  split
  · rfl
  · split
    · simp [State.commitFailed]
    · simp [State.swapTables]

/-! #### The requests that act on queues and counters -/

theorem purgeSegment_pending (test : Slot → Bool) (queued : Bool) :
    (State.purgeSegment test queued s g).pending = s.pending := by
  dsimp only [State.purgeSegment]
  split <;> simp

@[simp] theorem State.clearCounters_pending (first count : Nat) :
    (s.clearCounters first count).pending = s.pending := by
  simp only [State.clearCounters]

@[simp] theorem State.flush_pending : s.flush.pending = s.pending :=
  State.checkClear_pending _

/-! ### The queue through a request -/

/-- The commands that wait are those of a queue. -/
def Awaits (queue : List Instr) (s : State) : Prop :=
  s.pending = queue

section requests

variable {s : State} {queue : List Instr} (h : Awaits queue s) (params : List Byte)
include h

theorem Awaits.respond (code : Byte) (r : Request) (status : Status) (result : List Byte) :
    Awaits queue (s.respond code r status result) :=
  (s.pushResponse_pending _).trans h

theorem Awaits.takeRequest (c : RequestClass) (r : Request) {own : State → Verdict}
    (keeps : (own s).Keeps (Awaits queue)) : Awaits queue (s.takeRequest c r own) := by
  unfold State.takeRequest State.carryOut
  split
  · exact h
  · split
    · exact h
    · split
      · exact h.respond ..
      · split
        · exact h.respond ..
        · split
          · exact Awaits.respond (s := s.count _) h ..
          · split
            · exact h.respond ..
            · cases verdict : own s with
              | fail status => exact h.respond ..
              | done result after consequence =>
                rw [verdict] at keeps
                obtain ⟨kept, goesOn⟩ := keeps
                exact goesOn _ (kept.respond ..)
              | started after =>
                rw [verdict] at keeps
                exact keeps

theorem Awaits.setClock (c : Calendar) : Awaits queue (s.setClock c) :=
  (State.evaluateWindows_pending _).trans h

theorem Awaits.ownSetClock : (ownSetClock params s).Keeps (Awaits queue) := by
  unfold Machine.ownSetClock
  split
  · split
    · exact StepRules.keeps_doneWith (h.setClock _)
    · trivial
  · trivial

theorem Awaits.ownAdjustClock : (ownAdjustClock params s).Keeps (Awaits queue) := by
  unfold Machine.ownAdjustClock
  split
  · split
    · trivial
    · split
      · trivial
      · exact ⟨h.setClock _, fun _ => id⟩
  · trivial

theorem Awaits.ownWriteEntry : (ownWriteEntry params s).Keeps (Awaits queue) := by
  unfold Machine.ownWriteEntry
  split
  · split
    · trivial
    · split
      · trivial
      · split
        · exact StepRules.keeps_doneWith h
        · split
          · split
            · exact StepRules.keeps_doneWith h
            · trivial
          · trivial
  · trivial

theorem Awaits.ownSetProfile : (ownSetProfile params s).Keeps (Awaits queue) := by
  unfold Machine.ownSetProfile
  split
  · refine StepRules.keeps_withSegment fun g => ?_
    split
    · exact StepRules.keeps_doneWith h
    · trivial
  · trivial

theorem Awaits.ownSetPacing : (ownSetPacing params s).Keeps (Awaits queue) := by
  unfold Machine.ownSetPacing
  split
  · exact StepRules.keeps_withSegment fun g => ⟨h, fun t => (t.examine_pending g).trans⟩
  · trivial

theorem Awaits.ownHoldSegment : (ownHoldSegment params s).Keeps (Awaits queue) := by
  unfold Machine.ownHoldSegment
  split
  · exact StepRules.keeps_withSegment fun g => StepRules.keeps_doneWith h
  · trivial

theorem Awaits.ownResumeSegment : (ownResumeSegment params s).Keeps (Awaits queue) := by
  unfold Machine.ownResumeSegment
  split
  · exact StepRules.keeps_withSegment fun g => ⟨h, fun t => (t.walk_pending g).trans⟩
  · trivial

theorem Awaits.ownPurge : (ownPurge params s).Keeps (Awaits queue) := by
  unfold Machine.ownPurge
  split
  · split
    · split
      · exact ⟨(foldl_pending s (fun t g => purgeSegment_pending t g _ _) _).trans h, fun _ => id⟩
      · trivial
    · trivial
  · trivial

theorem Awaits.ownReadCounters : (ownReadCounters params s).Keeps (Awaits queue) := by
  unfold Machine.ownReadCounters
  split
  · split
    · trivial
    · split
      · trivial
      · refine ⟨?_, fun _ => id⟩
        split
        · exact (s.clearCounters_pending _ _).trans h
        · exact h
  · trivial

theorem Awaits.ownSetNoticeAddress : (ownSetNoticeAddress params s).Keeps (Awaits queue) := by
  unfold Machine.ownSetNoticeAddress
  split
  · split
    · trivial
    · split
      · trivial
      · exact StepRules.keeps_doneWith h
  · trivial

theorem Awaits.ownSetManagers : (ownSetManagers params s).Keeps (Awaits queue) := by
  unfold Machine.ownSetManagers
  split
  · split
    · trivial
    · split
      · trivial
      · split
        · trivial
        · exact StepRules.keeps_doneWith h
  · trivial

theorem Awaits.ownFlush : (ownFlush s).Keeps (Awaits queue) :=
  ⟨s.flush_pending.trans h, fun _ => id⟩

theorem Awaits.takeCode (code : Byte) (r : Request) : Awaits queue (s.takeCode code r) := by
  unfold State.takeCode
  split
  · exact h.takeRequest _ r ⟨h, fun _ => id⟩
  · exact h.takeRequest _ r (StepRules.keeps_readClock h)
  · exact h.takeRequest _ r (h.ownSetClock _)
  · exact h.takeRequest _ r (h.ownAdjustClock _)
  · exact h.takeRequest _ r (StepRules.keeps_readEntry h _)
  · exact h.takeRequest _ r (h.ownWriteEntry _)
  · exact h.takeRequest _ r (StepRules.keeps_doneWith h)
  · exact h.takeRequest _ r (StepRules.keeps_doneWith h)
  · exact h.takeRequest (own := ownCommit r) _ r h
  · exact h.takeRequest _ r (h.ownSetProfile _)
  · exact h.takeRequest _ r (StepRules.keeps_readProfile h _)
  · exact h.takeRequest _ r (h.ownSetPacing _)
  · exact h.takeRequest _ r (h.ownHoldSegment _)
  · exact h.takeRequest _ r (h.ownResumeSegment _)
  · exact h.takeRequest _ r (h.ownPurge _)
  · exact h.takeRequest _ r ⟨h, fun _ => id⟩
  · exact h.takeRequest _ r (h.ownReadCounters _)
  · exact h.takeRequest _ r (h.ownSetNoticeAddress _)
  · exact h.takeRequest _ r h.ownFlush
  · exact h.takeRequest _ r (StepRules.keeps_doneWith h)
  · exact h.takeRequest _ r (h.ownSetManagers _)
  · exact h.takeRequest _ r trivial

theorem Awaits.takePayload (source : Addr) (seq : Byte) (payload : List Byte) :
    Awaits queue (s.takePayload source seq payload) := by
  unfold State.takePayload
  split
  · exact h.takeRequest _ _ trivial
  · exact h.takeCode _ _

end requests

@[simp] theorem State.takeCode_pending (code : Byte) (r : Request) :
    (s.takeCode code r).pending = s.pending :=
  Awaits.takeCode rfl code r

@[simp] theorem State.takePayload_pending (source : Addr) (seq : Byte) (payload : List Byte) :
    (s.takePayload source seq payload).pending = s.pending :=
  Awaits.takePayload rfl source seq payload

/-! ### The queue through the receive side of the trunk -/

@[simp] theorem State.completeFrame_pending (len : Byte) (body crc : List Byte) :
    (s.completeFrame len body crc).pending = s.pending := by
  unfold State.completeFrame
  split <;> simp

@[simp] theorem State.receiveByte_pending (b : Byte) : (s.receiveByte b).pending = s.pending := by
  unfold State.receiveByte
  split
  · split <;> rfl
  · split <;> rfl
  · split <;> rfl
  · rfl
  · exact s.completeFrame_pending ..

@[simp] theorem State.breakFrame_pending : s.breakFrame.pending = s.pending := by
  unfold State.breakFrame
  split <;> rfl

/-! ### Every command is answered -/

/-- A command is answered with a next state that has the same commands waiting. -/
def Answered (c : Instr) (s : State) : Prop :=
  ∃ t, exec c s = .next t ∧ t.pending = s.pending

variable {s} {c : Instr}

theorem answered_whileRunning {effect : State → State} (path : exec c = whileRunning effect)
    (keeps : ∀ s, (effect s).pending = s.pending) : Answered c s := by
  rw [Answered, path]
  cases hold : s.pins.hold with
  | none => exact ⟨_, whileRunning_of_no_hold effect hold, keeps s⟩
  | some h => exact ⟨s, whileRunning_of_hold effect (Option.isSome_of_mem hold), rfl⟩

theorem answered_request (named : (requestOf c).isSome) : Answered c s := by
  obtain ⟨⟨code, r, lengthOk, write, barred⟩, named⟩ := Option.isSome_iff_exists.1 named
  exact answered_whileRunning (exec_of_requestOf named) fun s => s.frameTaken.takeCode_pending code r

theorem answered_admission (u : CommandTelegram) : Answered (.admission u) s := by
  refine answered_whileRunning rfl fun s => ?_
  split
  · exact s.frameTaken.takeCommand_pending u
  · rfl

theorem exec_answered (c : Instr) (s : State) : Answered c s := by
  cases c with
  | admission u => exact answered_admission u
  | trunkFrameDiscarded frame =>
    exact answered_whileRunning rfl fun s => s.completeFrame_pending ..
  | gapTimeout => exact answered_whileRunning rfl State.breakFrame_pending
  | byteFramingError => exact answered_whileRunning rfl State.breakFrame_pending
  | byteReceived b => exact answered_whileRunning rfl fun s => s.receiveByte_pending b
  | unknownRequest source seq payload =>
    exact answered_whileRunning rfl fun s => s.frameTaken.takePayload_pending source seq payload
  | commitEnd => exact answered_whileRunning rfl State.endCommit_pending
  | secondEdge => exact answered_whileRunning rfl State.edge_pending
  | expiryCheck g => exact answered_whileRunning rfl fun s => (s.settle _).expire_pending g
  | examination g => exact answered_whileRunning rfl fun s => (s.settle _).examine_pending g
  | pacerGapEnd g => exact answered_whileRunning rfl fun s => s.endPacerGap_pending g
  | startWalk g => exact answered_whileRunning rfl fun s => (s.settle _).walk_pending g
  | conflictAbort g k sensed => exact answered_whileRunning rfl fun s => s.abort_pending g k sensed
  | transmissionEnd g => exact answered_whileRunning rfl fun s => s.endTransmission_pending g
  | quietGapEnd g => exact answered_whileRunning rfl fun s => s.endQuietGap_pending g
  | lineActivity g sensed =>
    exact answered_whileRunning rfl fun s => s.beginReception_pending g sensed
  | stuckLine record => exact answered_whileRunning rfl fun s => s.stuckLine_pending ..
  | receptionEnd g line => exact answered_whileRunning rfl fun s => s.endReception_pending g line
  | answerTimerExpiry g tag => exact answered_whileRunning rfl fun s => s.timeOut_pending g tag
  | reportFormation => exact answered_whileRunning rfl fun s => (s.settle _).formReport_pending
  | arbiterTake => exact answered_whileRunning rfl fun s => (s.settle _).arbitrate_pending
  | trunkTransmissionEnd straps =>
    exact answered_whileRunning rfl fun s => s.endTrunkTransmission_pending straps
  | supplyFall => exact ⟨_, rfl, s.fallSupply_pending⟩
  | supplyRise => exact ⟨_, rfl, s.riseSupply_pending⟩
  | powerOnHoldEnd straps => exact ⟨_, rfl, s.endPowerOnHold_pending straps⟩
  | rstNLow => exact ⟨_, rfl, s.lowerRstN_pending⟩
  | rstNHigh straps => exact ⟨_, rfl, s.raiseRstN_pending straps⟩
  | _ => exact answered_request rfl

end Sys2Proof.Machine

namespace Sys2Proof.Proofs

open Sys2Proof.Machine

/-- Settles O1: the queue has a front command or is empty. -/
theorem stepTakesFrontCommand : Obligations.StepTakesFrontCommand :=
  ⟨fun _ _ _ => step_of_cons rfl, fun _ => step_of_nil⟩

/-- Settles O2: every operation that a command is made of leaves the queue alone, and no command ends
otherwise than in a next state. -/
theorem everyCommandIsAnswered : Obligations.EveryCommandIsAnswered :=
  fun c s => exec_answered c s

end Sys2Proof.Proofs
end
